-- ==== Sys2Proof/Word.lean ====
section
/-! DEFINITION. The words of the VF2408's serial interfaces (00_scope.md, "Conventions"). -/

namespace Sys2Proof

/-- A word on a console port: 32 bits, sent most significant bit first (chapter 12). -/
abbrev Word := BitVec 32

/-- A character on the Load Link: 8 bits (R60, 12.6). -/
abbrev Byte := BitVec 8

/-- A point index, 0..23. Channel n belongs to point n (R1). -/
abbrev PointIdx := Fin 24

/-- A group index, 0..7 (R79). -/
abbrev GroupIdx := Fin 8

end Sys2Proof
end

