-- ==== Sys2Proof/Syntax.lean ====
section
/-! DEFINITION. The names of the spec's enumerations and the commands of the block: one constructor of
`Instr` for each row of spec/opcode_table.json, in the table's order. -/

namespace Sys2Proof

/-- The console ports (00_scope.md). -/
inductive Port where
  | a | b | l
  deriving DecidableEq, Repr

/-- The two desks that the preferred desk field can name (R79, R130). -/
inductive Desk where
  | a | b
  deriving DecidableEq, Repr

/-- A direction of travel. "None" is an absent `Option Dir`. -/
inductive Dir where
  | up | down
  deriving DecidableEq, Repr

/-- Encoder phases (R21). -/
inductive Phase where
  | a | b
  deriving DecidableEq, Repr

/-- Limit switches (R15). -/
inductive Switch where
  | upper | lower
  deriving DecidableEq, Repr

/-- Encoder modes (R22). -/
inductive EncoderMode where
  | off | x1 | x2 | x4
  deriving DecidableEq, Repr

/-- Channel states (R39). -/
inductive ChannelState where
  | off | settle | up | down
  deriving DecidableEq, Repr

/-- Load states (R59). -/
inductive LoadState where
  | unknown | valid | stale
  deriving DecidableEq, Repr

/-- The nine point fault codes (8.1). -/
inductive FaultCode where
  | stall | reversed | creep | positionRange | limitWiring | overload | underload | loadStale | sensor
  deriving DecidableEq, Repr

/-- Move states (R84). -/
inductive MoveState where
  | queued | starting | running | stopping | held
  deriving DecidableEq, Repr

/-- Group states (R79). -/
inductive GroupState where
  | idle | starting | running | stopping | held | tripped
  deriving DecidableEq, Repr

/-- Stop reasons (R79, R96). -/
inductive StopReason where
  | stop | permit | authority
  deriving DecidableEq, Repr

/-- Trip causes (R139). -/
inductive TripCause where
  | point | limit | skew | share | estop
  deriving DecidableEq, Repr

/-- End marks (R84). -/
inductive EndMark where
  | limit | softLimit
  deriving DecidableEq, Repr

/-- Move kinds (5.3). -/
inductive MoveKind where
  | groupBy | groupJog | pointTo | pointJog
  deriving DecidableEq, Repr

/-- Move outcomes (5.5). -/
inductive Outcome where
  | arrived | jogStopped | softLimit | cancelled | aborted | flushed | refusedLimit | limit
  deriving DecidableEq, Repr

/-- Causes of an AUTHORITY report (R137). -/
inductive AuthorityCause where
  | take | release | rights | restart
  deriving DecidableEq, Repr

/-- Rights levels (R126), each including what the levels before it allow. -/
inductive Level where
  | none | view | operate | setup
  deriving DecidableEq, Repr

/-- The twelve report kinds, in the order of the table of R177. -/
inductive ReportKind where
  | moveStarted | moveEnded | moveHeld | groupTripped | tripCleared | pointFault | limit | loadStatus
  | authority | estop | portSilent | portBack
  deriving DecidableEq, Repr

/-- The result codes, in the order of the table of 10.7. -/
inductive Result where
  | ok | frame | crc | unknown | badIndex | badValue | noRight | notHolder | outranked | busy | queueFull
  | tripped | estop | empty | noEncoder | notReferenced | nothing | settling | limit | faulted | persists
  | shortRead
  deriving DecidableEq, Repr

/-- The tables that READ_TABLE can name (R171). -/
inductive Table where
  | point | group | queue | rights | ports
  deriving DecidableEq, Repr

/-- The requests (10.6), which the request codes 0..19 of chapter 12 name. -/
inductive Request where
  | nop | readTable | pointSetup | groupSetup | portSetup | setRights | assign | setPosition | take | release
  | submitMove | go | stop | stopAll | cancel | clearFault | clearTrip | rehearsal | popReport | portRestart
  deriving DecidableEq, Repr

/-- The conditions of the Sequencer's permission test that a dropped energize request can name (R43). -/
inductive Denial where
  | notActive | permit | fault | switch | estop
  deriving DecidableEq, Repr

/-- What a port received in a frame after the header: whole words, and the bits of an unfinished word
(R164). A frame of fewer than 32 bits has no header and only stray bits. -/
structure FrameTail where
  words : List Word
  stray : Fin 32
  deriving DecidableEq, Repr

/-- The levels of the machine-side inputs at the moment RESET is released (R1, R21, R38, R150). Bit n belongs
to channel n. A set bit is a high level: a closed switch, a high phase, a closed loop. -/
structure ResetLevels where
  phaseA : BitVec 24
  phaseB : BitVec 24
  upperClosed : BitVec 24
  lowerClosed : BitVec 24
  loopClosed : Bool
  deriving DecidableEq, Repr

/-- The commands of the block: the rows of spec/opcode_table.json. -/
inductive Instr where
  | deviceReset (levels : ResetLevels)
  | resetAsserted
  | frameStart (port : Port)
  | headerComplete (port : Port) (header : Word)
  | badFrame (port : Port) (tail : FrameTail)
  | unknownRequest (port : Port) (tail : FrameTail)
  | nop (port : Port) (tail : FrameTail)
  | readTable (port : Port) (tail : FrameTail)
  | pointSetup (port : Port) (tail : FrameTail)
  | groupSetup (port : Port) (tail : FrameTail)
  | portSetup (port : Port) (tail : FrameTail)
  | setRights (port : Port) (tail : FrameTail)
  | assign (port : Port) (tail : FrameTail)
  | setPosition (port : Port) (tail : FrameTail)
  | take (port : Port) (tail : FrameTail)
  | release (port : Port) (tail : FrameTail)
  | submitMove (port : Port) (tail : FrameTail)
  | go (port : Port) (tail : FrameTail)
  | stop (port : Port) (tail : FrameTail)
  | stopAll (port : Port) (tail : FrameTail)
  | cancel (port : Port) (tail : FrameTail)
  | clearFault (port : Port) (tail : FrameTail)
  | clearTrip (port : Port) (tail : FrameTail)
  | rehearsal (port : Port) (tail : FrameTail)
  | popReport (port : Port) (tail : FrameTail)
  | portRestart (port : Port) (tail : FrameTail)
  | silenceExpiry (port : Port)
  | encoderEdge (point : PointIdx) (phase : Phase) (high : Bool)
  | startSlot (group : GroupIdx)
  | permitExpiry (group : GroupIdx)
  | pendingEnergizeDue (point : PointIdx)
  | minimumRunDue (point : PointIdx)
  | settleEnd (point : PointIdx)
  | stallExpiry (point : PointIdx)
  | limitInputChange (point : PointIdx) (switch : Switch) (closed : Bool)
  | switchEvent (point : PointIdx) (switch : Switch)
  | estopAsserted
  | estopLoopClosed
  | estopReleased
  | loadRecord (chars : List Byte)
  | loadFramingError
  | loadLinkGap
  | ageExpiry (point : PointIdx)
  | simulatedCount (point : PointIdx)
  deriving DecidableEq, Repr

end Sys2Proof
end

