-- ==== Sys2Proof/Config.lean ====
section
/-! DEFINITION. What an implementation of the VF2408 fixes and the spec leaves open. The spec has no
configuration beyond the records, so only a free value stands here. -/

namespace Sys2Proof

/-- FREE VALUE (log entry 5). When several conditions of R43's permission test fail together, the Sequencer
"names the condition that failed", and the spec does not say which of them it names. The index of the named
condition among those that failed is this constant's value, modulo their number. -/
opaque Config.deniedPick : List Denial → Nat

end Sys2Proof
end

