-- ==== Sys2Proof/Decode.lean ====
section
/-! DEFINITION. Decoding: `decodeTableWord` for the opcode table, and the layouts by which the Port Interface
reads the words of a frame (R184, 12.1 to 12.3). -/

namespace Sys2Proof

/-- The opcode table gives no row any bits, so no word spells a command (log entry 21). -/
def decodeTableWord (_nbits _w : Nat) : Option Instr := none

/-! ## Fields of a word -/

/-- Bits hi..lo of a word, as an unsigned number (chapter 12). -/
def bitsOf (w : Word) (hi lo : Nat) : Nat := (w.toNat >>> lo) % 2 ^ (hi + 1 - lo)

/-- Header bits 31..27 (12.2). -/
def headerCode (h : Word) : Nat := bitsOf h 31 27

/-- Header bits 26..22 (12.2). -/
def headerIndex (h : Word) : Nat := bitsOf h 26 22

/-- Header bits 21..16: the length in words (12.2, R166). -/
def headerLength (h : Word) : Nat := bitsOf h 21 16

/-- Header bits 15..0: the sub-field, whose meaning depends on the request (12.2, R166). -/
def headerSub (h : Word) : Nat := bitsOf h 15 0

/-- The request that a request code names; codes 20..31 name none (12.2). -/
def requestOfCode : Nat → Option Request
  | 0 => some .nop
  | 1 => some .readTable
  | 2 => some .pointSetup
  | 3 => some .groupSetup
  | 4 => some .portSetup
  | 5 => some .setRights
  | 6 => some .assign
  | 7 => some .setPosition
  | 8 => some .take
  | 9 => some .release
  | 10 => some .submitMove
  | 11 => some .go
  | 12 => some .stop
  | 13 => some .stopAll
  | 14 => some .cancel
  | 15 => some .clearFault
  | 16 => some .clearTrip
  | 17 => some .rehearsal
  | 18 => some .popReport
  | 19 => some .portRestart
  | _ => none

/-- The request a header names. -/
def headerRequest (h : Word) : Option Request := requestOfCode (headerCode h)

/-- The table a READ_TABLE names in bits 15..13 of its sub-field (12.2, 12.1). -/
def headerTable (h : Word) : Option Table :=
  match bitsOf h 15 13 with
  | 0 => some .point
  | 1 => some .group
  | 2 => some .queue
  | 3 => some .rights
  | 4 => some .ports
  | _ => none

/-- The first image word a READ_TABLE asks for: sub-field bits 7..0 (12.2). -/
def headerFirstWord (h : Word) : Nat := bitsOf h 7 0

/-- A point index, when the number names a point. -/
def pointOfNat (n : Nat) : Option PointIdx := if h : n < 24 then some ⟨n, h⟩ else none

/-- A group index, when the number names a group. -/
def groupOfNat (n : Nat) : Option GroupIdx := if h : n < 8 then some ⟨n, h⟩ else none

/-- Ports are encoded 1 = A, 2 = B, 3 = L (chapter 12). -/
def portOfCode : Nat → Option Port
  | 1 => some .a
  | 2 => some .b
  | 3 => some .l
  | _ => none

/-- The port a SET_RIGHTS names in sub-field bits 9..8 (12.2). -/
def headerPort (h : Word) : Option Port := portOfCode (bitsOf h 9 8)

/-- The level a SET_RIGHTS carries in sub-field bits 1..0 (12.1, 12.2). All four values name a level. -/
def headerLevel (h : Word) : Level :=
  match bitsOf h 1 0 with
  | 0 => .none
  | 1 => .view
  | 2 => .operate
  | _ => .setup

/-- The new group of an ASSIGN, sub-field bits 4..0 (12.2). -/
def headerNewGroup (h : Word) : Nat := bitsOf h 4 0

/-- The scope of a CANCEL, sub-field bit 0: set for ALL (12.2). -/
def headerScopeAll (h : Word) : Bool := bitsOf h 0 0 == 1

/-- The mode of a REHEARSAL, sub-field bits 1..0: 0 off, 1 on, anything else names neither (12.2). -/
def headerMode (h : Word) : Option Bool :=
  match bitsOf h 1 0 with
  | 0 => some false
  | 1 => some true
  | _ => none

/-! ## Write sets and payloads -/

/-- The value of payload word k + 1 when bit k of the write mask is set; otherwise the word is not read
(R184, 12.3). -/
def maskedWord (h : Word) (payload : List Word) (k : Nat) : Option Word :=
  if headerSub h / 2 ^ k % 2 = 1 then payload[k]? else none

/-- A numerical payload word, "read whole as a signed 32-bit value" (R184). -/
def maskedInt (h : Word) (payload : List Word) (k : Nat) : Option Int :=
  (maskedWord h payload k).map BitVec.toInt

/-- Encoder mode encoding (12.1): bits 1..0 of the word (12.3). -/
def encoderModeOfWord (w : Word) : EncoderMode :=
  match bitsOf w 1 0 with
  | 0 => .off
  | 1 => .x1
  | 2 => .x2
  | _ => .x4

/-- The write set of a POINT_SETUP (R2, 12.3): the fields it carries, with their values as sent. -/
structure PointWrites where
  encoderMode : Option EncoderMode
  softUpper : Option Int
  softLower : Option Int
  nominalSpeed : Option Int
  tGuard : Option Int
  tReverse : Option Int
  tMinrun : Option Int
  tSettle : Option Int
  tStall : Option Int
  overThreshold : Option Int
  underThreshold : Option Int
  deriving DecidableEq, Repr

/-- POINT_SETUP (12.3). -/
def decodePointWrites (h : Word) (payload : List Word) : PointWrites where
  encoderMode := (maskedWord h payload 0).map encoderModeOfWord
  softUpper := maskedInt h payload 1
  softLower := maskedInt h payload 2
  nominalSpeed := maskedInt h payload 3
  tGuard := maskedInt h payload 4
  tReverse := maskedInt h payload 5
  tMinrun := maskedInt h payload 6
  tSettle := maskedInt h payload 7
  tStall := maskedInt h payload 8
  overThreshold := maskedInt h payload 9
  underThreshold := maskedInt h payload 10

/-- The write set of a GROUP_SETUP (R81, 12.3). `preferred` is the word's value; only 1 and 2 name a desk. -/
structure GroupWrites where
  gateBand : Option Int
  tripBand : Option Int
  shareBand : Option Int
  stagger : Option Int
  window : Option Int
  preferred : Option Int
  localPriority : Option Bool
  deriving DecidableEq, Repr

/-- GROUP_SETUP (12.3). -/
def decodeGroupWrites (h : Word) (payload : List Word) : GroupWrites where
  gateBand := maskedInt h payload 0
  tripBand := maskedInt h payload 1
  shareBand := maskedInt h payload 2
  stagger := maskedInt h payload 3
  window := maskedInt h payload 4
  preferred := maskedInt h payload 5
  localPriority := (maskedWord h payload 6).map fun w => bitsOf w 0 0 == 1

/-- The desk that a preferred desk word names (12.3: "only 1 and 2 are accepted"). -/
def deskOfInt (v : Int) : Option Desk :=
  if v = 1 then some .a else if v = 2 then some .b else none

/-- The write set of a PORT_SETUP (R173, 12.3). `crc` is the word's value; only 0 and 1 name a setting. -/
structure PortWrites where
  crc : Option Int
  seed : Option (BitVec 16)
  attention : Option (BitVec 12)
  deriving DecidableEq, Repr

/-- PORT_SETUP (12.3). -/
def decodePortWrites (h : Word) (payload : List Word) : PortWrites where
  crc := maskedInt h payload 0
  seed := (maskedWord h payload 1).map fun w => BitVec.ofNat 16 (bitsOf w 15 0)
  attention := (maskedWord h payload 2).map fun w => BitVec.ofNat 12 (bitsOf w 11 0)

/-- The setting a CRC enable word names: 0 off, 1 on, anything else names neither (12.3). -/
def crcEnableOfInt (v : Int) : Option Bool :=
  if v = 0 then some false else if v = 1 then some true else none

/-- The parameters a SUBMIT_MOVE carries (12.3), before the owning rule judges them (R87). -/
structure MoveParams where
  kind : Option MoveKind
  dir : Option Dir
  point : Nat
  value : Int
  deriving DecidableEq, Repr

/-- Move kind encoding in three bits; 4..7 name no kind (12.1, 12.3). -/
def moveKindOfCode : Nat → Option MoveKind
  | 0 => some .groupBy
  | 1 => some .groupJog
  | 2 => some .pointTo
  | 3 => some .pointJog
  | _ => none

/-- Direction encoding: 1 up, 2 down (12.1). -/
def dirOfCode : Nat → Option Dir
  | 1 => some .up
  | 2 => some .down
  | _ => none

/-- SUBMIT_MOVE (12.3). -/
def decodeMoveParams (payload : List Word) : MoveParams :=
  let w1 := payload.getD 0 0
  let w2 := payload.getD 1 0
  { kind := moveKindOfCode (bitsOf w1 31 29)
    dir := dirOfCode (bitsOf w1 28 27)
    point := bitsOf w1 20 16
    value := w2.toInt }

/-- The tag of a SUBMIT_MOVE: the sub-field (12.2). -/
def headerTag (h : Word) : BitVec 16 := BitVec.ofNat 16 (headerSub h)

end Sys2Proof
end

