-- ==== Sys2Proof/Machine/State.lean ====
section
/-! DEFINITION. The state of the VF2408 as plain data, and its value right after device reset. Every moment is
a value of the 1 µs time base; a timer is its expiry moment, absent while it is stopped. -/

namespace Sys2Proof.Machine

/-! ## The point record (R1) -/

/-- The settings of a point, as they are active (R1, R4). Times are in milliseconds, speeds in counts/s,
thresholds in daN. -/
structure Settings where
  encoderMode : EncoderMode
  softUpper : Int
  softLower : Int
  nominalSpeed : Nat
  tGuard : Nat
  tReverse : Nat
  tMinrun : Nat
  tSettle : Nat
  tStall : Nat
  overThreshold : Nat
  underThreshold : Nat
  deriving DecidableEq, Repr

/-- A staged copy (R7): a partial copy of the staged-class fields, clamped. -/
structure Staged where
  softUpper : Option Int
  softLower : Option Int
  tGuard : Option Nat
  tReverse : Option Nat
  tMinrun : Option Nat
  tSettle : Option Nat
  tStall : Option Nat
  deriving DecidableEq, Repr

/-- The Encoder Capture's state (R38). -/
structure Capture where
  position : Int
  referenced : Bool
  lastCount : Option Dir
  wrongWay : Nat
  creep : Nat
  stallDue : Option Nat
  phaseA : Bool
  phaseB : Bool
  deriving DecidableEq, Repr

/-- The limit switches (R15): the stored states, the input levels, and the 3 ms qualification of each. -/
structure Switches where
  upperClosed : Bool
  lowerClosed : Bool
  upperInput : Bool
  lowerInput : Bool
  upperDue : Option Nat
  lowerDue : Option Nat
  deriving DecidableEq, Repr

/-- The Channel Sequencer's state (R39). -/
structure Channel where
  state : ChannelState
  lastDir : Option Dir
  lastOn : Nat
  lastOff : Nat
  pending : Option Dir
  deferredDue : Option Nat
  settleDue : Option Nat
  deriving DecidableEq, Repr

/-- The Load Unit's state of a point (R59). An absent ring is unprimed. -/
structure Load where
  ring : Option (Vector Nat 8)
  ringIndex : Fin 8
  filtered : Option Nat
  state : LoadState
  ageDue : Option Nat
  sensor : Bool
  overExcursion : Bool
  underExcursion : Bool
  deriving DecidableEq, Repr

/-- The shadow record of a rehearsing member (R155). -/
structure Shadow where
  position : Int
  referenced : Bool
  simDue : Option Nat
  deriving DecidableEq, Repr

/-- The point record (R1), with the shadow record beside it while its group rehearses (log entry 22). -/
structure Point where
  group : GroupIdx
  settings : Settings
  staged : Option Staged
  coast : Nat
  capture : Capture
  switches : Switches
  channel : Channel
  load : Load
  latched : Option FaultCode
  further : Bool
  shadow : Option Shadow
  deriving DecidableEq, Repr

/-! ## The group record (R79) and its moves (R84) -/

/-- An entry of a run list (R84, R104). `started` says that the member counts as started since the move last
entered STARTING (R94, R95; log entry 14). -/
structure RunEntry where
  point : PointIdx
  start : Int
  target : Option Int
  progress : Int
  gated : Bool
  released : Bool
  settled : Bool
  started : Bool
  releasePos : Option Int
  arrivalError : Option Int
  deriving DecidableEq, Repr

/-- A move's kind with its parameters (R84). -/
inductive MoveBody where
  | groupBy (delta : Int)
  | groupJog (dir : Dir)
  | pointTo (point : PointIdx) (target : Int)
  | pointJog (point : PointIdx) (dir : Dir)
  deriving DecidableEq, Repr

/-- A move record (R84). `toDirection` is the move direction of a POINT_TO, set at its first start (R91). The
run list is empty before the first start. -/
structure Move where
  body : MoveBody
  tag : BitVec 16
  submitter : Port
  state : MoveState
  toDirection : Option Dir
  endMark : Option EndMark
  runList : List RunEntry
  deriving DecidableEq, Repr

/-- A trip cause with its point (R139). -/
structure Trip where
  cause : TripCause
  point : Option PointIdx
  deriving DecidableEq, Repr

/-- The group record (R79). The state is computed from the head move and the trip cause (log entry 8), the
member list from the points' group fields (R80). An empty schedule is an absent one. -/
structure Group where
  queue : List Move
  schedule : List (PointIdx × Nat)
  permit : Option Nat
  stopReason : Option StopReason
  gateBand : Nat
  tripBand : Nat
  shareBand : Nat
  stagger : Nat
  window : Nat
  holder : Option Port
  preferred : Desk
  localPriority : Bool
  rehearsal : Bool
  trip : Option Trip
  baseline : Option (List (PointIdx × Nat))
  deriving DecidableEq, Repr

/-! ## Reports (R176, R177) -/

/-- What a report says, by kind (R177). -/
inductive ReportBody where
  | moveStarted (resume : Bool) (tag : BitVec 16) (kind : MoveKind) (point : Option PointIdx)
  | moveEnded (outcome : Outcome) (tag : BitVec 16) (kind : MoveKind) (point : Option PointIdx)
      (pairs : List (PointIdx × Int))
  | moveHeld (reason : Option StopReason) (tag : BitVec 16) (kind : MoveKind) (point : Option PointIdx)
  | groupTripped (cause : TripCause) (point : Option PointIdx) (head : Option (BitVec 16 × MoveKind))
  | tripCleared
  | pointFault (code : FaultCode) (point : PointIdx)
  | limit (switch : Switch) (closed : Bool) (point : PointIdx)
  | loadStatus (state : LoadState) (filtered : Nat) (point : PointIdx)
  | authority (cause : AuthorityCause) (newHolder : Option Port) (previous : Option Port)
      (groupState : GroupState)
  | estop (asserted : Bool)
  | portSilent (port : Port)
  | portBack (port : Port)
  deriving DecidableEq, Repr

/-- A report record as it stands in one port's queue (R176). -/
structure Report where
  time : BitVec 32
  group : Option GroupIdx
  rehearsal : Bool
  lostBefore : Bool
  additional : Bool
  body : ReportBody
  deriving DecidableEq, Repr

/-! ## Ports (chapters 10 and 11) -/

/-- A frame in progress: what its start captured, the words received, and the read snapshot once the header
is complete (R165, R171, R180). `reply` is empty for a request that is no read. -/
structure Frame where
  status : Word
  crcOn : Bool
  seed : BitVec 16
  words : List Word
  reply : List Word
  popCount : Nat
  popEmpty : Bool
  deriving DecidableEq, Repr

/-- One Port Interface and its report queue. Bit k − 1 of the attention set stands for report kind k (12.3). -/
structure PortState where
  crcOn : Bool
  seed : BitVec 16
  attention : BitVec 12
  lastResult : Result
  silent : Bool
  silenceDue : Option Nat
  frame : Option Frame
  queue : List Report
  lost : Bool
  deriving DecidableEq, Repr

/-- One value for each of ports A, B and L. -/
structure PerPort (α : Type) where
  a : α
  b : α
  l : α
  deriving DecidableEq, Repr

/-! ## The machine -/

/-- The whole state of the part, and the queue of commands waiting, first in first out. -/
structure State where
  points : Vector Point 24
  groups : Vector Group 8
  rights : PerPort (Vector Level 8)
  ports : PerPort PortState
  estop : Bool
  loopClosed : Bool
  estopDue : Option Nat
  linkChars : List Byte
  linkGapDue : Option Nat
  time : Nat
  resetAsserted : Bool
  pending : List Instr
  deriving DecidableEq, Repr

/-- The reasons a step can stop with a fault. The spec gives every command an effect that leaves the part
running (its faults are records of State), so nothing raises one. It is a closed type without constructors,
which is safe: no claim about a faulting step can be made. -/
inductive Fault where
  deriving DecidableEq, Repr

/-- The reasons a step can be refused. -/
inductive Refusal where
  /-- Raised by an arm of `exec` for a command that has no meaning yet, with its mnemonic. No arm raises it.
  Safe. -/
  | notModelled (mnemonic : String)
  deriving DecidableEq, Repr

/-! ## Device reset (R1, R38, R58, R78, R103, R138, R154, R175, R183) -/

/-- The settings a point has after device reset (R1). -/
def Settings.reset : Settings where
  encoderMode := .x4
  softUpper := 2000000
  softLower := -2000000
  nominalSpeed := 667
  tGuard := 100
  tReverse := 300
  tMinrun := 150
  tSettle := 250
  tStall := 400
  overThreshold := 1200
  underThreshold := 0

/-- The record of point i after a device reset at which the inputs had the given levels (R1, R38, R58, R78). -/
def Point.reset (levels : ResetLevels) (i : PointIdx) : Point where
  group := 0
  settings := .reset
  staged := none
  coast := 20
  capture :=
    { position := 0, referenced := false, lastCount := none, wrongWay := 0, creep := 0, stallDue := none
      phaseA := levels.phaseA.getLsbD i, phaseB := levels.phaseB.getLsbD i }
  switches :=
    { upperClosed := levels.upperClosed.getLsbD i, lowerClosed := levels.lowerClosed.getLsbD i
      upperInput := levels.upperClosed.getLsbD i, lowerInput := levels.lowerClosed.getLsbD i
      upperDue := none, lowerDue := none }
  channel :=
    { state := .off, lastDir := none, lastOn := 0, lastOff := 0, pending := none, deferredDue := none
      settleDue := none }
  load :=
    { ring := none, ringIndex := 0, filtered := none, state := .unknown, ageDue := none, sensor := false
      overExcursion := false, underExcursion := false }
  latched := none
  further := false
  shadow := none

/-- A group record after device reset (R79, R103, R138). -/
def Group.reset : Group where
  queue := []
  schedule := []
  permit := none
  stopReason := none
  gateBand := 40
  tripBand := 300
  shareBand := 64
  stagger := 20
  window := 200
  holder := none
  preferred := .a
  localPriority := false
  rehearsal := false
  trip := none
  baseline := none

/-- A port after device reset (R172, R175, R183): the silence timer runs, 500 ms from the reset. -/
def PortState.reset : PortState where
  crcOn := false
  seed := 0xFFFF
  attention := 0xFFF
  lastResult := .ok
  silent := false
  silenceDue := some 500000
  frame := none
  queue := []
  lost := false

/-- The 24 points in ascending order. -/
def allPoints : List PointIdx :=
  [0, 1, 2, 3, 4, 5, 6, 7, 8, 9, 10, 11, 12, 13, 14, 15, 16, 17, 18, 19, 20, 21, 22, 23]

/-- The 8 groups in ascending order. -/
def allGroups : List GroupIdx := [0, 1, 2, 3, 4, 5, 6, 7]

/-- Every record at its reset value, with the time base at 0, before any fault that the reset itself finds. -/
def State.atReset (levels : ResetLevels) : State where
  points :=
    ⟨⟨allPoints.map (Point.reset levels)⟩, by simp [allPoints]⟩
  groups := Vector.replicate 8 .reset
  rights :=
    { a := Vector.replicate 8 .setup, b := Vector.replicate 8 .setup, l := Vector.replicate 8 .operate }
  ports := { a := .reset, b := .reset, l := .reset }
  estop := !levels.loopClosed
  loopClosed := levels.loopClosed
  estopDue := none
  linkChars := []
  linkGapDue := none
  time := 0
  resetAsserted := false
  pending := []

/-- DESIGN CHOICE (log entry 4): the input levels of `State.reset`: phases low, switches closed, loop closed. -/
def quietLevels : ResetLevels where
  phaseA := 0
  phaseB := 0
  upperClosed := 0xFFFFFF
  lowerClosed := 0xFFFFFF
  loopClosed := true

/-- The machine right after device reset, with the levels of log entry 4 on its inputs. -/
def State.reset : State := State.atReset quietLevels

end Sys2Proof.Machine
end

