-- ==== Sys2Proof/Machine/Operands.lean ====
section
/-! DEFINITION. Reading and writing the records, the ranges that clamp written values, and the fixed times. -/

namespace Sys2Proof

/-! ## Names of the spec's states and directions -/

/-- The channel state that drives in a direction (R44). -/
def Dir.channelState : Dir → ChannelState
  | .up => .up
  | .down => .down

/-- The direction a channel is driven in: none in SETTLE and OFF (2.3). -/
def ChannelState.dir : ChannelState → Option Dir
  | .up => some .up
  | .down => some .down
  | .off => none
  | .settle => none

/-- The channel is UP or DOWN. -/
def ChannelState.energized (c : ChannelState) : Bool := c.dir.isSome

/-- The sign of a direction: +1 up, −1 down (R107). -/
def Dir.sign : Dir → Int
  | .up => 1
  | .down => -1

/-- The kind moves a whole group. -/
def MoveKind.ofGroup : MoveKind → Bool
  | .groupBy | .groupJog => true
  | .pointTo | .pointJog => false

/-- The kind is a jog. -/
def MoveKind.jog : MoveKind → Bool
  | .groupJog | .pointJog => true
  | .groupBy | .pointTo => false

/-- The move is STARTING or RUNNING. -/
def MoveState.driving : MoveState → Bool
  | .starting | .running => true
  | .queued | .stopping | .held => false

/-- The move is STARTING, RUNNING or STOPPING: an active move (R25, R141). -/
def MoveState.active : MoveState → Bool
  | .starting | .running | .stopping => true
  | .queued | .held => false

/-- The group state that follows a head move's state (R79). -/
def MoveState.ofHead : MoveState → GroupState
  | .queued => .idle
  | .starting => .starting
  | .running => .running
  | .stopping => .stopping
  | .held => .held

/-- A group is moving while it is STARTING, RUNNING or STOPPING (R79). -/
def GroupState.moving : GroupState → Bool
  | .starting | .running | .stopping => true
  | .idle | .held | .tripped => false

end Sys2Proof

namespace Sys2Proof.Machine

/-! ## Access to the records: every read and write of a record goes through these -/

/-- The record of point i. -/
def State.point (s : State) (i : PointIdx) : Point := s.points[i]

/-- The state with point i's record replaced. -/
def State.setPoint (s : State) (i : PointIdx) (p : Point) : State := { s with points := s.points.set i p }

/-- The state with point i's record changed. -/
def State.modPoint (s : State) (i : PointIdx) (f : Point → Point) : State := s.setPoint i (f (s.point i))

/-- The record of group g. -/
def State.group (s : State) (g : GroupIdx) : Group := s.groups[g]

/-- The state with group g's record replaced. -/
def State.setGroup (s : State) (g : GroupIdx) (r : Group) : State := { s with groups := s.groups.set g r }

/-- The state with group g's record changed. -/
def State.modGroup (s : State) (g : GroupIdx) (f : Group → Group) : State := s.setGroup g (f (s.group g))

/-- The value for one port. -/
def PerPort.get {α : Type} (x : PerPort α) : Port → α
  | .a => x.a
  | .b => x.b
  | .l => x.l

/-- The values with one port's replaced. -/
def PerPort.set {α : Type} (x : PerPort α) (p : Port) (v : α) : PerPort α :=
  match p with
  | .a => { x with a := v }
  | .b => { x with b := v }
  | .l => { x with l := v }

/-- The record of port p. -/
def State.port (s : State) (p : Port) : PortState := s.ports.get p

/-- The state with port p's record changed. -/
def State.modPort (s : State) (p : Port) (f : PortState → PortState) : State :=
  { s with ports := s.ports.set p (f (s.port p)) }

/-- The rights level of port p on group g (R126). -/
def State.level (s : State) (p : Port) (g : GroupIdx) : Level := (s.rights.get p)[g]

/-- The state with the rights entry of port p on group g replaced (R127). -/
def State.setLevel (s : State) (p : Port) (g : GroupIdx) (v : Level) : State :=
  { s with rights := s.rights.set p ((s.rights.get p).set g v) }

/-- The group that point i belongs to at this moment. -/
def State.groupOf (s : State) (i : PointIdx) : Group := s.group (s.point i).group

/-! ## Fixed times, in µs -/

/-- Milliseconds on the 1 µs time base. -/
def msToUs (n : Nat) : Nat := 1000 * n

/-- The silence time of a port: 500 ms (R172). -/
def silenceTime : Nat := msToUs 500

/-- The load age time: 250 ms (R67). -/
def ageTime : Nat := msToUs 250

/-- The limit-switch qualification time: 3 ms (R15). -/
def switchTime : Nat := msToUs 3

/-- The ESTOP release qualification time: 50 ms (R150). -/
def estopTime : Nat := msToUs 50

/-- The Load Link gap: 500 µs (R60). -/
def linkGapTime : Nat := 500

/-- A timer is due: it runs and the time base has reached its expiry. -/
def State.isDue (s : State) (due : Option Nat) : Bool := due.any (· ≤ s.time)

/-! ## Ranges -/

/-- The bound of every position: ±2,000,000 counts (R24). -/
def positionMax : Int := 2000000

/-- Clamping: the bound replaces a value beyond it (R3). -/
def clampInt (lo hi v : Int) : Int := if v < lo then lo else if hi < v then hi else v

/-- Clamping into a range of natural numbers. -/
def clampNat (lo hi : Nat) (v : Int) : Nat := (clampInt lo hi v).toNat

/-- A position clamped into its range (R3, R37, R161). -/
def clampPosition (v : Int) : Int := clampInt (-positionMax) positionMax v

/-- The position lies within its range (R24). -/
def inPositionRange (v : Int) : Bool := -positionMax ≤ v && v ≤ positionMax

/-- Ranges of the point settings (R3). -/
def clampSpeed (v : Int) : Nat := clampNat 50 2000 v
def clampGuard (v : Int) : Nat := clampNat 20 1000 v
def clampReverse (v : Int) : Nat := clampNat 100 2000 v
def clampMinrun (v : Int) : Nat := clampNat 50 2000 v
def clampSettle (v : Int) : Nat := clampNat 50 2000 v
def clampStall (v : Int) : Nat := clampNat 100 5000 v
def clampOver (v : Int) : Nat := clampNat 1 32767 v
def clampUnder (v : Int) : Nat := clampNat 0 32767 v

/-- Ranges of the group settings (R79, R81). -/
def clampGateBand (v : Int) : Nat := clampNat 5 2000 v
def clampTripBand (v : Int) : Nat := clampNat 10 5000 v
def clampShareBand (v : Int) : Nat := clampNat 0 512 v
def clampStagger (v : Int) : Nat := clampNat 0 100 v
def clampWindow (v : Int) : Nat := clampNat 50 1000 v

/-- R5: t_reverse is never below t_guard among the active times. -/
def Settings.raiseReverse (c : Settings) : Settings :=
  if c.tReverse < c.tGuard then { c with tReverse := c.tGuard } else c

/-- R81: the trip band is never below twice the gate band. -/
def Group.raiseTripBand (g : Group) : Group :=
  if g.tripBand < 2 * g.gateBand then { g with tripBand := 2 * g.gateBand } else g

/-- R8: each field present in the staged copy replaces the active value, and then R5 applies. -/
def Settings.applyStaged (c : Settings) (k : Staged) : Settings :=
  { c with
    softUpper := k.softUpper.getD c.softUpper
    softLower := k.softLower.getD c.softLower
    tGuard := k.tGuard.getD c.tGuard
    tReverse := k.tReverse.getD c.tReverse
    tMinrun := k.tMinrun.getD c.tMinrun
    tSettle := k.tSettle.getD c.tSettle
    tStall := k.tStall.getD c.tStall }.raiseReverse

/-- A staged copy that holds no field. -/
def Staged.isEmpty (k : Staged) : Bool :=
  k.softUpper.isNone && k.softLower.isNone && k.tGuard.isNone && k.tReverse.isNone && k.tMinrun.isNone &&
    k.tSettle.isNone && k.tStall.isNone

/-- The staged-class fields of a write set, clamped (R3, R4, R7). -/
def stagedOfWrites (w : PointWrites) : Staged where
  softUpper := w.softUpper.map clampPosition
  softLower := w.softLower.map clampPosition
  tGuard := w.tGuard.map clampGuard
  tReverse := w.tReverse.map clampReverse
  tMinrun := w.tMinrun.map clampMinrun
  tSettle := w.tSettle.map clampSettle
  tStall := w.tStall.map clampStall

/-! ## Directions, switches and phases -/

/-- The limit switch in a direction: the upper switch for up, the lower switch for down (R19). -/
def Switches.closedToward (w : Switches) : Dir → Bool
  | .up => w.upperClosed
  | .down => w.lowerClosed

/-- The stored state of a switch (R15). -/
def Switches.closed (w : Switches) : Switch → Bool
  | .upper => w.upperClosed
  | .lower => w.lowerClosed

/-- The level of a switch input (R15). -/
def Switches.input (w : Switches) : Switch → Bool
  | .upper => w.upperInput
  | .lower => w.lowerInput

/-- The end of a switch's 3 ms qualification (R15). -/
def Switches.due (w : Switches) : Switch → Option Nat
  | .upper => w.upperDue
  | .lower => w.lowerDue

/-- The stored level of a phase (R21). -/
def Capture.level (c : Capture) : Phase → Bool
  | .a => c.phaseA
  | .b => c.phaseB

/-- The capture with a phase's stored level replaced (R21). -/
def Capture.setLevel (c : Capture) (ph : Phase) (high : Bool) : Capture :=
  match ph with
  | .a => { c with phaseA := high }
  | .b => { c with phaseB := high }

/-! ## Moves and groups -/

/-- The kind of a move (R84). -/
def MoveBody.kind : MoveBody → MoveKind
  | .groupBy _ => .groupBy
  | .groupJog _ => .groupJog
  | .pointTo _ _ => .pointTo
  | .pointJog _ _ => .pointJog

/-- The point of a point kind (R84). -/
def MoveBody.point : MoveBody → Option PointIdx
  | .groupBy _ | .groupJog _ => none
  | .pointTo p _ | .pointJog p _ => some p

/-- The move direction (R84): the sign of the delta, the written direction of a jog, and for a POINT_TO the
direction its first start set. -/
def Move.direction (m : Move) : Option Dir :=
  match m.body with
  | .groupBy d => if 0 < d then some .up else some .down
  | .groupJog d => some d
  | .pointJog _ d => some d
  | .pointTo _ _ => m.toDirection

/-- The group state (R79): TRIPPED after a trip and until CLEAR_TRIP; otherwise it follows the head move. -/
def Group.state (g : Group) : GroupState :=
  if g.trip.isSome then .tripped else
    match g.queue with
    | [] => .idle
    | m :: _ => m.state.ofHead

/-- The head move (R84). -/
def Group.head (g : Group) : Option Move := g.queue.head?

/-- The run list of the head move; empty when there is none. -/
def Group.runList (g : Group) : List RunEntry :=
  match g.queue with
  | [] => []
  | m :: _ => m.runList

/-- The head move is in one of the states that satisfy a test. -/
def Group.headIs (g : Group) (test : MoveState → Bool) : Bool :=
  match g.queue with
  | [] => false
  | m :: _ => test m.state

/-- The entry of a point in the head move's run list. -/
def Group.entry (g : Group) (i : PointIdx) : Option RunEntry := g.runList.find? (·.point == i)

/-- The point is in the run list of the head move. -/
def Group.inRunList (g : Group) (i : PointIdx) : Bool := g.runList.any (·.point == i)

/-- The group with its head move changed. -/
def Group.modHead (g : Group) (f : Move → Move) : Group :=
  match g.queue with
  | [] => g
  | m :: rest => { g with queue := f m :: rest }

/-- The move with point i's run-list entry changed. -/
def Move.modEntry (m : Move) (i : PointIdx) (f : RunEntry → RunEntry) : Move :=
  { m with runList := m.runList.map fun e => if e.point = i then f e else e }

/-- The state with point i's entry in the run list of group g's head move changed. -/
def State.modEntry (s : State) (g : GroupIdx) (i : PointIdx) (f : RunEntry → RunEntry) : State :=
  s.modGroup g fun r => r.modHead fun m => m.modEntry i f

/-- The members of a group, in ascending order (R80). -/
def State.members (s : State) (g : GroupIdx) : List PointIdx := allPoints.filter fun i => (s.point i).group == g

/-- The points a move involves: every member of its group, or the named point (R86). -/
def State.involved (s : State) (g : GroupIdx) (b : MoveBody) : List PointIdx :=
  match b.point with
  | some p => [p]
  | none => s.members g

/-! ## Rehearsal: the shadow stands in for the real position and flag (R13, R155) -/

/-- The point's group is in rehearsal. -/
def State.rehearsing (s : State) (i : PointIdx) : Bool := (s.groupOf i).rehearsal

/-- The shadow record that stands for point i, when its group rehearses. -/
def State.shadowOf (s : State) (i : PointIdx) : Option Shadow :=
  if s.rehearsing i then (s.point i).shadow else none

/-- The position that moves and soft limits use: the shadow position in a rehearsing group (R13, R124). -/
def State.positionOf (s : State) (i : PointIdx) : Int :=
  match s.shadowOf i with
  | some sh => sh.position
  | none => (s.point i).capture.position

/-- The referenced flag that moves and soft limits use: the shadow flag in a rehearsing group (R13). -/
def State.referencedOf (s : State) (i : PointIdx) : Bool :=
  match s.shadowOf i with
  | some sh => sh.referenced
  | none => (s.point i).capture.referenced

end Sys2Proof.Machine
end

