-- ==== Sys2Proof/Machine/Flags.lean ====
section
/-! DEFINITION. The arithmetic and the conditions that the rules test: rounding, CRC, encoder steps, waits, the
permission test, progress, shares, rank, and the outputs computed from the state. -/

namespace Sys2Proof.Machine

/-! ## Rounding and the CRC -/

/-- Convergent rounding of n / d (00_scope.md "Rounding", R66, R74, R122). -/
def roundDiv (n d : Nat) : Nat :=
  let q := n / d
  let r := n % d
  if d < 2 * r then q + 1 else if 2 * r < d then q else if q % 2 = 0 then q else q + 1

/-- One bit into the CRC register (R168). -/
def crcBit (reg : BitVec 16) (bit : Bool) : BitVec 16 :=
  if xor reg.msb bit then (reg <<< 1) ^^^ 0x1021#16 else reg <<< 1

/-- Bits n − 1 down to 0 of a word into the CRC register (R168: from the most significant bit). -/
def crcBits : Nat → Word → BitVec 16 → BitVec 16
  | 0, _, reg => reg
  | n + 1, w, reg => crcBits n w (crcBit reg (w.getLsbD n))

/-- The CRC of a list of words from a seed (R168). -/
def crcOf (seed : BitVec 16) (words : List Word) : BitVec 16 := words.foldl (fun reg w => crcBits 32 w reg) seed

/-! ## Encoder edges (R21, R22) -/

/-- The step that an edge makes: `high` is the phase's new level, `other` the level of the other phase (R21). -/
def edgeStep (ph : Phase) (high other : Bool) : Dir :=
  match ph with
  | .a => if high != other then .up else .down
  | .b => if high == other then .up else .down

/-- The edge's step becomes a count in this mode (R22). -/
def stepCounts (mode : EncoderMode) (ph : Phase) (high : Bool) : Bool :=
  match mode with
  | .x4 => true
  | .x2 => ph == .a
  | .x1 => ph == .a && high
  | .off => false

/-- The interval of simulated counts in µs (R11, R159). -/
def simInterval (speed : Nat) : Nat := 1000000 / speed

/-! ## Soft limits (R13) -/

/-- The position is inside the active soft limits, the limits included (R13). -/
def Settings.inside (c : Settings) (p : Int) : Bool := c.softLower ≤ p && p ≤ c.softUpper

/-- The soft-limit test of R13, which an unreferenced point passes. -/
def State.passesSoft (s : State) (i : PointIdx) (p : Int) : Bool :=
  !s.referencedOf i || (s.point i).settings.inside p

/-! ## The Sequencer's waits and permission test (R42, R43) -/

/-- The required wait for an energize request in direction d, in µs (R42). -/
def Point.requiredWait (p : Point) (d : Dir) : Nat :=
  msToUs (match p.channel.lastDir with
    | some last => if last = d then p.settings.tGuard else p.settings.tReverse
    | none => p.settings.tGuard)

/-- The moment at which the required wait has elapsed (R42, R46). -/
def Point.energizeDue (p : Point) (d : Dir) : Nat := p.channel.lastOff + p.requiredWait d

/-- The required wait has elapsed (R42). -/
def State.waitElapsed (s : State) (i : PointIdx) (d : Dir) : Bool := (s.point i).energizeDue d ≤ s.time

/-- The permit deadline is present and the time base has not passed it (R43; at the deadline itself it has not,
log entry 12). -/
def State.permitLive (s : State) (g : GroupIdx) : Bool := (s.group g).permit.any (s.time ≤ ·)

/-- The conditions of R43, apart from the first, that fail for a request in direction d. -/
def State.failing (s : State) (i : PointIdx) (d : Dir) : List Denial :=
  let p := s.point i
  (if s.permitLive p.group then [] else [.permit]) ++ (if p.latched.isNone then [] else [.fault]) ++
    (if p.switches.closedToward d then [] else [.switch]) ++ (if s.estop then [.estop] else [])

/-- The permission test of R43: absent when the request is permitted, otherwise the condition that is named.
A point that is in no STARTING or RUNNING run list is denied for that; of several other failing conditions the
free value picks the one named (log entry 5). -/
def State.denial (s : State) (i : PointIdx) (d : Dir) : Option Denial :=
  let g := s.groupOf i
  if g.inRunList i && g.headIs MoveState.driving then
    match s.failing i d with
    | [] => none
    | [c] => some c
    | c :: rest => some ((c :: rest).getD (Config.deniedPick (c :: rest) % (c :: rest).length) c)
  else some .notActive

/-! ## Progress (R107) -/

/-- A member's progress at a position: position less start position, counted in the move direction (R107). -/
def progressAt (dir : Dir) (start position : Int) : Int := dir.sign * (position - start)

/-- The smallest progress of a run list (R107). -/
def minProgress : List RunEntry → Int
  | [] => 0
  | e :: rest => rest.foldl (fun m x => min m x.progress) e.progress

/-- The largest progress of a run list (R107). -/
def maxProgress : List RunEntry → Int
  | [] => 0
  | e :: rest => rest.foldl (fun m x => max m x.progress) e.progress

/-- The spread of a run list (R107). -/
def spread (l : List RunEntry) : Int := maxProgress l - minProgress l

/-- The move is synchronised: a group kind with two or more members (R105). -/
def Move.synchronised (m : Move) : Bool := m.body.kind.ofGroup && 2 ≤ m.runList.length

/-- The remaining distance to a target, counted in the move direction (R112). -/
def remaining (dir : Dir) (target position : Int) : Int := dir.sign * (target - position)

/-- The rejoin band: floor(g / 2) for the gate band g (6.6). -/
def rejoinBand (g : Group) : Int := (g.gateBand / 2 : Nat)

/-! ## Load (R65, R66, R70 to R74) -/

/-- The sum of a ring's eight slots (R66). -/
def ringSum (r : Vector Nat 8) : Nat := r[0] + r[1] + r[2] + r[3] + r[4] + r[5] + r[6] + r[7]

/-- The filtered load of a ring (R66). -/
def filterRing (r : Vector Nat 8) : Nat := roundDiv (ringSum r) 8

/-- The ring after a sample (R65): an unprimed ring is filled with it. -/
def pushSample (ring : Option (Vector Nat 8)) (idx : Fin 8) (v : Nat) : Vector Nat 8 :=
  match ring with
  | none => Vector.replicate 8 v
  | some r => r.set idx v

/-- The ring index after a sample (R65). -/
def nextRingIndex (ring : Option (Vector Nat 8)) (idx : Fin 8) : Fin 8 :=
  match ring with
  | none => 1
  | some _ => idx + 1

/-- The overload condition (R70). -/
def Point.overloaded (p : Point) : Bool := p.load.filtered.any (p.settings.overThreshold ≤ ·)

/-- The underload condition (R71). -/
def State.underloaded (s : State) (i : PointIdx) : Bool :=
  let p := s.point i
  p.settings.underThreshold != 0 && p.channel.state != .off && !s.rehearsing i &&
    p.load.filtered.any (· < p.settings.underThreshold)

/-- A member's filtered load, 0 while absent. -/
def State.filteredOf (s : State) (i : PointIdx) : Nat := (s.point i).load.filtered.getD 0

/-- The total of the filtered loads of a list of members (R73). -/
def State.totalLoad (s : State) (l : List PointIdx) : Nat := (l.map s.filteredOf).sum

/-- The shares of the head move of group g, absent when they are undefined (R73, R74). -/
def State.shares (s : State) (g : GroupIdx) : Option (List (PointIdx × Nat)) :=
  match (s.group g).queue with
  | [] => none
  | m :: _ =>
    let pts := m.runList.map (·.point)
    let total := s.totalLoad pts
    if m.synchronised && pts.all (fun i => (s.point i).load.state == .valid) && 0 < total then
      some (pts.map fun i => (i, roundDiv (s.filteredOf i * 1024) total))
    else none

/-- The difference of two numbers without sign (R76). -/
def distance (a b : Nat) : Nat := if a ≤ b then b - a else a - b

/-- The deviations of the present shares from the baseline, member by member (R76). -/
def deviations (present baseline : List (PointIdx × Nat)) : List (PointIdx × Nat) :=
  present.map fun x => (x.1, distance x.2 ((baseline.lookup x.1).getD 0))

/-- The member with the largest deviation, the lowest point index when several share it (R76); the list is in
ascending point order. -/
def largestDeviation : List (PointIdx × Nat) → Option (PointIdx × Nat)
  | [] => none
  | x :: rest =>
    match largestDeviation rest with
    | none => some x
    | some y => if x.2 < y.2 then some y else some x

/-! ## Rights and rank (R126, R130) -/

/-- The order of the levels (R126). -/
def levelNumber : Level → Nat
  | .none => 0
  | .view => 1
  | .operate => 2
  | .setup => 3

/-- The port has at least this level on the group (R126). -/
def State.allowed (s : State) (p : Port) (g : GroupIdx) (need : Level) : Bool :=
  levelNumber need ≤ levelNumber (s.level p g)

/-- The port is a desk's. -/
def deskPort : Desk → Port
  | .a => .a
  | .b => .b

/-- The other desk. -/
def otherDesk : Desk → Desk
  | .a => .b
  | .b => .a

/-- The rank of a port on a group, 0 first (R130). -/
def Group.rank (g : Group) (p : Port) : Nat :=
  match p with
  | .l => if g.localPriority then 0 else 2
  | p => (if p = deskPort g.preferred then 0 else 1) + (if g.localPriority then 1 else 0)

/-- One port outranks another on the group (R130). -/
def Group.outranks (g : Group) (p q : Port) : Bool := g.rank p < g.rank q

/-! ## Outputs (R40, R58, R182) and status indicators (R165) -/

/-- The UP coil output of channel i (R40, R58). -/
def State.upOutput (s : State) (i : PointIdx) : Bool :=
  (s.point i).channel.state == .up && !s.rehearsing i && !s.estop && !s.resetAsserted

/-- The DOWN coil output of channel i (R40, R58). -/
def State.downOutput (s : State) (i : PointIdx) : Bool :=
  (s.point i).channel.state == .down && !s.rehearsing i && !s.estop && !s.resetAsserted

/-- At least one group is TRIPPED (R165). -/
def State.anyTripped (s : State) : Bool := allGroups.any fun g => (s.group g).state == .tripped

/-- At least one group is moving (R165). -/
def State.anyMoving (s : State) : Bool := allGroups.any fun g => (s.group g).state.moving

/-- At least one group has its rehearsal mode on (R165). -/
def State.anyRehearsing (s : State) : Bool := allGroups.any fun g => (s.group g).rehearsal

end Sys2Proof.Machine
end

