-- ==== Sys2Proof/Machine/Ops.lean ====
section
/-! DEFINITION. The operations that the commands share: reports, releases and energizations of a channel, faults,
trips, the end of a move and its stop. Each is one function of the state. -/

namespace Sys2Proof.Machine

/-! ## Reports (R176 to R179, R182) -/

/-- The kind of a report (R177). -/
def ReportBody.kind : ReportBody → ReportKind
  | .moveStarted _ _ _ _ => .moveStarted
  | .moveEnded _ _ _ _ _ => .moveEnded
  | .moveHeld _ _ _ _ => .moveHeld
  | .groupTripped _ _ _ => .groupTripped
  | .tripCleared => .tripCleared
  | .pointFault _ _ => .pointFault
  | .limit _ _ _ => .limit
  | .loadStatus _ _ _ => .loadStatus
  | .authority _ _ _ _ => .authority
  | .estop _ => .estop
  | .portSilent _ => .portSilent
  | .portBack _ => .portBack

/-- Report kinds are numbered 1..12 in the order of R177 (12.1). -/
def kindNumber : ReportKind → Nat
  | .moveStarted => 1
  | .moveEnded => 2
  | .moveHeld => 3
  | .groupTripped => 4
  | .tripCleared => 5
  | .pointFault => 6
  | .limit => 7
  | .loadStatus => 8
  | .authority => 9
  | .estop => 10
  | .portSilent => 11
  | .portBack => 12

/-- The capacity of a report queue, in records (R179). -/
def reportCapacity : Nat := 32

/-- The port takes this report (R178), with the rights as they stand in s. -/
def State.entitled (s : State) (p : Port) (r : Report) : Bool :=
  match r.body with
  | .estop _ => true
  | .portSilent q => p != q
  | .portBack q => p != q
  | _ => r.group.any fun g => s.allowed p g .view

/-- An append to a port's queue (R179): at the tail with the lost marker turned into the record's flag, or
discarded with the lost marker set. -/
def PortState.append (ps : PortState) (r : Report) : PortState :=
  if ps.queue.length < reportCapacity then
    { ps with queue := ps.queue ++ [{ r with lostBefore := ps.lost }], lost := false }
  else { ps with lost := true }

/-- The time field of a report: whole milliseconds since the reset, in 32 bits (R176, log entry 23). -/
def State.reportTime (s : State) : BitVec 32 := BitVec.ofNat 32 (s.time / 1000)

/-- The port's queue after a report is distributed (R178). -/
def State.offer (s : State) (r : Report) (p : Port) : PortState :=
  if s.entitled p r then (s.port p).append r else s.port p

/-- The Report Unit appends a record to the queue of every port that is entitled to it (R178). -/
def State.distribute (s : State) (r : Report) : State :=
  { s with ports := { a := s.offer r .a, b := s.offer r .b, l := s.offer r .l } }

/-- A block produces a report about a group, or about none (R176, R163). -/
def State.produce (s : State) (g : Option GroupIdx) (body : ReportBody) (additional : Bool := false) : State :=
  s.distribute
    { time := s.reportTime
      group := g
      rehearsal := g.any fun g => (s.group g).rehearsal
      lostBefore := false
      additional := additional
      body := body }

/-- A port's ATTN line is asserted (R182). -/
def PortState.attnAsserted (ps : PortState) : Bool :=
  ps.queue.any fun r => ps.attention.getLsbD (kindNumber r.body.kind - 1)

/-! ## Latching a fault (R140) -/

/-- R140 alone: the code is latched or the further-fault marker is set, and POINT_FAULT is produced. -/
def State.latchFault (s : State) (i : PointIdx) (c : FaultCode) : State :=
  let p := s.point i
  (s.setPoint i (if p.latched.isNone then { p with latched := some c } else { p with further := true })).produce
    (some p.group) (.pointFault c i) p.latched.isSome

/-! ## Releasing a channel (R48 to R51, R160, R161) -/

/-- The shadow position a simulated coast leads to, before its bound (R160). -/
def State.coastTarget (s : State) (i : PointIdx) (sh : Shadow) : Int :=
  let p := s.point i
  match p.channel.lastDir with
  | some d => sh.position + d.sign * (p.coast : Int)
  | none => sh.position

/-- A member's progress is recomputed from its position, when its entry is in an active head move (R104). -/
def State.updateProgress (s : State) (i : PointIdx) : State :=
  let g := (s.point i).group
  match (s.group g).head with
  | some m =>
    if m.state.active then
      s.modEntry g i fun e => { e with progress := progressAt (m.direction.getD .up) e.start (s.positionOf i) }
    else s
  | none => s

/-- A release of channel i at this moment would carry its shadow past the position bound and raise
POSITION_RANGE (R161). -/
def State.coastRaises (s : State) (i : PointIdx) : Bool :=
  (s.point i).channel.state.energized &&
    match s.shadowOf i with
    | some sh => !inPositionRange (s.coastTarget i sh) && (s.point i).latched != some .positionRange
    | none => false

/-- The simulated coast of a rehearsing member at its release (R160), stopped at the bound, where
POSITION_RANGE is latched (R161). -/
def State.simulateCoast (s : State) (i : PointIdx) (raises : Bool) : State :=
  match s.shadowOf i with
  | some sh =>
    let s1 := s.modPoint i fun p =>
      { p with shadow := some { sh with position := clampPosition (s.coastTarget i sh), simDue := none } }
    let s2 := s1.updateProgress i
    if raises then s2.latchFault i .positionRange else s2
  | none => s

/-- The channel leaves UP or DOWN for SETTLE (R51, with R32's stop of the stall timer). -/
def Point.toSettle (p : Point) (now : Nat) : Point :=
  { p with
    channel :=
      { p.channel with
        state := .settle, lastOff := now, pending := none, deferredDue := none
        settleDue := some (now + msToUs p.settings.tSettle) }
    capture := { p.capture with stallDue := none } }

/-- Entry to SETTLE, with the simulated coast of a rehearsing member within the same event (R51, R160). -/
def State.enterSettle (s : State) (i : PointIdx) : State :=
  let raises := s.coastRaises i
  (s.modPoint i fun p => p.toSettle s.time).simulateCoast i raises

/-- A channel that is not energized loses its pending energize (R49, R50). -/
def State.dropPending (s : State) (i : PointIdx) : State :=
  s.modPoint i fun p => { p with channel := { p.channel with pending := none } }

/-- A hard release of one channel (R50). A fault that the simulated coast raises is latched here; its trip is
the caller's (`release`, and log entry 9 for a trip in progress). -/
def State.hardRelease (s : State) (i : PointIdx) : State :=
  if (s.point i).channel.state.energized then s.enterSettle i else s.dropPending i

/-! ## The end of a move (R89) -/

/-- The report that a move's end produces (R89). `named` is the point of a REFUSED_LIMIT. -/
def Move.endedBody (m : Move) (outcome : Outcome) (named : Option PointIdx) (pairs : List (PointIdx × Int)) :
    ReportBody :=
  .moveEnded outcome m.tag m.body.kind (m.body.point.or named) pairs

/-- The group record after its head move has left the queue (R89). -/
def Group.dropHead (g : Group) : Group :=
  { g with queue := g.queue.tail, schedule := [], permit := none, stopReason := none, baseline := none }

/-- The head move ends with an outcome (R89). -/
def State.endHead (s : State) (g : GroupIdx) (outcome : Outcome) (named : Option PointIdx := none)
    (pairs : List (PointIdx × Int) := []) : State :=
  match (s.group g).head with
  | some m => (s.produce (some g) (m.endedBody outcome named pairs)).modGroup g Group.dropHead
  | none => s

/-- Every move of the queue ends in turn, the head first, each with its outcome (R102, R144, R151). -/
def State.endAll (s : State) (g : GroupIdx) (outcome : Move → Outcome) : State :=
  (s.group g).queue.foldl (fun t m => t.endHead g (outcome m)) s

/-! ## Trips (R144, R145) -/

/-- The outcome that a trip gives a move (R144 step 5). -/
def tripOutcome (m : Move) : Outcome := if m.state = .queued then .flushed else .aborted

/-- Every member of the head move's run list is given a hard release, and a fault raised by a simulated coast
is only latched (R144 step 1, log entry 9). DESIGN CHOICE (log entry 28): the members are released in the run list's
ascending order, which is the order of the POSITION_RANGE reports of a rehearsing group. -/
def State.hardReleaseAll (s : State) (l : List PointIdx) : State := l.foldl State.hardRelease s

/-- The points of the head move's run list. -/
def State.runPoints (s : State) (g : GroupIdx) : List PointIdx := (s.group g).runList.map (·.point)

/-- The GROUP_TRIPPED report of R145. -/
def State.reportTrip (s : State) (g : GroupIdx) (cause : TripCause) (pt : Option PointIdx) : State :=
  s.produce (some g) (.groupTripped cause pt ((s.group g).head.map fun m => (m.tag, m.body.kind)))

/-- A trip reaches a group (R144): nothing when it is already TRIPPED. -/
def State.trip (s : State) (g : GroupIdx) (cause : TripCause) (pt : Option PointIdx) : State :=
  if (s.group g).state = .tripped then s
  else
    let s1 := s.hardReleaseAll (s.runPoints g)
    let s2 := s1.modGroup g fun r => { r with schedule := [], trip := some ⟨cause, pt⟩ }
    let s3 := s2.reportTrip g cause pt
    s3.endAll g tripOutcome

/-- R141 step 2: a fault raised on a member of an active move trips the group with cause POINT. -/
def State.tripMember (s : State) (i : PointIdx) : State :=
  let g := (s.point i).group
  if (s.group g).inRunList i && (s.group g).headIs MoveState.active then s.trip g .point (some i) else s

/-- A hard release given outside a trip: a POSITION_RANGE that its simulated coast raises has the consequences
of R141 at once (log entry 10). -/
def State.release (s : State) (i : PointIdx) : State :=
  let raises := s.coastRaises i
  let s1 := s.hardRelease i
  if raises then s1.tripMember i else s1

/-- Hard releases of several channels in turn. -/
def State.releaseAll (s : State) (l : List PointIdx) : State := l.foldl State.release s

/-- A block raises a point fault (R140, R141): latch or marker and report, then the channel, then the move. -/
def State.raiseFault (s : State) (i : PointIdx) (c : FaultCode) : State :=
  let fresh := (s.point i).latched.isNone
  let s1 := s.latchFault i c
  let s2 := if fresh then s1.release i else s1
  s2.tripMember i

/-! ## Soft release (R48, R49) -/

/-- A soft release of a channel (R48, R49): nothing while one is already deferred, at once after the minimum run,
deferred before it, and in SETTLE or OFF the drop of a pending energize. -/
def State.softRelease (s : State) (i : PointIdx) : State :=
  let p := s.point i
  if p.channel.state.energized then
    if p.channel.deferredDue.isSome then s
    else if p.channel.lastOn + msToUs p.settings.tMinrun ≤ s.time then s.release i
    else
      s.modPoint i fun p =>
        { p with channel := { p.channel with deferredDue := some (p.channel.lastOn + msToUs p.settings.tMinrun) } }
  else s.dropPending i

/-! ## Energizing a channel (R43 to R45, R28, R69) -/

/-- What the Sequencer answers to an energize request (R43 to R46). -/
inductive Answer where
  | taken
  | held
  | dropped (condition : Denial)
  | refused
  deriving DecidableEq, Repr

/-- The channel's part of R44. -/
def Channel.energize (c : Channel) (d : Dir) (now : Nat) : Channel :=
  { c with state := d.channelState, lastDir := some d, lastOn := now, pending := none, settleDue := none }

/-- The Encoder Capture is told of an energization (R28, R32). -/
def Capture.energize (c : Capture) (cfg : Settings) (now : Nat) : Capture :=
  { c with
    wrongWay := 0
    creep := 0
    stallDue := if cfg.encoderMode = .off then none else some (now + msToUs cfg.tStall) }

/-- The simulation timer starts at an energization (R159). -/
def Shadow.energize (sh : Shadow) (cfg : Settings) (now : Nat) : Shadow :=
  { sh with simDue := if cfg.encoderMode = .off then none else some (now + simInterval cfg.nominalSpeed) }

/-- The point's record after an energization: the capture is told in a live group, the simulation timer starts
in a rehearsing one (R44, R31). -/
def Point.energize (p : Point) (rehearsing : Bool) (d : Dir) (now : Nat) : Point :=
  if rehearsing then
    { p with
      channel := p.channel.energize d now
      shadow := p.shadow.map fun sh => sh.energize p.settings now }
  else
    { p with
      channel := p.channel.energize d now
      capture := p.capture.energize p.settings now }

/-- The Sequencer takes an energize request (R44); a STALE load raises LOAD_STALE at that event (R69). DESIGN CHOICE
(log entry 30): the raise and its trip come before the executor is told that the request was taken, and before the
evaluation that this may bring (R119). -/
def State.energize (s : State) (i : PointIdx) (d : Dir) : State :=
  let s1 := s.modPoint i fun p => p.energize (s.rehearsing i) d s.time
  if (s1.point i).load.state = .stale then s1.raiseFault i .loadStale else s1

/-- A permitted request is taken when its wait has elapsed and otherwise becomes the pending energize (R43). -/
def State.takeOrHold (s : State) (i : PointIdx) (d : Dir) : State × Answer :=
  if s.waitElapsed i d then (s.energize i d, .taken)
  else (s.modPoint i fun p => { p with channel := { p.channel with pending := some d } }, .held)

/-- An energize request reaches a channel (R43, R45). A permitted request that differs from the pending one
replaces it; the notice that the older request was dropped leads to no action (log entry 32). -/
def State.energizeRequest (s : State) (i : PointIdx) (d : Dir) : State × Answer :=
  match (s.point i).channel.state.dir with
  | some e => if e = d then (s, .taken) else (s, .refused)
  | none =>
    match s.denial i d with
    | some c => (s, .dropped c)
    | none => if (s.point i).channel.pending = some d then (s, .held) else s.takeOrHold i d

/-! ## Stopping a move (R96, R98) -/

/-- Every entry of the run list has its settled flag set (R98). -/
def Move.allSettled (m : Move) : Bool := m.runList.all (·.settled)

/-- Every entry of the run list has its released flag set (R98, R114). -/
def Move.allReleased (m : Move) : Bool := m.runList.all (·.released)

/-- The pairs of an ARRIVED report, in ascending point order (R89, R123). -/
def Move.arrivalPairs (m : Move) : List (PointIdx × Int) :=
  m.runList.map fun e => (e.point, e.arrivalError.getD 0)

/-- The move is held (R98 case 4): HELD with a MOVE_HELD report. -/
def State.holdHead (s : State) (g : GroupIdx) (m : Move) : State :=
  (s.modGroup g fun r => r.modHead fun m => { m with state := .held }).produce (some g)
    (.moveHeld (s.group g).stopReason m.tag m.body.kind m.body.point)

/-- The STOPPING end test (R98). -/
def State.endTest (s : State) (g : GroupIdx) : State :=
  match (s.group g).head with
  | some m =>
    if m.state = .stopping && m.allSettled then
      match m.endMark with
      | some .limit => s.endHead g .limit
      | some .softLimit => s.endHead g .softLimit
      | none =>
        if m.body.kind.jog then s.endHead g .jogStopped
        else if m.allReleased then s.endHead g .arrived none m.arrivalPairs
        else s.holdHead g m
    else s
  | none => s

/-- The group's record at its entry to STOPPING (R96): the schedule and the permit are gone, the reason or mark
is recorded. -/
def Group.toStopping (r : Group) (reason : Option StopReason) (mark : Option EndMark) : Group :=
  { r.modHead fun m => { m with state := .stopping, endMark := mark } with
    schedule := [], permit := none, stopReason := reason }

/-- A head move in STARTING or RUNNING enters STOPPING (R96); in any other state nothing happens. A trip that a
simulated coast raises on the way replaces the stop (R98, log entry 10). DESIGN CHOICE (log entry 28): the members are
released in the run list's ascending order. -/
def State.enterStopping (s : State) (g : GroupIdx) (reason : Option StopReason) (mark : Option EndMark) : State :=
  if (s.group g).headIs MoveState.driving then
    let s1 := s.releaseAll (s.runPoints g)
    if (s1.group g).headIs MoveState.driving then
      (s1.modGroup g fun r => r.toStopping reason mark).endTest g
    else s1
  else s

/-! ## Authority (R128, R135, R136, R137) -/

/-- The state of group g after a stop with reason AUTHORITY, which is the state it has when nothing drives (R137, R177,
log entry 13). -/
def State.stateAfterRemoval (s : State) (g : GroupIdx) : GroupState :=
  ((s.enterStopping g (some .authority) none).group g).state

/-- The holder of a group becomes none, with an AUTHORITY report that carries the group state after the event (R137,
R177). The stop that goes with it is the caller's. -/
def State.dropHolder (s : State) (g : GroupIdx) (cause : AuthorityCause) : State :=
  let s1 := s.modGroup g fun r => { r with holder := none }
  s1.produce (some g) (.authority cause none (s.group g).holder (s1.stateAfterRemoval g))

/-- The holder of one group is removed, and a moving group is stopped with reason AUTHORITY (R128, R135). The AUTHORITY report
comes before the reports of the stop (R137). DESIGN CHOICE (log entry 35): in a rehearsing group whose simulated coast
passes the bound at the stop, it also comes before that member's POINT_FAULT and the reports of the trip. -/
def State.removeHolder (s : State) (g : GroupIdx) (cause : AuthorityCause) : State :=
  (s.dropHolder g cause).enterStopping g (some .authority) none

end Sys2Proof.Machine
end

