-- ==== Sys2Proof/Machine/Images.lean ====
section
/-! DEFINITION. The words the part drives: the encodings of chapter 12, the status word, the table images and the
report records (R165, R171, R176, R185). -/

namespace Sys2Proof.Machine

/-! ## Fields -/

/-- A number in a field of `width` bits at bit `lo` of a word (chapter 12); reserved bits stay 0 (R185). -/
def field (width lo n : Nat) : Word := BitVec.ofNat 32 ((n % 2 ^ width) <<< lo)

/-- A one-bit field. -/
def flag (lo : Nat) (b : Bool) : Word := field 1 lo b.toNat

/-- The fields of a word together. -/
def pack (fields : List Word) : Word := fields.foldl (· ||| ·) 0

/-- A signed number as a 32-bit word, two's complement. -/
def signedWord (v : Int) : Word := BitVec.ofInt 32 v

/-- An unsigned number as a word. A time base value gives its low 32 bits (12.1). -/
def natWord (n : Nat) : Word := BitVec.ofNat 32 n

/-- A signed number in the 16 low bits of a word. -/
def signedHalf (v : Int) : Word := (BitVec.ofInt 16 v).setWidth 32

/-! ## Encodings (12.1) -/

def portCode : Option Port → Nat
  | none => 0
  | some .a => 1
  | some .b => 2
  | some .l => 3

def deskCode : Desk → Nat
  | .a => 1
  | .b => 2

def resultCode : Result → Nat
  | .ok => 0
  | .frame => 1
  | .crc => 2
  | .unknown => 3
  | .badIndex => 4
  | .badValue => 5
  | .noRight => 6
  | .notHolder => 7
  | .outranked => 8
  | .busy => 9
  | .queueFull => 10
  | .tripped => 11
  | .estop => 12
  | .empty => 13
  | .noEncoder => 14
  | .notReferenced => 15
  | .nothing => 16
  | .settling => 17
  | .limit => 18
  | .faulted => 19
  | .persists => 20
  | .shortRead => 21

def faultCodeNumber : FaultCode → Nat
  | .stall => 1
  | .reversed => 2
  | .creep => 3
  | .positionRange => 4
  | .limitWiring => 5
  | .overload => 6
  | .underload => 7
  | .loadStale => 8
  | .sensor => 9

def moveKindCode : MoveKind → Nat
  | .groupBy => 0
  | .groupJog => 1
  | .pointTo => 2
  | .pointJog => 3

def dirCode : Option Dir → Nat
  | none => 0
  | some .up => 1
  | some .down => 2

def channelCode : ChannelState → Nat
  | .off => 0
  | .settle => 1
  | .up => 2
  | .down => 3

def groupStateCode : GroupState → Nat
  | .idle => 0
  | .starting => 1
  | .running => 2
  | .stopping => 3
  | .held => 4
  | .tripped => 5

def moveStateCode : MoveState → Nat
  | .queued => 0
  | .starting => 1
  | .running => 2
  | .stopping => 3
  | .held => 4

def stopReasonCode : Option StopReason → Nat
  | none => 0
  | some .stop => 1
  | some .permit => 2
  | some .authority => 3

def tripCauseCode : TripCause → Nat
  | .point => 1
  | .limit => 2
  | .skew => 3
  | .share => 4
  | .estop => 5

def endMarkCode : Option EndMark → Nat
  | none => 0
  | some .limit => 1
  | some .softLimit => 2

def encoderModeCode : EncoderMode → Nat
  | .off => 0
  | .x1 => 1
  | .x2 => 2
  | .x4 => 3

def loadStateCode : LoadState → Nat
  | .unknown => 0
  | .valid => 1
  | .stale => 2

def outcomeCode : Outcome → Nat
  | .arrived => 0
  | .jogStopped => 1
  | .softLimit => 2
  | .cancelled => 3
  | .aborted => 4
  | .flushed => 5
  | .refusedLimit => 6
  | .limit => 7

def authorityCauseCode : AuthorityCause → Nat
  | .take => 0
  | .release => 1
  | .rights => 2
  | .restart => 3

def limitCode : Switch → Bool → Nat
  | .upper, false => 0
  | .upper, true => 1
  | .lower, false => 2
  | .lower, true => 3

/-! ## The status word (R165, 12.2) -/

/-- The status word of a port as it stands in s (R165). -/
def State.statusWord (s : State) (p : Port) : Word :=
  let ps := s.port p
  pack
    [flag 31 s.estop, flag 30 s.anyTripped, flag 29 s.anyMoving, flag 28 s.anyRehearsing, flag 27 ps.lost,
      field 6 21 ps.queue.length, field 5 16 (resultCode ps.lastResult), field 2 14 (portCode (some p))]

/-! ## Report records (12.5) -/

/-- Words two to a word, the earlier half in bits 31..16 (12.4). -/
def pairUp : List Nat → List Word
  | [] => []
  | [x] => [field 16 16 x]
  | x :: y :: rest => pack [field 16 16 x, field 16 0 y] :: pairUp rest

/-- A point with its presence bit, at the places of a word 2 (12.5). -/
def pointField (p : Option PointIdx) : Word :=
  match p with
  | some i => pack [flag 24 true, field 5 16 i]
  | none => 0

/-- A point with its presence bit, at the places of a short body (12.5). -/
def shortPoint (p : Option PointIdx) : Word :=
  match p with
  | some i => pack [flag 5 true, field 5 0 i]
  | none => 0

/-- Word 2 of a move report (12.5). -/
def moveWord (code : Nat) (kind : MoveKind) (p : Option PointIdx) : Word :=
  pack [field 5 27 code, field 2 25 (moveKindCode kind), pointField p]

/-- A pair word of an ARRIVED record (12.5): every pair names its point. -/
def arrivalWord (kind : MoveKind) (x : PointIdx × Int) : Word :=
  pack [moveWord (outcomeCode .arrived) kind (some x.1), signedHalf x.2]

/-- The short body, bits 15..0 of word 0 (12.5). -/
def shortBody : ReportBody → Word
  | .moveStarted _ tag _ _ | .moveEnded _ tag _ _ _ | .moveHeld _ tag _ _ => tag.setWidth 32
  | .groupTripped cause p _ => pack [field 5 11 (tripCauseCode cause), shortPoint p]
  | .tripCleared => 0
  | .pointFault c i => pack [field 5 11 (faultCodeNumber c), shortPoint (some i)]
  | .limit w closed i => pack [field 5 11 (limitCode w closed), shortPoint (some i)]
  | .loadStatus st _ i => pack [field 5 11 (loadStateCode st), shortPoint (some i)]
  | .authority cause _ _ _ => field 5 11 (authorityCauseCode cause)
  | .estop asserted => field 5 11 (if asserted then 0 else 1)
  | .portSilent p | .portBack p => field 5 11 (portCode (some p))

/-- The words after word 1 (12.5). -/
def bodyWords : ReportBody → List Word
  | .moveStarted resume _ kind p => [moveWord (if resume then 1 else 0) kind p]
  | .moveEnded .arrived _ kind _ pairs => pairs.map (arrivalWord kind)
  | .moveEnded outcome _ kind p _ => [moveWord (outcomeCode outcome) kind p]
  | .moveHeld reason _ kind p => [moveWord (stopReasonCode reason) kind p]
  | .groupTripped _ _ head =>
    [match head with
      | some (tag, kind) => pack [flag 31 true, field 2 29 (moveKindCode kind), tag.setWidth 32]
      | none => 0]
  | .tripCleared | .pointFault _ _ | .limit _ _ _ | .estop _ | .portSilent _ | .portBack _ => []
  | .loadStatus _ filtered _ => [field 15 0 filtered]
  | .authority _ new previous st =>
    [pack [field 2 30 (portCode new), field 2 28 (portCode previous)], field 3 29 (groupStateCode st)]

/-- The length of a record in words (R176, R177). -/
def Report.length (r : Report) : Nat := 2 + (bodyWords r.body).length

/-- Word 0 of a record (12.5). -/
def Report.word0 (r : Report) : Word :=
  pack
    [field 4 28 (kindNumber r.body.kind), field 5 23 r.length, flag 22 r.rehearsal, flag 21 r.lostBefore,
      flag 20 r.additional, flag 19 r.group.isSome, field 3 16 (r.group.getD 0), shortBody r.body]

/-- A record in its words (12.5, R185). -/
def Report.words (r : Report) : List Word := r.word0 :: r.time :: bodyWords r.body

/-! ## Table images (12.4, R171) -/

/-- The mask of a staged copy's fields, bits 25..19 of image word 1 (12.4). -/
def stagedMask (k : Staged) : Word :=
  pack
    [flag 25 k.softUpper.isSome, flag 24 k.softLower.isSome, flag 23 k.tGuard.isSome, flag 22 k.tReverse.isSome,
      flag 21 k.tMinrun.isSome, flag 20 k.tSettle.isSome, flag 19 k.tStall.isSome]

/-- The staged values in mask order, 0 where the field is absent (12.4). -/
def stagedWords (k : Staged) : List Word :=
  [signedWord (k.softUpper.getD 0), signedWord (k.softLower.getD 0), natWord (k.tGuard.getD 0),
    natWord (k.tReverse.getD 0), natWord (k.tMinrun.getD 0), natWord (k.tSettle.getD 0), natWord (k.tStall.getD 0)]

/-- Word 0 of a POINT image (12.4). -/
def Point.word0 (p : Point) : Word :=
  pack
    [field 3 29 p.group, field 2 27 (encoderModeCode p.settings.encoderMode), flag 26 p.capture.referenced,
      field 2 24 (dirCode p.capture.lastCount), field 2 22 p.capture.wrongWay, field 2 20 p.capture.creep,
      field 2 18 (channelCode p.channel.state), field 2 16 (dirCode p.channel.lastDir),
      field 2 14 (dirCode p.channel.pending), flag 13 p.channel.deferredDue.isSome, flag 12 p.capture.stallDue.isSome,
      field 2 10 (loadStateCode p.load.state), flag 9 p.load.ring.isSome, field 3 6 p.load.ringIndex,
      flag 5 p.load.sensor, flag 4 p.load.overExcursion, flag 3 p.load.underExcursion,
      flag 2 p.switches.upperClosed, flag 1 p.switches.lowerClosed, flag 0 p.further]

/-- Word 1 of a POINT image (12.4). -/
def Point.word1 (p : Point) : Word :=
  pack
    [field 4 28 (match p.latched with | some c => faultCodeNumber c | none => 0), flag 27 p.load.filtered.isSome,
      flag 26 p.load.ageDue.isSome, (match p.staged with | some k => stagedMask k | none => 0),
      flag 18 p.capture.phaseA, flag 17 p.capture.phaseB, field 15 0 (p.load.filtered.getD 0)]

/-- The ring slots of a POINT image, two per word; an unprimed ring holds no samples (12.4, R59, R185). -/
def ringWords : Option (Vector Nat 8) → List Word
  | some r => pairUp r.toList
  | none => [0, 0, 0, 0]

/-- The POINT image: 27 words (12.4). -/
def Point.image (p : Point) : List Word :=
  [p.word0, p.word1, signedWord p.capture.position, signedWord p.settings.softUpper,
    signedWord p.settings.softLower, natWord p.settings.nominalSpeed, natWord p.coast, natWord p.settings.tGuard,
    natWord p.settings.tReverse, natWord p.settings.tMinrun, natWord p.settings.tSettle, natWord p.settings.tStall,
    natWord p.settings.overThreshold, natWord p.settings.underThreshold] ++ ringWords p.load.ring ++
    (match p.staged with | some k => stagedWords k | none => [0, 0, 0, 0, 0, 0, 0]) ++
    [natWord p.channel.lastOn, natWord p.channel.lastOff]

/-- Word 0 of a GROUP image (12.4). -/
def Group.word0 (g : Group) : Word :=
  pack
    [field 3 29 (groupStateCode g.state), field 2 27 (portCode g.holder), field 2 25 (deskCode g.preferred),
      flag 24 g.localPriority, flag 23 g.rehearsal, field 3 20 g.queue.length,
      field 2 18 (stopReasonCode g.stopReason),
      field 3 15 (match g.trip with | some t => tripCauseCode t.cause | none => 0),
      (match g.trip.bind (·.point) with | some i => pack [flag 14 true, field 5 9 i] | none => 0),
      flag 8 g.permit.isSome, flag 7 (!g.schedule.isEmpty)]

/-- A word with bit p set for each point of a list (12.4). -/
def pointSet (l : List PointIdx) : Word := pack (l.map fun (i : PointIdx) => flag i.val true)

/-- The GROUP image: 9 words, and one per member in rehearsal (12.4). -/
def State.groupImage (s : State) (g : GroupIdx) : List Word :=
  let r := s.group g
  let mem := s.members g
  [r.word0, natWord r.gateBand, natWord r.tripBand, natWord r.shareBand, natWord r.stagger, natWord r.window,
    natWord (r.permit.getD 0), pointSet mem,
    if r.rehearsal then pointSet (mem.filter s.referencedOf) else 0] ++
    if r.rehearsal then mem.map fun i => signedWord (s.positionOf i) else []

/-- The two words of a move in a QUEUE image (12.4). -/
def Move.words (m : Move) : List Word :=
  [pack
      [field 2 30 (moveKindCode m.body.kind), field 3 27 (moveStateCode m.state),
        field 2 25 (portCode (some m.submitter)), field 2 23 (dirCode m.direction),
        field 2 21 (endMarkCode m.endMark),
        (match m.body.point with | some i => field 5 16 i | none => 0), m.tag.setWidth 32],
    match m.body with
    | .groupBy delta => signedWord delta
    | .pointTo _ target => signedWord target
    | .groupJog _ | .pointJog _ _ => 0]

/-- The five words of a run-list entry in a QUEUE image (12.4). -/
def RunEntry.words (e : RunEntry) : List Word :=
  [pack
      [field 5 27 e.point, flag 26 e.gated, flag 25 e.released, flag 24 e.settled, flag 23 e.releasePos.isSome,
        flag 22 e.arrivalError.isSome, (match e.arrivalError with | some v => signedHalf v | none => 0)],
    signedWord e.start, signedWord (e.target.getD 0), signedWord e.progress, signedWord (e.releasePos.getD 0)]

/-- The QUEUE image (12.4). -/
def Group.queueImage (g : Group) : List Word :=
  pack [field 3 29 g.queue.length, field 5 24 g.runList.length, flag 23 g.baseline.isSome] ::
    (g.queue.flatMap Move.words ++ g.runList.flatMap RunEntry.words ++
      match g.baseline with
      | some b => pairUp (b.map (·.2))
      | none => [])

/-- The levels of one port, group g in bits 2g + 1..2g (12.4). -/
def rightsWord (v : Vector Level 8) : Word := 
  pack (allGroups.map fun (g : GroupIdx) => field 2 (2 * g.val) (levelNumber v[g]))

/-- The RIGHTS image (12.4). -/
def State.rightsImage (s : State) : List Word :=
  [rightsWord s.rights.a, rightsWord s.rights.b, rightsWord s.rights.l]

/-- The two words of a port in the PORTS image (12.4). -/
def PortState.words (ps : PortState) : List Word :=
  [pack
      [field 16 16 ps.seed.toNat, flag 15 ps.crcOn, flag 14 ps.silent, flag 13 ps.lost,
        field 5 8 (resultCode ps.lastResult), field 6 0 ps.queue.length],
    ps.attention.setWidth 32]

/-- The PORTS image (12.4). -/
def State.portsImage (s : State) : List Word := s.ports.a.words ++ s.ports.b.words ++ s.ports.l.words

/-- The image of a table at an index (R171); none when the index is out of the table's range. -/
def State.tableImage (s : State) (t : Table) (index : Nat) : Option (List Word) :=
  match t with
  | .point => (pointOfNat index).map fun i => (s.point i).image
  | .group => (groupOfNat index).map fun g => s.groupImage g
  | .queue => (groupOfNat index).map fun g => (s.group g).queueImage
  | .rights => some s.rightsImage
  | .ports => some s.portsImage

/-- n words of an image from word `first` on, zero words after its end (R171). -/
def imageSlice (image : List Word) (first n : Nat) : List Word :=
  (List.range n).map fun k => image.getD (first + k) 0

end Sys2Proof.Machine
end

