-- ==== Sys2Proof/Machine/Frames.lean ====
section
/-! DEFINITION. The Port Interface: frames from their start to their end, the judging of a frame, the words the port
drives, and the taking of a good frame (10.1 to 10.4). -/

namespace Sys2Proof.Machine

/-- A command acts on the part unless RESET is asserted: while it is, no step but the release of RESET has an
effect (R58, R60, R164; log entry 18). Every meaning answers a next state. -/
def State.live (s : State) (f : State → State) : Host.Outcome State Fault Refusal :=
  .next (if s.resetAsserted then s else f s)

/-! ## Start and header (R165, R171, R180) -/

/-- Select becomes active at a port with no frame in progress: the status word and the CRC settings are captured
(R165). -/
def State.startFrame (s : State) (p : Port) : State :=
  if (s.port p).frame.isSome then s
  else
    s.modPort p fun ps =>
      { ps with
        frame := some
          { status := s.statusWord p, crcOn := ps.crcOn, seed := ps.seed, words := [], reply := [], popCount := 0
            popEmpty := true } }

/-- The records that a POP_REPORT of n words drives: whole records from the head while they fit (R180). -/
def chooseRecords (n : Nat) : List Report → List Report
  | [] => []
  | r :: rest => if r.length ≤ n then r :: chooseRecords (n - r.length) rest else []

/-- The reply words that a header asks for, from the state at its completion; zero words follow them
(R166, R171, R180). -/
def State.replyWords (s : State) (p : Port) (h : Word) : List Word :=
  match headerRequest h with
  | some .readTable =>
    match (headerTable h).bind fun t => s.tableImage t (headerIndex h) with
    | some image => imageSlice image (headerFirstWord h) (headerLength h)
    | none => []
  | some .popReport => (chooseRecords (headerLength h) (s.port p).queue).flatMap Report.words
  | _ => []

/-- The header is complete: the frame takes its snapshot (R171, R180). -/
def State.completeHeader (s : State) (p : Port) (h : Word) : State :=
  match (s.port p).frame with
  | some f =>
    if f.words.isEmpty then
      s.modPort p fun ps =>
        { ps with
          frame := some
            { f with
              words := [h]
              reply := s.replyWords p h
              popCount := (chooseRecords (headerLength h) ps.queue).length
              popEmpty := ps.queue.isEmpty } }
    else s
  | none => s

/-! ## The words the port drives (R166, R169) -/

/-- A CRC word: the CRC in bits 31..16 (12.2, R169). -/
def crcWord (crc : BitVec 16) : Word := crc.setWidth 32 <<< 16

/-- The reply word at position k, 1..length: zero words follow the reply (R166). -/
def Frame.replyAt (f : Frame) (k : Nat) : Word := f.reply.getD (k - 1) 0

/-- The word the port drives at position k of the frame: the status word, the reply words, with CRC on the port's
own CRC word, and zero words after it (R166, R169). -/
def Frame.driven (f : Frame) (k : Nat) : Word :=
  if k = 0 then f.status
  else
    match f.words with
    | [] => 0
    | h :: _ =>
      let n := headerLength h
      if k ≤ n then f.replyAt k
      else if f.crcOn && k = n + 1 then
        crcWord (crcOf f.seed (f.status :: (List.range n).map fun j => f.replyAt (j + 1)))
      else 0

/-! ## Judging a frame at its end (R167, R168) -/

/-- What a frame end finds. -/
inductive Judgement where
  | bad (result : Result)
  | good (header : Word) (payload : List Word)
  deriving DecidableEq, Repr

/-- The expected word count of a frame (R166). -/
def expectedWords (crcOn : Bool) (h : Word) : Nat := 1 + headerLength h + crcOn.toNat

/-- The received CRC word matches the words before it (R168): its lower 16 bits are ignored. -/
def crcMatches (seed : BitVec 16) (words : List Word) (n : Nat) : Bool :=
  BitVec.ofNat 16 (bitsOf (words.getD n 0) 31 16) == crcOf seed (words.take n)

/-- The frame is judged at its end (R167, R168). -/
def Frame.judge (f : Frame) (tail : FrameTail) : Judgement :=
  match f.words with
  | [] => .bad .frame
  | h :: _ =>
    let words := f.words ++ tail.words
    let n := headerLength h
    if tail.stray != 0 || 32 < n || words.length != expectedWords f.crcOn h then .bad .frame
    else if f.crcOn && !crcMatches f.seed words (n + 1) then .bad .crc
    else .good h ((words.drop 1).take n)

/-- The last result of a port is replaced (R170). -/
def State.setResult (s : State) (p : Port) (r : Result) : State := s.modPort p fun ps => { ps with lastResult := r }

/-- The frame is over: select is inactive. -/
def State.endFrame (s : State) (p : Port) : State := s.modPort p fun ps => { ps with frame := none }

/-- A bad frame ends: its result is the port's last result, and nothing else changes (R167). -/
def State.refuseFrame (s : State) (p : Port) (r : Result) : State := (s.endFrame p).setResult p r

/-! ## Taking a good frame (R170) -/

/-- Step 1 of R170: the port stops being SILENT, with a PORT_BACK report, and the silence timer restarts
(R172). -/
def State.heard (s : State) (p : Port) : State :=
  let s1 :=
    if (s.port p).silent then (s.modPort p fun ps => { ps with silent := false }).produce none (.portBack p) else s
  s1.modPort p fun ps => { ps with silenceDue := some (s.time + silenceTime) }

/-- What a good frame brings to the owner of its request. -/
structure GoodFrame where
  header : Word
  payload : List Word
  popCount : Nat
  popEmpty : Bool
  deriving DecidableEq, Repr

/-- The frame in progress at port p ends good with this tail. -/
def State.goodEnd (s : State) (p : Port) (tail : FrameTail) : Option GoodFrame :=
  match (s.port p).frame with
  | some f =>
    match f.judge tail with
    | .good h payload => some ⟨h, payload, f.popCount, f.popEmpty⟩
    | .bad _ => none
  | none => none

/-- The lengths a request accepts (12.2, step 4 of R170); the length of a good read is at most 32 in any case. -/
def lengthOk (r : Request) (n : Nat) : Bool :=
  match r with
  | .readTable | .popReport => true
  | .pointSetup => n == 11
  | .groupSetup => n == 7
  | .portSetup => n == 3
  | .setPosition => n == 1
  | .submitMove => n == 2
  | .nop | .setRights | .assign | .take | .release | .go | .stop | .stopAll | .cancel | .clearFault | .clearTrip
  | .rehearsal | .portRestart => n == 0

/-- Steps 3 to 5 of R170: the index names `α`, the length is accepted, and the owner decides. -/
def State.decideRequest {α : Type} (s : State) (f : GoodFrame) (req : Request) (index : Word → Option α)
    (owner : State → α → GoodFrame → State × Result) : State × Result :=
  match index f.header with
  | none => (s, .badIndex)
  | some a => if lengthOk req (headerLength f.header) then owner s a f else (s, .badValue)

/-- The end of a good frame whose header names a request (R170): silence, index, length, owner, result. A frame
end that is no good end of this request is another step, and this one does not occur (log entry 1). -/
def State.takeRequest {α : Type} (s : State) (p : Port) (tail : FrameTail) (req : Request)
    (index : Word → Option α) (owner : State → α → GoodFrame → State × Result) : State :=
  match s.goodEnd p tail with
  | some f =>
    if headerRequest f.header = some req then
      let out := ((s.endFrame p).heard p).decideRequest f req index owner
      out.1.setResult p out.2
    else s
  | none => s

/-- An index that is not examined (10.6). -/
def anyIndex (_ : Word) : Option Unit := some ()

/-- An index that names a point (10.6). -/
def pointIndex (h : Word) : Option PointIdx := pointOfNat (headerIndex h)

/-- An index that names a group (10.6). -/
def groupIndex (h : Word) : Option GroupIdx := groupOfNat (headerIndex h)

/-- The index of an ASSIGN names a point and its sub-field a group (10.6). -/
def assignIndex (h : Word) : Option (PointIdx × GroupIdx) :=
  match pointOfNat (headerIndex h), groupOfNat (headerNewGroup h) with
  | some i, some g => some (i, g)
  | _, _ => none

/-- The index of a READ_TABLE lies in the range of the table named; an unknown table passes whatever its index
(R170, R171). -/
def tableIndex (h : Word) : Option (Option Table) :=
  match headerTable h with
  | none => some none
  | some .point => (pointOfNat (headerIndex h)).map fun _ => some .point
  | some .group => (groupOfNat (headerIndex h)).map fun _ => some .group
  | some .queue => (groupOfNat (headerIndex h)).map fun _ => some .queue
  | some .rights => some (some .rights)
  | some .ports => some (some .ports)

/-! ## Meanings: FRAME_START, HEADER_COMPLETE, BAD_FRAME, UNKNOWN_REQUEST -/

/-- FRAME_START (R164, R165). -/
def execFrameStart (p : Port) (s : State) : Host.Outcome State Fault Refusal := s.live fun s => s.startFrame p

/-- HEADER_COMPLETE (R166, R171, R180). -/
def execHeaderComplete (p : Port) (h : Word) (s : State) : Host.Outcome State Fault Refusal :=
  s.live fun s => s.completeHeader p h

/-- The end of a frame that is judged bad (R167). -/
def State.endBadFrame (s : State) (p : Port) (tail : FrameTail) : State :=
  match (s.port p).frame with
  | some f =>
    match f.judge tail with
    | .bad r => s.refuseFrame p r
    | .good _ _ => s
  | none => s

/-- BAD_FRAME (R167). -/
def execBadFrame (p : Port) (tail : FrameTail) (s : State) : Host.Outcome State Fault Refusal :=
  s.live fun s => s.endBadFrame p tail

/-- The good end of a frame whose request code names no request (R170 step 2). -/
def State.refuseUnknown (s : State) (p : Port) (tail : FrameTail) : State :=
  match s.goodEnd p tail with
  | some f =>
    if headerRequest f.header = none then ((s.endFrame p).heard p).setResult p .unknown else s
  | none => s

/-- UNKNOWN_REQUEST (R170). -/
def execUnknownRequest (p : Port) (tail : FrameTail) (s : State) : Host.Outcome State Fault Refusal :=
  s.live fun s => s.refuseUnknown p tail

end Sys2Proof.Machine
end

