-- ==== Sys2Proof/Machine/Authority.lean ====
section
/-! DEFINITION. The Authority Unit's requests: SET_RIGHTS, TAKE and RELEASE (chapter 7). -/

namespace Sys2Proof.Machine

/-- The consequences of a written level (R128). -/
def State.rightsWritten (s : State) (g : GroupIdx) (named : Port) (v : Level) : State :=
  if (s.group g).holder = some named && levelNumber v < levelNumber .operate then s.removeHolder g .rights else s

/-- SET_RIGHTS (R127, R128). All four values of the level field name a level. -/
def setRightsOwner (p : Port) (s : State) (g : GroupIdx) (f : GoodFrame) : State × Result :=
  if p = .l then (s, .noRight)
  else
    match headerPort f.header with
    | none => (s, .badValue)
    | some named =>
      let v := headerLevel f.header
      ((s.setLevel named g v).rightsWritten g named v, .ok)

/-- SET_RIGHTS (R127). -/
def execSetRights (p : Port) (tail : FrameTail) (s : State) : Host.Outcome State Fault Refusal :=
  s.live fun s => s.takeRequest p tail .setRights groupIndex (setRightsOwner p)

/-- A granted TAKE (R132). -/
def State.grant (s : State) (g : GroupIdx) (p : Port) : State :=
  (s.modGroup g fun r => { r with holder := some p }).produce (some g)
    (.authority .take (some p) (s.group g).holder (s.group g).state)

/-- TAKE (R131). -/
def takeOwner (p : Port) (s : State) (g : GroupIdx) (_ : GoodFrame) : State × Result :=
  let r := s.group g
  if !s.allowed p g .operate then (s, .noRight)
  else
    match r.holder with
    | none => (s.grant g p, .ok)
    | some q =>
      if q = p then (s, .ok)
      else if r.state.moving then (s, .busy)
      else if (s.port q).silent then (s.grant g p, .ok)
      else if r.outranks p q then (s.grant g p, .ok)
      else (s, .outranked)

/-- TAKE (R131). -/
def execTake (p : Port) (tail : FrameTail) (s : State) : Host.Outcome State Fault Refusal :=
  s.live fun s => s.takeRequest p tail .take groupIndex (takeOwner p)

/-- RELEASE (R135). -/
def releaseOwner (p : Port) (s : State) (g : GroupIdx) (_ : GoodFrame) : State × Result :=
  if !s.allowed p g .operate then (s, .noRight)
  else if (s.group g).holder != some p then (s, .notHolder)
  else if (s.group g).state.moving then (s, .busy)
  else (s.removeHolder g .release, .ok)

/-- RELEASE (R135). -/
def execRelease (p : Port) (tail : FrameTail) (s : State) : Host.Outcome State Fault Refusal :=
  s.live fun s => s.takeRequest p tail .release groupIndex (releaseOwner p)

end Sys2Proof.Machine
end

