-- ==== Sys2Proof/Machine/Motion.lean ====
section
/-! DEFINITION. The Motion Executor (chapter 6) and the start sequence of the Group Unit (5.7): evaluation and its
stages, arrivals, the start schedule, and the pending energize coming due. -/

namespace Sys2Proof.Machine

/-- The head move's direction, up when it has none. -/
def Group.direction (r : Group) : Dir := (r.head.bind Move.direction).getD .up

/-- The head move is RUNNING (R95). -/
def isRunning (m : MoveState) : Bool := m == .running

/-- The head move is STARTING. -/
def isStarting (m : MoveState) : Bool := m == .starting

/-- The head move is synchronised (R105). -/
def Group.synchronised (r : Group) : Bool := r.head.any Move.synchronised

/-! ## Stages of an evaluation (R108) -/

/-- The member that a SKEW trip names: the first whose progress equals pmin (R110; the run list is in ascending
point order). -/
def laggard (l : List RunEntry) : Option PointIdx :=
  (l.find? fun e => e.progress == minProgress l).map (·.point)

/-- Stage 1: the skew trip test (R110). -/
def State.stageSkew (s : State) (g : GroupIdx) : State :=
  let r := s.group g
  if r.headIs isRunning && r.synchronised && (r.tripBand : Int) < spread r.runList then
    s.trip g .skew (laggard r.runList)
  else s

/-- The distance to the soft limit in the jog direction (R111). -/
def State.jogDistance (s : State) (i : PointIdx) (d : Dir) : Int :=
  match d with
  | .up => (s.point i).settings.softUpper - s.positionOf i
  | .down => s.positionOf i - (s.point i).settings.softLower

/-- A referenced entry lies within its coast of the soft limit ahead (R111). -/
def State.atJogBound (s : State) (d : Dir) (e : RunEntry) : Bool :=
  s.referencedOf e.point && s.jogDistance e.point d ≤ ((s.point e.point).coast : Int)

/-- Stage 2: the jog bound (R111). -/
def State.stageJog (s : State) (g : GroupIdx) : State :=
  let r := s.group g
  if r.headIs MoveState.driving && r.head.any (fun m => m.body.kind.jog) &&
      r.runList.any (s.atJogBound r.direction) then
    s.enterStopping g none (some .softLimit)
  else s

/-- An arrival error: final position less target, clamped to 16 bits (R123). -/
def arrivalErrorOf (position target : Int) : Int := clampInt (-32768) 32767 (position - target)

/-- The member is within its coast estimate of its target (R112, R113). -/
def State.atCoastLead (s : State) (d : Dir) (i : PointIdx) (target : Int) : Bool :=
  remaining d target (s.positionOf i) ≤ ((s.point i).coast : Int)

/-- R112: the released flag and the release position are recorded and the member is hard-released. -/
def State.releaseAtTarget (s : State) (g : GroupIdx) (i : PointIdx) : State :=
  (s.modEntry g i fun e => { e with released := true, releasePos := some (s.positionOf i) }).release i

/-- R113: a resting member is marked released; a pending energize is dropped, and a settled member in OFF gets
its arrival error from its present position. -/
def State.markReleased (s : State) (g : GroupIdx) (i : PointIdx) (target : Int) : State :=
  let c := (s.point i).channel
  let s1 := s.modEntry g i fun e =>
    { e with
      released := true
      arrivalError :=
        if c.state = .off && e.settled then some (arrivalErrorOf (s.positionOf i) target) else e.arrivalError }
  if c.pending.isSome then s1.softRelease i else s1

/-- The member rests gated, or waits on its rejoin guard (R113). -/
def State.restsForRejoin (s : State) (e : RunEntry) : Bool :=
  e.gated || ((s.point e.point).channel.pending.isSome && e.started)

/-- Stage 3 at one member: the stop at coast lead (R112, R113). -/
def State.coastMember (s : State) (g : GroupIdx) (i : PointIdx) : State :=
  let r := s.group g
  match r.head, r.entry i with
  | some m, some e =>
    match e.target with
    | some target =>
      if !(m.state.driving && !m.body.kind.jog && !e.released && s.atCoastLead r.direction i target) then s
      else if (s.point i).channel.state.energized then s.releaseAtTarget g i
      else if m.body.kind = .groupBy && s.restsForRejoin e then s.markReleased g i target
      else s
    | none => s
  | _, _ => s

/-- Stage 3: the stop at coast lead (R112, R113). DESIGN CHOICE (log entry 29): the members are taken in the run list's
ascending order. -/
def State.stageCoast (s : State) (g : GroupIdx) : State :=
  (s.runPoints g).foldl (fun t i => t.coastMember g i) s

/-- Stage 4: every member is released at its target (R114). -/
def State.stageAllReleased (s : State) (g : GroupIdx) : State :=
  let r := s.group g
  if r.headIs MoveState.driving && r.head.any Move.allReleased then s.enterStopping g none none else s

/-- Stage 5 at one member: gating (R115) and re-gating of a pending rejoin (R116), with the reference pmin. -/
def State.gateMember (s : State) (g : GroupIdx) (pmin : Int) (i : PointIdx) : State :=
  let r := s.group g
  match r.entry i with
  | some e =>
    let c := (s.point i).channel
    if r.headIs isRunning && !e.released && !e.gated && (c.state.energized || c.pending.isSome) &&
        (r.gateBand : Int) < e.progress - pmin then
      (s.modEntry g i fun e => { e with gated := true }).softRelease i
    else s
  | none => s

/-- A dropped rejoin (R120): an open limit switch trips the group, anything else gates the member again. -/
def State.rejoinDropped (s : State) (g : GroupIdx) (i : PointIdx) (c : Denial) : State :=
  if (s.group g).headIs MoveState.driving then
    if c = .switch then s.trip g .limit (some i)
    else s.modEntry g i fun e => { e with gated := true }
  else s

/-- The executor acts on the answer to a rejoin request (R117). -/
def State.rejoinAnswer (s : State) (g : GroupIdx) (i : PointIdx) (a : Answer) : State :=
  match a with
  | .taken => s.modEntry g i fun e => { e with settled := false }
  | .held | .refused => s
  | .dropped c => s.rejoinDropped g i c

/-- Stage 5 at one member: rejoin (R117). -/
def State.rejoinMember (s : State) (g : GroupIdx) (pmin : Int) (i : PointIdx) : State :=
  let r := s.group g
  match r.entry i with
  | some e =>
    if r.headIs isRunning && !e.released && e.gated && e.progress - pmin ≤ rejoinBand r then
      let s1 := s.modEntry g i fun e => { e with gated := false }
      let (s2, a) := s1.energizeRequest i r.direction
      s2.rejoinAnswer g i a
    else s
  | none => s

/-- Stage 5: gating, and after it rejoin, with the references as stage 3 left them (R108, R115 to R117). DESIGN CHOICE
(log entry 29): within each of the two the members are taken in the run list's ascending order, which decides who is
energized first and which point a LIMIT trip names when several rejoin requests meet an open switch. -/
def State.stageGate (s : State) (g : GroupIdx) : State :=
  let r := s.group g
  if r.headIs isRunning && r.synchronised then
    let pmin := minProgress r.runList
    let s1 := (s.runPoints g).foldl (fun t i => t.gateMember g pmin i) s
    (s1.runPoints g).foldl (fun t i => t.rejoinMember g pmin i) s1
  else s

/-- Stages 1 to 5 of an evaluation of group g's head move (R108). Each stage acts only on a move that the earlier
ones left STARTING or RUNNING. -/
def State.evaluate (s : State) (g : GroupIdx) : State :=
  ((((s.stageSkew g).stageJog g).stageCoast g).stageAllReleased g).stageGate g

/-! ## Count arrivals and settled events (R25, R106, R109, R121 to R123) -/

/-- The point is in the run list of its group's active head move (R25, R54). -/
def State.inActiveMove (s : State) (i : PointIdx) : Bool :=
  (s.groupOf i).inRunList i && (s.groupOf i).headIs MoveState.active

/-- A count arrival at a member (R106, R109): its progress is recomputed, and a STARTING or RUNNING move is
evaluated. -/
def State.countArrival (s : State) (i : PointIdx) : State :=
  if s.inActiveMove i then
    let g := (s.point i).group
    let s1 := s.updateProgress i
    if (s1.group g).headIs MoveState.driving then s1.evaluate g else s1
  else s

/-- The measured coast (R122). -/
def measuredCoast (d : Dir) (final releasePos : Int) : Nat := clampNat 0 2000 (d.sign * (final - releasePos))

/-- The new coast estimate (R122). -/
def learnedCoast (c m : Nat) : Nat := roundDiv (3 * c + m) 4

/-- Coast learning at the settled event of a member with a release position, never in rehearsal (R122). -/
def State.learnCoast (s : State) (i : PointIdx) (d : Dir) (e : RunEntry) : State :=
  match e.releasePos with
  | some rp =>
    if s.rehearsing i then s
    else s.modPoint i fun p => { p with coast := learnedCoast p.coast (measuredCoast d (s.positionOf i) rp) }
  | none => s

/-- The entry after a settled event at a final position (R121, R123). -/
def RunEntry.settle (e : RunEntry) (d : Dir) (final : Int) : RunEntry :=
  { e with
    settled := true
    progress := progressAt d e.start final
    arrivalError :=
      if e.released && e.arrivalError.isNone then e.target.map (arrivalErrorOf final) else e.arrivalError }

/-- The coast that a settled event teaches: of a member whose released flag is set and whose arrival error is
absent (R121, R122). -/
def State.learnAtSettle (s : State) (g : GroupIdx) (i : PointIdx) : State :=
  match (s.group g).entry i with
  | some e => if e.released && e.arrivalError.isNone then s.learnCoast i (s.group g).direction e else s
  | none => s

/-- The executor's part of a settled event, before the evaluation or the end test (R121). -/
def State.recordSettle (s : State) (g : GroupIdx) (i : PointIdx) : State :=
  (s.learnAtSettle g i).modEntry g i fun e => e.settle (s.group g).direction (s.positionOf i)

/-- The settled event of a member (R54, R121): the entry, coast learning, then an evaluation or the STOPPING end
test. -/
def State.settledEvent (s : State) (i : PointIdx) : State :=
  if s.inActiveMove i then
    let g := (s.point i).group
    let s1 := s.recordSettle g i
    if (s1.group g).headIs MoveState.driving then s1.evaluate g else s1.endTest g
  else s

/-! ## The start sequence (R91 to R95) -/

/-- The group is formed: every taking member counts as started (R95). -/
def Move.formed (m : Move) : Bool := m.runList.all fun e => e.started || e.released

/-- A formed STARTING move becomes RUNNING (R95). -/
def Move.form (m : Move) : Move :=
  if m.state = .starting && m.formed then { m with state := .running } else m

/-- The member's start was taken: it counts as started, its settled flag is cleared, and formation is tested
(R94, R95, R104). -/
def State.memberStarted (s : State) (g : GroupIdx) (i : PointIdx) : State :=
  (s.modEntry g i fun e => { e with started := true, settled := false }).modGroup g fun r => r.modHead Move.form

/-- A start slot dropped for an open limit switch (R94). -/
def State.slotLimit (s : State) (g : GroupIdx) (i : PointIdx) : State :=
  if 2 ≤ (s.group g).runList.length then s.trip g .limit (some i)
  else s.enterStopping g none (some .limit)

/-- The Group Unit acts on the Sequencer's answer to a start slot (R94). -/
def State.startAnswer (s : State) (g : GroupIdx) (i : PointIdx) (a : Answer) : State :=
  if (s.group g).headIs isStarting then
    match a with
    | .taken => s.memberStarted g i
    | .dropped .switch => s.slotLimit g i
    | .dropped .permit => s.enterStopping g (some .permit) none
    | .dropped .notActive | .dropped .fault | .dropped .estop => s
    | .held | .refused => s
  else s

/-- The first entry of the start schedule is due in a STARTING move (R94). -/
def State.dueSlot (s : State) (g : GroupIdx) : Option PointIdx :=
  let r := s.group g
  match r.schedule with
  | (i, due) :: _ => if r.headIs isStarting && due ≤ s.time then some i else none
  | [] => none

/-- A due slot: the member leaves the schedule, its energize request is issued, and the answer is acted on
(R94). -/
def State.startSlot (s : State) (g : GroupIdx) : State :=
  match s.dueSlot g with
  | some i =>
    let s1 := s.modGroup g fun r => { r with schedule := r.schedule.tail }
    let (s2, a) := s1.energizeRequest i (s.group g).direction
    s2.startAnswer g i a
  | none => s

/-- The start schedule: the k-th taking member is due k staggers after the entry (R92). -/
def scheduleFrom (now stagger : Nat) : List PointIdx → List (PointIdx × Nat)
  | [] => []
  | i :: rest => (i, now) :: scheduleFrom (now + stagger) stagger rest

/-- An entry at the move's entry into STARTING: progress recomputed, and a taking member has yet to start
(R92, R93, R104). -/
def RunEntry.enter (e : RunEntry) (d : Dir) (position : Int) : RunEntry :=
  { e with progress := progressAt d e.start position, started := false }

/-- The taking members: the entries whose released flag is clear (R90, R91, R93). -/
def Group.taking (r : Group) : List PointIdx := (r.runList.filter fun e => !e.released).map (·.point)

/-- Entry to STARTING (R92). The slots due at the entry are handled within the event. -/
def State.enterStarting (s : State) (g : GroupIdx) : State :=
  let d := (s.group g).direction
  let taking := (s.group g).taking
  let s1 := s.modGroup g fun r =>
    { r.modHead fun m =>
        { m with state := .starting, runList := m.runList.map fun e => e.enter d (s.positionOf e.point) } with
      stopReason := none
      permit := some (s.time + msToUs r.window)
      schedule := scheduleFrom s.time (msToUs r.stagger) taking }
  taking.foldl (fun t _ => t.startSlot g) s1

/-- A run-list entry at the first start (R91). -/
def State.newEntry (s : State) (b : MoveBody) (i : PointIdx) : RunEntry :=
  let start := s.positionOf i
  { point := i
    start := start
    target :=
      match b with
      | .groupBy delta => some (start + delta)
      | .pointTo _ target => some target
      | .groupJog _ | .pointJog _ _ => none
    progress := 0
    gated := false
    released := false
    settled := (s.point i).channel.state == .off
    started := false
    releasePos := none
    arrivalError := none }

/-- The direction that a first start sets for a POINT_TO (R91). -/
def startDirection (b : MoveBody) (l : List RunEntry) : Option Dir :=
  match b, l with
  | .pointTo _ target, e :: _ =>
    if e.start < target then some .up else if target < e.start then some .down else none
  | _, _ => none

/-- The target lies outside the position range or outside the member's soft limits (R91 test 1). -/
def State.targetOutside (s : State) (e : RunEntry) : Bool :=
  e.target.any fun t => !(inPositionRange t && s.passesSoft e.point t)

/-- The move is a POINT_TO whose target equals its start position (R91 test 2). -/
def alreadyThere (b : MoveBody) (l : List RunEntry) : Bool :=
  match b, l with
  | .pointTo _ target, e :: _ => e.start == target
  | _, _ => false

/-- MOVE_STARTED (R91, R93). -/
def State.reportStart (s : State) (g : GroupIdx) (resume : Bool) (m : Move) : State :=
  s.produce (some g) (.moveStarted resume m.tag m.body.kind m.body.point)

/-- The first start of a QUEUED head (R91), with the GO's result. -/
def State.firstStart (s : State) (g : GroupIdx) (m : Move) : State × Result :=
  let l := (s.involved g m.body).map (s.newEntry m.body)
  let s1 := s.modGroup g fun r => r.modHead fun h => { h with runList := l, toDirection := startDirection m.body l }
  match l.find? s.targetOutside with
  | some e => (s1.endHead g .refusedLimit (some e.point), .limit)
  | none =>
    if alreadyThere m.body l then (s1.endHead g .arrived none (l.map fun e => (e.point, 0)), .ok)
    else
      let s2 := s1.modGroup g fun r => { r with baseline := s1.shares g }
      ((s2.reportStart g false m).enterStarting g, .ok)

/-- The resume of a HELD head (R93): the gated flags of the taking members are cleared. -/
def State.resume (s : State) (g : GroupIdx) (m : Move) : State :=
  let s1 := s.modGroup g fun r => r.modHead fun h =>
    { h with runList := h.runList.map fun e => if e.released then e else { e with gated := false } }
  (s1.reportStart g true m).enterStarting g

/-! ## The pending energize comes due (R46, R119, R120) -/

/-- The executor or the Group Unit acts on the outcome: a start slot's as R94 states, a rejoin's with an
evaluation and, when dropped, R120 after it (R108 stage 6, log entry 15). -/
def State.dueAnswer (s : State) (i : PointIdx) (started : Bool) (a : Answer) : State :=
  let g := (s.point i).group
  if started then
    match a with
    | .taken => (s.modEntry g i fun e => { e with settled := false }).evaluate g
    | .dropped c => (s.evaluate g).rejoinDropped g i c
    | .held | .refused => s
  else s.startAnswer g i a

/-- The pending energize of channel i comes due (R46): the permission test is made again, and the request is
taken or dropped. -/
def State.pendingDue (s : State) (i : PointIdx) : State :=
  match (s.point i).channel.pending with
  | some d =>
    let started := ((s.groupOf i).entry i).any (·.started)
    match s.denial i d with
    | none => (s.energize i d).dueAnswer i started .taken
    | some c => (s.dropPending i).dueAnswer i started (.dropped c)
  | none => s

/-- The active t_guard and t_reverse have changed while a pending energize is held, and its new due moment is
already past: it comes due at this event (R46). -/
def State.pendingMoved (s : State) (i : PointIdx) (before : Settings) : State :=
  let p := s.point i
  if (p.settings.tGuard != before.tGuard || p.settings.tReverse != before.tReverse) &&
      p.channel.pending.any (s.waitElapsed i) then s.pendingDue i
  else s

end Sys2Proof.Machine
end

