-- ==== Sys2Proof/Machine/ChannelEvents.lean ====
section
/-! DEFINITION. Events of a channel: encoder edges and counts, simulated counts, and the timers of the Channel
Sequencer and the Encoder Capture (chapters 2, 3 and 9.3). -/

namespace Sys2Proof.Machine

/-! ## Encoder edges and counts (R21 to R31) -/

/-- A count of creep (R30, R31): CREEP at the fourth. -/
def State.creepCount (s : State) (i : PointIdx) : State :=
  if 3 ≤ (s.point i).capture.creep then
    (s.modPoint i fun p => { p with capture := { p.capture with creep := 0 } }).raiseFault i .creep
  else s.modPoint i fun p => { p with capture := { p.capture with creep := p.capture.creep + 1 } }

/-- A count in the energized direction (R26): the wrong-way counter is cleared and a running stall timer
restarts. -/
def Point.travel (p : Point) (now : Nat) : Point :=
  { p with
    capture :=
      { p.capture with
        wrongWay := 0
        stallDue := if p.capture.stallDue.isSome then some (now + msToUs p.settings.tStall) else none } }

/-- A count against the energized direction (R27): REVERSED at the fourth. -/
def State.wrongWayCount (s : State) (i : PointIdx) : State :=
  if 3 ≤ (s.point i).capture.wrongWay then
    (s.modPoint i fun p => { p with capture := { p.capture with wrongWay := 0 } }).raiseFault i .reversed
  else s.modPoint i fun p => { p with capture := { p.capture with wrongWay := p.capture.wrongWay + 1 } }

/-- A count is handled by the channel state, in a rehearsing group as creep (R23 step 3, R26 to R31). -/
def State.countByState (s : State) (i : PointIdx) (d : Dir) : State :=
  if s.rehearsing i then s.creepCount i
  else
    match (s.point i).channel.state with
    | .off => s.creepCount i
    | .settle => s
    | .up => if d = .up then s.modPoint i fun p => p.travel s.time else s.wrongWayCount i
    | .down => if d = .down then s.modPoint i fun p => p.travel s.time else s.wrongWayCount i

/-- POSITION_RANGE is raised unless it is the latched fault already (R24, R161). -/
def State.raiseRange (s : State) (i : PointIdx) : State :=
  if (s.point i).latched = some .positionRange then s else s.raiseFault i .positionRange

/-- A count arrives at a point (R23): range test, position, handling by state, hand-off (R25). -/
def State.takeCount (s : State) (i : PointIdx) (d : Dir) : State :=
  let next := (s.point i).capture.position + d.sign
  if inPositionRange next then
    let s1 := s.modPoint i fun p => { p with capture := { p.capture with position := next, lastCount := some d } }
    let s2 := s1.countByState i d
    if s2.rehearsing i then s2 else s2.countArrival i
  else s.raiseRange i

/-- A level change on a phase input (R21, R22). An input that already has the level makes no edge. -/
def State.encoderEdge (s : State) (i : PointIdx) (ph : Phase) (high : Bool) : State :=
  let c := (s.point i).capture
  if c.level ph = high then s
  else
    let other := c.level (match ph with | .a => .b | .b => .a)
    let s1 := s.modPoint i fun p => { p with capture := p.capture.setLevel ph high }
    if stepCounts (s.point i).settings.encoderMode ph high then s1.takeCount i (edgeStep ph high other) else s1

/-- ENCODER_EDGE (R21). -/
def execEncoderEdge (i : PointIdx) (ph : Phase) (high : Bool) (s : State) : Host.Outcome State Fault Refusal :=
  s.live fun s => s.encoderEdge i ph high

/-! ## Simulated counts (R159, R161) -/

/-- The shadow after its timer is set for the next count: one interval after this one (R159, log entry 16). -/
def Shadow.retime (sh : Shadow) (speed : Nat) : Shadow :=
  { sh with simDue := sh.simDue.map (· + simInterval speed) }

/-- A simulated count in direction d (R159): the shadow moves and the executor is handed the count; at the bound
it is dropped (R161). -/
def State.moveShadow (s : State) (i : PointIdx) (sh : Shadow) (d : Dir) : State :=
  let sh1 := sh.retime (s.point i).settings.nominalSpeed
  let next := sh.position + d.sign
  if inPositionRange next then
    (s.modPoint i fun p => { p with shadow := some { sh1 with position := next } }).countArrival i
  else (s.modPoint i fun p => { p with shadow := some sh1 }).raiseRange i

/-- The simulation timer of an energized rehearsing member is due (R159). -/
def State.simulatedCount (s : State) (i : PointIdx) : State :=
  match s.shadowOf i, (s.point i).channel.state.dir with
  | some sh, some d => if s.isDue sh.simDue then s.moveShadow i sh d else s
  | _, _ => s

/-- SIMULATED_COUNT (R159). -/
def execSimulatedCount (i : PointIdx) (s : State) : Host.Outcome State Fault Refusal :=
  s.live fun s => s.simulatedCount i

/-! ## The Sequencer's and the capture's timers (R33, R46, R49, R53) -/

/-- PENDING_ENERGIZE_DUE (R46): the pending energize comes due once its wait has elapsed. -/
def State.pendingEnergizeDue (s : State) (i : PointIdx) : State :=
  if (s.point i).channel.pending.any (s.waitElapsed i) then s.pendingDue i else s

/-- PENDING_ENERGIZE_DUE (R46). -/
def execPendingEnergizeDue (i : PointIdx) (s : State) : Host.Outcome State Fault Refusal :=
  s.live fun s => s.pendingEnergizeDue i

/-- The executor's answer for a deferred soft release that the evaluation left in place (R49, R118): confirm for
a gated unreleased member, otherwise withdraw. -/
def State.redecide (s : State) (i : PointIdx) : State :=
  if (s.point i).channel.deferredDue.isNone then s
  else if ((s.groupOf i).entry i).any fun e => e.gated && !e.released then s.release i
  else s.modPoint i fun p => { p with channel := { p.channel with deferredDue := none } }

/-- A deferred soft release comes due (R49): evaluation, then the re-decision (R118). -/
def State.minimumRunDue (s : State) (i : PointIdx) : State :=
  if s.isDue (s.point i).channel.deferredDue then (s.evaluate (s.point i).group).redecide i else s

/-- MINIMUM_RUN_DUE (R49). -/
def execMinimumRunDue (i : PointIdx) (s : State) : Host.Outcome State Fault Refusal :=
  s.live fun s => s.minimumRunDue i

/-- The point's record at the entry to OFF (R53, R8): the staged copy is applied and becomes absent. -/
def Point.toOff (p : Point) : Point :=
  { p with
    channel := { p.channel with state := .off, settleDue := none }
    settings := match p.staged with
      | some k => p.settings.applyStaged k
      | none => p.settings
    staged := none }

/-- The settle timer expires (R53): OFF, the staged copy, the settled event, and a pending energize that the
applied times have made due (log entry 11). -/
def State.settleEnd (s : State) (i : PointIdx) : State :=
  if s.isDue (s.point i).channel.settleDue then
    ((s.modPoint i Point.toOff).settledEvent i).pendingMoved i (s.point i).settings
  else s

/-- SETTLE_END (R53). -/
def execSettleEnd (i : PointIdx) (s : State) : Host.Outcome State Fault Refusal := s.live fun s => s.settleEnd i

/-- The stall timer expires (R33): it stops, and STALL is raised. -/
def State.stallExpiry (s : State) (i : PointIdx) : State :=
  if s.isDue (s.point i).capture.stallDue then
    (s.modPoint i fun p => { p with capture := { p.capture with stallDue := none } }).raiseFault i .stall
  else s

/-- STALL_EXPIRY (R33). -/
def execStallExpiry (i : PointIdx) (s : State) : Host.Outcome State Fault Refusal := s.live fun s => s.stallExpiry i

end Sys2Proof.Machine
end

