-- ==== Sys2Proof/Machine/Clearing.lean ====
section
/-! DEFINITION. Clearing faults and trips, and the rehearsal mode: CLEAR_FAULT, CLEAR_TRIP and REHEARSAL (8.3, 9.2). -/

namespace Sys2Proof.Machine

/-- The latched fault still persists (R148, R72). -/
def Point.persists (p : Point) : Bool :=
  match p.latched with
  | some .limitWiring => !p.switches.upperClosed && !p.switches.lowerClosed
  | some .overload => p.overloaded
  | some .loadStale => p.load.state == .stale
  | some .sensor => p.load.sensor
  | some .stall | some .reversed | some .creep | some .positionRange | some .underload => false
  | none => false

/-- The point's record after an accepted CLEAR_FAULT (R147). -/
def Point.clear (p : Point) : Point :=
  { p with latched := none, further := false, capture := { p.capture with wrongWay := 0, creep := 0 } }

/-- CLEAR_FAULT (R147). -/
def clearFaultOwner (p : Port) (s : State) (i : PointIdx) (_ : GoodFrame) : State × Result :=
  if !s.allowed p (s.point i).group .operate then (s, .noRight)
  else if (s.point i).channel.state != .off then (s, .busy)
  else if (s.point i).persists then (s, .persists)
  else (s.modPoint i Point.clear, .ok)

/-- CLEAR_FAULT (R147). -/
def execClearFault (p : Port) (tail : FrameTail) (s : State) : Host.Outcome State Fault Refusal :=
  s.live fun s => s.takeRequest p tail .clearFault pointIndex (clearFaultOwner p)

/-- CLEAR_TRIP (R149). -/
def clearTripOwner (p : Port) (s : State) (g : GroupIdx) (_ : GoodFrame) : State × Result :=
  if !s.allowed p g .operate then (s, .noRight)
  else if (s.group g).state != .tripped then (s, .nothing)
  else if s.estop then (s, .estop)
  else if (s.members g).any fun i => (s.point i).latched.isSome then (s, .faulted)
  else ((s.modGroup g fun r => { r with trip := none }).produce (some g) .tripCleared, .ok)

/-- CLEAR_TRIP (R149). -/
def execClearTrip (p : Port) (tail : FrameTail) (s : State) : Host.Outcome State Fault Refusal :=
  s.live fun s => s.takeRequest p tail .clearTrip groupIndex (clearTripOwner p)

/-- The shadow record that a member gets at entry (R157). -/
def Point.enterRehearsal (p : Point) : Point :=
  { p with shadow := some { position := p.capture.position, referenced := p.capture.referenced, simDue := none } }

/-- The group enters rehearsal (R157). -/
def State.enterRehearsal (s : State) (g : GroupIdx) : State :=
  (s.members g).foldl (fun t i => t.modPoint i Point.enterRehearsal)
    (s.modGroup g fun r => { r with rehearsal := true })

/-- The group leaves rehearsal (R158). -/
def State.leaveRehearsal (s : State) (g : GroupIdx) : State :=
  (s.members g).foldl (fun t i => t.modPoint i fun p => { p with shadow := none })
    (s.modGroup g fun r => { r with rehearsal := false })

/-- Case 5 of R156 does not apply: the group is IDLE with an empty queue and every member's channel is OFF. -/
def State.mayEnterRehearsal (s : State) (g : GroupIdx) : Bool :=
  (s.group g).state == .idle && (s.group g).queue.isEmpty &&
    (s.members g).all fun i => (s.point i).channel.state == .off

/-- Case 6 of R156 does not apply: the group is IDLE with an empty queue, or TRIPPED. -/
def Group.mayLeaveRehearsal (r : Group) : Bool := r.state == .idle && r.queue.isEmpty || r.state == .tripped

/-- REHEARSAL (R156). -/
def rehearsalOwner (p : Port) (s : State) (g : GroupIdx) (f : GoodFrame) : State × Result :=
  if (s.group g).holder != some p then (s, .notHolder)
  else
    match headerMode f.header with
    | none => (s, .badValue)
    | some on =>
      if s.estop then (s, .busy)
      else if on = (s.group g).rehearsal then (s, .ok)
      else if on then if s.mayEnterRehearsal g then (s.enterRehearsal g, .ok) else (s, .busy)
      else if (s.group g).mayLeaveRehearsal then (s.leaveRehearsal g, .ok)
      else (s, .busy)

/-- REHEARSAL (R156). -/
def execRehearsal (p : Port) (tail : FrameTail) (s : State) : Host.Outcome State Fault Refusal :=
  s.live fun s => s.takeRequest p tail .rehearsal groupIndex (rehearsalOwner p)

end Sys2Proof.Machine
end

