-- ==== Sys2Proof/Machine/LineEvents.lean ====
section
/-! DEFINITION. Events of the machine-side lines: RESET, limit switches and the ESTOP loop (1.6, 3.6, 8.4). -/

namespace Sys2Proof.Machine

/-! ## RESET (R1, R18, R58, R60, R164) -/

/-- Both switches of the point read open (R18). -/
def Switches.bothOpen (w : Switches) : Bool := !w.upperClosed && !w.lowerClosed

/-- A point whose two switches both read open after the reset has LIMIT_WIRING latched (R18). -/
def State.checkWiring (s : State) (i : PointIdx) : State :=
  if (s.point i).switches.bothOpen then s.raiseFault i .limitWiring else s

/-- The release of RESET, or power-on (R1): every record at its reset value, with the input levels of that
moment. The queue of waiting commands is not the part's, and stays (log entry 24). DESIGN CHOICE (log entry 27): when
several points read both switches open, LIMIT_WIRING is latched and reported in ascending point order (R18, R154 and
R183 give no order of the points). -/
def State.deviceReset (s : State) (levels : ResetLevels) : State :=
  allPoints.foldl State.checkWiring { State.atReset levels with pending := s.pending }

/-- DEVICE_RESET (R1). -/
def execDeviceReset (levels : ResetLevels) (s : State) : Host.Outcome State Fault Refusal :=
  .next (s.deviceReset levels)

/-- A port without a frame in progress (R164). -/
def PortState.discardFrame (ps : PortState) : PortState := { ps with frame := none }

/-- The assertion of RESET (R58, R60, R164): the coil outputs are inactive while it lasts (`upOutput`,
`downOutput`), frames in progress are discarded without a result, and the Load Link record with them. DESIGN CHOICE
(log entry 36): the report queues and attention sets stay until the release, and with them the levels of the ATTN
lines. -/
def State.assertReset (s : State) : State :=
  { s with
    resetAsserted := true
    ports := { a := s.ports.a.discardFrame, b := s.ports.b.discardFrame, l := s.ports.l.discardFrame }
    linkChars := []
    linkGapDue := none }

/-- RESET_ASSERTED (R58). -/
def execResetAsserted (s : State) : Host.Outcome State Fault Refusal := .next s.assertReset

/-! ## Limit switches (R15 to R18) -/

/-- The switch's 3 ms qualification is set (R15). -/
def Switches.setDue (w : Switches) (k : Switch) (due : Option Nat) : Switches :=
  match k with
  | .upper => { w with upperDue := due }
  | .lower => { w with lowerDue := due }

/-- The switch's input level is set (R15). -/
def Switches.setInput (w : Switches) (k : Switch) (level : Bool) : Switches :=
  match k with
  | .upper => { w with upperInput := level }
  | .lower => { w with lowerInput := level }

/-- The switch's stored state is set (R15). -/
def Switches.setClosed (w : Switches) (k : Switch) (level : Bool) : Switches :=
  match k with
  | .upper => { w with upperClosed := level }
  | .lower => { w with lowerClosed := level }

/-- A change of a switch input (R15): away from the stored state it starts the 3 ms, back to it there is nothing
left to qualify. -/
def Switches.change (w : Switches) (k : Switch) (level : Bool) (now : Nat) : Switches :=
  (w.setInput k level).setDue k (if w.closed k = level then none else some (now + switchTime))

/-- A change on an LU or LL input (R15). An input that already has the level has not changed. -/
def State.limitInputChange (s : State) (i : PointIdx) (k : Switch) (level : Bool) : State :=
  if (s.point i).switches.input k = level then s
  else s.modPoint i fun p => { p with switches := p.switches.change k level s.time }

/-- LIMIT_INPUT_CHANGE (R15). -/
def execLimitInputChange (i : PointIdx) (k : Switch) (level : Bool) (s : State) :
    Host.Outcome State Fault Refusal :=
  s.live fun s => s.limitInputChange i k level

/-- The direction that a switch guards: up for the upper switch (R16). -/
def switchDir : Switch → Dir
  | .upper => .up
  | .lower => .down

/-- The consequence of a switch opening ahead of a driven channel (R16): a hard release, then a trip with cause
LIMIT for a run list of two or more, or a stop with end mark LIMIT for one. -/
def State.limitStop (s : State) (i : PointIdx) : State :=
  let s1 := s.release i
  let g := (s.point i).group
  if (s1.group g).inRunList i && (s1.group g).headIs MoveState.driving then
    if 2 ≤ (s1.group g).runList.length then s1.trip g .limit (some i)
    else s1.enterStopping g none (some .limit)
  else s1

/-- The effects of a switch event that opened switch k (R16 to R18). -/
def State.switchOpened (s : State) (i : PointIdx) (k : Switch) : State :=
  let s1 := if (s.point i).channel.state.dir = some (switchDir k) then s.limitStop i else s
  if (s1.point i).switches.bothOpen then s1.raiseFault i .limitWiring else s1

/-- The level of a switch input has held for 3 ms (R15): the stored state, the LIMIT report, and the effects of an
opening. DESIGN CHOICE (log entry 37): LIMIT comes before the POINT_FAULT, GROUP_TRIPPED and MOVE_ENDED of these
effects, against which R15 to R18, R145 and R178 do not order it. -/
def State.switchEvent (s : State) (i : PointIdx) (k : Switch) : State :=
  let w := (s.point i).switches
  if s.isDue (w.due k) then
    let level := w.input k
    let s1 := s.modPoint i fun p => { p with switches := (p.switches.setClosed k level).setDue k none }
    let s2 := s1.produce (some (s.point i).group) (.limit k level i)
    if level then s2 else s2.switchOpened i k
  else s

/-- SWITCH_EVENT (R15). -/
def execSwitchEvent (i : PointIdx) (k : Switch) (s : State) : Host.Outcome State Fault Refusal :=
  s.live fun s => s.switchEvent i k

/-! ## The ESTOP loop (R150 to R153) -/

/-- The assertion's effect on one group (R151 step 3): a head move that has left QUEUED is tripped, queued moves
of an IDLE group are flushed. -/
def State.estopGroup (s : State) (g : GroupIdx) : State :=
  let r := s.group g
  if r.state = .tripped then s
  else if r.headIs (· != .queued) then s.trip g .estop none
  else s.endAll g fun _ => .flushed

/-- The ESTOP state becomes asserted (R151). DESIGN CHOICE (log entry 28): step 1 releases the channels in ascending
point order, which decides the member that trips a rehearsing group when several simulated coasts pass the bound. -/
def State.assertEstop (s : State) : State :=
  let s1 := { s with estop := true }
  let s2 := s1.releaseAll allPoints
  let s3 := s2.produce none (.estop true)
  allGroups.foldl State.estopGroup s3

/-- The loop opens (R150): taken at once while the state is not asserted; while it is asserted the opening only ends
the qualification of a release (log entry 17). -/
def State.estopOpened (s : State) : State :=
  let s1 := { s with loopClosed := false, estopDue := none }
  if s.estop then s1 else s1.assertEstop

/-- ESTOP_ASSERTED (R151). -/
def execEstopAsserted (s : State) : Host.Outcome State Fault Refusal := s.live State.estopOpened

/-- The loop reads closed again (R150): the 50 ms of the release begin. -/
def State.estopLoopClosed (s : State) : State :=
  if s.loopClosed then s
  else { s with loopClosed := true, estopDue := if s.estop then some (s.time + estopTime) else none }

/-- ESTOP_LOOP_CLOSED (R150). -/
def execEstopLoopClosed (s : State) : Host.Outcome State Fault Refusal := s.live State.estopLoopClosed

/-- The loop has read closed for 50 ms (R153): not asserted, and a report to every port. -/
def State.estopReleased (s : State) : State :=
  if s.isDue s.estopDue then ({ s with estop := false, estopDue := none }).produce none (.estop false) else s

/-- ESTOP_RELEASED (R153). -/
def execEstopReleased (s : State) : Host.Outcome State Fault Refusal := s.live State.estopReleased

end Sys2Proof.Machine
end

