-- ==== Sys2Proof/Machine/LoadLink.lean ====
section
/-! DEFINITION. The Load Link, the samples, and the age of a load (chapter 4). -/

namespace Sys2Proof.Machine

/-! ## Samples (R62 to R71, R76) -/

/-- LOAD_STATUS (R67, R68). -/
def State.reportLoad (s : State) (i : PointIdx) (st : LoadState) : State :=
  s.produce (some (s.point i).group) (.loadStatus st (s.filteredOf i) i)

/-- Steps 1 to 4 of R64 on the load record: sensor flag, ring and index, filtered load, state and age timer. -/
def Load.accept (l : Load) (v now : Nat) : Load :=
  let ring := pushSample l.ring l.ringIndex v
  { l with
    sensor := false
    ring := some ring
    ringIndex := nextRingIndex l.ring l.ringIndex
    filtered := some (filterRing ring)
    state := .valid
    ageDue := some (now + ageTime) }

/-- The overload check (R70). -/
def State.overloadCheck (s : State) (i : PointIdx) : State :=
  let p := s.point i
  let s1 := s.modPoint i fun p => { p with load := { p.load with overExcursion := p.overloaded } }
  if p.overloaded && !p.load.overExcursion then s1.raiseFault i .overload else s1

/-- The underload check (R71). -/
def State.underloadCheck (s : State) (i : PointIdx) : State :=
  let under := s.underloaded i
  let s1 := s.modPoint i fun p => { p with load := { p.load with underExcursion := under } }
  if under && !(s.point i).load.underExcursion then s1.raiseFault i .underload else s1

/-- The share check of group g's head move (R76). -/
def State.shareCheck (s : State) (g : GroupIdx) : State :=
  let r := s.group g
  if r.headIs MoveState.driving && r.shareBand != 0 && !r.rehearsal then
    match r.baseline, s.shares g with
    | some b, some present =>
      match largestDeviation (deviations present b) with
      | some x => if r.shareBand < x.2 then s.trip g .share (some x.1) else s
      | none => s
    | _, _ => s
  else s

/-- An accepted sample (R64), in the order of its six steps; the report of R67 comes with step 4. -/
def State.acceptSample (s : State) (i : PointIdx) (v : Nat) : State :=
  let wasValid := (s.point i).load.state == .valid
  let s1 := s.modPoint i fun p => { p with load := p.load.accept v s.time }
  let s2 := if wasValid then s1 else s1.reportLoad i .valid
  let s3 := (s2.overloadCheck i).underloadCheck i
  if (s3.groupOf i).inRunList i then s3.shareCheck (s3.point i).group else s3

/-- A sensor-fault marker (R63). -/
def State.sensorMarker (s : State) (i : PointIdx) : State :=
  if (s.point i).load.sensor then s
  else (s.modPoint i fun p => { p with load := { p.load with sensor := true } }).raiseFault i .sensor

/-- A sample is sorted by its value (R62). -/
def State.takeSample (s : State) (i : PointIdx) (v : Int) : State :=
  if v = -32768 then s.sensorMarker i else s.acceptSample i v.toNat

/-! ## Records (R60, R61) -/

/-- The sum of a record's characters, modulo 256 (R61). -/
def recordSum (cs : List Byte) : Nat := (cs.map BitVec.toNat).sum % 256

/-- A complete record is checked and, when good, taken as a sample (R61, 12.6). -/
def State.takeRecord (s : State) (cs : List Byte) : State :=
  match cs with
  | [c1, c2, c3, _] =>
    match pointOfNat c1.toNat with
    | some i => if recordSum cs = 255 then s.takeSample i (c2 ++ c3).toInt else s
    | none => s
  | _ => s

/-- A character with a good stop bit is appended to the record being assembled; the fourth completes it (R60). -/
def State.receiveChar (s : State) (c : Byte) : State :=
  let cs := s.linkChars ++ [c]
  if 4 ≤ cs.length then { s with linkChars := [], linkGapDue := none }.takeRecord cs
  else { s with linkChars := cs, linkGapDue := some (s.time + linkGapTime) }

/-- LOAD_RECORD (R61): the characters received, each with a good stop bit (log entry 7). -/
def execLoadRecord (chars : List Byte) (s : State) : Host.Outcome State Fault Refusal :=
  s.live fun s => chars.foldl State.receiveChar s

/-- The partial record is discarded and assembly starts afresh (R60). -/
def State.discardRecord (s : State) : State := { s with linkChars := [], linkGapDue := none }

/-- LOAD_FRAMING_ERROR (R60). -/
def execLoadFramingError (s : State) : Host.Outcome State Fault Refusal := s.live State.discardRecord

/-- 500 µs of idle line after a partial record (R60). -/
def State.linkGap (s : State) : State := if s.isDue s.linkGapDue then s.discardRecord else s

/-- LOAD_LINK_GAP (R60). -/
def execLoadLinkGap (s : State) : Host.Outcome State Fault Refusal := s.live State.linkGap

/-! ## Age (R68) -/

/-- The age timer expires (R68): STALE, with LOAD_STALE raised on a driven channel and a report otherwise. -/
def State.ageExpiry (s : State) (i : PointIdx) : State :=
  if s.isDue (s.point i).load.ageDue then
    let s1 := s.modPoint i fun p => { p with load := { p.load with state := .stale, ageDue := none } }
    if (s.point i).channel.state.energized then s1.raiseFault i .loadStale else s1.reportLoad i .stale
  else s

/-- AGE_EXPIRY (R68). -/
def execAgeExpiry (i : PointIdx) (s : State) : Host.Outcome State Fault Refusal := s.live fun s => s.ageExpiry i

end Sys2Proof.Machine
end

