-- ==== Sys2Proof/Machine/MoveRequests.lean ====
section
/-! DEFINITION. Requests and events of the move queue: SUBMIT_MOVE, GO, STOP, STOP_ALL, CANCEL, the start slots and the
permit (5.4 to 5.9). -/

namespace Sys2Proof.Machine

/-! ## SUBMIT_MOVE (R86 to R88) -/

/-- The move that valid parameters describe (R87). -/
def moveBodyOf (m : MoveParams) : Option MoveBody :=
  match m.kind with
  | some .groupBy => if m.value != 0 && -1000000 ≤ m.value && m.value ≤ 1000000 then some (.groupBy m.value) else none
  | some .groupJog => m.dir.map .groupJog
  | some .pointTo =>
    match pointOfNat m.point with
    | some i => if inPositionRange m.value then some (.pointTo i m.value) else none
    | none => none
  | some .pointJog =>
    match pointOfNat m.point, m.dir with
    | some i, some d => some (.pointJog i d)
    | _, _ => none
  | none => none

/-- An involved point has encoder mode OFF, in a move that needs an encoder (R86 check 7, R90 case 7). -/
def State.lacksEncoder (s : State) (g : GroupIdx) (b : MoveBody) : Bool :=
  b.kind != .pointJog && (s.involved g b).any fun i => (s.point i).settings.encoderMode == .off

/-- An involved point has a latched fault (R86 check 9, R90 case 7). -/
def State.hasFault (s : State) (g : GroupIdx) (b : MoveBody) : Bool :=
  (s.involved g b).any fun i => (s.point i).latched.isSome

/-- Check 6 of R86. -/
def State.involvedRefusal (s : State) (g : GroupIdx) (b : MoveBody) : Option Result :=
  match b.point with
  | none => if (s.members g).isEmpty then some .empty else none
  | some i => if (s.point i).group = g then none else some .badIndex

/-- Check 8 of R86. -/
def State.targetRefusal (s : State) (b : MoveBody) : Option Result :=
  match b with
  | .pointTo i target =>
    if !s.referencedOf i then some .notReferenced
    else if !s.passesSoft i target then some .limit
    else none
  | .groupBy _ | .groupJog _ | .pointJog _ _ => none

/-- Checks 6 to 9 of R86. -/
def State.bodyRefusal (s : State) (g : GroupIdx) (b : MoveBody) : Option Result :=
  match s.involvedRefusal g b with
  | some r => some r
  | none =>
    if s.lacksEncoder g b then some .noEncoder
    else
      match s.targetRefusal b with
      | some r => some r
      | none => if s.hasFault g b then some .faulted else none

/-- An admitted move (R88). -/
def newMove (p : Port) (tag : BitVec 16) (b : MoveBody) : Move where
  body := b
  tag := tag
  submitter := p
  state := .queued
  toDirection := none
  endMark := none
  runList := []

/-- The capacity of a move queue (R85). -/
def moveCapacity : Nat := 4

/-- SUBMIT_MOVE (R86, R88). -/
def submitMoveOwner (p : Port) (s : State) (g : GroupIdx) (f : GoodFrame) : State × Result :=
  let r := s.group g
  if r.holder != some p then (s, .notHolder)
  else if s.estop then (s, .estop)
  else if r.state = .tripped then (s, .tripped)
  else if moveCapacity ≤ r.queue.length then (s, .queueFull)
  else
    match moveBodyOf (decodeMoveParams f.payload) with
    | none => (s, .badValue)
    | some b =>
      match s.bodyRefusal g b with
      | some e => (s, e)
      | none => (s.modGroup g fun r => { r with queue := r.queue ++ [newMove p (headerTag f.header) b] }, .ok)

/-- SUBMIT_MOVE (R86). -/
def execSubmitMove (p : Port) (tail : FrameTail) (s : State) : Host.Outcome State Fault Refusal :=
  s.live fun s => s.takeRequest p tail .submitMove groupIndex (submitMoveOwner p)

/-! ## GO (R90) -/

/-- The POINT_TO's point is unreferenced (R90 case 7). -/
def State.lacksReference (s : State) (b : MoveBody) : Bool :=
  match b with
  | .pointTo i _ => !s.referencedOf i
  | .groupBy _ | .groupJog _ | .pointJog _ _ => false

/-- Case 7 of R90: a QUEUED head is checked again and makes its first start. -/
def State.goFirst (s : State) (g : GroupIdx) (m : Move) : State × Result :=
  if s.lacksEncoder g m.body then (s, .noEncoder)
  else if s.lacksReference m.body then (s, .notReferenced)
  else if s.hasFault g m.body then (s, .faulted)
  else s.firstStart g m

/-- Case 8 of R90: a HELD head resumes unless a taking member has a latched fault. -/
def State.goResume (s : State) (g : GroupIdx) (m : Move) : State × Result :=
  if (s.group g).taking.any fun i => (s.point i).latched.isSome then (s, .faulted)
  else (s.resume g m, .ok)

/-- GO (R90). -/
def goOwner (p : Port) (s : State) (g : GroupIdx) (_ : GoodFrame) : State × Result :=
  let r := s.group g
  if r.holder != some p then (s, .notHolder)
  else if s.estop then (s, .estop)
  else if r.state = .tripped then (s, .tripped)
  else
    match r.head with
    | none => (s, .nothing)
    | some m =>
      match m.state with
      | .stopping => (s, .settling)
      | .starting | .running => (s.modGroup g fun r => { r with permit := some (s.time + msToUs r.window) }, .ok)
      | .queued => s.goFirst g m
      | .held => s.goResume g m

/-- GO (R90). -/
def execGo (p : Port) (tail : FrameTail) (s : State) : Host.Outcome State Fault Refusal :=
  s.live fun s => s.takeRequest p tail .go groupIndex (goOwner p)

/-! ## STOP, STOP_ALL and CANCEL (R99, R102) -/

/-- STOP at one group (R99): only a STARTING or RUNNING head move is stopped. -/
def State.stopGroup (s : State) (g : GroupIdx) : State := s.enterStopping g (some .stop) none

/-- STOP (R99): any port, any rights. -/
def execStop (p : Port) (tail : FrameTail) (s : State) : Host.Outcome State Fault Refusal :=
  s.live fun s => s.takeRequest p tail .stop groupIndex fun s g _ => (s.stopGroup g, .ok)

/-- STOP_ALL (R99): STOP on each of groups 0..7. DESIGN CHOICE (log entry 34): the groups are taken in ascending order,
which orders the MOVE_HELD and MOVE_ENDED reports of several groups whose stops end at once. -/
def execStopAll (p : Port) (tail : FrameTail) (s : State) : Host.Outcome State Fault Refusal :=
  s.live fun s => s.takeRequest p tail .stopAll anyIndex fun s _ _ => (allGroups.foldl State.stopGroup s, .ok)

/-- CANCEL (R102). -/
def cancelOwner (p : Port) (s : State) (g : GroupIdx) (f : GoodFrame) : State × Result :=
  let r := s.group g
  if r.holder != some p then (s, .notHolder)
  else if r.state.moving then (s, .busy)
  else if r.queue.isEmpty then (s, .nothing)
  else if headerScopeAll f.header then (s.endAll g fun _ => .cancelled, .ok)
  else (s.endHead g .cancelled, .ok)

/-- CANCEL (R102). -/
def execCancel (p : Port) (tail : FrameTail) (s : State) : Host.Outcome State Fault Refusal :=
  s.live fun s => s.takeRequest p tail .cancel groupIndex (cancelOwner p)

/-! ## START_SLOT and PERMIT_EXPIRY (R94, R97) -/

/-- START_SLOT (R94). -/
def execStartSlot (g : GroupIdx) (s : State) : Host.Outcome State Fault Refusal := s.live fun s => s.startSlot g

/-- The time base has reached the permit deadline (R97). -/
def State.permitExpiry (s : State) (g : GroupIdx) : State :=
  if s.isDue (s.group g).permit then s.enterStopping g (some .permit) none else s

/-- PERMIT_EXPIRY (R97). -/
def execPermitExpiry (g : GroupIdx) (s : State) : Host.Outcome State Fault Refusal := s.live fun s => s.permitExpiry g

end Sys2Proof.Machine
end

