-- ==== Sys2Proof/Machine/PortRequests.lean ====
section
/-! DEFINITION. Requests and events of a port itself: NOP, READ_TABLE, PORT_SETUP, POP_REPORT, PORT_RESTART and the
silence timer (10.5, 11.4). -/

namespace Sys2Proof.Machine

/-- NOP (R175): the frame end alone. -/
def execNop (p : Port) (tail : FrameTail) (s : State) : Host.Outcome State Fault Refusal :=
  s.live fun s => s.takeRequest p tail .nop anyIndex fun s _ _ => (s, .ok)

/-- READ_TABLE (R171): the reply was driven from the header's snapshot; an unknown table is refused BAD_VALUE. -/
def readTableOwner (s : State) (t : Option Table) (_ : GoodFrame) : State × Result :=
  match t with
  | some _ => (s, .ok)
  | none => (s, .badValue)

/-- READ_TABLE (R171). -/
def execReadTable (p : Port) (tail : FrameTail) (s : State) : Host.Outcome State Fault Refusal :=
  s.live fun s => s.takeRequest p tail .readTable tableIndex readTableOwner

/-- A port's settings after an accepted PORT_SETUP (R173). -/
def PortState.applyWrites (ps : PortState) (crc : Option Bool) (w : PortWrites) : PortState :=
  { ps with
    crcOn := crc.getD ps.crcOn
    seed := w.seed.getD ps.seed
    attention := w.attention.getD ps.attention }

/-- PORT_SETUP (R173): the CRC enable must name on or off. -/
def portSetupOwner (p : Port) (s : State) (_ : Unit) (f : GoodFrame) : State × Result :=
  let w := decodePortWrites f.header f.payload
  match w.crc with
  | none => (s.modPort p fun ps => ps.applyWrites none w, .ok)
  | some v =>
    match crcEnableOfInt v with
    | some b => (s.modPort p fun ps => ps.applyWrites (some b) w, .ok)
    | none => (s, .badValue)

/-- PORT_SETUP (R173). -/
def execPortSetup (p : Port) (tail : FrameTail) (s : State) : Host.Outcome State Fault Refusal :=
  s.live fun s => s.takeRequest p tail .portSetup anyIndex (portSetupOwner p)

/-- POP_REPORT (R181): the records driven are removed. -/
def popReportOwner (p : Port) (s : State) (_ : Unit) (f : GoodFrame) : State × Result :=
  if f.popCount = 0 then (s, if f.popEmpty then .ok else .shortRead)
  else (s.modPort p fun ps => { ps with queue := ps.queue.drop f.popCount }, .ok)

/-- POP_REPORT (R181). -/
def execPopReport (p : Port) (tail : FrameTail) (s : State) : Host.Outcome State Fault Refusal :=
  s.live fun s => s.takeRequest p tail .popReport anyIndex (popReportOwner p)

/-- The groups that a port holds, in ascending order (R136). -/
def State.heldBy (s : State) (p : Port) : List GroupIdx := allGroups.filter fun g => (s.group g).holder == some p

/-- A restart releases the port's groups (R136): every AUTHORITY report in ascending group order, so that they are the
first records in the port's queue, and after them the stops in the same order (log entry 31). -/
def State.restartRelease (s : State) (p : Port) : State :=
  let held := s.heldBy p
  held.foldl (fun t g => t.enterStopping g (some .authority) none) (held.foldl (fun t g => t.dropHolder g .restart) s)

/-- PORT_RESTART (R174, R136): the queue is flushed, and then the port's groups are released. -/
def portRestartOwner (p : Port) (s : State) (_ : Unit) (_ : GoodFrame) : State × Result :=
  ((s.modPort p fun ps => { ps with queue := [], lost := false }).restartRelease p, .ok)

/-- PORT_RESTART (R174). -/
def execPortRestart (p : Port) (tail : FrameTail) (s : State) : Host.Outcome State Fault Refusal :=
  s.live fun s => s.takeRequest p tail .portRestart anyIndex (portRestartOwner p)

/-- The silence timer of a port expires (R172). -/
def State.silenceExpiry (s : State) (p : Port) : State :=
  if s.isDue (s.port p).silenceDue then
    (s.modPort p fun ps => { ps with silent := true, silenceDue := none }).produce none (.portSilent p)
  else s

/-- SILENCE_EXPIRY (R172). -/
def execSilenceExpiry (p : Port) (s : State) : Host.Outcome State Fault Refusal := s.live fun s => s.silenceExpiry p

end Sys2Proof.Machine
end

