-- ==== Sys2Proof/Machine/SetupRequests.lean ====
section
/-! DEFINITION. Requests that write the records of points and groups: POINT_SETUP, SET_POSITION, GROUP_SETUP and
ASSIGN (1.2, 2.6, 5.1, 5.2). -/

namespace Sys2Proof.Machine

/-- The point is in the run list of its group's head move while that move is STARTING, RUNNING, STOPPING or HELD
(R12, R36). -/
def State.inStartedMove (s : State) (i : PointIdx) : Bool :=
  (s.groupOf i).inRunList i && (s.groupOf i).headIs (· != .queued)

/-- The channel is OFF, the group is not in rehearsal, and no started move holds the point (R12, R36). -/
def State.atRest (s : State) (i : PointIdx) : Bool :=
  (s.point i).channel.state == .off && !s.rehearsing i && !s.inStartedMove i

/-! ## POINT_SETUP (R2 to R12) -/

/-- The soft-limit test of R6 on the clamped written values; an unwritten limit is the active one. -/
def softPairOk (c : Settings) (w : PointWrites) : Bool :=
  (w.softLower.map clampPosition).getD c.softLower < (w.softUpper.map clampPosition).getD c.softUpper

/-- The immediate fields of a write set, clamped (R4, R10, R11). -/
def Settings.applyImmediate (c : Settings) (w : PointWrites) : Settings :=
  { c with
    nominalSpeed := (w.nominalSpeed.map clampSpeed).getD c.nominalSpeed
    overThreshold := (w.overThreshold.map clampOver).getD c.overThreshold
    underThreshold := (w.underThreshold.map clampUnder).getD c.underThreshold }

/-- An accepted encoder mode (R12, R35): a different mode clears the counters, the last count direction and the
referenced flag; the mode in force changes nothing. -/
def Point.applyMode (p : Point) (mode : Option EncoderMode) : Point :=
  match mode with
  | none => p
  | some m =>
    if p.settings.encoderMode = m then p
    else
      { p with
        settings := { p.settings with encoderMode := m }
        capture := { p.capture with referenced := false, lastCount := none, wrongWay := 0, creep := 0 } }

/-- The staged-class fields take effect at once in OFF and otherwise replace the staged copy whole (R4, R7). -/
def Point.applyStagedClass (p : Point) (k : Staged) : Point :=
  if k.isEmpty then p
  else if p.channel.state = .off then { p with settings := p.settings.applyStaged k }
  else { p with staged := some k }

/-- The point's record after an accepted POINT_SETUP (R4). -/
def Point.applyWrites (p : Point) (w : PointWrites) : Point :=
  (({ p with settings := p.settings.applyImmediate w }).applyMode w.encoderMode).applyStagedClass (stagedOfWrites w)

/-- POINT_SETUP (R2). Times that move a pending energize into the past make it due at this event (R46). -/
def pointSetupOwner (p : Port) (s : State) (i : PointIdx) (f : GoodFrame) : State × Result :=
  let w := decodePointWrites f.header f.payload
  if !s.allowed p (s.point i).group .setup then (s, .noRight)
  else if w.encoderMode.isSome && !s.atRest i then (s, .busy)
  else if (w.softUpper.isSome || w.softLower.isSome) && !softPairOk (s.point i).settings w then (s, .badValue)
  else ((s.modPoint i fun r => r.applyWrites w).pendingMoved i (s.point i).settings, .ok)

/-- POINT_SETUP (R2). -/
def execPointSetup (p : Port) (tail : FrameTail) (s : State) : Host.Outcome State Fault Refusal :=
  s.live fun s => s.takeRequest p tail .pointSetup pointIndex (pointSetupOwner p)

/-! ## SET_POSITION (R36, R37) -/

/-- The capture after an accepted SET_POSITION (R37). -/
def Capture.setPosition (c : Capture) (v : Int) : Capture :=
  { c with position := clampPosition v, referenced := true, creep := 0, lastCount := none }

/-- SET_POSITION (R36, R37). -/
def setPositionOwner (p : Port) (s : State) (i : PointIdx) (f : GoodFrame) : State × Result :=
  if !s.allowed p (s.point i).group .setup then (s, .noRight)
  else if (s.point i).settings.encoderMode = .off then (s, .noEncoder)
  else if !s.atRest i then (s, .busy)
  else (s.modPoint i fun r => { r with capture := r.capture.setPosition (f.payload.getD 0 0).toInt }, .ok)

/-- SET_POSITION (R36). -/
def execSetPosition (p : Port) (tail : FrameTail) (s : State) : Host.Outcome State Fault Refusal :=
  s.live fun s => s.takeRequest p tail .setPosition pointIndex (setPositionOwner p)

/-! ## GROUP_SETUP (R81) -/

/-- The group's record after an accepted GROUP_SETUP (R81): each value clamped, and the trip band raised when a
band was written. -/
def Group.applyWrites (r : Group) (w : GroupWrites) : Group :=
  let r1 :=
    { r with
      gateBand := (w.gateBand.map clampGateBand).getD r.gateBand
      tripBand := (w.tripBand.map clampTripBand).getD r.tripBand
      shareBand := (w.shareBand.map clampShareBand).getD r.shareBand
      stagger := (w.stagger.map clampStagger).getD r.stagger
      window := (w.window.map clampWindow).getD r.window
      preferred := (w.preferred.bind deskOfInt).getD r.preferred
      localPriority := w.localPriority.getD r.localPriority }
  if w.gateBand.isSome || w.tripBand.isSome then r1.raiseTripBand else r1

/-- GROUP_SETUP (R81). -/
def groupSetupOwner (p : Port) (s : State) (g : GroupIdx) (f : GoodFrame) : State × Result :=
  let w := decodeGroupWrites f.header f.payload
  if !s.allowed p g .setup then (s, .noRight)
  else if w.preferred.any fun v => (deskOfInt v).isNone then (s, .badValue)
  else (s.modGroup g fun r => r.applyWrites w, .ok)

/-- GROUP_SETUP (R81). -/
def execGroupSetup (p : Port) (tail : FrameTail) (s : State) : Host.Outcome State Fault Refusal :=
  s.live fun s => s.takeRequest p tail .groupSetup groupIndex (groupSetupOwner p)

/-! ## ASSIGN (R83) -/

/-- The group is IDLE with an empty queue and not in rehearsal (R83). -/
def Group.assignable (r : Group) : Bool := r.state == .idle && r.queue.isEmpty && !r.rehearsal

/-- ASSIGN (R83). -/
def assignOwner (p : Port) (s : State) (x : PointIdx × GroupIdx) (_ : GoodFrame) : State × Result :=
  let o := (s.point x.1).group
  if !(s.allowed p o .setup && s.allowed p x.2 .setup) then (s, .noRight)
  else if !((s.group o).assignable && (s.group x.2).assignable) then (s, .busy)
  else (s.modPoint x.1 fun r => { r with group := x.2 }, .ok)

/-- ASSIGN (R83). -/
def execAssign (p : Port) (tail : FrameTail) (s : State) : Host.Outcome State Fault Refusal :=
  s.live fun s => s.takeRequest p tail .assign assignIndex (assignOwner p)

end Sys2Proof.Machine
end

