-- ==== Sys2Proof/Machine/Dispatch.lean ====
section
/-! DEFINITION. One arm per command: the call of its meaning. -/

namespace Sys2Proof.Machine

def exec (i : Instr) (s : State) : Host.Outcome State Fault Refusal :=
  match i with
  | .deviceReset levels => Sys2Proof.Machine.execDeviceReset levels s
  | .resetAsserted => Sys2Proof.Machine.execResetAsserted s
  | .frameStart p => Sys2Proof.Machine.execFrameStart p s
  | .headerComplete p h => Sys2Proof.Machine.execHeaderComplete p h s
  | .badFrame p t => Sys2Proof.Machine.execBadFrame p t s
  | .unknownRequest p t => Sys2Proof.Machine.execUnknownRequest p t s
  | .nop p t => Sys2Proof.Machine.execNop p t s
  | .readTable p t => Sys2Proof.Machine.execReadTable p t s
  | .pointSetup p t => Sys2Proof.Machine.execPointSetup p t s
  | .groupSetup p t => Sys2Proof.Machine.execGroupSetup p t s
  | .portSetup p t => Sys2Proof.Machine.execPortSetup p t s
  | .setRights p t => Sys2Proof.Machine.execSetRights p t s
  | .assign p t => Sys2Proof.Machine.execAssign p t s
  | .setPosition p t => Sys2Proof.Machine.execSetPosition p t s
  | .take p t => Sys2Proof.Machine.execTake p t s
  | .release p t => Sys2Proof.Machine.execRelease p t s
  | .submitMove p t => Sys2Proof.Machine.execSubmitMove p t s
  | .go p t => Sys2Proof.Machine.execGo p t s
  | .stop p t => Sys2Proof.Machine.execStop p t s
  | .stopAll p t => Sys2Proof.Machine.execStopAll p t s
  | .cancel p t => Sys2Proof.Machine.execCancel p t s
  | .clearFault p t => Sys2Proof.Machine.execClearFault p t s
  | .clearTrip p t => Sys2Proof.Machine.execClearTrip p t s
  | .rehearsal p t => Sys2Proof.Machine.execRehearsal p t s
  | .popReport p t => Sys2Proof.Machine.execPopReport p t s
  | .portRestart p t => Sys2Proof.Machine.execPortRestart p t s
  | .silenceExpiry p => Sys2Proof.Machine.execSilenceExpiry p s
  | .encoderEdge n ph high => Sys2Proof.Machine.execEncoderEdge n ph high s
  | .startSlot g => Sys2Proof.Machine.execStartSlot g s
  | .permitExpiry g => Sys2Proof.Machine.execPermitExpiry g s
  | .pendingEnergizeDue n => Sys2Proof.Machine.execPendingEnergizeDue n s
  | .minimumRunDue n => Sys2Proof.Machine.execMinimumRunDue n s
  | .settleEnd n => Sys2Proof.Machine.execSettleEnd n s
  | .stallExpiry n => Sys2Proof.Machine.execStallExpiry n s
  | .limitInputChange n k level => Sys2Proof.Machine.execLimitInputChange n k level s
  | .switchEvent n k => Sys2Proof.Machine.execSwitchEvent n k s
  | .estopAsserted => Sys2Proof.Machine.execEstopAsserted s
  | .estopLoopClosed => Sys2Proof.Machine.execEstopLoopClosed s
  | .estopReleased => Sys2Proof.Machine.execEstopReleased s
  | .loadRecord chars => Sys2Proof.Machine.execLoadRecord chars s
  | .loadFramingError => Sys2Proof.Machine.execLoadFramingError s
  | .loadLinkGap => Sys2Proof.Machine.execLoadLinkGap s
  | .ageExpiry n => Sys2Proof.Machine.execAgeExpiry n s
  | .simulatedCount n => Sys2Proof.Machine.execSimulatedCount n s

end Sys2Proof.Machine
end

