-- ==== Sys2Proof/Machine/Step.lean ====
section
/-! DEFINITION. One step of the block, and the placing of a command at the front of its queue. -/

namespace Sys2Proof.Machine

/-- One step: the command at the front of the queue is taken, and its meaning acts on the state with the queue's
rest. On an empty queue the block is left alone for one tick: the 1 µs time base advances by one (DESIGN CHOICE,
log entry 2). -/
def step (s : State) : Host.Outcome State Fault Refusal :=
  match s.pending with
  | c :: rest => exec c { s with pending := rest }
  | [] => .next { s with time := s.time + 1 }

/-- The command that a table word spells, put at the front of the queue; no word spells one (log entry 21). -/
def State.withFetchWord (s : State) (nbits w : Nat) : State :=
  match decodeTableWord nbits w with
  | some c => { s with pending := c :: s.pending }
  | none => s

end Sys2Proof.Machine
end

