-- ==== Sys2Proof/Safety.lean ====
section
/-! DEFINITION. The vocabulary of the statements: frames that bring a request, timers that are due, channels at rest,
and the laws that hold in every state a run reaches. -/

namespace Sys2Proof.Machine

/-! ## Frames -/

/-- The frame end at port p with this tail is good, brings f, and names this request, while RESET is not
asserted (R167, R170). -/
def State.brings (s : State) (p : Port) (tail : FrameTail) (req : Request) (f : GoodFrame) : Prop :=
  s.resetAsserted = false ∧ s.goodEnd p tail = some f ∧ headerRequest f.header = some req

/-- The state after step 1 of R170: the frame is over, the port is heard. -/
def State.afterFrame (s : State) (p : Port) : State := (s.endFrame p).heard p

/-- The frame is heard and answered with a result, and nothing else changes (R170 step 1 and its last sentence). -/
def State.answered (s : State) (p : Port) (r : Result) : State := (s.afterFrame p).setResult p r

/-- The frame-end command of a request. -/
def frameEndOf (req : Request) (p : Port) (tail : FrameTail) : Instr :=
  match req with
  | .nop => .nop p tail
  | .readTable => .readTable p tail
  | .pointSetup => .pointSetup p tail
  | .groupSetup => .groupSetup p tail
  | .portSetup => .portSetup p tail
  | .setRights => .setRights p tail
  | .assign => .assign p tail
  | .setPosition => .setPosition p tail
  | .take => .take p tail
  | .release => .release p tail
  | .submitMove => .submitMove p tail
  | .go => .go p tail
  | .stop => .stop p tail
  | .stopAll => .stopAll p tail
  | .cancel => .cancel p tail
  | .clearFault => .clearFault p tail
  | .clearTrip => .clearTrip p tail
  | .rehearsal => .rehearsal p tail
  | .popReport => .popReport p tail
  | .portRestart => .portRestart p tail

/-- The index of a header lies in the range of 10.6 for a request; a READ_TABLE goes by its table (R170
step 3). -/
def indexInRange (req : Request) (h : Word) : Bool :=
  match req with
  | .nop | .portSetup | .stopAll | .popReport | .portRestart => true
  | .pointSetup | .setPosition | .clearFault => headerIndex h < 24
  | .groupSetup | .setRights | .take | .release | .submitMove | .go | .stop | .cancel | .clearTrip
  | .rehearsal => headerIndex h < 8
  | .assign => headerIndex h < 24 && headerNewGroup h < 8
  | .readTable =>
    match headerTable h with
    | some .point => headerIndex h < 24
    | some .group | some .queue => headerIndex h < 8
    | some .rights | some .ports | none => true

/-- The length of 12.2 for a request; absent for the reads, which take any length. -/
def acceptedLength (req : Request) : Option Nat :=
  match req with
  | .readTable | .popReport => none
  | .pointSetup => some 11
  | .groupSetup => some 7
  | .portSetup => some 3
  | .setPosition => some 1
  | .submitMove => some 2
  | .nop | .setRights | .assign | .take | .release | .go | .stop | .stopAll | .cancel | .clearFault | .clearTrip
  | .rehearsal | .portRestart => some 0

/-- A length is one that the request accepts (R170 step 4). -/
def lengthAccepted (req : Request) (h : Word) : Prop := ∀ n, acceptedLength req = some n → headerLength h = n

/-- The good frame also has a length that its request accepts, so the owner decides it (R170 step 5). -/
def State.delivers (s : State) (p : Port) (tail : FrameTail) (req : Request) (f : GoodFrame) : Prop :=
  s.brings p tail req f ∧ lengthAccepted req f.header

/-- Mask bit k of a write set selects payload word k + 1, which carries the value; another word is not read (12.3,
R184). -/
def selectedWord (h : Word) (payload : List Word) (k : Nat) : Option Word := if h.getLsbD k then payload[k]? else none

/-! ## Channels -/

/-- The channel is at rest or settling and holds no pending energize. -/
def Channel.quiet (c : Channel) : Bool := !c.state.energized && c.pending.isNone

/-- The point's record at its channel's entry to OFF (R53, R8): each field of the staged copy replaces the active value,
t_reverse is raised to t_guard (R5), and the copy is gone. -/
def Point.inOff (q : Point) : Point :=
  { q with
    channel := { q.channel with state := .off, settleDue := none }
    settings :=
      match q.staged with
      | some k =>
        { q.settings with
          softUpper := k.softUpper.getD q.settings.softUpper, softLower := k.softLower.getD q.settings.softLower
          tGuard := k.tGuard.getD q.settings.tGuard
          tReverse := max (k.tReverse.getD q.settings.tReverse) (k.tGuard.getD q.settings.tGuard)
          tMinrun := k.tMinrun.getD q.settings.tMinrun, tSettle := k.tSettle.getD q.settings.tSettle
          tStall := k.tStall.getD q.settings.tStall }
      | none => q.settings
    staged := none }

/-- What a settle end of channel i answers when its settled event has led to u (R53, R46; that the pending energize comes
after the settled event is the model's reading, log entry 11): where the staged copy has changed t_guard or t_reverse, a
pending energize is as due as PENDING_ENERGIZE_DUE finds it, and otherwise it is left as it is. -/
def State.afterSettle (u : State) (i : PointIdx) (before : Point) : Host.Outcome State Fault Refusal :=
  if (before.inOff.settings.tGuard = before.settings.tGuard ∧ before.inOff.settings.tReverse = before.settings.tReverse) ∨
      (u.point i).channel.pending = none then .next u
  else exec (.pendingEnergizeDue i) u

/-! ## Moves that no longer drive -/

/-- In t the head move of group g is neither STARTING nor RUNNING; if it was in s, its permit and its schedule are
gone and the channels of its run list are quiet (R96, R144). -/
def State.parks (s t : State) (g : GroupIdx) : Prop :=
  (t.group g).headIs MoveState.driving = false ∧
    ((s.group g).headIs MoveState.driving = true →
      (t.group g).permit = none ∧ (t.group g).schedule = [] ∧
        ∀ i ∈ s.runPoints g, (t.point i).channel.quiet = true)

/-- A stop of group g does not end its head move within the event: a member has not settled (R98), and no member
rehearses, whose simulated coast could trip the group (R161). -/
def State.settlesLater (s : State) (g : GroupIdx) : Prop :=
  (s.group g).runList.any (fun e => !e.settled) = true ∧ ∀ i ∈ s.runPoints g, s.rehearsing i = false

/-- Group g's head move, driving in s and not ended by the stop, is STOPPING in t for this reason, under this holder
(R96). -/
def State.stopsFor (s t : State) (g : GroupIdx) (holder : Option Port) (reason : StopReason) : Prop :=
  ∀ m rest, (s.group g).queue = m :: rest → m.state.driving = true → s.settlesLater g →
    t.group g =
      { s.group g with
        queue := { m with state := .stopping, endMark := none } :: rest, schedule := [], permit := none
        stopReason := some reason, holder := holder }

/-- Within an evaluation of group g's RUNNING synchronised move m, nothing but member i asks for an action (R108): the
spread is within the trip band, no member is at its jog bound, and the others are ungated, unreleased, farther from
their targets than their coast estimates, and within the gate band of the least advanced member `low`. -/
def State.levelBut (s : State) (g : GroupIdx) (m : Move) (i : PointIdx) (low : RunEntry) : Prop :=
  m.state = .running ∧ m.body.kind.ofGroup = true ∧ 2 ≤ m.runList.length ∧
    m.runList.Pairwise (fun x y => x.point < y.point) ∧ low ∈ m.runList ∧
    ∀ x ∈ m.runList, low.progress ≤ x.progress ∧ x.progress - low.progress ≤ ((s.group g).tripBand : Int) ∧
      (m.body.kind = .groupJog → s.referencedOf x.point = true →
        ((s.point x.point).coast : Int) < match (s.group g).direction with
          | .up => (s.point x.point).settings.softUpper - s.positionOf x.point
          | .down => s.positionOf x.point - (s.point x.point).settings.softLower) ∧
      (x.point ≠ i → x.gated = false ∧ x.released = false ∧
        x.progress - low.progress ≤ ((s.group g).gateBand : Int) ∧
        (m.body.kind = .groupBy → ∀ v, x.target = some v →
          ((s.point x.point).coast : Int) < (s.group g).direction.sign * (v - s.positionOf x.point)))

/-- Within an evaluation of group g's RUNNING synchronised move m, nothing but gating acts (R108): the spread is within the
trip band, no member is at its jog bound, some member is unreleased, an unreleased one is farther from its target than
its coast estimate, and a gated one is beyond the rejoin band of the least advanced member `low`. -/
def State.onlyGates (s : State) (g : GroupIdx) (m : Move) (low : RunEntry) : Prop :=
  m.state = .running ∧ m.body.kind.ofGroup = true ∧ 2 ≤ m.runList.length ∧
    m.runList.Pairwise (fun x y => x.point < y.point) ∧ low ∈ m.runList ∧ (∃ x ∈ m.runList, x.released = false) ∧
    ∀ x ∈ m.runList, low.progress ≤ x.progress ∧ x.progress - low.progress ≤ ((s.group g).tripBand : Int) ∧
      (m.body.kind = .groupJog → s.referencedOf x.point = true →
        ((s.point x.point).coast : Int) < match (s.group g).direction with
          | .up => (s.point x.point).settings.softUpper - s.positionOf x.point
          | .down => s.positionOf x.point - (s.point x.point).settings.softLower) ∧
      (x.released = false →
        (m.body.kind = .groupBy → ∀ v, x.target = some v →
          ((s.point x.point).coast : Int) < (s.group g).direction.sign * (v - s.positionOf x.point)) ∧
        (x.gated = true → (((s.group g).gateBand / 2 : Nat) : Int) < x.progress - low.progress))

/-! ## Reports -/

/-- The bit of a report kind in an attention set: kind k, counted from 1 in the order of R177, has bit k − 1 (12.3). -/
def attentionBit : ReportKind → Nat
  | .moveStarted => 0
  | .moveEnded => 1
  | .moveHeld => 2
  | .groupTripped => 3
  | .tripCleared => 4
  | .pointFault => 5
  | .limit => 6
  | .loadStatus => 7
  | .authority => 8
  | .estop => 9
  | .portSilent => 10
  | .portBack => 11

/-- MOVE_ENDED of a move of group g, without pairs (R89). -/
def State.reportEnd (g : GroupIdx) (o : Outcome) (u : State) (m : Move) : State :=
  u.produce (some g) (.moveEnded o m.tag m.body.kind m.body.point [])

/-- The reports of a trip of group g with queue m :: rest, m out of QUEUED, in the order of R145: GROUP_TRIPPED,
MOVE_ENDED ABORTED of the head, and MOVE_ENDED FLUSHED of the others. -/
def State.reportTripOf (u : State) (g : GroupIdx) (cause : TripCause) (pt : Option PointIdx) (m : Move)
    (rest : List Move) : State :=
  rest.foldl (State.reportEnd g .flushed)
    (State.reportEnd g .aborted (u.produce (some g) (.groupTripped cause pt (some (m.tag, m.body.kind)))) m)

/-! ## Laws of every reachable state -/

/-- R24, R161: every position and every shadow position lies within its range. -/
def State.positionsBounded (s : State) : Prop :=
  ∀ i : PointIdx, inPositionRange (s.point i).capture.position = true ∧
    ∀ sh, (s.point i).shadow = some sh → inPositionRange sh.position = true

/-- R179: no report queue holds more than 32 records. -/
def State.reportsBounded (s : State) : Prop := ∀ p : Port, (s.port p).queue.length ≤ 32

/-- R1, R3, R5: settings within their ranges, t_reverse not below t_guard, the lower soft limit below the upper. -/
def Settings.legal (c : Settings) : Prop :=
  (-2000000 ≤ c.softLower ∧ c.softLower < c.softUpper ∧ c.softUpper ≤ 2000000) ∧
    (50 ≤ c.nominalSpeed ∧ c.nominalSpeed ≤ 2000) ∧ (20 ≤ c.tGuard ∧ c.tGuard ≤ 1000) ∧
    (100 ≤ c.tReverse ∧ c.tReverse ≤ 2000) ∧ c.tGuard ≤ c.tReverse ∧ (50 ≤ c.tMinrun ∧ c.tMinrun ≤ 2000) ∧
    (50 ≤ c.tSettle ∧ c.tSettle ≤ 2000) ∧ (100 ≤ c.tStall ∧ c.tStall ≤ 5000) ∧
    (1 ≤ c.overThreshold ∧ c.overThreshold ≤ 32767) ∧ c.underThreshold ≤ 32767

/-- R6, R7, R8: a staged copy exists only while the channel is not OFF, and applying it to the active settings
gives legal settings. -/
def Point.stagedLegal (p : Point) : Prop :=
  ∀ k, p.staged = some k → p.channel.state ≠ .off ∧ (p.settings.applyStaged k).legal

/-- R1 to R8: every point has legal settings, a legal staged copy and a coast estimate of 0..2000. -/
def State.settingsLegal (s : State) : Prop :=
  ∀ i : PointIdx, (s.point i).settings.legal ∧ (s.point i).stagedLegal ∧ (s.point i).coast ≤ 2000

/-- R79, R81: every group setting in its range, and the trip band at least twice the gate band. -/
def State.groupSettingsLegal (s : State) : Prop :=
  ∀ g : GroupIdx, (5 ≤ (s.group g).gateBand ∧ (s.group g).gateBand ≤ 2000) ∧
    (10 ≤ (s.group g).tripBand ∧ (s.group g).tripBand ≤ 5000) ∧ 2 * (s.group g).gateBand ≤ (s.group g).tripBand ∧
    (s.group g).shareBand ≤ 512 ∧ (s.group g).stagger ≤ 100 ∧ (50 ≤ (s.group g).window ∧ (s.group g).window ≤ 1000)

/-- R41: a point that is driven, or waits to be driven, is in the run list of its group's head move, that move is
STARTING or RUNNING, the permit is present, no fault is latched on the point, and ESTOP is not asserted. -/
def State.driveLawful (s : State) : Prop :=
  ∀ i : PointIdx, (s.point i).channel.quiet = false →
    (s.groupOf i).inRunList i = true ∧ (s.groupOf i).headIs MoveState.driving = true ∧
      (s.groupOf i).permit.isSome = true ∧ (s.point i).latched = none ∧ s.estop = false

/-- R85: at most four moves, only the head in a state other than QUEUED, and no move while TRIPPED. -/
def Group.queueLawful (r : Group) : Prop :=
  r.queue.length ≤ 4 ∧ (∀ m ∈ r.queue.tail, m.state = .queued) ∧ (r.trip.isSome = true → r.queue = [])

/-- R85 for every group. -/
def State.queuesLawful (s : State) : Prop := ∀ g : GroupIdx, (s.group g).queueLawful

/-- R129: a port that holds a group has at least OPERATE on it. -/
def State.holdersEntitled (s : State) : Prop :=
  ∀ (g : GroupIdx) (p : Port), (s.group g).holder = some p → s.allowed p g .operate = true

end Sys2Proof.Machine
end

