-- ==== Sys2Proof/Certificates/Slice0/Obligations.lean ====
section
/-! DEFINITION. The statements for the provers. `s.afterFrame p` is the state after step 1 of R170 and `setResult` is
its last sentence: "The result of the frame, from whichever step gives it, becomes the port's last result". -/

section
open Sys2Proof Sys2Proof.Machine

/-! ## Steps -/

/-- A step takes the command at the front of the queue and runs it on the state with the queue's rest. -/
def Obligations.StepRunsFrontCommand : Prop :=
  ∀ (s : State) (c : Instr) (rest : List Instr), s.pending = c :: rest →
    step s = exec c { s with pending := rest }

/-- Every command answers a next state (THE MODEL'S READING, log entries 1 and 33), leaves the waiting commands alone,
DEVICE_RESET too (MODEL'S CHOICE, log entry 24), and leaves the time base alone, except that DEVICE_RESET restarts it
from 0 (R58). MODEL'S CHOICE (log entry 2): a step on an empty queue is one tick of the 1 µs time base. -/
def Obligations.StepsGoOnAndKeepTheClock : Prop :=
  (∀ (c : Instr) (s : State), ∃ t, exec c s = .next t ∧ t.pending = s.pending ∧
    ((∀ levels, c ≠ .deviceReset levels) → t.time = s.time) ∧
    ∀ levels, c = .deviceReset levels → t.time = 0) ∧
  ∀ s : State, s.pending = [] → step s = .next { s with time := s.time + 1 }

/-! ## Reset -/

/-- R1, R38, R58, R78: every point's record after DEVICE_RESET, whatever came before; LIMIT_WIRING is latched exactly
where both switches read open (R18). -/
def Obligations.DeviceResetSetsEveryPoint : Prop :=
  ∀ (levels : ResetLevels) (s : State), ∃ t, exec (.deviceReset levels) s = .next t ∧ ∀ i : PointIdx,
    (t.point i).group = 0 ∧
    (t.point i).settings =
      { encoderMode := .x4, softUpper := 2000000, softLower := -2000000, nominalSpeed := 667, tGuard := 100
        tReverse := 300, tMinrun := 150, tSettle := 250, tStall := 400, overThreshold := 1200
        underThreshold := 0 } ∧
    (t.point i).staged = none ∧ (t.point i).coast = 20 ∧
    (t.point i).capture =
      { position := 0, referenced := false, lastCount := none, wrongWay := 0, creep := 0, stallDue := none
        phaseA := levels.phaseA.getLsbD i, phaseB := levels.phaseB.getLsbD i } ∧
    (t.point i).switches.upperClosed = levels.upperClosed.getLsbD i ∧
    (t.point i).switches.lowerClosed = levels.lowerClosed.getLsbD i ∧
    (t.point i).channel =
      { state := .off, lastDir := none, lastOn := 0, lastOff := 0, pending := none, deferredDue := none
        settleDue := none } ∧
    (t.point i).load =
      { ring := none, ringIndex := 0, filtered := none, state := .unknown, ageDue := none, sensor := false
        overExcursion := false, underExcursion := false } ∧
    (t.point i).further = false ∧ (t.point i).shadow = none ∧
    (t.point i).latched =
      if levels.upperClosed.getLsbD i = false ∧ levels.lowerClosed.getLsbD i = false then some .limitWiring else none

/-- R79, R103, R138, R154, R155, R175, R183: every group's record, the rights, the ESTOP state and every port after
DEVICE_RESET; a port's queue holds POINT_FAULT records of LIMIT_WIRING only, and is empty when no point has both
switches open. -/
def Obligations.DeviceResetSetsGroupsAndPorts : Prop :=
  ∀ (levels : ResetLevels) (s : State), ∃ t, exec (.deviceReset levels) s = .next t ∧
    (∀ g : GroupIdx, t.group g =
      { queue := [], schedule := [], permit := none, stopReason := none, gateBand := 40, tripBand := 300
        shareBand := 64, stagger := 20, window := 200, holder := none, preferred := .a, localPriority := false
        rehearsal := false, trip := none, baseline := none }) ∧
    (∀ g : GroupIdx, t.level .a g = .setup ∧ t.level .b g = .setup ∧ t.level .l g = .operate) ∧
    t.estop = !levels.loopClosed ∧ t.estopDue = none ∧ t.linkChars = [] ∧ t.resetAsserted = false ∧
    ∀ p : Port,
      (t.port p).crcOn = false ∧ (t.port p).seed = 0xFFFF ∧ (t.port p).attention = 0xFFF ∧
      (t.port p).lastResult = .ok ∧ (t.port p).silent = false ∧ (t.port p).silenceDue = some 500000 ∧
      (t.port p).frame = none ∧ (t.port p).lost = false ∧
      (∀ r ∈ (t.port p).queue, ∃ i : PointIdx, r.body = .pointFault .limitWiring i ∧ r.time = 0 ∧ r.group = some 0) ∧
      ((∀ i : PointIdx, levels.upperClosed.getLsbD i = true ∨ levels.lowerClosed.getLsbD i = true) →
        (t.port p).queue = [])

/-- R58, R60, R164: the assertion of RESET makes every coil output inactive, discards the frames in progress without a
result and the Load Link record, and leaves the rest to the release, the report queues too and with them the ATTN lines
(MODEL'S CHOICE, log entry 36). While it is asserted nothing but its release has an effect (the model's reading, log
entry 18). -/
def Obligations.ResetAssertedHoldsThePart : Prop :=
  (∀ s : State, ∃ t, exec .resetAsserted s = .next t ∧
    (∀ i : PointIdx, t.upOutput i = false ∧ t.downOutput i = false) ∧
    (∀ p : Port, t.port p = { s.port p with frame := none }) ∧ t.linkChars = [] ∧ t.linkGapDue = none ∧
    t.points = s.points ∧ t.groups = s.groups ∧ t.rights = s.rights ∧ t.resetAsserted = true) ∧
  ∀ (c : Instr) (s : State), s.resetAsserted = true → c ≠ .resetAsserted → (∀ levels, c ≠ .deviceReset levels) →
    exec c s = .next s

/-! ## Frames -/

/-- R165, R185, 12.2: the start of a frame captures the status word and the port's CRC settings, and changes nothing
else; the captured word is driven as word 0; the bits of the status word, with 0 in the reserved bits 13..0. -/
def Obligations.FrameStartCapturesTheStatusWord : Prop :=
  (∀ (s : State) (p : Port), s.resetAsserted = false → (s.port p).frame = none →
    exec (.frameStart p) s = .next (s.modPort p fun ps =>
      { ps with
        frame := some
          { status := s.statusWord p, crcOn := ps.crcOn, seed := ps.seed, words := [], reply := [], popCount := 0
            popEmpty := true } })) ∧
  (∀ f : Frame, f.driven 0 = f.status) ∧
  ∀ (s : State) (p : Port) (w : Word), w = s.statusWord p → (s.port p).queue.length ≤ 32 →
    (w.getLsbD 31 = true ↔ s.estop = true) ∧
    (w.getLsbD 30 = true ↔ ∃ g, (s.group g).state = .tripped) ∧
    (w.getLsbD 29 = true ↔ ∃ g,
      (s.group g).state = .starting ∨ (s.group g).state = .running ∨ (s.group g).state = .stopping) ∧
    (w.getLsbD 28 = true ↔ ∃ g, (s.group g).rehearsal = true) ∧
    w.getLsbD 27 = (s.port p).lost ∧ bitsOf w 26 21 = (s.port p).queue.length ∧
    bitsOf w 20 16 = resultCode (s.port p).lastResult ∧
    bitsOf w 15 14 = (match p with | .a => 1 | .b => 2 | .l => 3) ∧ bitsOf w 13 0 = 0

/-- R166, R169, R171, R185, 12.1, 12.2, 12.4: at the completion of its header a READ_TABLE takes the image of the record it
names, as it stands then, and the frame drives `length` words of it from the first one named; zero words follow the
image's end, and a header that names no image and is no POP_REPORT drives zero words. With CRC on the CRC of the driven
words follows them in the upper half of a word; nothing but zero words follows. The five images are laid out as 12.4
says, in the encodings of 12.1, with 0 where a field is absent or reserved. -/
def Obligations.HeaderTakesTheReadImage : Prop :=
  (∀ (s : State) (p : Port) (f : Frame) (h : Word), s.resetAsserted = false → (s.port p).frame = some f →
    f.words = [] → headerRequest h ≠ some .popReport →
    ∃ t f', exec (.headerComplete p h) s = .next t ∧ (t.port p).frame = some f' ∧ f'.words = [h] ∧
      f'.status = f.status ∧ f'.crcOn = f.crcOn ∧ f'.seed = f.seed ∧
      (∀ k image, headerRequest h = some .readTable → headerTable h = some k →
        s.tableImage k (headerIndex h) = some image →
        ∀ j, j < headerLength h → f'.driven (j + 1) = image.getD (headerFirstWord h + j) 0) ∧
      ((headerRequest h ≠ some .readTable ∨
          ∀ k, headerTable h = some k → s.tableImage k (headerIndex h) = none) →
        ∀ j, j < headerLength h → f'.driven (j + 1) = 0) ∧
      (∀ i : PointIdx, s.tableImage .point i = some (s.point i).image ∧ (s.point i).image.length = 27) ∧
      t.points = s.points ∧ t.groups = s.groups ∧ t.rights = s.rights ∧ ∀ q, q ≠ p → t.port q = s.port q) ∧
  (∀ (f : Frame) (h : Word) (rest : List Word), f.words = h :: rest →
    (f.crcOn = true → f.driven (headerLength h + 1) =
      crcOf f.seed ((List.range (headerLength h + 1)).map f.driven) ++ 0#16) ∧
    (f.crcOn = false → f.driven (headerLength h + 1) = 0) ∧ ∀ k, headerLength h + 1 < k → f.driven k = 0) ∧
  (∀ s : State,
    (∀ g : GroupIdx, s.tableImage .group g = some (s.groupImage g) ∧
      s.tableImage .queue g = some (s.group g).queueImage) ∧
    ∀ n, s.tableImage .rights n = some s.rightsImage ∧ s.tableImage .ports n = some s.portsImage) ∧
  (∀ q : Point,
    q.image.take 2 =
      [BitVec.ofNat 3 q.group ++ BitVec.ofNat 2 (encoderModeCode q.settings.encoderMode) ++
          BitVec.ofBool q.capture.referenced ++ BitVec.ofNat 2 (dirCode q.capture.lastCount) ++
          BitVec.ofNat 2 q.capture.wrongWay ++ BitVec.ofNat 2 q.capture.creep ++
          BitVec.ofNat 2 (channelCode q.channel.state) ++ BitVec.ofNat 2 (dirCode q.channel.lastDir) ++
          BitVec.ofNat 2 (dirCode q.channel.pending) ++ BitVec.ofBool q.channel.deferredDue.isSome ++
          BitVec.ofBool q.capture.stallDue.isSome ++ BitVec.ofNat 2 (loadStateCode q.load.state) ++
          BitVec.ofBool q.load.ring.isSome ++ BitVec.ofNat 3 q.load.ringIndex ++ BitVec.ofBool q.load.sensor ++
          BitVec.ofBool q.load.overExcursion ++ BitVec.ofBool q.load.underExcursion ++
          BitVec.ofBool q.switches.upperClosed ++ BitVec.ofBool q.switches.lowerClosed ++ BitVec.ofBool q.further,
        BitVec.ofNat 4 ((q.latched.map faultCodeNumber).getD 0) ++ BitVec.ofBool q.load.filtered.isSome ++
          BitVec.ofBool q.load.ageDue.isSome ++ BitVec.ofBool (q.staged.bind (·.softUpper)).isSome ++
          BitVec.ofBool (q.staged.bind (·.softLower)).isSome ++ BitVec.ofBool (q.staged.bind (·.tGuard)).isSome ++
          BitVec.ofBool (q.staged.bind (·.tReverse)).isSome ++ BitVec.ofBool (q.staged.bind (·.tMinrun)).isSome ++
          BitVec.ofBool (q.staged.bind (·.tSettle)).isSome ++ BitVec.ofBool (q.staged.bind (·.tStall)).isSome ++
          BitVec.ofBool q.capture.phaseA ++ BitVec.ofBool q.capture.phaseB ++ 0#2 ++
          BitVec.ofNat 15 (q.load.filtered.getD 0)] ∧
    q.image.drop 2 =
      [BitVec.ofInt 32 q.capture.position, BitVec.ofInt 32 q.settings.softUpper, BitVec.ofInt 32 q.settings.softLower,
        BitVec.ofNat 32 q.settings.nominalSpeed, BitVec.ofNat 32 q.coast, BitVec.ofNat 32 q.settings.tGuard,
        BitVec.ofNat 32 q.settings.tReverse, BitVec.ofNat 32 q.settings.tMinrun, BitVec.ofNat 32 q.settings.tSettle,
        BitVec.ofNat 32 q.settings.tStall, BitVec.ofNat 32 q.settings.overThreshold,
        BitVec.ofNat 32 q.settings.underThreshold] ++
      ([0, 1, 2, 3].map fun k => BitVec.ofNat 16 ((q.load.ring.map fun r => r.toList.getD (2 * k) 0).getD 0) ++
        BitVec.ofNat 16 ((q.load.ring.map fun r => r.toList.getD (2 * k + 1) 0).getD 0)) ++
      [BitVec.ofInt 32 ((q.staged.bind (·.softUpper)).getD 0), BitVec.ofInt 32 ((q.staged.bind (·.softLower)).getD 0),
        BitVec.ofNat 32 ((q.staged.bind (·.tGuard)).getD 0), BitVec.ofNat 32 ((q.staged.bind (·.tReverse)).getD 0),
        BitVec.ofNat 32 ((q.staged.bind (·.tMinrun)).getD 0), BitVec.ofNat 32 ((q.staged.bind (·.tSettle)).getD 0),
        BitVec.ofNat 32 ((q.staged.bind (·.tStall)).getD 0), BitVec.ofNat 32 q.channel.lastOn,
        BitVec.ofNat 32 q.channel.lastOff]) ∧
  (∀ (s : State) (g : GroupIdx) (r : Group) (members : List PointIdx), r = s.group g →
    members = (allPoints.filter fun i => (s.point i).group == g) →
    (s.groupImage g).take 7 =
      [BitVec.ofNat 3 (groupStateCode r.state) ++ BitVec.ofNat 2 (portCode r.holder) ++
          BitVec.ofNat 2 (deskCode r.preferred) ++ BitVec.ofBool r.localPriority ++ BitVec.ofBool r.rehearsal ++
          BitVec.ofNat 3 r.queue.length ++ BitVec.ofNat 2 (stopReasonCode r.stopReason) ++
          BitVec.ofNat 3 ((r.trip.map fun x => tripCauseCode x.cause).getD 0) ++
          BitVec.ofBool (r.trip.bind (·.point)).isSome ++ BitVec.ofNat 5 ((r.trip.bind (·.point)).getD 0) ++
          BitVec.ofBool r.permit.isSome ++ BitVec.ofBool (!r.schedule.isEmpty) ++ 0#7,
        BitVec.ofNat 32 r.gateBand, BitVec.ofNat 32 r.tripBand, BitVec.ofNat 32 r.shareBand,
        BitVec.ofNat 32 r.stagger, BitVec.ofNat 32 r.window, BitVec.ofNat 32 (r.permit.getD 0)] ∧
    (∀ k, ((s.groupImage g).getD 7 0).getLsbD k = members.any fun i => i.val == k) ∧
    (∀ k, ((s.groupImage g).getD 8 0).getLsbD k =
      (r.rehearsal && members.any fun i => i.val == k && s.referencedOf i)) ∧
    (s.groupImage g).drop 9 =
      if r.rehearsal then members.map fun i => BitVec.ofInt 32 (s.positionOf i) else []) ∧
  (∀ r : Group, r.queueImage =
    ([BitVec.ofNat 3 r.queue.length ++ BitVec.ofNat 5 r.runList.length ++ BitVec.ofBool r.baseline.isSome ++ 0#23] ++
      ((r.queue.flatMap fun m =>
          [BitVec.ofNat 2 (moveKindCode m.body.kind) ++ BitVec.ofNat 3 (moveStateCode m.state) ++
              BitVec.ofNat 2 (portCode (some m.submitter)) ++ BitVec.ofNat 2 (dirCode m.direction) ++
              BitVec.ofNat 2 (endMarkCode m.endMark) ++ BitVec.ofNat 5 (m.body.point.getD 0) ++ m.tag,
            match m.body with
            | .groupBy v | .pointTo _ v => BitVec.ofInt 32 v
            | .groupJog _ | .pointJog _ _ => 0]) ++
        (r.runList.flatMap fun e =>
          [BitVec.ofNat 5 e.point ++ BitVec.ofBool e.gated ++ BitVec.ofBool e.released ++ BitVec.ofBool e.settled ++
              BitVec.ofBool e.releasePos.isSome ++ BitVec.ofBool e.arrivalError.isSome ++ 0#6 ++
              BitVec.ofInt 16 (e.arrivalError.getD 0),
            BitVec.ofInt 32 e.start, BitVec.ofInt 32 (e.target.getD 0), BitVec.ofInt 32 e.progress,
            BitVec.ofInt 32 (e.releasePos.getD 0)]) ++
        ((List.range (((r.baseline.getD []).length + 1) / 2)).map fun k =>
          BitVec.ofNat 16 (((r.baseline.getD []).map (·.2)).getD (2 * k) 0) ++
            BitVec.ofNat 16 (((r.baseline.getD []).map (·.2)).getD (2 * k + 1) 0))) : List Word)) ∧
  (∀ s : State,
    s.rightsImage = [Port.a, .b, .l].map (fun p =>
      (0#16 ++ BitVec.ofNat 2 (levelNumber (s.level p 7)) ++ BitVec.ofNat 2 (levelNumber (s.level p 6)) ++
        BitVec.ofNat 2 (levelNumber (s.level p 5)) ++ BitVec.ofNat 2 (levelNumber (s.level p 4)) ++
        BitVec.ofNat 2 (levelNumber (s.level p 3)) ++ BitVec.ofNat 2 (levelNumber (s.level p 2)) ++
        BitVec.ofNat 2 (levelNumber (s.level p 1)) ++ BitVec.ofNat 2 (levelNumber (s.level p 0)) : Word)) ∧
    s.portsImage = [Port.a, .b, .l].flatMap (fun p =>
      [((s.port p).seed ++ BitVec.ofBool (s.port p).crcOn ++ BitVec.ofBool (s.port p).silent ++
          BitVec.ofBool (s.port p).lost ++ BitVec.ofNat 5 (resultCode (s.port p).lastResult) ++ 0#2 ++
          BitVec.ofNat 6 (s.port p).queue.length : Word), 0#20 ++ (s.port p).attention])) ∧
  [EncoderMode.off, .x1, .x2, .x4].map encoderModeCode = [0, 1, 2, 3] ∧
  [none, some Dir.up, some .down].map dirCode = [0, 1, 2] ∧
  [ChannelState.off, .settle, .up, .down].map channelCode = [0, 1, 2, 3] ∧
  [LoadState.unknown, .valid, .stale].map loadStateCode = [0, 1, 2] ∧
  [FaultCode.stall, .reversed, .creep, .positionRange, .limitWiring, .overload, .underload, .loadStale, .sensor].map
    faultCodeNumber = [1, 2, 3, 4, 5, 6, 7, 8, 9] ∧
  [GroupState.idle, .starting, .running, .stopping, .held, .tripped].map groupStateCode = [0, 1, 2, 3, 4, 5] ∧
  [none, some Port.a, some .b, some .l].map portCode = [0, 1, 2, 3] ∧ [Desk.a, .b].map deskCode = [1, 2] ∧
  [none, some StopReason.stop, some .permit, some .authority].map stopReasonCode = [0, 1, 2, 3] ∧
  [TripCause.point, .limit, .skew, .share, .estop].map tripCauseCode = [1, 2, 3, 4, 5] ∧
  [MoveKind.groupBy, .groupJog, .pointTo, .pointJog].map moveKindCode = [0, 1, 2, 3] ∧
  [MoveState.queued, .starting, .running, .stopping, .held].map moveStateCode = [0, 1, 2, 3, 4] ∧
  [none, some EndMark.limit, some .softLimit].map endMarkCode = [0, 1, 2] ∧
  [Level.none, .view, .operate, .setup].map levelNumber = [0, 1, 2, 3] ∧
  [Result.ok, .frame, .crc, .unknown, .badIndex, .badValue, .noRight, .notHolder, .outranked, .busy, .queueFull,
    .tripped, .estop, .empty, .noEncoder, .notReferenced, .nothing, .settling, .limit, .faulted, .persists,
    .shortRead].map resultCode = List.range 22

/-- R180: the records a POP_REPORT header chooses are whole records from the head, within the n words asked for, and
the next one would go beyond them; the frame drives their words, oldest first, and then zero words. -/
def Obligations.HeaderChoosesWholeRecords : Prop :=
  ∀ (s : State) (p : Port) (f : Frame) (h : Word), s.resetAsserted = false → (s.port p).frame = some f →
    f.words = [] → headerRequest h = some .popReport →
    ∃ t f', exec (.headerComplete p h) s = .next t ∧ (t.port p).frame = some f' ∧
      (t.port p).queue = (s.port p).queue ∧ f'.popCount ≤ (s.port p).queue.length ∧
      f'.popEmpty = (s.port p).queue.isEmpty ∧
      f'.reply = ((s.port p).queue.take f'.popCount).flatMap Report.words ∧
      (∀ j, j < headerLength h → f'.driven (j + 1) = f'.reply.getD j 0) ∧
      (((s.port p).queue.take f'.popCount).map Report.length).sum ≤ headerLength h ∧
      (f'.popCount < (s.port p).queue.length →
        headerLength h < (((s.port p).queue.take (f'.popCount + 1)).map Report.length).sum)

/-- R166, R167, R168: a frame that is no whole number of words, has no header, names a length above 32 or has another
number of words than expected ends FRAME; with CRC on, a CRC word that differs in its upper 16 bits ends CRC. The result
becomes the port's last result, and nothing else changes. The CRC takes the words' bits from the most significant
down, with the generator 0x1021, from the seed. A frame that has its header and its whole words, a length of at most 32,
the expected number of words and, with CRC on, a CRC word that matches in its upper half is good, and no other is: it
brings its header, its `length` payload words, and what its header chose for a POP_REPORT. -/
def Obligations.BadFrameIsNotApplied : Prop :=
  (∀ (s : State) (p : Port) (f : Frame) (tail : FrameTail), s.resetAsserted = false → (s.port p).frame = some f →
    ((tail.stray ≠ 0 ∨ f.words = [] ∨
        ∃ h rest, f.words = h :: rest ∧
          (32 < headerLength h ∨
            f.words.length + tail.words.length ≠ 1 + headerLength h + (if f.crcOn then 1 else 0))) →
      exec (.badFrame p tail) s =
        .next (s.modPort p fun ps => { ps with frame := none, lastResult := .frame })) ∧
    (∀ h, tail.stray = 0 → f.words = [h] → headerLength h ≤ 32 → f.crcOn = true →
      tail.words.length = headerLength h + 1 →
      (tail.words.getD (headerLength h) 0).toNat / 65536 ≠
        (crcOf f.seed (h :: tail.words.take (headerLength h))).toNat →
      exec (.badFrame p tail) s = .next (s.modPort p fun ps => { ps with frame := none, lastResult := .crc }))) ∧
  (∀ (seed : BitVec 16) (words : List Word),
    crcOf seed words = (words.flatMap fun w => (List.range 32).map fun k => w.getLsbD (31 - k)).foldl
      (fun (reg : BitVec 16) bit => if (reg.getLsbD 15 != bit) = true then (reg <<< 1) ^^^ 0x1021#16 else reg <<< 1)
      seed) ∧
  ∀ (s : State) (p : Port) (tail : FrameTail) (x : GoodFrame), s.goodEnd p tail = some x ↔
    ∃ (f : Frame) (h : Word) (rest words : List Word) (n : Nat),
      (s.port p).frame = some f ∧ f.words = h :: rest ∧ words = f.words ++ tail.words ∧ n = headerLength h ∧
      tail.stray = 0 ∧ n ≤ 32 ∧ words.length = 1 + n + (if f.crcOn then 1 else 0) ∧
      (f.crcOn = true →
        (words.getD (n + 1) 0).toNat / 65536 = (crcOf f.seed (words.take (n + 1))).toNat) ∧
      x = { header := h, payload := (words.drop 1).take n, popCount := f.popCount, popEmpty := f.popEmpty }

/-- R170 steps 2 to 4, 12.2: a request code of 20..31 is refused UNKNOWN, an index out of the request's range BAD_INDEX,
and then a length that the request does not accept BAD_VALUE, for each of the twenty requests; the frame is heard, and
nothing else changes. A header has its request code, index, length and sub-field, and the sub-field its table, first
image word, port, level, new group, scope, mode and tag, in the bits that 12.2 gives them, with the codes of 12.1 and
12.2; a value that a code leaves without meaning names nothing (R184). -/
def Obligations.BadRequestIsRefused : Prop :=
  (∀ (w : Word) (hi lo : Nat), bitsOf w hi lo = w.toNat / 2 ^ lo % 2 ^ (hi + 1 - lo)) ∧
  (∀ h : Word,
    headerCode h = bitsOf h 31 27 ∧ headerIndex h = bitsOf h 26 22 ∧ headerLength h = bitsOf h 21 16 ∧
    headerSub h = bitsOf h 15 0 ∧ headerRequest h = requestOfCode (bitsOf h 31 27) ∧
    headerFirstWord h = bitsOf h 7 0 ∧ headerNewGroup h = bitsOf h 4 0 ∧
    headerTag h = BitVec.ofNat 16 (bitsOf h 15 0) ∧ (headerScopeAll h = true ↔ bitsOf h 0 0 = 1) ∧
    headerTable h = (match bitsOf h 15 13 with
      | 0 => some .point
      | 1 => some .group
      | 2 => some .queue
      | 3 => some .rights
      | 4 => some .ports
      | _ => none) ∧
    headerPort h = (match bitsOf h 9 8 with
      | 1 => some .a
      | 2 => some .b
      | 3 => some .l
      | _ => none) ∧
    headerLevel h = (match bitsOf h 1 0 with
      | 0 => .none
      | 1 => .view
      | 2 => .operate
      | _ => .setup) ∧
    headerMode h = (match bitsOf h 1 0 with
      | 0 => some false
      | 1 => some true
      | _ => none)) ∧
  (List.range 20).map requestOfCode =
    [some .nop, some .readTable, some .pointSetup, some .groupSetup, some .portSetup, some .setRights, some .assign,
      some .setPosition, some .take, some .release, some .submitMove, some .go, some .stop, some .stopAll, some .cancel,
      some .clearFault, some .clearTrip, some .rehearsal, some .popReport, some .portRestart] ∧
  (∀ n, 20 ≤ n → requestOfCode n = none) ∧
  (∀ (s : State) (p : Port) (tail : FrameTail) (f : GoodFrame), s.resetAsserted = false →
    s.goodEnd p tail = some f → 20 ≤ headerCode f.header →
    exec (.unknownRequest p tail) s = .next (s.answered p .unknown)) ∧
  ∀ (req : Request) (s : State) (p : Port) (tail : FrameTail) (f : GoodFrame), s.brings p tail req f →
    (indexInRange req f.header = false → exec (frameEndOf req p tail) s = .next (s.answered p .badIndex)) ∧
    (indexInRange req f.header = true → ¬ lengthAccepted req f.header →
      exec (frameEndOf req p tail) s = .next (s.answered p .badValue))

/-- R171, R175: a NOP of length 0 and a READ_TABLE of a known table with its index in range are heard and answered OK, a
READ_TABLE of an unknown table BAD_VALUE, and nothing else changes. -/
def Obligations.NopAndReadTableChangeNothing : Prop :=
  ∀ (s : State) (p : Port) (tail : FrameTail) (f : GoodFrame),
    (s.delivers p tail .nop f → exec (.nop p tail) s = .next (s.answered p .ok)) ∧
    (s.delivers p tail .readTable f → ∀ k, headerTable f.header = some k → indexInRange .readTable f.header = true →
      exec (.readTable p tail) s = .next (s.answered p .ok)) ∧
    (s.delivers p tail .readTable f → headerTable f.header = none →
      exec (.readTable p tail) s = .next (s.answered p .badValue))

/-- R173, R184, 12.3: an accepted PORT_SETUP writes the fields of its write set in the port's own record, and a CRC enable
that names neither on nor off is refused BAD_VALUE. The write sets of PORT_SETUP and GROUP_SETUP hold the words that
their mask selects, a number read whole as a signed value, the seed in bits 15..0 and the attention set in bits 11..0 of
their words, the CRC enable its whole word, and the local priority bit 0 of its word (that the preferred desk is read
whole too is the model's reading, log entry 19). -/
def Obligations.PortSetupWritesItsPort : Prop :=
  (∀ (h : Word) (payload : List Word),
    decodePortWrites h payload =
      { crc := (selectedWord h payload 0).map BitVec.toInt
        seed := (selectedWord h payload 1).map fun w => BitVec.ofNat 16 (bitsOf w 15 0)
        attention := (selectedWord h payload 2).map fun w => BitVec.ofNat 12 (bitsOf w 11 0) } ∧
    decodeGroupWrites h payload =
      { gateBand := (selectedWord h payload 0).map BitVec.toInt
        tripBand := (selectedWord h payload 1).map BitVec.toInt
        shareBand := (selectedWord h payload 2).map BitVec.toInt
        stagger := (selectedWord h payload 3).map BitVec.toInt
        window := (selectedWord h payload 4).map BitVec.toInt
        preferred := (selectedWord h payload 5).map BitVec.toInt
        localPriority := (selectedWord h payload 6).map fun w => decide (bitsOf w 0 0 = 1) }) ∧
  ∀ (s : State) (p : Port) (tail : FrameTail) (f : GoodFrame) (w : PortWrites), s.delivers p tail .portSetup f →
    w = decodePortWrites f.header f.payload →
    ((w.crc = none ∨ w.crc = some 0 ∨ w.crc = some 1) →
      exec (.portSetup p tail) s =
        .next (((s.afterFrame p).modPort p fun ps =>
          { ps with
            crcOn := if w.crc = some 0 then false else if w.crc = some 1 then true else ps.crcOn
            seed := w.seed.getD ps.seed
            attention := w.attention.getD ps.attention }).setResult p .ok)) ∧
    (∀ v, w.crc = some v → v ≠ 0 → v ≠ 1 →
      exec (.portSetup p tail) s = .next (s.answered p .badValue))

/-- R181: the k records driven leave the head of the queue, and a frame that drove none answers OK on an empty queue
and SHORT_READ otherwise. -/
def Obligations.PopReportRemovesWhatItDrove : Prop :=
  ∀ (s : State) (p : Port) (tail : FrameTail) (f : GoodFrame), s.delivers p tail .popReport f →
    (1 ≤ f.popCount → exec (.popReport p tail) s =
      .next (((s.afterFrame p).modPort p fun ps => { ps with queue := ps.queue.drop f.popCount }).setResult p .ok)) ∧
    (f.popCount = 0 → f.popEmpty = true →
      exec (.popReport p tail) s = .next (s.answered p .ok)) ∧
    (f.popCount = 0 → f.popEmpty = false →
      exec (.popReport p tail) s = .next (s.answered p .shortRead))

/-- R174, R136, R137, R100: a PORT_RESTART empties the port's queue before it releases the port's groups, so the queue then
holds reports of this frame only, and the AUTHORITY reports of the released groups, in ascending order, are the first of
them, before any report of a stop; it leaves no group held by the port or still driving for it; other holders, the
rights and the port's CRC settings and attention set stay. Where no stop ends within the event (a driven move has a
member that has not settled, and no member rehearses), each driven move is STOPPING with reason AUTHORITY, the port's
queue holds the AUTHORITY reports of cause RESTART and nothing else, the other ports get them too, the lost marker is
clear, and no other group and no other point changes. The group state in an AUTHORITY report is the state after the event
(of a stop that ends at once: the model's reading, log entry 13), and the order in the other ports' queues is the model's
too (log entry 31). The premise of the clauses that have one is R85, an invariant. -/
def Obligations.PortRestartReleasesItsGroups : Prop :=
  ∀ (s : State) (p : Port) (tail : FrameTail) (f : GoodFrame), s.delivers p tail .portRestart f →
    ∃ t, exec (.portRestart p tail) s = .next t ∧
      (∀ g, (s.group g).holder = some p → (t.group g).holder = none) ∧
      (∀ g, (s.group g).holder ≠ some p → (t.group g).holder = (s.group g).holder) ∧
      t.rights = s.rights ∧ (t.port p).lastResult = .ok ∧ (t.port p).crcOn = (s.port p).crcOn ∧
      (t.port p).seed = (s.port p).seed ∧ (t.port p).attention = (s.port p).attention ∧
      (∀ r ∈ (t.port p).queue, r.time = s.reportTime) ∧
      ((∀ g, (s.group g).holder ≠ some p) → (t.port p).queue = [] ∧ (t.port p).lost = false ∧ t.points = s.points ∧
        t.groups = s.groups) ∧
      (∀ held : List GroupIdx, held = (allGroups.filter fun g => (s.group g).holder == some p) →
        ∃ (after : GroupIdx → GroupState) (later : List Report),
          (t.port p).queue = ((held.filter fun g => s.level p g != .none).map fun g =>
            { time := s.reportTime, group := some g, rehearsal := (s.group g).rehearsal, lostBefore := false
              additional := false, body := .authority .restart none (some p) (after g) }) ++ later ∧
          ((∀ g ∈ held, ∀ i ∈ s.runPoints g, s.rehearsing i = false) → ∀ g ∈ held, after g = (t.group g).state)) ∧
      (s.queuesLawful → ∀ g, (s.group g).holder = some p → s.parks t g) ∧
      (s.queuesLawful →
        (∀ g, (s.group g).holder = some p → (s.group g).headIs MoveState.driving = true → s.settlesLater g) →
        (∀ g, (s.group g).holder = some p → s.stopsFor t g none .authority ∧
          ((s.group g).headIs MoveState.driving = false → t.group g = { s.group g with holder := none })) ∧
        (∀ g, (s.group g).holder ≠ some p → t.group g = s.group g) ∧
        (∀ i, (∀ g, (s.group g).holder = some p → (s.group g).headIs MoveState.driving = true → i ∉ s.runPoints g) →
          t.point i = s.point i) ∧
        ∀ (held : List GroupIdx) (body : GroupIdx → ReportBody),
          held = (allGroups.filter fun g => (s.group g).holder == some p) →
          (∀ g, body g = .authority .restart none (some p)
            (if (s.group g).headIs MoveState.driving = true then .stopping else (s.group g).state)) →
          (t.port p).lost = false ∧
          (t.port p).queue = ((held.filter fun g => s.level p g != .none).map fun g =>
            { time := s.reportTime, group := some g, rehearsal := (s.group g).rehearsal, lostBefore := false
              additional := false, body := body g }) ∧
          ∀ k, k ≠ p → t.port k = (held.foldl (fun u g => u.produce (some g) (body g)) (s.afterFrame p)).port k)

/-- R172, R170 step 1: at its expiry the silence timer stops and the port becomes SILENT, and the two other ports get
PORT_SILENT, whatever their rights; the end of any good frame clears SILENT, restarts the timer from its 500 ms, and
gives the other ports PORT_BACK exactly when the port was SILENT. Nothing else changes, but that the frame is over. -/
def Obligations.SilenceIsTimedAndReported : Prop :=
  (∀ (s : State) (p : Port) (due : Nat), s.resetAsserted = false → (s.port p).silenceDue = some due → due ≤ s.time →
    ∃ t, exec (.silenceExpiry p) s = .next t ∧
      t.port p = { s.port p with silent := true, silenceDue := none } ∧
      (∀ q, q ≠ p → t.port q = (s.port q).append
        { time := s.reportTime, group := none, rehearsal := false, lostBefore := false, additional := false
          body := .portSilent p }) ∧
      t.points = s.points ∧ t.groups = s.groups ∧ t.rights = s.rights ∧ t.estop = s.estop) ∧
  ∀ (s : State) (p : Port),
    (s.afterFrame p).port p = { s.port p with frame := none, silent := false, silenceDue := some (s.time + 500000) } ∧
    (∀ q, q ≠ p → (s.afterFrame p).port q =
      if (s.port p).silent then
        (s.port q).append
          { time := s.reportTime, group := none, rehearsal := false, lostBefore := false, additional := false
            body := .portBack p }
      else s.port q) ∧
    (s.afterFrame p).points = s.points ∧ (s.afterFrame p).groups = s.groups ∧ (s.afterFrame p).rights = s.rights ∧
    (s.afterFrame p).estop = s.estop ∧ (s.afterFrame p).time = s.time

/-! ## Reports -/

/-- R178, R179, R182: a report goes to the queue of every port with VIEW or above on its group, ESTOP to all three,
PORT_SILENT and PORT_BACK to the other two; below 32 records it joins the tail and takes the lost marker with it, at 32
it is discarded and sets the marker; the points, the groups and the rights do not change. A port's ATTN line is asserted
while its queue holds a record of a kind in its attention set: an append of such a record asserts it, and a record of
another kind, a discarded record and an empty set do not. R163, R176: a report that is produced carries the time in whole
milliseconds since the reset, in 32 bits (rounded down and modulo 2^32: the model's reading, log entry 23), its group,
and the rehearsal flag of that group. -/
def Obligations.ReportsGoToEntitledPorts : Prop :=
  (∀ (s : State) (g : Option GroupIdx) (body : ReportBody) (additional : Bool),
    s.reportTime = BitVec.ofNat 32 (s.time / 1000) ∧
    s.produce g body additional = s.distribute
      { time := BitVec.ofNat 32 (s.time / 1000), group := g
        rehearsal := match g with
          | some k => (s.group k).rehearsal
          | none => false
        lostBefore := false, additional := additional, body := body }) ∧
  (∀ ps : PortState, (ps.attnAsserted = true ↔ ∃ r ∈ ps.queue, ps.attention.getLsbD (attentionBit r.body.kind) = true) ∧
    (ps.queue = [] → ps.attnAsserted = false) ∧ (ps.attention = 0 → ps.attnAsserted = false)) ∧
  ∀ (s : State) (r : Report) (q : Port) (takes : Bool) (ps : PortState), ps = s.port q →
    (takes = match r.body with
      | .estop _ => true
      | .portSilent p | .portBack p => q != p
      | _ => match r.group with
        | some g => s.level q g != .none
        | none => false) →
    (takes = false → (s.distribute r).port q = ps) ∧
    (takes = true → ps.queue.length < 32 →
      (s.distribute r).port q =
        { ps with queue := ps.queue ++ [{ r with lostBefore := ps.lost }], lost := false }) ∧
    (takes = true → 32 ≤ ps.queue.length → (s.distribute r).port q = { ps with lost := true }) ∧
    (takes = true → ps.queue.length < 32 → ((s.distribute r).port q).attnAsserted =
      (ps.attnAsserted || ps.attention.getLsbD (attentionBit r.body.kind))) ∧
    ((takes = false ∨ 32 ≤ ps.queue.length) → ((s.distribute r).port q).attnAsserted = ps.attnAsserted) ∧
    (s.distribute r).points = s.points ∧ (s.distribute r).groups = s.groups ∧ (s.distribute r).rights = s.rights

/-- R176, R177, R185, 12.1, 12.5: the length of every record is 2..26 words when its pairs are those of 1..24 members, its
first word is never zero, and its words are laid out as 12.5 says, in the encodings of 12.1. -/
def Obligations.RecordsHaveTheirLength : Prop :=
  (∀ r : Report, r.words.length = r.length ∧ 2 ≤ r.length ∧ r.word0 ≠ 0 ∧ bitsOf r.word0 31 28 = kindNumber r.body.kind ∧
    ((∀ o tag k p l, r.body = .moveEnded o tag k p l → l.length ≤ 24) → r.length ≤ 26)) ∧
  (∀ (r : Report) (short : BitVec 16),
    short = (match r.body with
      | .moveStarted _ tag _ _ | .moveEnded _ tag _ _ _ | .moveHeld _ tag _ _ => tag
      | .groupTripped c p _ =>
        BitVec.ofNat 5 (tripCauseCode c) ++ 0#5 ++ BitVec.ofBool p.isSome ++ BitVec.ofNat 5 (p.getD 0)
      | .tripCleared => 0
      | .pointFault c i => BitVec.ofNat 5 (faultCodeNumber c) ++ 0#5 ++ 1#1 ++ BitVec.ofNat 5 i
      | .limit w closed i => BitVec.ofNat 5 (limitCode w closed) ++ 0#5 ++ 1#1 ++ BitVec.ofNat 5 i
      | .loadStatus st _ i => BitVec.ofNat 5 (loadStateCode st) ++ 0#5 ++ 1#1 ++ BitVec.ofNat 5 i
      | .authority c _ _ _ => BitVec.ofNat 5 (authorityCauseCode c) ++ 0#11
      | .estop asserted => BitVec.ofNat 5 (if asserted then 0 else 1) ++ 0#11
      | .portSilent p | .portBack p => BitVec.ofNat 5 (portCode (some p)) ++ 0#11) →
    r.words.take 2 =
      [BitVec.ofNat 4 (kindNumber r.body.kind) ++ BitVec.ofNat 5 r.length ++ BitVec.ofBool r.rehearsal ++
        BitVec.ofBool r.lostBefore ++ BitVec.ofBool r.additional ++ BitVec.ofBool r.group.isSome ++
        BitVec.ofNat 3 (r.group.getD 0) ++ short, r.time]) ∧
  (∀ (r : Report) (move : Nat → MoveKind → Option PointIdx → BitVec 16),
    (∀ code kind p, move code kind p = BitVec.ofNat 5 code ++ BitVec.ofNat 2 (moveKindCode kind) ++
      BitVec.ofBool p.isSome ++ 0#3 ++ BitVec.ofNat 5 (p.getD 0)) →
    r.words.drop 2 =
      match r.body with
      | .moveStarted resume _ kind p => [move (if resume then 1 else 0) kind p ++ 0#16]
      | .moveEnded .arrived _ kind _ l => l.map fun x => move 0 kind (some x.1) ++ BitVec.ofInt 16 x.2
      | .moveEnded o _ kind p _ => [move (outcomeCode o) kind p ++ 0#16]
      | .moveHeld reason _ kind p => [move (stopReasonCode reason) kind p ++ 0#16]
      | .groupTripped _ _ (some (tag, kind)) => [1#1 ++ BitVec.ofNat 2 (moveKindCode kind) ++ 0#13 ++ tag]
      | .groupTripped _ _ none => [0]
      | .loadStatus _ v _ => [0#17 ++ BitVec.ofNat 15 v]
      | .authority _ new previous st =>
        [BitVec.ofNat 2 (portCode new) ++ BitVec.ofNat 2 (portCode previous) ++ 0#28,
          BitVec.ofNat 3 (groupStateCode st) ++ 0#29]
      | .tripCleared | .pointFault _ _ | .limit _ _ _ | .estop _ | .portSilent _ | .portBack _ => []) ∧
  [ReportKind.moveStarted, .moveEnded, .moveHeld, .groupTripped, .tripCleared, .pointFault, .limit, .loadStatus,
    .authority, .estop, .portSilent, .portBack].map kindNumber = [1, 2, 3, 4, 5, 6, 7, 8, 9, 10, 11, 12] ∧
  [Outcome.arrived, .jogStopped, .softLimit, .cancelled, .aborted, .flushed, .refusedLimit, .limit].map outcomeCode =
    [0, 1, 2, 3, 4, 5, 6, 7] ∧
  [AuthorityCause.take, .release, .rights, .restart].map authorityCauseCode = [0, 1, 2, 3] ∧
  [limitCode .upper false, limitCode .upper true, limitCode .lower false, limitCode .lower true] = [0, 1, 2, 3]

/-! ## Requests that write records -/

/-- R2, R6, R12: the checks of a POINT_SETUP in their order; a refused request writes nothing. A point is at rest when its
channel is OFF, its group is not in rehearsal, and it is in no run list of a head move that has left QUEUED. -/
def Obligations.PointSetupIsChecked : Prop :=
  ∀ (s : State) (p : Port) (tail : FrameTail) (f : GoodFrame) (i : PointIdx) (w : PointWrites) (lower upper : Int),
    s.delivers p tail .pointSetup f → headerIndex f.header = i.val → w = decodePointWrites f.header f.payload →
    lower = (w.softLower.map clampPosition).getD (s.point i).settings.softLower →
    upper = (w.softUpper.map clampPosition).getD (s.point i).settings.softUpper →
    (s.level p (s.point i).group ≠ .setup → exec (.pointSetup p tail) s = .next (s.answered p .noRight)) ∧
    (s.level p (s.point i).group = .setup → w.encoderMode.isSome = true → s.atRest i = false →
      exec (.pointSetup p tail) s = .next (s.answered p .busy)) ∧
    (s.level p (s.point i).group = .setup → (w.encoderMode.isSome = true → s.atRest i = true) →
      (w.softLower.isSome = true ∨ w.softUpper.isSome = true) → upper ≤ lower →
      exec (.pointSetup p tail) s = .next (s.answered p .badValue)) ∧
    (s.atRest i = true ↔ (s.point i).channel.state = .off ∧ (s.groupOf i).rehearsal = false ∧
      ∀ m rest, (s.groupOf i).queue = m :: rest → m.state ≠ .queued → ∀ e ∈ m.runList, e.point ≠ i)

/-- R3, R4, R5, R7, R10, R12, R35, R46, R184, 12.3: the write set holds the words that its mask selects, each number read
whole as a signed value and clamped into its range of R3; the encoder mode is bits 1..0 of its word. An accepted
POINT_SETUP writes the immediate fields clamped; with the channel not OFF its staged-class fields make a new staged copy;
with the channel OFF they are active at once, t_reverse not below t_guard, and a pending energize that the new times have
made due comes due at this event. -/
def Obligations.PointSetupTakesEffect : Prop :=
  (∀ v : Int,
    clampPosition v = max (-2000000) (min 2000000 v) ∧ clampSpeed v = (max 50 (min 2000 v)).toNat ∧
    clampGuard v = (max 20 (min 1000 v)).toNat ∧ clampReverse v = (max 100 (min 2000 v)).toNat ∧
    clampMinrun v = (max 50 (min 2000 v)).toNat ∧ clampSettle v = (max 50 (min 2000 v)).toNat ∧
    clampStall v = (max 100 (min 5000 v)).toNat ∧ clampOver v = (max 1 (min 32767 v)).toNat ∧
    clampUnder v = (max 0 (min 32767 v)).toNat) ∧
  (∀ (h : Word) (payload : List Word) (number : Nat → Option Int),
    (∀ k, number k = (selectedWord h payload k).map BitVec.toInt) →
    decodePointWrites h payload =
      { encoderMode := (selectedWord h payload 0).map fun w =>
          match bitsOf w 1 0 with
          | 0 => .off
          | 1 => .x1
          | 2 => .x2
          | _ => .x4
        softUpper := number 1, softLower := number 2, nominalSpeed := number 3, tGuard := number 4, tReverse := number 5
        tMinrun := number 6, tSettle := number 7, tStall := number 8, overThreshold := number 9
        underThreshold := number 10 }) ∧
  (∀ w : PointWrites,
    stagedOfWrites w =
      { softUpper := w.softUpper.map clampPosition, softLower := w.softLower.map clampPosition
        tGuard := w.tGuard.map clampGuard, tReverse := w.tReverse.map clampReverse, tMinrun := w.tMinrun.map clampMinrun
        tSettle := w.tSettle.map clampSettle, tStall := w.tStall.map clampStall } ∧
    ((stagedOfWrites w).isEmpty = true ↔ w.softUpper = none ∧ w.softLower = none ∧ w.tGuard = none ∧
      w.tReverse = none ∧ w.tMinrun = none ∧ w.tSettle = none ∧ w.tStall = none)) ∧
  ∀ (s : State) (p : Port) (tail : FrameTail) (f : GoodFrame) (i : PointIdx) (w : PointWrites) (q : Point)
    (c : Settings) (lower upper : Int) (speed overload underload : Nat),
    s.delivers p tail .pointSetup f → headerIndex f.header = i.val → w = decodePointWrites f.header f.payload →
    q = s.point i → c = q.settings →
    lower = (w.softLower.map clampPosition).getD c.softLower →
    upper = (w.softUpper.map clampPosition).getD c.softUpper →
    speed = (w.nominalSpeed.map clampSpeed).getD c.nominalSpeed →
    overload = (w.overThreshold.map clampOver).getD c.overThreshold →
    underload = (w.underThreshold.map clampUnder).getD c.underThreshold →
    s.level p q.group = .setup → (w.encoderMode.isSome = true → s.atRest i = true) →
    ((w.softLower.isSome = true ∨ w.softUpper.isSome = true) → lower < upper) →
    (q.channel.state ≠ .off →
      exec (.pointSetup p tail) s = .next (((s.afterFrame p).setPoint i
        { q with
          settings := { c with nominalSpeed := speed, overThreshold := overload, underThreshold := underload }
          staged := if (stagedOfWrites w).isEmpty then q.staged else some (stagedOfWrites w) }).setResult p .ok)) ∧
    (q.channel.state = .off → c.legal → ∀ (guard reverse : Nat) (q' : Point),
      guard = (w.tGuard.map clampGuard).getD c.tGuard →
      reverse = max guard ((w.tReverse.map clampReverse).getD c.tReverse) →
      q' =
        { q with
          settings :=
            { encoderMode := w.encoderMode.getD c.encoderMode, softUpper := upper, softLower := lower
              nominalSpeed := speed, tGuard := guard, tReverse := reverse
              tMinrun := (w.tMinrun.map clampMinrun).getD c.tMinrun
              tSettle := (w.tSettle.map clampSettle).getD c.tSettle
              tStall := (w.tStall.map clampStall).getD c.tStall, overThreshold := overload, underThreshold := underload }
          capture :=
            if w.encoderMode.getD c.encoderMode = c.encoderMode then q.capture
            else { q.capture with referenced := false, lastCount := none, wrongWay := 0, creep := 0 } } →
      ((∀ d, q.channel.pending = some d → s.time < q'.energizeDue d ∨ (guard = c.tGuard ∧ reverse = c.tReverse)) →
        exec (.pointSetup p tail) s = .next (((s.afterFrame p).setPoint i q').setResult p .ok)) ∧
      (∀ d, q.channel.pending = some d → q'.energizeDue d ≤ s.time → (guard ≠ c.tGuard ∨ reverse ≠ c.tReverse) →
        exec (.pointSetup p tail) s =
          .next ((((s.afterFrame p).setPoint i q').pendingDue i).setResult p .ok)))

/-- R36, R37: the checks of a SET_POSITION in their order, the third as R36 words it, and the capture after an accepted
one. -/
def Obligations.SetPositionReferencesThePoint : Prop :=
  ∀ (s : State) (p : Port) (tail : FrameTail) (f : GoodFrame) (i : PointIdx) (v : Int),
    s.delivers p tail .setPosition f → headerIndex f.header = i.val → v = (f.payload.getD 0 0).toInt →
    (s.level p (s.point i).group ≠ .setup → exec (.setPosition p tail) s = .next (s.answered p .noRight)) ∧
    (s.level p (s.point i).group = .setup → (s.point i).settings.encoderMode = .off →
      exec (.setPosition p tail) s = .next (s.answered p .noEncoder)) ∧
    (s.level p (s.point i).group = .setup → (s.point i).settings.encoderMode ≠ .off → s.atRest i = false →
      exec (.setPosition p tail) s = .next (s.answered p .busy)) ∧
    (s.level p (s.point i).group = .setup → (s.point i).settings.encoderMode ≠ .off → s.atRest i = true →
      exec (.setPosition p tail) s = .next (((s.afterFrame p).modPoint i fun q =>
        { q with
          capture :=
            { q.capture with
              position := if v < -2000000 then -2000000 else if 2000000 < v then 2000000 else v
              referenced := true, creep := 0, lastCount := none } }).setResult p .ok)) ∧
    (s.atRest i = true ↔ (s.point i).channel.state = .off ∧ (s.groupOf i).rehearsal = false ∧
      ∀ m rest, (s.groupOf i).queue = m :: rest → m.state ≠ .queued → ∀ e ∈ m.runList, e.point ≠ i)

/-- R81: a GROUP_SETUP without SETUP is refused NO_RIGHT, one whose preferred desk names no desk BAD_VALUE; an accepted
one writes its fields clamped into their ranges, and raises the trip band to twice the gate band when a band was
written. -/
def Obligations.GroupSetupWritesTheGroup : Prop :=
  (∀ v : Int,
    clampGateBand v = (max 5 (min 2000 v)).toNat ∧ clampTripBand v = (max 10 (min 5000 v)).toNat ∧
    clampShareBand v = (max 0 (min 512 v)).toNat ∧ clampStagger v = (max 0 (min 100 v)).toNat ∧
    clampWindow v = (max 50 (min 1000 v)).toNat) ∧
  ∀ (s : State) (p : Port) (tail : FrameTail) (f : GoodFrame) (g : GroupIdx) (w : GroupWrites) (gate trip : Nat),
    s.delivers p tail .groupSetup f → headerIndex f.header = g.val → w = decodeGroupWrites f.header f.payload →
    gate = (w.gateBand.map clampGateBand).getD (s.group g).gateBand →
    trip = (w.tripBand.map clampTripBand).getD (s.group g).tripBand →
    (s.level p g ≠ .setup → exec (.groupSetup p tail) s = .next (s.answered p .noRight)) ∧
    (∀ v, s.level p g = .setup → w.preferred = some v → v ≠ 1 → v ≠ 2 →
      exec (.groupSetup p tail) s = .next (s.answered p .badValue)) ∧
    (s.level p g = .setup → (w.preferred = none ∨ w.preferred = some 1 ∨ w.preferred = some 2) →
      exec (.groupSetup p tail) s = .next (((s.afterFrame p).modGroup g fun r =>
        { r with
          gateBand := gate
          tripBand := if w.gateBand.isSome || w.tripBand.isSome then max trip (2 * gate) else trip
          shareBand := (w.shareBand.map clampShareBand).getD r.shareBand
          stagger := (w.stagger.map clampStagger).getD r.stagger
          window := (w.window.map clampWindow).getD r.window
          preferred := if w.preferred = some 1 then .a else if w.preferred = some 2 then .b else r.preferred
          localPriority := w.localPriority.getD r.localPriority }).setResult p .ok))

/-- R83: an ASSIGN needs SETUP on the old and the new group, both IDLE with empty queues and not in rehearsal, and then
changes the point's group and nothing else. -/
def Obligations.AssignMovesThePoint : Prop :=
  ∀ (s : State) (p : Port) (tail : FrameTail) (f : GoodFrame) (i : PointIdx) (o n : GroupIdx),
    s.delivers p tail .assign f → headerIndex f.header = i.val → headerNewGroup f.header = n.val →
    o = (s.point i).group →
    ((s.level p o ≠ .setup ∨ s.level p n ≠ .setup) →
      exec (.assign p tail) s = .next (s.answered p .noRight)) ∧
    (s.level p o = .setup → s.level p n = .setup →
      ((s.group o).assignable = false ∨ (s.group n).assignable = false) →
      exec (.assign p tail) s = .next (s.answered p .busy)) ∧
    (s.level p o = .setup → s.level p n = .setup → (s.group o).assignable = true → (s.group n).assignable = true →
      exec (.assign p tail) s =
        .next (((s.afterFrame p).modPoint i fun q => { q with group := n }).setResult p .ok)) ∧
    ∀ g, (s.group g).assignable = true ↔
      ((s.group g).state = .idle ∧ (s.group g).queue = [] ∧ (s.group g).rehearsal = false)

/-! ## Authority -/

/-- R127, R128, R100, R137: SET_RIGHTS is refused NO_RIGHT from port L and BAD_VALUE for a port code of 0; an accepted one
writes the entry; a holder taken below OPERATE is removed, with an AUTHORITY report of cause RIGHTS under the rights as
they then stand, and its group stops driving. A driven move that has a member not yet settled, and none in rehearsal, is
then STOPPING with reason AUTHORITY, with that one report, and no other group and no other point changes. The premise of
the last two clauses is R85, an invariant. -/
def Obligations.SetRightsWritesTheEntry : Prop :=
  ∀ (s : State) (p : Port) (tail : FrameTail) (f : GoodFrame) (g : GroupIdx) (v : Level),
    s.delivers p tail .setRights f → headerIndex f.header = g.val → v = headerLevel f.header →
    (p = .l → exec (.setRights p tail) s = .next (s.answered p .noRight)) ∧
    (p ≠ .l → headerPort f.header = none → exec (.setRights p tail) s = .next (s.answered p .badValue)) ∧
    (∀ q, p ≠ .l → headerPort f.header = some q →
      ((s.group g).holder ≠ some q ∨ v = .operate ∨ v = .setup) →
      exec (.setRights p tail) s = .next (((s.afterFrame p).setLevel q g v).setResult p .ok)) ∧
    (∀ q, p ≠ .l → headerPort f.header = some q → (s.group g).holder = some q → (v = .none ∨ v = .view) →
      ((s.group g).headIs MoveState.driving = false →
        exec (.setRights p tail) s = .next (((((s.afterFrame p).setLevel q g v).modGroup g fun r =>
          { r with holder := none }).produce (some g) (.authority .rights none (some q) (s.group g).state)).setResult
            p .ok)) ∧
      (s.queuesLawful → ∃ t, exec (.setRights p tail) s = .next t ∧ t.level q g = v ∧ (t.group g).holder = none ∧
        s.parks t g ∧ (t.port p).lastResult = .ok ∧ ∀ h k, (h ≠ g ∨ k ≠ q) → t.level k h = s.level k h) ∧
      (s.queuesLawful → (s.group g).headIs MoveState.driving = true → s.settlesLater g → ∀ u : State,
        u = (((s.afterFrame p).setLevel q g v).produce (some g) (.authority .rights none (some q) .stopping)).setResult
          p .ok →
        ∃ t, exec (.setRights p tail) s = .next t ∧ s.stopsFor t g none .authority ∧ t.ports = u.ports ∧
          t.rights = u.rights ∧ (∀ h, h ≠ g → t.group h = s.group h) ∧
          (∀ i, i ∉ s.runPoints g → t.point i = s.point i) ∧
          (∀ i ∈ s.runPoints g, t.point i = (s.hardRelease i).point i) ∧ t.time = s.time ∧ t.estop = s.estop))

/-- R130, R131, R132: the table of TAKE, with the rank order that the preferred desk and local priority give. A grant
changes the holder, with one AUTHORITY report, and nothing else. -/
def Obligations.TakeFollowsItsTable : Prop :=
  ∀ (s : State) (p : Port) (tail : FrameTail) (f : GoodFrame) (g : GroupIdx) (r : Group) (order : List Port)
    (granted : State),
    s.delivers p tail .take f → headerIndex f.header = g.val → r = s.group g →
    order = (match r.localPriority, r.preferred with
      | false, .a => [.a, .b, .l]
      | false, .b => [.b, .a, .l]
      | true, .a => [.l, .a, .b]
      | true, .b => [.l, .b, .a]) →
    granted = (((s.afterFrame p).modGroup g fun r => { r with holder := some p }).produce (some g)
      (.authority .take (some p) r.holder r.state)).setResult p .ok →
    exec (.take p tail) s = .next
      (if s.level p g = .none ∨ s.level p g = .view then s.answered p .noRight
        else if r.holder = some p then s.answered p .ok
        else if r.holder = none then granted
        else if r.state = .starting ∨ r.state = .running ∨ r.state = .stopping then s.answered p .busy
        else if (r.holder.any fun q => (s.port q).silent || decide (order.idxOf p < order.idxOf q)) then granted
        else s.answered p .outranked)

/-- R135: the checks of RELEASE in their order; an accepted one removes the holder, with one AUTHORITY report, and
changes nothing else. The premise is R85, an invariant (`QueuesStayLawful`). -/
def Obligations.ReleaseRemovesTheHolder : Prop :=
  ∀ (s : State) (p : Port) (tail : FrameTail) (f : GoodFrame) (g : GroupIdx) (r : Group),
    s.delivers p tail .release f → headerIndex f.header = g.val → r = s.group g → s.queuesLawful →
    exec (.release p tail) s = .next
      (if s.level p g = .none ∨ s.level p g = .view then s.answered p .noRight
        else if r.holder ≠ some p then s.answered p .notHolder
        else if r.state = .starting ∨ r.state = .running ∨ r.state = .stopping then s.answered p .busy
        else (((s.afterFrame p).modGroup g fun r => { r with holder := none }).produce (some g)
          (.authority .release none (some p) r.state)).setResult p .ok)

/-! ## The move queue -/

/-- R86, R87, R88: for each of the four kinds, a SUBMIT_MOVE that passes the checks appends a QUEUED record at the tail
and changes nothing else. What the statements' names mean: the position and the referenced flag of a point are its
shadow's while its group rehearses (R13, R155; without a shadow, which no run reaches, the real ones: log entry 20); the
members of a group are the points whose group it is, in ascending order, and a move involves them or its point (R80,
R86); the soft limits include their ends (R13); the direction is the sign of the delta, the jog's, or the one set at the
first start (R84; up where none is set: log entry 20); a group is TRIPPED with a trip cause and otherwise follows its head
move (R79, log entry 8). -/
def Obligations.SubmitMoveIsAdmitted : Prop :=
  (∀ (s : State) (i : PointIdx),
    s.groupOf i = s.group (s.point i).group ∧ s.rehearsing i = (s.group (s.point i).group).rehearsal ∧
    (∀ sh, s.rehearsing i = true → (s.point i).shadow = some sh →
      s.positionOf i = sh.position ∧ s.referencedOf i = sh.referenced) ∧
    ((s.rehearsing i = false ∨ (s.point i).shadow = none) →
      s.positionOf i = (s.point i).capture.position ∧ s.referencedOf i = (s.point i).capture.referenced) ∧
    (s.inActiveMove i = true ↔ (s.groupOf i).inRunList i = true ∧
      ((s.groupOf i).headIs (· == .starting) = true ∨ (s.groupOf i).headIs (· == .running) = true ∨
        (s.groupOf i).headIs (· == .stopping) = true))) ∧
  (∀ (s : State) (g : GroupIdx),
    (∀ i, i ∈ s.members g ↔ (s.point i).group = g) ∧ (s.members g).Pairwise (· < ·) ∧
    (∀ v, s.involved g (.groupBy v) = s.members g) ∧ (∀ d, s.involved g (.groupJog d) = s.members g) ∧
    (∀ i v, s.involved g (.pointTo i v) = [i]) ∧ (∀ i d, s.involved g (.pointJog i d) = [i]) ∧
    s.runPoints g = (s.group g).runList.map (·.point)) ∧
  (∀ (c : Settings) (v : Int), c.inside v = true ↔ c.softLower ≤ v ∧ v ≤ c.softUpper) ∧
  (∀ r : Group,
    (∀ i, r.inRunList i = true ↔ ∃ e ∈ r.runList, e.point = i) ∧ (r.trip ≠ none → r.state = .tripped) ∧
    (r.queue = [] → r.direction = .up ∧ r.runList = [] ∧ (∀ test, r.headIs test = false) ∧
      (r.trip = none → r.state = .idle)) ∧
    ∀ m rest, r.queue = m :: rest → r.runList = m.runList ∧ (∀ test, r.headIs test = test m.state) ∧
      r.direction = (match m.body with
        | .groupBy v => if 0 < v then .up else .down
        | .groupJog d | .pointJog _ d => d
        | .pointTo _ _ => m.toDirection.getD .up) ∧
      (r.trip = none → r.state = match m.state with
        | .queued => .idle
        | .starting => .starting
        | .running => .running
        | .stopping => .stopping
        | .held => .held)) ∧
  ∀ (s : State) (p : Port) (tail : FrameTail) (f : GoodFrame) (g : GroupIdx) (w1 : Word) (v : Int)
    (admitted : MoveBody → State),
    s.delivers p tail .submitMove f → headerIndex f.header = g.val → (s.group g).holder = some p →
    s.estop = false → (s.group g).trip = none → (s.group g).queue.length < 4 →
    w1 = f.payload.getD 0 0 → v = (f.payload.getD 1 0).toInt →
    (∀ b, admitted b = ((s.afterFrame p).modGroup g fun r =>
      { r with
        queue := r.queue ++
          [{ body := b, tag := BitVec.ofNat 16 (headerSub f.header), submitter := p, state := .queued
             toDirection := none, endMark := none, runList := [] }] }).setResult p .ok) →
    (bitsOf w1 31 29 = 0 → v ≠ 0 → -1000000 ≤ v → v ≤ 1000000 → s.members g ≠ [] →
      (∀ i ∈ s.members g, (s.point i).settings.encoderMode ≠ .off ∧ (s.point i).latched = none) →
      exec (.submitMove p tail) s = .next (admitted (.groupBy v))) ∧
    (∀ d, bitsOf w1 31 29 = 1 → dirOfCode (bitsOf w1 28 27) = some d → s.members g ≠ [] →
      (∀ i ∈ s.members g, (s.point i).settings.encoderMode ≠ .off ∧ (s.point i).latched = none) →
      exec (.submitMove p tail) s = .next (admitted (.groupJog d))) ∧
    (∀ i : PointIdx, bitsOf w1 31 29 = 2 → bitsOf w1 20 16 = i.val → -2000000 ≤ v → v ≤ 2000000 →
      (s.point i).group = g → (s.point i).settings.encoderMode ≠ .off → (s.point i).latched = none →
      s.referencedOf i = true → (s.point i).settings.softLower ≤ v → v ≤ (s.point i).settings.softUpper →
      exec (.submitMove p tail) s = .next (admitted (.pointTo i v))) ∧
    (∀ (i : PointIdx) (d : Dir), bitsOf w1 31 29 = 3 → bitsOf w1 20 16 = i.val →
      dirOfCode (bitsOf w1 28 27) = some d → (s.point i).group = g → (s.point i).latched = none →
      exec (.submitMove p tail) s = .next (admitted (.pointJog i d)))

/-- R86, R87, 12.1, 12.3: the first check that fails gives the result, and the group record is not changed. The payload
describes a move by its kind in bits 31..29, its direction in bits 28..27 and its point in bits 20..16 of word 1, and its
delta or target in word 2, when they lie in their ranges. -/
def Obligations.SubmitMoveIsRefused : Prop :=
  (List.range 4).map dirOfCode = [none, some .up, some .down, none] ∧
  (∀ (payload : List Word) (w1 : Word) (v : Int) (b : MoveBody),
    w1 = payload.getD 0 0 → v = (payload.getD 1 0).toInt →
    (moveBodyOf (decodeMoveParams payload) = some b ↔ match b with
      | .groupBy x => bitsOf w1 31 29 = 0 ∧ x = v ∧ v ≠ 0 ∧ -1000000 ≤ v ∧ v ≤ 1000000
      | .groupJog d => bitsOf w1 31 29 = 1 ∧ dirOfCode (bitsOf w1 28 27) = some d
      | .pointTo i x => bitsOf w1 31 29 = 2 ∧ bitsOf w1 20 16 = i.val ∧ x = v ∧ -2000000 ≤ v ∧ v ≤ 2000000
      | .pointJog i d => bitsOf w1 31 29 = 3 ∧ bitsOf w1 20 16 = i.val ∧ dirOfCode (bitsOf w1 28 27) = some d)) ∧
  ∀ (s : State) (p : Port) (tail : FrameTail) (f : GoodFrame) (g : GroupIdx) (w1 : Word) (v : Int),
    s.delivers p tail .submitMove f → headerIndex f.header = g.val →
    w1 = f.payload.getD 0 0 → v = (f.payload.getD 1 0).toInt →
    ((s.group g).holder ≠ some p → exec (.submitMove p tail) s = .next (s.answered p .notHolder)) ∧
    ((s.group g).holder = some p →
      (s.estop = true → exec (.submitMove p tail) s = .next (s.answered p .estop)) ∧
      (s.estop = false → (s.group g).trip ≠ none → exec (.submitMove p tail) s = .next (s.answered p .tripped)) ∧
      (s.estop = false → (s.group g).trip = none → 4 ≤ (s.group g).queue.length →
        exec (.submitMove p tail) s = .next (s.answered p .queueFull)) ∧
      (s.estop = false → (s.group g).trip = none → (s.group g).queue.length < 4 →
        ((4 ≤ bitsOf w1 31 29 ∨ (bitsOf w1 31 29 = 0 ∧ (v = 0 ∨ v < -1000000 ∨ 1000000 < v)) ∨
            ((bitsOf w1 31 29 = 1 ∨ bitsOf w1 31 29 = 3) ∧ dirOfCode (bitsOf w1 28 27) = none) ∨
            ((bitsOf w1 31 29 = 2 ∨ bitsOf w1 31 29 = 3) ∧ 24 ≤ bitsOf w1 20 16) ∨
            (bitsOf w1 31 29 = 2 ∧ (v < -2000000 ∨ 2000000 < v))) →
          exec (.submitMove p tail) s = .next (s.answered p .badValue)) ∧
        ∀ b, moveBodyOf (decodeMoveParams f.payload) = some b →
          (b.point = none → s.members g = [] → exec (.submitMove p tail) s = .next (s.answered p .empty)) ∧
          (∀ i, b.point = some i → (s.point i).group ≠ g →
            exec (.submitMove p tail) s = .next (s.answered p .badIndex)) ∧
          ((b.point = none → s.members g ≠ []) → (∀ i, b.point = some i → (s.point i).group = g) →
            (b.kind ≠ .pointJog → ∀ i ∈ s.involved g b, (s.point i).settings.encoderMode = .off →
              exec (.submitMove p tail) s = .next (s.answered p .noEncoder)) ∧
            ((b.kind ≠ .pointJog → ∀ i ∈ s.involved g b, (s.point i).settings.encoderMode ≠ .off) →
              (∀ i x, b = .pointTo i x → s.referencedOf i = false →
                exec (.submitMove p tail) s = .next (s.answered p .notReferenced)) ∧
              (∀ i x, b = .pointTo i x → s.referencedOf i = true → (s.point i).settings.inside x = false →
                exec (.submitMove p tail) s = .next (s.answered p .limit)) ∧
              ((∀ i x, b = .pointTo i x → s.referencedOf i = true ∧ (s.point i).settings.inside x = true) →
                ∀ i ∈ s.involved g b, (s.point i).latched ≠ none →
                  exec (.submitMove p tail) s = .next (s.answered p .faulted))))))

/-- R90: the refusals of GO in their order, and the permit that a GO extends in a STARTING or RUNNING group. A refused
GO leaves the group, its queue and its permit as they were. -/
def Obligations.GoExtendsThePermitOrIsRefused : Prop :=
  ∀ (s : State) (p : Port) (tail : FrameTail) (f : GoodFrame) (g : GroupIdx) (r : Group),
    s.delivers p tail .go f → headerIndex f.header = g.val → r = s.group g →
    (r.holder ≠ some p → exec (.go p tail) s = .next (s.answered p .notHolder)) ∧
    (r.holder = some p → s.estop = true → exec (.go p tail) s = .next (s.answered p .estop)) ∧
    (r.holder = some p → s.estop = false → r.trip ≠ none → exec (.go p tail) s = .next (s.answered p .tripped)) ∧
    (r.holder = some p → s.estop = false → r.trip = none →
      (r.state = .stopping → exec (.go p tail) s = .next (s.answered p .settling)) ∧
      ((r.state = .starting ∨ r.state = .running) →
        exec (.go p tail) s = .next (((s.afterFrame p).modGroup g fun r =>
          { r with permit := some (s.time + 1000 * r.window) }).setResult p .ok)) ∧
      (r.queue = [] → exec (.go p tail) s = .next (s.answered p .nothing)) ∧
      (∀ m rest, r.queue = m :: rest → m.state = .queued →
        (m.body.kind ≠ .pointJog → ∀ i ∈ s.involved g m.body, (s.point i).settings.encoderMode = .off →
          exec (.go p tail) s = .next (s.answered p .noEncoder)) ∧
        ((m.body.kind ≠ .pointJog → ∀ i ∈ s.involved g m.body, (s.point i).settings.encoderMode ≠ .off) →
          (∀ i x, m.body = .pointTo i x → s.referencedOf i = false →
            exec (.go p tail) s = .next (s.answered p .notReferenced)) ∧
          ((∀ i x, m.body = .pointTo i x → s.referencedOf i = true) →
            ∀ i ∈ s.involved g m.body, (s.point i).latched ≠ none →
              exec (.go p tail) s = .next (s.answered p .faulted)))) ∧
      (∀ m rest, r.queue = m :: rest → m.state = .held → ∀ e ∈ m.runList, e.released = false →
        (s.point e.point).latched ≠ none → exec (.go p tail) s = .next (s.answered p .faulted)))

/-- R89, R91: a first GO of a POINT_TO whose target lies outside its soft limits or the position range, or of a GROUP_BY
that gives a member such a target (the soft limits bind a referenced member only), ends the move REFUSED_LIMIT with
result LIMIT, naming the lowest such member; one of a POINT_TO whose target is the present position ends it ARRIVED with
result OK and the pair (point, 0). Nothing is energized, and the next move becomes the head. -/
def Obligations.GoEndsAMoveAtItsFirstStart : Prop :=
  ∀ (s : State) (p : Port) (tail : FrameTail) (f : GoodFrame) (g : GroupIdx) (m : Move) (rest : List Move)
    (i : PointIdx) (v : Int) (ended : ReportBody → Result → State),
    s.delivers p tail .go f → headerIndex f.header = g.val → (s.group g).holder = some p → s.estop = false →
    (s.group g).trip = none → (s.group g).queue = m :: rest → m.state = .queued →
    (∀ b r, ended b r = (((s.afterFrame p).produce (some g) b).modGroup g fun q =>
      { q with queue := rest, schedule := [], permit := none, stopReason := none, baseline := none }).setResult p r) →
    (m.body = .pointTo i v → (s.point i).settings.encoderMode ≠ .off → s.referencedOf i = true →
      (s.point i).latched = none →
      ((v < -2000000 ∨ 2000000 < v ∨ (s.point i).settings.inside v = false) →
        exec (.go p tail) s = .next (ended (.moveEnded .refusedLimit m.tag .pointTo (some i) []) .limit)) ∧
      (-2000000 ≤ v → v ≤ 2000000 → (s.point i).settings.inside v = true → s.positionOf i = v →
        exec (.go p tail) s = .next (ended (.moveEnded .arrived m.tag .pointTo (some i) [(i, 0)]) .ok))) ∧
    ∀ outside : PointIdx → Prop,
      (∀ j, outside j ↔ (s.positionOf j + v < -2000000 ∨ 2000000 < s.positionOf j + v ∨
        (s.referencedOf j = true ∧ (s.point j).settings.inside (s.positionOf j + v) = false))) →
      m.body = .groupBy v → (s.point i).group = g → outside i →
      (∀ j, (s.point j).group = g → (s.point j).settings.encoderMode ≠ .off ∧ (s.point j).latched = none ∧
        (j < i → ¬outside j)) →
      exec (.go p tail) s = .next (ended (.moveEnded .refusedLimit m.tag .groupBy (some i) []) .limit)

/-- R73 to R75, R90 to R95: a first GO of a POINT_JOG, and a GO that resumes a HELD move of one member, on a point that may
be energized at once, with a load that is not STALE: MOVE_STARTED, the permit, the energized channel, and the move
RUNNING with its run list. For every kind and any number of members, a GO that passes its checks and tests reports
MOVE_STARTED and enters STARTING with the run list (at a first start with the start positions, the targets and the
baseline, at a resume with the entries kept, their progress recomputed and the gated flags of the taking members
clear), with a slot for each taking member one stagger after the other; the slots due at the entry are then handled
within the event as START_SLOT handles them, one without, all with a stagger of 0. -/
def Obligations.GoStartsOrResumesOneMember : Prop :=
  (∀ (s : State) (p : Port) (tail : FrameTail) (f : GoodFrame) (g : GroupIdx) (m : Move) (rest : List Move)
    (i : PointIdx) (d : Dir) (e : RunEntry) (back : Bool),
    s.delivers p tail .go f → headerIndex f.header = g.val → (s.group g).holder = some p → s.estop = false →
    (s.group g).trip = none → (s.group g).queue = m :: rest →
    ((back = false ∧ m.state = .queued ∧ m.body = .pointJog i d ∧
        e = { point := i, start := s.positionOf i, target := none, progress := 0, gated := false, released := false
              settled := false, started := true, releasePos := none, arrivalError := none }) ∨
      (back = true ∧ m.state = .held ∧ d = (s.group g).direction ∧
        ∃ x, m.runList = [x] ∧ x.point = i ∧ x.released = false ∧
          e = { x with
            progress := d.sign * (s.positionOf i - x.start), gated := false, settled := false, started := true })) →
    (s.point i).group = g → (s.point i).latched = none → (s.point i).switches.closedToward d = true →
    (s.point i).channel.state.energized = false → (s.point i).channel.pending = none →
    (s.point i).energizeDue d ≤ s.time → (s.point i).load.state ≠ .stale →
    ∃ t, exec (.go p tail) s = .next t ∧
      t.point i = (s.point i).energize (s.group g).rehearsal d s.time ∧
      (t.point i).channel =
        { (s.point i).channel with
          state := d.channelState, lastDir := some d, lastOn := s.time, pending := none, settleDue := none } ∧
      (∀ j, j ≠ i → t.point j = s.point j) ∧
      t.group g =
        { s.group g with
          queue :=
            { m with
              state := .running, toDirection := if back then m.toDirection else none, runList := [e] } :: rest
          schedule := [], permit := some (s.time + 1000 * (s.group g).window), stopReason := none
          baseline := if back then (s.group g).baseline else none } ∧
      (∀ h, h ≠ g → t.group h = s.group h) ∧ t.rights = s.rights ∧ t.estop = s.estop ∧
      ∀ q, t.port q = (((s.afterFrame p).produce (some g)
        (.moveStarted back m.tag m.body.kind m.body.point)).setResult p .ok).port q) ∧
  ∀ (s : State) (p : Port) (tail : FrameTail) (f : GoodFrame) (g : GroupIdx) (m : Move) (rest : List Move)
    (back : Bool) (l : List RunEntry) (dir : Option Dir) (baseline : Option (List (PointIdx × Nat)))
    (taking : List PointIdx) (u : State) (slots : Nat) (run : Nat → State),
    s.delivers p tail .go f → headerIndex f.header = g.val → (s.group g).holder = some p → s.estop = false →
    (s.group g).trip = none → (s.group g).queue = m :: rest →
    ((back = false ∧ m.state = .queued ∧
        (m.body.kind ≠ .pointJog → ∀ i ∈ s.involved g m.body, (s.point i).settings.encoderMode ≠ .off) ∧
        (∀ i ∈ s.involved g m.body, (s.point i).latched = none) ∧
        (∀ i v, m.body = .pointTo i v → s.referencedOf i = true ∧ v ≠ s.positionOf i) ∧
        (∀ e ∈ l, ∀ v, e.target = some v → -2000000 ≤ v ∧ v ≤ 2000000 ∧
          (s.referencedOf e.point = true → (s.point e.point).settings.inside v = true)) ∧
        l = ((s.involved g m.body).map fun i =>
          { point := i, start := s.positionOf i
            target :=
              match m.body with
              | .groupBy delta => some (s.positionOf i + delta)
              | .pointTo _ v => some v
              | .groupJog _ | .pointJog _ _ => none
            progress := 0, gated := false, released := false, settled := (s.point i).channel.state == .off
            started := false, releasePos := none, arrivalError := none }) ∧
        dir = (match m.body with
          | .pointTo i v => some (if s.positionOf i < v then .up else .down)
          | .groupBy _ | .groupJog _ | .pointJog _ _ => none) ∧
        baseline =
          if m.body.kind.ofGroup = true ∧ 2 ≤ l.length ∧
              (∀ i ∈ s.involved g m.body, (s.point i).load.state = .valid) ∧
              0 < s.totalLoad (s.involved g m.body) then
            some ((s.involved g m.body).map fun i =>
              (i, roundDiv (s.filteredOf i * 1024) (s.totalLoad (s.involved g m.body))))
          else none) ∨
      (back = true ∧ m.state = .held ∧
        (∀ e ∈ m.runList, e.released = false → (s.point e.point).latched = none) ∧
        l = (m.runList.map fun e =>
          { e with
            progress := (s.group g).direction.sign * (s.positionOf e.point - e.start)
            gated := e.gated && e.released, started := false }) ∧
        dir = m.toDirection ∧ baseline = (s.group g).baseline)) →
    taking = (l.filter fun e => !e.released).map (·.point) →
    u = (((s.afterFrame p).produce (some g) (.moveStarted back m.tag m.body.kind m.body.point)).modGroup g fun r =>
      { r with
        queue := { m with state := .starting, toDirection := dir, runList := l } :: rest
        schedule := taking.zipIdx.map fun x => (x.1, s.time + x.2 * (1000 * r.stagger))
        permit := some (s.time + 1000 * r.window), stopReason := none, baseline := baseline }) →
    slots = (if (s.group g).stagger = 0 then taking.length else min 1 taking.length) →
    run 0 = u → (∀ k, k < slots → exec (.startSlot g) (run k) = .next (run (k + 1))) →
    exec (.go p tail) s = .next ((run slots).setResult p .ok)

/-- R96, R97, R99: STOP at a group, STOP_ALL at every group and the permit's expiry take a STARTING or RUNNING head move
out of those states and release its members, and change nothing in any other state; without a rehearsal a move whose
members have not all come to rest is then STOPPING, with the reason recorded, STOP or PERMIT, without a report, and no
other group changes. R96, R98: an entry to STOPPING with any reason or mark, outside a rehearsal, releases every member
and, with a member not settled, records the two without a report; with every member settled the end test passes at once,
and the move ends by its mark LIMIT or SOFT_LIMIT, ends JOG_STOPPED, ends ARRIVED with its pairs, or is HELD, each with
its report. The premise of the first part is R85, an invariant. -/
def Obligations.StopsEndTheDriving : Prop :=
  (∀ (s : State) (g : GroupIdx) (reason : Option StopReason) (mark : Option EndMark) (m : Move) (rest : List Move)
    (u : State) (ended : Outcome → List (PointIdx × Int) → State),
    (s.group g).queue = m :: rest →
    ((m.state = .queued ∨ m.state = .stopping ∨ m.state = .held) → s.enterStopping g reason mark = s) ∧
    ((m.state = .starting ∨ m.state = .running) → (∀ i ∈ s.runPoints g, s.rehearsing i = false) →
      u = { s with points := u.points } → (∀ i ∈ s.runPoints g, u.point i = (s.hardRelease i).point i) →
      (∀ i, i ∉ s.runPoints g → u.point i = s.point i) →
      (∀ o l, ended o l = (u.produce (some g) (.moveEnded o m.tag m.body.kind m.body.point l)).modGroup g fun r =>
        { r with queue := rest, schedule := [], permit := none, stopReason := none, baseline := none }) →
      ((∃ e ∈ m.runList, e.settled = false) → s.enterStopping g reason mark = u.modGroup g fun r =>
        { r with
          queue := { m with state := .stopping, endMark := mark } :: rest, schedule := [], permit := none
          stopReason := reason }) ∧
      ((∀ e ∈ m.runList, e.settled = true) →
        (mark = some .limit → s.enterStopping g reason mark = ended .limit []) ∧
        (mark = some .softLimit → s.enterStopping g reason mark = ended .softLimit []) ∧
        (mark = none → m.body.kind.jog = true → s.enterStopping g reason mark = ended .jogStopped []) ∧
        (mark = none → m.body.kind.jog = false → (∀ e ∈ m.runList, e.released = true) →
          s.enterStopping g reason mark = ended .arrived (m.runList.map fun e => (e.point, e.arrivalError.getD 0))) ∧
        (mark = none → m.body.kind.jog = false → (∃ e ∈ m.runList, e.released = false) →
          s.enterStopping g reason mark =
            (u.produce (some g) (.moveHeld reason m.tag m.body.kind m.body.point)).modGroup g fun r =>
              { r with
                queue := { m with state := .held, endMark := none } :: rest, schedule := [], permit := none
                stopReason := reason })))) ∧
  ∀ (s : State) (g : GroupIdx), s.resetAsserted = false → s.queuesLawful →
    (∀ p tail f, s.delivers p tail .stop f → headerIndex f.header = g.val →
      (∃ t, exec (.stop p tail) s = .next t ∧ s.parks t g ∧ (t.port p).lastResult = .ok ∧ t.rights = s.rights ∧
        s.stopsFor t g (s.group g).holder .stop ∧
        (s.settlesLater g → t.ports = (s.answered p .ok).ports ∧ (∀ h, h ≠ g → t.group h = s.group h) ∧
          ∀ i, i ∉ s.runPoints g → t.point i = s.point i)) ∧
      ((s.group g).headIs MoveState.driving = false → exec (.stop p tail) s = .next (s.answered p .ok))) ∧
    (∀ p tail f, s.delivers p tail .stopAll f →
      (∃ t, exec (.stopAll p tail) s = .next t ∧ (∀ h, s.parks t h) ∧ (t.port p).lastResult = .ok ∧
        t.rights = s.rights ∧
        ((∀ h, (s.group h).headIs MoveState.driving = true → s.settlesLater h) →
          t.ports = (s.answered p .ok).ports ∧ ∀ h, s.stopsFor t h (s.group h).holder .stop ∧
            ((s.group h).headIs MoveState.driving = false → t.group h = s.group h))) ∧
      ((∀ h, (s.group h).headIs MoveState.driving = false) →
        exec (.stopAll p tail) s = .next (s.answered p .ok))) ∧
    (∀ due, (s.group g).permit = some due → due ≤ s.time →
      (∃ t, exec (.permitExpiry g) s = .next t ∧ s.parks t g) ∧
      (∀ m rest, (s.group g).queue = m :: rest → m.state.driving = true → m.allSettled = false →
        (∀ i ∈ s.runPoints g, s.rehearsing i = false) →
        ∃ t, exec (.permitExpiry g) s = .next t ∧ t.ports = s.ports ∧
          t.group g =
            { s.group g with
              queue := { m with state := .stopping, endMark := none } :: rest, schedule := [], permit := none
              stopReason := some .permit } ∧
          ∀ h, h ≠ g → t.group h = s.group h))

/-- R102: the checks of CANCEL in their order; HEAD ends the head move CANCELLED, ALL every move from the head on, each
with its MOVE_ENDED report. -/
def Obligations.CancelEndsTheMoves : Prop :=
  ∀ (s : State) (p : Port) (tail : FrameTail) (f : GoodFrame) (g : GroupIdx) (r : Group)
    (report : State → Move → State),
    s.delivers p tail .cancel f → headerIndex f.header = g.val → r = s.group g →
    (∀ u m, report u m = u.produce (some g) (.moveEnded .cancelled m.tag m.body.kind m.body.point [])) →
    (r.holder ≠ some p → exec (.cancel p tail) s = .next (s.answered p .notHolder)) ∧
    (r.holder = some p → (r.state = .starting ∨ r.state = .running ∨ r.state = .stopping) →
      exec (.cancel p tail) s = .next (s.answered p .busy)) ∧
    (r.holder = some p → (r.state = .idle ∨ r.state = .held ∨ r.state = .tripped) →
      (r.queue = [] → exec (.cancel p tail) s = .next (s.answered p .nothing)) ∧
      (∀ m rest, r.queue = m :: rest → bitsOf f.header 0 0 = 0 →
        exec (.cancel p tail) s = .next (((report (s.afterFrame p) m).modGroup g fun q =>
          { q with queue := rest, schedule := [], permit := none, stopReason := none, baseline := none }).setResult
            p .ok)) ∧
      (r.queue ≠ [] → bitsOf f.header 0 0 = 1 →
        exec (.cancel p tail) s = .next (((r.queue.foldl report (s.afterFrame p)).modGroup g fun q =>
          { q with queue := [], schedule := [], permit := none, stopReason := none, baseline := none }).setResult
            p .ok)))

/-! ## Channels -/

/-- R28, R31, R44, R69, R159: what the Sequencer does when it takes an energize request; a STALE load then raises
LOAD_STALE. -/
def Obligations.EnergizeSetsTheChannel : Prop :=
  ∀ (s : State) (i : PointIdx) (d : Dir) (q : Point) (run : Point),
    q = s.point i →
    run =
      { q with
        channel :=
          { q.channel with
            state := if d = .up then .up else .down, lastDir := some d, lastOn := s.time, pending := none
            settleDue := none }
        capture :=
          if s.rehearsing i then q.capture
          else
            { q.capture with
              wrongWay := 0, creep := 0
              stallDue :=
                if q.settings.encoderMode = .off then none else some (s.time + 1000 * q.settings.tStall) }
        shadow :=
          if s.rehearsing i then q.shadow.map fun sh =>
            { sh with
              simDue :=
                if q.settings.encoderMode = .off then none
                else some (s.time + 1000000 / q.settings.nominalSpeed) }
          else q.shadow } →
    (q.load.state ≠ .stale → s.energize i d = s.setPoint i run) ∧
    (q.load.state = .stale → s.energize i d = (s.setPoint i run).raiseFault i .loadStale)

/-- R94, R95, R43, R46: a due start slot leaves the schedule. Permitted and past its wait, the member is energized and
counts as started, and the move is RUNNING once every taking member has started; within its wait the request is held;
dropped for an open switch, the move ends by a LIMIT trip or a LIMIT stop; dropped for a passed permit, it stops with
reason PERMIT. A request is permitted exactly when the five conditions of R43 hold, and the condition that a drop names
is one that fails. That the permit has not been passed at its deadline itself is the model's reading (log entry 12). R42: the
required wait runs from the last de-energization, t_reverse when the last direction is the other one and t_guard when it
is the same or none; whatever the step, a channel that was not UP or DOWN before it and is after it has had this wait
elapse, under the times in force; its premise is an invariant (`RecordsStayLegal`). -/
def Obligations.StartSlotEnergizesItsMember : Prop :=
  (∀ (q : Point) (d : Dir), q.energizeDue d = q.channel.lastOff + 1000 * match q.channel.lastDir with
    | some last => if last = d then q.settings.tGuard else q.settings.tReverse
    | none => q.settings.tGuard) ∧
  (∀ (s t : State) (i : PointIdx) (d : Dir) (before after : Point), s.settingsLegal → step s = .next t →
    before = s.point i → after = t.point i → (before.channel.state = .off ∨ before.channel.state = .settle) →
    after.channel.state = d.channelState →
    before.channel.lastOff + 1000 * (match before.channel.lastDir with
      | some last => if last = d then after.settings.tGuard else after.settings.tReverse
      | none => after.settings.tGuard) ≤ s.time) ∧
  (∀ (s : State) (i : PointIdx) (d : Dir) (active live toward : Prop),
    (active ↔ (s.groupOf i).inRunList i = true ∧ (s.groupOf i).headIs MoveState.driving = true) →
    (live ↔ ∃ due, (s.groupOf i).permit = some due ∧ s.time ≤ due) →
    (toward ↔ match d with
      | .up => (s.point i).switches.upperClosed = true
      | .down => (s.point i).switches.lowerClosed = true) →
    (s.denial i d = none ↔ active ∧ live ∧ (s.point i).latched = none ∧ toward ∧ s.estop = false) ∧
    (s.denial i d = some .notActive → ¬active) ∧ (s.denial i d = some .permit → ¬live) ∧
    (s.denial i d = some .fault → (s.point i).latched ≠ none) ∧ (s.denial i d = some .switch → ¬toward) ∧
    (s.denial i d = some .estop → s.estop = true)) ∧
  ∀ (s : State) (g : GroupIdx) (i : PointIdx) (due : Nat) (later : List (PointIdx × Nat)) (m : Move)
    (rest : List Move) (d : Dir) (s1 : State),
    s.resetAsserted = false → (s.group g).schedule = (i, due) :: later → due ≤ s.time →
    (s.group g).queue = m :: rest → m.state = .starting → (s.point i).group = g → d = (s.group g).direction →
    (s.point i).channel.state.energized = false → (s.point i).channel.pending = none →
    s1 = (s.modGroup g fun r => { r with schedule := later }) →
    (s.denial i d = none → (s.point i).energizeDue d ≤ s.time → (s.point i).load.state ≠ .stale →
      ∀ l, l = (m.runList.map fun e => if e.point = i then { e with started := true, settled := false } else e) →
      exec (.startSlot g) s = .next ((s1.energize i d).modGroup g fun r =>
        { r with
          queue :=
            { m with
              runList := l
              state := if l.all fun e => e.started || e.released then .running else .starting } :: rest })) ∧
    (s.denial i d = none → s.time < (s.point i).energizeDue d →
      exec (.startSlot g) s = .next (s1.modPoint i fun q =>
        { q with channel := { q.channel with pending := some d } })) ∧
    (s.denial i d = some .switch → 2 ≤ m.runList.length →
      exec (.startSlot g) s = .next (s1.trip g .limit (some i))) ∧
    (s.denial i d = some .switch → m.runList.length < 2 →
      exec (.startSlot g) s = .next (s1.enterStopping g none (some .limit))) ∧
    (s.denial i d = some .permit → exec (.startSlot g) s = .next (s1.enterStopping g (some .permit) none)) ∧
    ((s.denial i d = some .fault ∨ s.denial i d = some .estop ∨ s.denial i d = some .notActive) →
      exec (.startSlot g) s = .next s1)

/-- R19, R46, R94, R95, R117, R119, R120: a pending energize past its wait is taken when it is permitted: as a start slot's
when its member has not started, and otherwise as a rejoin, after which the move is evaluated. Dropped before its member
has started, for an open switch it trips two or more members and stops one, for a passed permit it stops the move with
reason PERMIT, and for a fault or ESTOP it only goes. Where the load of a rejoining member is STALE, LOAD_STALE and its
trip come before the notice and the evaluation (MODEL'S CHOICE, log entry 30). A dropped rejoin is followed by an evaluation (the model's order,
log entry 15); a move that still drives is then tripped with cause LIMIT for an open switch, and gates the member again
for any other condition. Before its wait has elapsed nothing happens. -/
def Obligations.PendingEnergizeComesDue : Prop :=
  (∀ (s : State) (i : PointIdx), s.resetAsserted = false →
    ((∀ d, (s.point i).channel.pending = some d → s.time < (s.point i).energizeDue d) →
      exec (.pendingEnergizeDue i) s = .next s) ∧
    ∀ d, (s.point i).channel.pending = some d → (s.point i).energizeDue d ≤ s.time →
      exec (.pendingEnergizeDue i) s = .next (s.pendingDue i)) ∧
  ∀ (s : State) (g : GroupIdx) (i : PointIdx) (d : Dir) (e : RunEntry), s.resetAsserted = false →
    (s.point i).group = g → (s.point i).channel.pending = some d → (s.point i).energizeDue d ≤ s.time →
    (s.group g).entry i = some e →
    (∀ (m : Move) (rest : List Move) (l : List RunEntry), s.denial i d = none → (s.point i).load.state ≠ .stale →
      e.started = false → (s.group g).queue = m :: rest → m.state = .starting →
      l = (m.runList.map fun x => if x.point = i then { x with started := true, settled := false } else x) →
      exec (.pendingEnergizeDue i) s = .next ((s.energize i d).modGroup g fun r =>
        { r with
          queue :=
            { m with
              runList := l
              state := if l.all fun x => x.started || x.released then .running else .starting } :: rest })) ∧
    (s.denial i d = none → e.started = true →
      exec (.pendingEnergizeDue i) s =
        .next (((s.energize i d).modEntry g i fun x => { x with settled := false }).evaluate g)) ∧
    (∀ (m : Move) (rest : List Move) (s1 : State), e.started = false → (s.group g).queue = m :: rest →
      m.state = .starting → s1 = (s.modPoint i fun q => { q with channel := { q.channel with pending := none } }) →
      (s.denial i d = some .switch → 2 ≤ m.runList.length →
        exec (.pendingEnergizeDue i) s = .next (s1.trip g .limit (some i))) ∧
      (s.denial i d = some .switch → m.runList.length < 2 →
        exec (.pendingEnergizeDue i) s = .next (s1.enterStopping g none (some .limit))) ∧
      (s.denial i d = some .permit →
        exec (.pendingEnergizeDue i) s = .next (s1.enterStopping g (some .permit) none))) ∧
    (∀ (c : Denial) (u : State), e.started = true → s.denial i d = some c →
      u = (s.modPoint i fun q => { q with channel := { q.channel with pending := none } }).evaluate g →
      ((u.group g).headIs MoveState.driving = false → exec (.pendingEnergizeDue i) s = .next u) ∧
      ((u.group g).headIs MoveState.driving = true → c = .switch →
        exec (.pendingEnergizeDue i) s = .next (u.trip g .limit (some i))) ∧
      ((u.group g).headIs MoveState.driving = true → c ≠ .switch →
        exec (.pendingEnergizeDue i) s = .next (u.modEntry g i fun x => { x with gated := true }))) ∧
    ((s.denial i d = some .fault ∨ s.denial i d = some .estop) → e.started = false →
      exec (.pendingEnergizeDue i) s = .next (s.modPoint i fun q =>
        { q with channel := { q.channel with pending := none } }))

/-- R50, R51, R32, R160, R161: a hard release puts an energized channel in SETTLE, with its timers, its last direction
kept and the stall timer stopped; in SETTLE or OFF it only drops a pending energize. No other point's record changes. At
the release of a rehearsing member its simulation timer stops, its shadow advances by the coast estimate in the last
direction, up to the position bound, and its progress in an active move follows. An advance that passes the bound raises
POSITION_RANGE unless that is latched; of a release that is no part of a trip, the group of a member of an active move
then trips with cause POINT, at once (the model's reading, log entries 9 and 10). -/
def Obligations.HardReleaseFollowsTheChannelState : Prop :=
  ∀ (s : State) (i : PointIdx) (c : Channel), c = (s.point i).channel →
    ((c.state = .up ∨ c.state = .down) →
      ((s.hardRelease i).point i).channel =
        { c with
          state := .settle, lastOff := s.time, pending := none, deferredDue := none
          settleDue := some (s.time + 1000 * (s.point i).settings.tSettle) } ∧
      ((s.hardRelease i).point i).capture = { (s.point i).capture with stallDue := none } ∧
      (s.hardRelease i).upOutput i = false ∧ (s.hardRelease i).downOutput i = false) ∧
    ((c.state = .settle ∨ c.state = .off) →
      s.hardRelease i = s.modPoint i fun q => { q with channel := { c with pending := none } }) ∧
    (∀ j, j ≠ i → (s.hardRelease i).point j = s.point j) ∧
    ∀ (q : Point) (sh : Shadow) (d : Dir) (x y : Int) (settled u : State), q = s.point i → s.rehearsing i = true →
      q.shadow = some sh → c.lastDir = some d → (c.state = .up ∨ c.state = .down) →
      x = sh.position + d.sign * (q.coast : Int) → y = max (-2000000) (min 2000000 x) →
      settled = s.setPoint i
        { q with
          channel :=
            { c with
              state := .settle, lastOff := s.time, pending := none, deferredDue := none
              settleDue := some (s.time + 1000 * q.settings.tSettle) }
          capture := { q.capture with stallDue := none }
          shadow := some { position := y, referenced := sh.referenced, simDue := none } } →
      u = (if (s.group q.group).headIs MoveState.active = true then
        settled.modEntry q.group i fun e =>
          { e with progress := (s.group q.group).direction.sign * (y - e.start) } else settled) →
      ((s.hardRelease i).point i).shadow = some { position := y, referenced := sh.referenced, simDue := none } ∧
      (((-2000000 ≤ x ∧ x ≤ 2000000) ∨ q.latched = some .positionRange) →
        s.hardRelease i = u ∧ s.release i = u) ∧
      ∀ v : State, (x < -2000000 ∨ 2000000 < x) → q.latched ≠ some .positionRange →
        v = (u.modPoint i fun k => if q.latched = none then { k with latched := some .positionRange }
          else { k with further := true }).produce (some q.group) (.pointFault .positionRange i) q.latched.isSome →
        (s.inActiveMove i = true → s.release i = v.trip q.group .point (some i)) ∧
        (s.inActiveMove i = false → s.release i = v)

/-- R49, R118: a deferred soft release that comes due is decided after an evaluation of the move: one the evaluation has
already ended needs nothing more, a gated unreleased member is released, and any other keeps running without it. -/
def Obligations.MinimumRunIsDecidedAgain : Prop :=
  ∀ (s : State) (i : PointIdx) (due : Nat) (t : State), s.resetAsserted = false →
    (s.point i).channel.deferredDue = some due → due ≤ s.time → t = s.evaluate (s.point i).group →
    ((t.point i).channel.deferredDue = none → exec (.minimumRunDue i) s = .next t) ∧
    (∀ e, (t.point i).channel.deferredDue ≠ none → (t.groupOf i).entry i = some e → e.gated = true →
      e.released = false →
      exec (.minimumRunDue i) s = .next (t.release i) ∧ ((t.release i).point i).channel.quiet = true) ∧
    (∀ e, (t.point i).channel.deferredDue ≠ none → (t.groupOf i).entry i = some e →
      (e.gated = false ∨ e.released = true) →
      exec (.minimumRunDue i) s = .next (t.modPoint i fun q =>
        { q with channel := { q.channel with deferredDue := none } }))

/-- R5, R8, R53, R54, R98, R121: the end of a settle puts the channel in OFF and applies the staged copy: each field present
replaces the active value, and t_reverse is raised to t_guard. Outside an active move nothing else changes; a stopped
jog whose only member it is ends JOG_STOPPED, and any other such move that is neither marked nor released is HELD, each
with its report. An unreleased member of several gets its settled flag and its progress; a STOPPING move then waits for
the others, or ends LIMIT or SOFT_LIMIT by its mark, JOG_STOPPED, or is HELD, and a driven one is evaluated. R46: a
pending energize that is held comes due at this event when the staged copy has changed t_guard or t_reverse and its wait
has elapsed under the new times, after the settled event (the model's reading, log entry 11), and otherwise stays. -/
def Obligations.SettleEndReachesOff : Prop :=
  ∀ (s : State) (i : PointIdx) (due : Nat) (q : Point) (c : Settings), s.resetAsserted = false →
    c = (s.point i).settings → (s.point i).channel.settleDue = some due → due ≤ s.time →
    q =
      { s.point i with
        channel := { (s.point i).channel with state := .off, settleDue := none }
        settings :=
          match (s.point i).staged with
          | some k =>
            { c with
              softUpper := k.softUpper.getD c.softUpper, softLower := k.softLower.getD c.softLower
              tGuard := k.tGuard.getD c.tGuard
              tReverse := max (k.tReverse.getD c.tReverse) (k.tGuard.getD c.tGuard)
              tMinrun := k.tMinrun.getD c.tMinrun, tSettle := k.tSettle.getD c.tSettle
              tStall := k.tStall.getD c.tStall }
          | none => c
        staged := none } →
    (s.inActiveMove i = false → exec (.settleEnd i) s = (s.setPoint i q).afterSettle i (s.point i)) ∧
    ((s.point i).channel.pending = none → s.inActiveMove i = false → exec (.settleEnd i) s = .next (s.setPoint i q)) ∧
    (∀ (g : GroupIdx) (m : Move) (rest : List Move) (e : RunEntry), (s.point i).channel.pending = none →
      (s.point i).group = g → (s.group g).queue = m :: rest → m.state = .stopping → m.endMark = none → m.runList = [e] →
      e.point = i → e.released = false →
      (m.body.kind.jog = true → exec (.settleEnd i) s = .next (((s.setPoint i q).produce (some g)
        (.moveEnded .jogStopped m.tag m.body.kind m.body.point [])).modGroup g fun r =>
          { r with queue := rest, schedule := [], permit := none, stopReason := none, baseline := none })) ∧
      (m.body.kind.jog = false → exec (.settleEnd i) s = .next (((s.setPoint i q).modGroup g fun r =>
        { r with
          queue :=
            { m with
              state := .held
              runList :=
                [{ e with
                    settled := true
                    progress := ((s.group g).direction).sign * (s.positionOf i - e.start) }] } :: rest }).produce
          (some g) (.moveHeld (s.group g).stopReason m.tag m.body.kind m.body.point)))) ∧
    ∀ (g : GroupIdx) (m : Move) (rest : List Move) (l : List RunEntry) (s1 : State) (ended : Outcome → State),
      (s.point i).group = g → (s.group g).queue = m :: rest → (s.group g).inRunList i = true →
      (∀ x ∈ m.runList, x.point = i → x.released = false) →
      l = (m.runList.map fun x => if x.point = i then
        { x with settled := true, progress := (s.group g).direction.sign * (s.positionOf i - x.start) } else x) →
      s1 = ((s.setPoint i q).modGroup g fun r => { r with queue := { m with runList := l } :: rest }) →
      (∀ o, ended o = (s1.produce (some g) (.moveEnded o m.tag m.body.kind m.body.point [])).modGroup g fun r =>
        { r with queue := rest, schedule := [], permit := none, stopReason := none, baseline := none }) →
      (m.state = .stopping → (∃ x ∈ l, x.settled = false) →
        exec (.settleEnd i) s = s1.afterSettle i (s.point i)) ∧
      (m.state = .stopping → (∀ x ∈ l, x.settled = true) →
        (m.endMark = some .limit → exec (.settleEnd i) s = (ended .limit).afterSettle i (s.point i)) ∧
        (m.endMark = some .softLimit → exec (.settleEnd i) s = (ended .softLimit).afterSettle i (s.point i)) ∧
        (m.endMark = none → m.body.kind.jog = true →
          exec (.settleEnd i) s = (ended .jogStopped).afterSettle i (s.point i)) ∧
        (m.endMark = none → m.body.kind.jog = false →
          exec (.settleEnd i) s = ((s1.modGroup g fun r =>
            { r with queue := { m with state := .held, runList := l } :: rest }).produce (some g)
              (.moveHeld (s.group g).stopReason m.tag m.body.kind m.body.point)).afterSettle i (s.point i))) ∧
      ((m.state = .starting ∨ m.state = .running) →
        exec (.settleEnd i) s = (s1.evaluate g).afterSettle i (s.point i))

/-- R40: the coil outputs follow the channel state, outside a rehearsal and without ESTOP (R58: nor during RESET), and
are never active together. -/
def Obligations.OutputsFollowTheChannel : Prop :=
  ∀ (s : State) (i : PointIdx),
    (s.upOutput i = true ↔ ((s.point i).channel.state = .up ∧ (s.groupOf i).rehearsal = false ∧ s.estop = false ∧
      s.resetAsserted = false)) ∧
    (s.downOutput i = true ↔ ((s.point i).channel.state = .down ∧ (s.groupOf i).rehearsal = false ∧
      s.estop = false ∧ s.resetAsserted = false)) ∧
    (s.upOutput i && s.downOutput i) = false

/-! ## Encoder -/

/-- R21 to R31: an edge stores its level; one that the mode does not count changes nothing else; a count within the
position range moves the position by one in the direction of R21's table, is handled by the channel state, in a
rehearsing group as creep, and is then handed to the executor; the fourth creep or wrong-way count raises its fault. -/
def Obligations.EncoderEdgeCounts : Prop :=
  ∀ (s : State) (i : PointIdx) (ph : Phase) (high other counts : Bool) (d : Dir) (q : Point) (c : Capture),
    s.resetAsserted = false → q = s.point i →
    (ph = .a → q.capture.phaseA = !high ∧ other = q.capture.phaseB) →
    (ph = .b → q.capture.phaseB = !high ∧ other = q.capture.phaseA) →
    d = (match ph, high, other with
      | .a, true, false => .up
      | .a, true, true => .down
      | .a, false, true => .up
      | .a, false, false => .down
      | .b, true, true => .up
      | .b, true, false => .down
      | .b, false, false => .up
      | .b, false, true => .down) →
    counts = (match q.settings.encoderMode with
      | .x4 => true
      | .x2 => ph == .a
      | .x1 => ph == .a && high
      | .off => false) →
    c = (if ph = .a then { q.capture with phaseA := high } else { q.capture with phaseB := high }) →
    (counts = false → exec (.encoderEdge i ph high) s = .next (s.setPoint i { q with capture := c })) ∧
    (counts = true → -2000000 ≤ q.capture.position + d.sign → q.capture.position + d.sign ≤ 2000000 →
      ∀ (put : Capture → State) (k : Capture),
        (∀ x, put x = s.setPoint i { q with capture := x }) →
        k = { c with position := q.capture.position + d.sign, lastCount := some d } →
      (s.rehearsing i = true → q.capture.creep < 3 →
        exec (.encoderEdge i ph high) s = .next (put { k with creep := k.creep + 1 })) ∧
      (s.rehearsing i = true → 3 ≤ q.capture.creep →
        exec (.encoderEdge i ph high) s = .next ((put { k with creep := 0 }).raiseFault i .creep)) ∧
      (s.rehearsing i = false → q.channel.state = .settle →
        exec (.encoderEdge i ph high) s = .next ((put k).countArrival i)) ∧
      (s.rehearsing i = false → q.channel.state = .off → q.capture.creep < 3 →
        exec (.encoderEdge i ph high) s = .next ((put { k with creep := k.creep + 1 }).countArrival i)) ∧
      (s.rehearsing i = false → q.channel.state = .off → 3 ≤ q.capture.creep →
        exec (.encoderEdge i ph high) s =
          .next (((put { k with creep := 0 }).raiseFault i .creep).countArrival i)) ∧
      (s.rehearsing i = false → q.channel.state = d.channelState →
        exec (.encoderEdge i ph high) s = .next ((put
          { k with
            wrongWay := 0
            stallDue :=
              if k.stallDue = none then none else some (s.time + 1000 * q.settings.tStall) }).countArrival i)) ∧
      (s.rehearsing i = false → q.channel.state.energized = true → q.channel.state ≠ d.channelState →
        q.capture.wrongWay < 3 →
        exec (.encoderEdge i ph high) s = .next ((put { k with wrongWay := k.wrongWay + 1 }).countArrival i)) ∧
      (s.rehearsing i = false → q.channel.state.energized = true → q.channel.state ≠ d.channelState →
        3 ≤ q.capture.wrongWay →
        exec (.encoderEdge i ph high) s =
          .next (((put { k with wrongWay := 0 }).raiseFault i .reversed).countArrival i))) ∧
    (counts = true → (q.capture.position + d.sign < -2000000 ∨ 2000000 < q.capture.position + d.sign) →
      (q.latched = some .positionRange →
        exec (.encoderEdge i ph high) s = .next (s.setPoint i { q with capture := c })) ∧
      (q.latched ≠ some .positionRange →
        exec (.encoderEdge i ph high) s = .next ((s.setPoint i { q with capture := c }).raiseFault i .positionRange)))

/-! ## Synchronised motion -/

/-- R25, R104, R106, R107, R109 to R111: a count handed to a member of an active move recomputes its progress, and a
STARTING or RUNNING move is then evaluated; a spread above the trip band trips a synchronised RUNNING move with cause
SKEW and the lowest-numbered of the members with the smallest progress. In an evaluation of a jog a referenced member
within its coast estimate of the soft limit ahead stops the move with mark SOFT_LIMIT, and a jog of one member that is
farther off goes on unchanged. The premise of the jog clause is R85, an invariant. -/
def Obligations.CountsAreEvaluatedAndSkewTrips : Prop :=
  (∀ (s : State) (i : PointIdx) (g : GroupIdx) (m : Move) (rest : List Move) (e : RunEntry) (u : State),
    (s.point i).group = g → (s.group g).queue = m :: rest → (s.group g).entry i = some e →
    u = (s.modEntry g i fun x => { x with progress := (s.group g).direction.sign * (s.positionOf i - x.start) }) →
    ((m.state = .starting ∨ m.state = .running) → s.countArrival i = u.evaluate g) ∧
    (m.state = .stopping → s.countArrival i = u) ∧
    ((m.state = .queued ∨ m.state = .held) → s.countArrival i = s)) ∧
  (∀ (s : State) (g : GroupIdx) (m : Move) (rest : List Move) (ahead : PointIdx → Int),
    s.queuesLawful → (s.group g).queue = m :: rest → (m.state = .starting ∨ m.state = .running) →
    m.body.kind.jog = true →
    (∀ i, ahead i = match (s.group g).direction with
      | .up => (s.point i).settings.softUpper - s.positionOf i
      | .down => s.positionOf i - (s.point i).settings.softLower) →
    (∀ x ∈ m.runList, ∀ y ∈ m.runList, x.progress - y.progress ≤ ((s.group g).tripBand : Int)) →
    (∀ e ∈ m.runList, s.referencedOf e.point = true → ahead e.point ≤ ((s.point e.point).coast : Int) →
      s.evaluate g = s.enterStopping g none (some .softLimit)) ∧
    ∀ e, m.runList = [e] → e.released = false →
      (s.referencedOf e.point = true → ((s.point e.point).coast : Int) < ahead e.point) → s.evaluate g = s) ∧
  ∀ (s : State) (g : GroupIdx) (m : Move) (rest : List Move) (e : RunEntry),
    (s.group g).trip = none → (s.group g).queue = m :: rest → m.state = .running → m.body.kind.ofGroup = true →
    m.runList.Pairwise (fun x y => x.point < y.point) → e ∈ m.runList →
    (∀ x ∈ m.runList, e.progress ≤ x.progress ∧ (x.progress = e.progress → e.point ≤ x.point)) →
    (∃ x ∈ m.runList, ((s.group g).tripBand : Int) < x.progress - e.progress) →
    s.evaluate g = s.trip g .skew (some e.point)

/-- R48, R108, R113, R115 to R117, R120: in an evaluation of a RUNNING GROUP_BY none of whose members is gated, released or
at its target, with its spread within the trip band, the one energized member whose lead is above the gate band is
gated: its channel rests at once after the minimum run, and before it the release is deferred to its end. Of a resting
member of a RUNNING synchronised move, the others being level, within its coast estimate of its target it is marked
released, with its arrival error when it has settled in OFF; with a pending rejoin and a lead above the gate band it is
gated again; gated with a lead within half the gate band it rejoins: taken, held, dropped with a LIMIT trip for an open
switch, or gated as before. Of a RUNNING GROUP_BY or GROUP_JOG in which no gated member is within the rejoin band,
whoever else is gated or released, every energized or waiting member with a lead above the gate band is gated, each by
its soft release, and a gated member stays as it is. Nothing else changes. -/
def Obligations.LeaderIsGated : Prop :=
  (∀ (s t : State) (g : GroupIdx) (m : Move) (rest : List Move) (low : RunEntry) (r : Group) (leads : RunEntry → Prop)
    (l : List RunEntry),
    r = s.group g → r.queue = m :: rest → s.onlyGates g m low →
    (∀ x, leads x ↔ x.released = false ∧ x.gated = false ∧
      ((s.point x.point).channel.state.energized = true ∨ (s.point x.point).channel.pending ≠ none) ∧
      (r.gateBand : Int) < x.progress - low.progress) →
    (∀ x ∈ m.runList, leads x → (s.point x.point).channel.state.energized = true →
      (s.point x.point).channel.deferredDue = none →
      (s.point x.point).channel.lastOn + 1000 * (s.point x.point).settings.tMinrun ≤ s.time →
      s.rehearsing x.point = false) →
    l.length = m.runList.length →
    (∀ x y, (x, y) ∈ m.runList.zip l → (leads x → y = { x with gated := true }) ∧ (¬leads x → y = x)) →
    t = s.evaluate g →
    t = { s with points := t.points, groups := t.groups } ∧ (∀ h, h ≠ g → t.group h = s.group h) ∧
    t.group g = { r with queue := { m with runList := l } :: rest } ∧
    (∀ j, (∀ x ∈ m.runList, leads x → x.point ≠ j) → t.point j = s.point j) ∧
    ∀ (x : RunEntry) (q : Point), x ∈ m.runList → leads x → q = s.point x.point →
      (q.channel.state.energized = false →
        t.point x.point = { q with channel := { q.channel with pending := none } }) ∧
      (q.channel.state.energized = true → q.channel.deferredDue ≠ none → t.point x.point = q) ∧
      (q.channel.state.energized = true → q.channel.deferredDue = none →
        (q.channel.lastOn + 1000 * q.settings.tMinrun ≤ s.time → t.point x.point =
          { q with
            channel :=
              { q.channel with
                state := .settle, lastOff := s.time, pending := none, deferredDue := none
                settleDue := some (s.time + 1000 * q.settings.tSettle) }
            capture := { q.capture with stallDue := none } }) ∧
        (s.time < q.channel.lastOn + 1000 * q.settings.tMinrun → t.point x.point =
          { q with
            channel := { q.channel with deferredDue := some (q.channel.lastOn + 1000 * q.settings.tMinrun) } }))) ∧
  (∀ (s : State) (g : GroupIdx) (m : Move) (rest : List Move) (i : PointIdx) (e low : RunEntry) (r : Group) (q : Point),
    r = s.group g → r.queue = m :: rest → m.state = .running → m.body.kind = .groupBy →
    m.runList.Pairwise (fun x y => x.point < y.point) → e ∈ m.runList → e.point = i → low ∈ m.runList →
    (∀ x ∈ m.runList, low.progress ≤ x.progress ∧ x.progress - low.progress ≤ (r.tripBand : Int) ∧
      x.gated = false ∧ x.released = false ∧
      (∀ v, x.target = some v → ((s.point x.point).coast : Int) < r.direction.sign * (v - s.positionOf x.point)) ∧
      (x.point ≠ i → x.progress - low.progress ≤ (r.gateBand : Int))) →
    (r.gateBand : Int) < e.progress - low.progress →
    q = s.point i → q.channel.state.energized = true → q.channel.deferredDue = none →
    (q.channel.lastOn + 1000 * q.settings.tMinrun ≤ s.time → s.rehearsing i = false →
      s.evaluate g = (s.modEntry g i fun x => { x with gated := true }).setPoint i
        { q with
          channel :=
            { q.channel with
              state := .settle, lastOff := s.time, pending := none, deferredDue := none
              settleDue := some (s.time + 1000 * q.settings.tSettle) }
          capture := { q.capture with stallDue := none } }) ∧
    (s.time < q.channel.lastOn + 1000 * q.settings.tMinrun →
      s.evaluate g = (s.modEntry g i fun x => { x with gated := true }).setPoint i
        { q with
          channel := { q.channel with deferredDue := some (q.channel.lastOn + 1000 * q.settings.tMinrun) } })) ∧
  ∀ (s : State) (g : GroupIdx) (m : Move) (rest : List Move) (i : PointIdx) (e low : RunEntry) (r : Group) (q : Point)
    (d : Dir) (s1 : State) (drop : State → State),
    r = s.group g → r.queue = m :: rest → s.levelBut g m i low → e ∈ m.runList → e.point = i → e.released = false →
    q = s.point i → d = r.direction → s1 = (s.modEntry g i fun x => { x with gated := false }) →
    (∀ x, drop x = x.modPoint i fun q => { q with channel := { q.channel with pending := none } }) →
    (∀ v, m.body.kind = .groupBy → e.target = some v → d.sign * (v - s.positionOf i) ≤ (q.coast : Int) →
      q.channel.state.energized = false → (e.gated = true ∨ (q.channel.pending.isSome = true ∧ e.started = true)) →
      s.evaluate g = drop (s.modEntry g i fun x =>
        { x with
          released := true
          arrivalError :=
            if q.channel.state = .off ∧ e.settled = true then
              some (max (-32768) (min 32767 (s.positionOf i - v))) else x.arrivalError })) ∧
    ((∀ v, m.body.kind = .groupBy → e.target = some v → (q.coast : Int) < d.sign * (v - s.positionOf i)) →
      (e.gated = false → q.channel.state.energized = false → q.channel.pending.isSome = true →
        (r.gateBand : Int) < e.progress - low.progress →
        s.evaluate g = drop (s.modEntry g i fun x => { x with gated := true })) ∧
      (e.gated = true → e.progress - low.progress ≤ ((r.gateBand / 2 : Nat) : Int) →
        (q.channel.state = d.channelState → s.evaluate g = s1.modEntry g i fun x => { x with settled := false }) ∧
        (q.channel.state.energized = false → q.channel.pending = none →
          (s.denial i d = none → q.energizeDue d ≤ s.time → q.load.state ≠ .stale →
            s.evaluate g = (s1.energize i d).modEntry g i fun x => { x with settled := false }) ∧
          (s.denial i d = none → s.time < q.energizeDue d →
            s.evaluate g = s1.modPoint i fun q => { q with channel := { q.channel with pending := some d } }) ∧
          (s.denial i d = some .switch → s.evaluate g = s1.trip g .limit (some i)) ∧
          ∀ c, s.denial i d = some c → c ≠ .switch → s.evaluate g = s)))

/-- R51, R96, R98, R112 to R114: in an evaluation of a POINT_TO, or of a GROUP_BY of one member, whose driven member is
within its coast estimate of the target, the channel enters SETTLE, the release position is recorded and the move is
STOPPING without reason or mark; farther off, nothing changes. A driven member of a GROUP_BY of several is released in
the same way while the others go on; the last of several takes the move to STOPPING. When the last one rests gated in
OFF within its coast estimate, it is marked released with its arrival error, and with every member settled the move ends
ARRIVED at once, with a pair for each member. The driven members are outside a rehearsal. The premise of the ARRIVED
clause is R85, an invariant. -/
def Obligations.PointMoveStopsAtItsCoastLead : Prop :=
  (∀ (s : State) (g : GroupIdx) (m : Move) (rest : List Move) (i : PointIdx) (e : RunEntry) (v away : Int) (q : Point),
    (s.group g).queue = m :: rest → (m.state = .starting ∨ m.state = .running) → m.body.kind.jog = false →
    m.runList = [e] → e.point = i → e.released = false → e.settled = false → e.target = some v →
    away = (s.group g).direction.sign * (v - s.positionOf i) →
    q = s.point i → q.channel.state.energized = true → s.rehearsing i = false →
    (away ≤ (q.coast : Int) → s.evaluate g =
      (s.setPoint i
        { q with
          channel :=
            { q.channel with
              state := .settle, lastOff := s.time, pending := none, deferredDue := none
              settleDue := some (s.time + 1000 * q.settings.tSettle) }
          capture := { q.capture with stallDue := none } }).modGroup g fun r =>
        { r with
          queue :=
            { m with
              state := .stopping, endMark := none
              runList := [{ e with released := true, releasePos := some (s.positionOf i) }] } :: rest
          schedule := [], permit := none, stopReason := none }) ∧
    ((q.coast : Int) < away → s.evaluate g = s)) ∧
  ∀ (s : State) (g : GroupIdx) (m : Move) (rest : List Move) (i : PointIdx) (e : RunEntry) (v : Int) (q : Point)
    (l : List RunEntry),
    (s.group g).queue = m :: rest → (m.state = .starting ∨ m.state = .running) → m.body.kind = .groupBy →
    m.runList.Pairwise (fun x y => x.point < y.point) → e ∈ m.runList → e.point = i → e.released = false →
    e.target = some v → q = s.point i →
    (s.group g).direction.sign * (v - s.positionOf i) ≤ (q.coast : Int) →
    (q.channel.state.energized = true → s.rehearsing i = false → 2 ≤ m.runList.length →
      (∀ x ∈ m.runList, x.point ≠ i → x.released = false ∧ ∀ w, x.target = some w →
        ((s.point x.point).coast : Int) < (s.group g).direction.sign * (w - s.positionOf x.point)) →
      (m.state = .running → ∃ low, s.levelBut g m i low) →
      s.evaluate g =
        (s.modEntry g i fun x => { x with released := true, releasePos := some (s.positionOf i) }).setPoint i
          { q with
            channel :=
              { q.channel with
                state := .settle, lastOff := s.time, pending := none, deferredDue := none
                settleDue := some (s.time + 1000 * q.settings.tSettle) }
            capture := { q.capture with stallDue := none } }) ∧
    ((∀ x ∈ m.runList, ∀ y ∈ m.runList, x.progress - y.progress ≤ ((s.group g).tripBand : Int)) →
      (∀ x ∈ m.runList, x.point ≠ i → x.released = true ∧ (s.point x.point).channel.quiet = true) →
      (q.channel.state.energized = true → s.rehearsing i = false → e.settled = false →
        l = (m.runList.map fun x => if x.point = i then
          { x with released := true, releasePos := some (s.positionOf i) } else x) →
        s.evaluate g =
          (s.setPoint i
            { q with
              channel :=
                { q.channel with
                  state := .settle, lastOff := s.time, pending := none, deferredDue := none
                  settleDue := some (s.time + 1000 * q.settings.tSettle) }
              capture := { q.capture with stallDue := none } }).modGroup g fun r =>
            { r with
              queue := { m with state := .stopping, endMark := none, runList := l } :: rest
              schedule := [], permit := none, stopReason := none }) ∧
      (s.queuesLawful → q.channel.state = .off → q.channel.pending = none → e.gated = true →
        (∀ x ∈ m.runList, x.settled = true) →
        l = (m.runList.map fun x => if x.point = i then
          { x with released := true, arrivalError := some (max (-32768) (min 32767 (s.positionOf i - v))) } else x) →
        s.evaluate g = (s.produce (some g) (.moveEnded .arrived m.tag .groupBy none
          (l.map fun x => (x.point, x.arrivalError.getD 0)))).modGroup g fun r =>
            { r with queue := rest, schedule := [], permit := none, stopReason := none, baseline := none }))

/-- R53, R54, R98, R121, R122, R123: the settle end of the one member of a STOPPING move that it reached its target with:
the coast estimate takes a quarter of the measured coast, and the move ends ARRIVED with the arrival error. Of a released
member of any number: its settled flag, its progress and its arrival error are set, and outside a rehearsal its coast is
learned where it has a release position. A driven move is then evaluated; a STOPPING one waits for the others, ends by its
mark, ends ARRIVED with a pair for each member once all are released, and is HELD otherwise. R8, R46: a staged copy is
applied first, and a pending energize that the new times have made due comes due at the end (the model's reading, log
entry 11). -/
def Obligations.ArrivalIsLearnedAndReported : Prop :=
  (∀ (s : State) (i : PointIdx) (due : Nat) (g : GroupIdx) (m : Move) (rest : List Move) (e : RunEntry)
    (v rp : Int) (q : Point) (measured : Nat),
    s.resetAsserted = false → q = s.point i → q.channel.settleDue = some due → due ≤ s.time →
    q.channel.pending = none → q.staged = none → q.group = g → (s.group g).rehearsal = false →
    (s.group g).queue = m :: rest → m.state = .stopping → m.endMark = none → m.body.kind.jog = false →
    m.runList = [e] → e.point = i → e.released = true → e.arrivalError = none → e.target = some v →
    e.releasePos = some rp →
    measured = (max 0 (min 2000 ((s.group g).direction.sign * (q.capture.position - rp)))).toNat →
    exec (.settleEnd i) s = .next (((s.setPoint i
      { q with
        channel := { q.channel with state := .off, settleDue := none }
        coast := roundDiv (3 * q.coast + measured) 4 }).produce (some g)
        (.moveEnded .arrived m.tag m.body.kind m.body.point
          [(i, max (-32768) (min 32767 (q.capture.position - v)))])).modGroup g fun r =>
        { r with queue := rest, schedule := [], permit := none, stopReason := none, baseline := none })) ∧
  ∀ (s : State) (i : PointIdx) (due : Nat) (g : GroupIdx) (m : Move) (rest : List Move) (e : RunEntry)
    (v x : Int) (q : Point) (coast : Nat) (l : List RunEntry) (s1 : State)
    (ended : Outcome → List (PointIdx × Int) → State),
    s.resetAsserted = false → q = s.point i → q.channel.settleDue = some due → due ≤ s.time →
    q.group = g → x = s.positionOf i →
    (s.group g).queue = m :: rest → m.body.kind.jog = false → e ∈ m.runList → e.point = i →
    (∀ k ∈ m.runList, k.point = i → k = e) → e.released = true → e.arrivalError = none → e.target = some v →
    (∀ rp, (s.group g).rehearsal = false → e.releasePos = some rp → coast =
      roundDiv (3 * q.coast + (max 0 (min 2000 ((s.group g).direction.sign * (x - rp)))).toNat) 4) →
    (((s.group g).rehearsal = true ∨ e.releasePos = none) → coast = q.coast) →
    l = (m.runList.map fun k => if k.point = i then
      { k with
        settled := true, progress := (s.group g).direction.sign * (x - k.start)
        arrivalError := some (max (-32768) (min 32767 (x - v))) } else k) →
    s1 = ((s.setPoint i { q.inOff with coast := coast }).modGroup g fun r =>
      { r with queue := { m with runList := l } :: rest }) →
    (∀ o pairs, ended o pairs = (s1.produce (some g) (.moveEnded o m.tag m.body.kind m.body.point pairs)).modGroup g
      fun r => { r with queue := rest, schedule := [], permit := none, stopReason := none, baseline := none }) →
    ((m.state = .starting ∨ m.state = .running) →
      exec (.settleEnd i) s = (s1.evaluate g).afterSettle i q) ∧
    (m.state = .stopping → (∃ k ∈ l, k.settled = false) → exec (.settleEnd i) s = s1.afterSettle i q) ∧
    (m.state = .stopping → (∀ k ∈ l, k.settled = true) →
      (m.endMark = some .limit → exec (.settleEnd i) s = (ended .limit []).afterSettle i q) ∧
      (m.endMark = some .softLimit → exec (.settleEnd i) s = (ended .softLimit []).afterSettle i q) ∧
      (m.endMark = none → (∀ k ∈ l, k.released = true) → exec (.settleEnd i) s =
        (ended .arrived (l.map fun k => (k.point, k.arrivalError.getD 0))).afterSettle i q) ∧
      (m.endMark = none → (∃ k ∈ l, k.released = false) → exec (.settleEnd i) s =
        ((s1.modGroup g fun r => { r with queue := { m with state := .held, runList := l } :: rest }).produce
          (some g) (.moveHeld (s.group g).stopReason m.tag m.body.kind m.body.point)).afterSettle i q))

/-! ## Faults, trips and ESTOP -/

/-- R140, R141, R144, R145, and R33 for STALL: a trip with any cause and point changes nothing in a TRIPPED group; any
other is TRIPPED with them, its queue empty and the members of its run list released; outside a rehearsal the reports of
a move that has left QUEUED are GROUP_TRIPPED, MOVE_ENDED ABORTED and MOVE_ENDED FLUSHED, and nothing else changes. Of a
point fault: the first fault is latched and releases the channel, a later one sets the marker; on a member of an active
move the group is TRIPPED with cause POINT and that point, its queue is empty, and the members of the move are released. Outside a rehearsal the reports are POINT_FAULT, marked additional when the fault was
not latched, and after it, for a trip, GROUP_TRIPPED, MOVE_ENDED ABORTED of the head and MOVE_ENDED FLUSHED of each other
move, oldest first. That a trip in progress keeps its cause and point when the simulated coast of a member raises
POSITION_RANGE is the model's reading (log entry 9). The premise is R85, an invariant. -/
def Obligations.FaultIsLatchedAndTripsItsMove : Prop :=
  (∀ (s t : State) (g : GroupIdx) (cause : TripCause) (pt : Option PointIdx), t = s.trip g cause pt →
    ((s.group g).trip ≠ none → t = s) ∧
    ((s.group g).trip = none →
      (t.group g).trip = some ⟨cause, pt⟩ ∧ (t.group g).queue = [] ∧ (t.group g).schedule = [] ∧
      (∀ i ∈ s.runPoints g, (t.point i).channel.quiet = true) ∧ t.rights = s.rights ∧ t.estop = s.estop ∧
      t.time = s.time ∧
      ∀ m rest, (s.group g).queue = m :: rest → m.state ≠ .queued → (∀ x ∈ rest, x.state = .queued) →
        (∀ i ∈ s.runPoints g, s.rehearsing i = false) →
        t.group g =
          { s.group g with
            queue := [], schedule := [], permit := none, stopReason := none, trip := some ⟨cause, pt⟩
            baseline := none } ∧
        (∀ h, h ≠ g → t.group h = s.group h) ∧ t.ports = (s.reportTripOf g cause pt m rest).ports ∧
        (∀ i ∈ s.runPoints g, t.point i = (s.hardRelease i).point i) ∧
        ∀ i, i ∉ s.runPoints g → t.point i = s.point i)) ∧
  ∀ (s : State) (i : PointIdx), s.resetAsserted = false → s.queuesLawful →
    (∀ (c : FaultCode) (t : State), t = s.raiseFault i c →
      ((s.point i).latched = none → (t.point i).latched = some c ∧ (t.point i).channel.quiet = true) ∧
      (∀ c', (s.point i).latched = some c' → (t.point i).latched = some c' ∧ (t.point i).further = true) ∧
      (s.inActiveMove i = true → (t.groupOf i).trip = some ⟨.point, some i⟩ ∧ (t.groupOf i).queue = [] ∧
        ∀ j ∈ s.runPoints (s.point i).group, (t.point j).channel.quiet = true) ∧
      t.rights = s.rights ∧ t.estop = s.estop ∧ t.time = s.time ∧
      ∀ (g : GroupIdx) (u : State), g = (s.point i).group →
        u = s.produce (some g) (.pointFault c i) (s.point i).latched.isSome →
        (s.inActiveMove i = false → s.rehearsing i = false → t.ports = u.ports ∧ t.groups = s.groups) ∧
        (∀ m rest, s.inActiveMove i = true → (∀ j ∈ s.runPoints g, s.rehearsing j = false) →
          (s.group g).queue = m :: rest →
          t.ports = (u.reportTripOf g .point (some i) m rest).ports ∧ ∀ h, h ≠ g → t.group h = s.group h)) ∧
    ∀ due, (s.point i).capture.stallDue = some due → due ≤ s.time →
      exec (.stallExpiry i) s = .next ((s.modPoint i fun q =>
        { q with capture := { q.capture with stallDue := none } }).raiseFault i .stall)

/-- R147, R148, R72: the checks of CLEAR_FAULT in their order, and what an accepted one clears. -/
def Obligations.ClearFaultClearsThePoint : Prop :=
  ∀ (s : State) (p : Port) (tail : FrameTail) (f : GoodFrame) (i : PointIdx) (q : Point) (persists : Bool),
    s.delivers p tail .clearFault f → headerIndex f.header = i.val → q = s.point i →
    persists = (match q.latched with
      | some .limitWiring => !q.switches.upperClosed && !q.switches.lowerClosed
      | some .overload => match q.load.filtered with
        | some v => decide (q.settings.overThreshold ≤ v)
        | none => false
      | some .loadStale => q.load.state == .stale
      | some .sensor => q.load.sensor
      | _ => false) →
    exec (.clearFault p tail) s = .next
      (if s.level p q.group = .none ∨ s.level p q.group = .view then s.answered p .noRight
        else if q.channel.state ≠ .off then s.answered p .busy
        else if persists then s.answered p .persists
        else ((s.afterFrame p).setPoint i
          { q with latched := none, further := false, capture := { q.capture with wrongWay := 0, creep := 0 } }).setResult
            p .ok)

/-- R149: the checks of CLEAR_TRIP in their order; an accepted one makes the trip cause absent, with a report, and
changes nothing else. -/
def Obligations.ClearTripClearsTheGroup : Prop :=
  ∀ (s : State) (p : Port) (tail : FrameTail) (f : GoodFrame) (g : GroupIdx),
    s.delivers p tail .clearTrip f → headerIndex f.header = g.val →
    exec (.clearTrip p tail) s = .next
      (if s.level p g = .none ∨ s.level p g = .view then s.answered p .noRight
        else if (s.group g).trip = none then s.answered p .nothing
        else if s.estop then s.answered p .estop
        else if (allPoints.any fun i => (s.point i).group == g && (s.point i).latched.isSome) then
          s.answered p .faulted
        else (((s.afterFrame p).modGroup g fun r => { r with trip := none }).produce (some g) .tripCleared).setResult
          p .ok)

/-- R151, R52, R145: when the ESTOP state becomes asserted every channel is quiet and no output is active, every queue is
empty, and a group whose head move had left QUEUED is TRIPPED, with cause ESTOP outside a rehearsal; a group that was
IDLE or TRIPPED keeps its trip cause, and the rights and the holders stay. Outside a rehearsal the reports are ESTOP to
every port and then, group by group in ascending order, GROUP_TRIPPED, MOVE_ENDED ABORTED and MOVE_ENDED FLUSHED for a
tripped group, and MOVE_ENDED FLUSHED for the moves of an IDLE one. The premise is R85, an invariant. -/
def Obligations.EstopStopsEverything : Prop :=
  ∀ s : State, s.resetAsserted = false → s.estop = false → s.queuesLawful →
    ∃ t, exec .estopAsserted s = .next t ∧ t.estop = true ∧ t.loopClosed = false ∧ t.estopDue = none ∧
      (∀ i, (t.point i).channel.quiet = true ∧ t.upOutput i = false ∧ t.downOutput i = false) ∧
      (∀ g, (t.group g).queue = [] ∧ (t.group g).holder = (s.group g).holder) ∧
      (∀ g, (s.group g).headIs (· != .queued) = true → (t.group g).state = .tripped) ∧
      (∀ g, (s.group g).headIs (· != .queued) = true → (∀ i, s.rehearsing i = false) →
        (t.group g).trip = some ⟨.estop, none⟩) ∧
      (∀ g, (s.group g).headIs (· != .queued) = false → (t.group g).trip = (s.group g).trip) ∧
      ((∀ i, s.rehearsing i = false) → t.ports = (allGroups.foldl (fun u g =>
        match (s.group g).queue with
        | [] => u
        | m :: rest =>
          if m.state = .queued then (m :: rest).foldl (State.reportEnd g .flushed) u
          else u.reportTripOf g .estop none m rest) (s.produce none (.estop true))).ports) ∧
      t.rights = s.rights ∧ t.time = s.time

/-- R150, R153: a loop that opens while the state is asserted only ends the qualification of a release (the model's reading,
log entry 17); a loop that closes starts its 50 ms; at their end the state becomes not asserted, with a report to every
port, and nothing else changes. -/
def Obligations.EstopReleaseIsQualified : Prop :=
  ∀ s : State, s.resetAsserted = false →
    (s.estop = true → exec .estopAsserted s = .next { s with loopClosed := false, estopDue := none }) ∧
    (s.estop = true → s.loopClosed = false →
      exec .estopLoopClosed s = .next { s with loopClosed := true, estopDue := some (s.time + 50000) }) ∧
    ∀ due, s.estopDue = some due → due ≤ s.time →
      exec .estopReleased s = .next (({ s with estop := false, estopDue := none } : State).produce none (.estop false))

/-! ## Limit switches -/

/-- R15, R16, R17, R18: a change of a switch input starts 3 ms, or ends them when it returns to the stored state; at
their end the stored state takes the level, with a LIMIT report. A closing, and an opening that neither meets the drive
nor leaves both open, does nothing more; an opening ahead of a driven member of two or more trips the group, of one
stops it with mark LIMIT; one that leaves both open raises LIMIT_WIRING after that. That LIMIT comes before the reports
of these effects is the model's choice (log entry 37). -/
def Obligations.LimitSwitchesAreQualified : Prop :=
  ∀ (s : State) (i : PointIdx) (k : Switch) (level : Bool) (q : Point), s.resetAsserted = false → q = s.point i →
    (q.switches.input k = !level → ∃ t, exec (.limitInputChange i k level) s = .next t ∧
      (t.point i).switches.input k = level ∧ (∀ k', (t.point i).switches.closed k' = q.switches.closed k') ∧
      (t.point i).switches.due k = (if q.switches.closed k = level then none else some (s.time + 3000)) ∧
      t = s.modPoint i fun q => { q with switches := (t.point i).switches }) ∧
    (∀ (due : Nat) (w : Switches) (s1 : State), q.switches.due k = some due → due ≤ s.time →
      q.switches.input k = level →
      w = (match k with
        | .upper => { q.switches with upperClosed := level, upperDue := none }
        | .lower => { q.switches with lowerClosed := level, lowerDue := none }) →
      s1 = ((s.setPoint i { q with switches := w }).produce (some q.group) (.limit k level i)) →
      (level = true → exec (.switchEvent i k) s = .next s1) ∧
      (∀ (ahead : Bool) (wired : State → State),
        ahead = (match k with | .upper => q.channel.state == .up | .lower => q.channel.state == .down) →
        (∀ x, wired x = if w.upperClosed || w.lowerClosed then x else x.raiseFault i .limitWiring) →
        level = false →
        (ahead = false → exec (.switchEvent i k) s = .next (wired s1)) ∧
        (ahead = true → (s.groupOf i).inRunList i = true → (s.groupOf i).headIs MoveState.driving = true →
          s.rehearsing i = false →
          (2 ≤ (s.groupOf i).runList.length →
            exec (.switchEvent i k) s = .next (wired ((s1.hardRelease i).trip q.group .limit (some i)))) ∧
          ((s.groupOf i).runList.length < 2 →
            exec (.switchEvent i k) s =
              .next (wired ((s1.hardRelease i).enterStopping q.group none (some .limit)))))))

/-! ## Load -/

/-- R60, R61, 12.6: characters are assembled four to a record, with a 500 µs gap timer while a record is incomplete; a
record whose sum is not 255 modulo 256 or whose point is above 23 has no effect; a framing error and a gap discard the
partial record. -/
def Obligations.LoadRecordIsAssembledAndChecked : Prop :=
  ∀ s : State, s.resetAsserted = false →
    (∀ c : Byte, s.linkChars.length < 3 → exec (.loadRecord [c]) s =
      .next { s with linkChars := s.linkChars ++ [c], linkGapDue := some (s.time + 500) }) ∧
    (∀ c1 c2 c3 c4 : Byte, s.linkChars = [] →
      ((c1.toNat + c2.toNat + c3.toNat + c4.toNat) % 256 ≠ 255 ∨ 24 ≤ c1.toNat) →
      exec (.loadRecord [c1, c2, c3, c4]) s = .next { s with linkGapDue := none }) ∧
    exec .loadFramingError s = .next { s with linkChars := [], linkGapDue := none } ∧
    ∀ due, s.linkGapDue = some due → due ≤ s.time →
      exec .loadLinkGap s = .next { s with linkChars := [], linkGapDue := none }

/-- R61 to R67, R70, R71, R76: a record that passes is a sample for its point. A sensor marker sets the flag and raises
SENSOR when the flag was clear, and is without effect otherwise. Any other value, a negative one as 0, is accepted: the
ring, the index, the filtered load, the state, the age timer and the flags are as stated, and no position, rights or time
change. In the same event and in this order come LOAD_STATUS when the load was not VALID, OVERLOAD and UNDERLOAD, each
raised when its condition begins to hold and not again while it holds, and the share check of a run-list member's
group. -/
def Obligations.SampleIsAccepted : Prop :=
  ∀ (s : State) (c1 c2 c3 c4 : Byte) (i : PointIdx) (v : Int) (q : Point), s.resetAsserted = false →
    s.linkChars = [] → (c1.toNat + c2.toNat + c3.toNat + c4.toNat) % 256 = 255 → c1.toNat = i.val →
    v = (c2 ++ c3).toInt → q = s.point i →
    (v = -32768 → q.load.sensor = true →
      exec (.loadRecord [c1, c2, c3, c4]) s = .next { s with linkGapDue := none }) ∧
    (v = -32768 → q.load.sensor = false →
      exec (.loadRecord [c1, c2, c3, c4]) s = .next ((({ s with linkGapDue := none } : State).setPoint i
        { q with load := { q.load with sensor := true } }).raiseFault i .sensor)) ∧
    (v ≠ -32768 → ∀ ring : Vector Nat 8,
      (q.load.ring = none → ring = Vector.replicate 8 (max v 0).toNat) →
      (∀ r, q.load.ring = some r → ring = r.set q.load.ringIndex (max v 0).toNat) →
      ∃ t, exec (.loadRecord [c1, c2, c3, c4]) s = .next t ∧
        (t.point i).load =
          { ring := some ring
            ringIndex := if q.load.ring = none then 1 else q.load.ringIndex + 1
            filtered := some (filterRing ring)
            state := .valid
            ageDue := some (s.time + 250000)
            sensor := false
            overExcursion := decide (q.settings.overThreshold ≤ filterRing ring)
            underExcursion := q.settings.underThreshold != 0 && q.channel.state != .off && !s.rehearsing i &&
              decide (filterRing ring < q.settings.underThreshold) } ∧
        (t.point i).capture.position = q.capture.position ∧ (t.point i).settings = q.settings ∧
        t.rights = s.rights ∧ t.time = s.time ∧ t.estop = s.estop) ∧
    (v ≠ -32768 → ∀ (ring : Vector Nat 8) (overload underload : Bool) (s1 s2 s3 s4 : State),
      (q.load.ring = none → ring = Vector.replicate 8 (max v 0).toNat) →
      (∀ r, q.load.ring = some r → ring = r.set q.load.ringIndex (max v 0).toNat) →
      overload = decide (q.settings.overThreshold ≤ filterRing ring) →
      underload = (q.settings.underThreshold != 0 && q.channel.state != .off && !s.rehearsing i &&
        decide (filterRing ring < q.settings.underThreshold)) →
      s1 = ({ s with linkGapDue := none } : State).setPoint i
        { q with
          load :=
            { ring := some ring, ringIndex := if q.load.ring = none then 1 else q.load.ringIndex + 1
              filtered := some (filterRing ring), state := .valid, ageDue := some (s.time + 250000), sensor := false
              overExcursion := q.load.overExcursion, underExcursion := q.load.underExcursion } } →
      s2 = (if q.load.state = .valid then s1
        else s1.produce (some q.group) (.loadStatus .valid (filterRing ring) i)) →
      s3 = (s2.modPoint i fun x => { x with load := { x.load with overExcursion := overload } }) →
      s4 = ((if overload = true ∧ q.load.overExcursion = false then s3.raiseFault i .overload else s3).modPoint i fun x =>
        { x with load := { x.load with underExcursion := underload } }) →
      ∀ u : State, u = (if underload = true ∧ q.load.underExcursion = false then s4.raiseFault i .underload else s4) →
        ((u.groupOf i).inRunList i = true →
          exec (.loadRecord [c1, c2, c3, c4]) s = .next (u.shareCheck q.group)) ∧
        ((u.groupOf i).inRunList i = false → exec (.loadRecord [c1, c2, c3, c4]) s = .next u))

/-- R66, R73, R74, R76: the filtered load and a share are convergent roundings: the nearest whole number, the even one
of two. Shares are defined for a head move of a group kind with two or more members, all VALID, whose filtered loads are
not all 0. The share check changes nothing unless the move is STARTING or RUNNING outside a rehearsal and the baseline
and the shares are there; it trips with cause SHARE when a deviation from the baseline is above the band, naming the
lowest-numbered member with the largest, and otherwise changes nothing. -/
def Obligations.SharesAreRoundedAndChecked : Prop :=
  (∀ (n d q r : Nat), 0 < d → n = q * d + r → r < d →
    roundDiv n d = (if 2 * r < d then q else if d < 2 * r then q + 1 else if q % 2 = 0 then q else q + 1)) ∧
  (∀ v : Vector Nat 8, filterRing v = roundDiv v.toList.sum 8) ∧
  (∀ (s : State) (l : List PointIdx), s.totalLoad l = (l.map fun i => (s.point i).load.filtered.getD 0).sum ∧
    ∀ i, s.filteredOf i = (s.point i).load.filtered.getD 0) ∧
  (∀ (s : State) (g : GroupIdx),
    (s.shares g ≠ none ↔ ∃ m rest, (s.group g).queue = m :: rest ∧
      (m.body.kind = .groupBy ∨ m.body.kind = .groupJog) ∧ 2 ≤ m.runList.length ∧
      (∀ e ∈ m.runList, (s.point e.point).load.state = .valid) ∧ 0 < s.totalLoad (m.runList.map (·.point))) ∧
    (((s.group g).headIs MoveState.driving = false ∨ (s.group g).rehearsal = true ∨ (s.group g).baseline = none ∨
      s.shares g = none) → s.shareCheck g = s)) ∧
  (∀ (s : State) (g : GroupIdx) (b : List (PointIdx × Nat)), s.shares g = some b →
    0 < s.totalLoad (s.runPoints g) ∧
      b = (s.runPoints g).map fun i => (i, roundDiv (s.filteredOf i * 1024) (s.totalLoad (s.runPoints g)))) ∧
  ∀ (s : State) (g : GroupIdx) (base present : List (PointIdx × Nat)) (r : Group) (dev : PointIdx × Nat → Nat),
    r = s.group g → r.headIs MoveState.driving = true → r.rehearsal = false → r.baseline = some base →
    s.shares g = some present → present.Pairwise (fun x y => x.1 < y.1) →
    (∀ x, dev x = ((x.2 : Int) - ((base.lookup x.1).getD 0 : Nat)).natAbs) →
    ((r.shareBand = 0 ∨ ∀ x ∈ present, dev x ≤ r.shareBand) → s.shareCheck g = s) ∧
    ∀ x ∈ present, r.shareBand ≠ 0 → r.shareBand < dev x →
      (∀ y ∈ present, dev y ≤ dev x ∧ (dev y = dev x → x.1 ≤ y.1)) →
      s.shareCheck g = s.trip g .share (some x.1)

/-- R68: at the end of its age the load is STALE, with its filtered load and ring kept; a driven channel raises
LOAD_STALE, and any other gets a LOAD_STATUS report. -/
def Obligations.AgeExpiryMakesTheLoadStale : Prop :=
  ∀ (s : State) (i : PointIdx) (due : Nat) (q : Point) (s1 : State), s.resetAsserted = false → q = s.point i →
    q.load.ageDue = some due → due ≤ s.time →
    s1 = s.setPoint i { q with load := { q.load with state := .stale, ageDue := none } } →
    ((q.channel.state = .up ∨ q.channel.state = .down) →
      exec (.ageExpiry i) s = .next (s1.raiseFault i .loadStale)) ∧
    ((q.channel.state = .off ∨ q.channel.state = .settle) →
      exec (.ageExpiry i) s =
        .next (s1.produce (some q.group) (.loadStatus .stale (q.load.filtered.getD 0) i)))

/-! ## Rehearsal -/

/-- R156, R157, R158: the checks of REHEARSAL in their order; at entry every member gets a shadow of its position and
flag with its timer stopped, at the leave every shadow is discarded, and nothing else changes. -/
def Obligations.RehearsalIsEnteredAndLeft : Prop :=
  ∀ (s : State) (p : Port) (tail : FrameTail) (f : GoodFrame) (g : GroupIdx) (r : Group),
    s.delivers p tail .rehearsal f → headerIndex f.header = g.val → r = s.group g →
    (r.holder ≠ some p → exec (.rehearsal p tail) s = .next (s.answered p .notHolder)) ∧
    (r.holder = some p →
      (headerMode f.header = none → exec (.rehearsal p tail) s = .next (s.answered p .badValue)) ∧
      (∀ on, headerMode f.header = some on →
        (s.estop = true → exec (.rehearsal p tail) s = .next (s.answered p .busy)) ∧
        (s.estop = false → on = r.rehearsal → exec (.rehearsal p tail) s = .next (s.answered p .ok)) ∧
        (s.estop = false → on = true → r.rehearsal = false →
          (r.state ≠ .idle ∨ r.queue ≠ [] ∨ ∃ i, (s.point i).group = g ∧ (s.point i).channel.state ≠ .off) →
          exec (.rehearsal p tail) s = .next (s.answered p .busy)) ∧
        (s.estop = false → on = false → r.rehearsal = true → r.state ≠ .tripped →
          (r.state ≠ .idle ∨ r.queue ≠ []) → exec (.rehearsal p tail) s = .next (s.answered p .busy)) ∧
        (s.estop = false → on = true → r.rehearsal = false → r.state = .idle → r.queue = [] →
          (∀ i, (s.point i).group = g → (s.point i).channel.state = .off) →
          ∃ t, exec (.rehearsal p tail) s = .next t ∧ t.group g = { r with rehearsal := true } ∧
            (∀ h, h ≠ g → t.group h = s.group h) ∧ t.ports = (s.answered p .ok).ports ∧ t.rights = s.rights ∧
            (∀ i, (s.point i).group ≠ g → t.point i = s.point i) ∧
            ∀ i, (s.point i).group = g → t.point i =
              { s.point i with
                shadow := some
                  { position := (s.point i).capture.position, referenced := (s.point i).capture.referenced
                    simDue := none } }) ∧
        (s.estop = false → on = false → r.rehearsal = true →
          (r.state = .tripped ∨ (r.state = .idle ∧ r.queue = [])) →
          ∃ t, exec (.rehearsal p tail) s = .next t ∧ t.group g = { r with rehearsal := false } ∧
            (∀ h, h ≠ g → t.group h = s.group h) ∧ t.ports = (s.answered p .ok).ports ∧ t.rights = s.rights ∧
            (∀ i, (s.point i).group ≠ g → t.point i = s.point i) ∧
            ∀ i, (s.point i).group = g → t.point i = { s.point i with shadow := none })))

/-- R159, R161: a due simulated count of an energized rehearsing member moves the shadow by one in the energized
direction, is due again one interval later, and is handed to the executor; at the bound it is dropped and raises
POSITION_RANGE unless that is latched. The real capture does not change before the hand-off. The next count's due
moment counts from this one's (the model's reading, log entry 16). -/
def Obligations.SimulatedCountMovesTheShadow : Prop :=
  ∀ (s : State) (i : PointIdx) (sh : Shadow) (due : Nat) (d : Dir) (next : Nat), s.resetAsserted = false →
    s.rehearsing i = true → (s.point i).shadow = some sh → sh.simDue = some due → due ≤ s.time →
    (s.point i).channel.state = d.channelState → next = due + 1000000 / (s.point i).settings.nominalSpeed →
    (-2000000 ≤ sh.position + d.sign → sh.position + d.sign ≤ 2000000 →
      exec (.simulatedCount i) s = .next ((s.modPoint i fun q =>
        { q with
          shadow := some
            { position := sh.position + d.sign, referenced := sh.referenced
              simDue := some next } }).countArrival i)) ∧
    ((sh.position + d.sign < -2000000 ∨ 2000000 < sh.position + d.sign) → ∀ s1 : State,
      s1 = (s.modPoint i fun q => { q with shadow := some { sh with simDue := some next } }) →
      ((s.point i).latched = some .positionRange → exec (.simulatedCount i) s = .next s1) ∧
      ((s.point i).latched ≠ some .positionRange →
        exec (.simulatedCount i) s = .next (s1.raiseFault i .positionRange)))

/-! ## Laws of every reachable state -/

/-- The laws hold right after reset. -/
def Obligations.LawsHoldAtReset : Prop :=
  State.reset.driveLawful ∧ State.reset.queuesLawful ∧ State.reset.positionsBounded ∧ State.reset.reportsBounded ∧
    State.reset.settingsLegal ∧ State.reset.groupSettingsLegal ∧ State.reset.holdersEntitled

/-- R41: every step keeps the law of the coil outputs. THE MODEL'S READING of R41's third condition, that the permit
deadline has not passed (log entry 2): the permit is present, since a due expiry is a command that is not forced. The
premise is R85, an invariant (`QueuesStayLawful`). -/
def Obligations.DriveLawIsKept : Prop :=
  ∀ s t : State, s.driveLawful → s.queuesLawful → step s = .next t → t.driveLawful

/-- R85: every step keeps every queue at four moves or fewer, only the head out of QUEUED, and empty while TRIPPED. -/
def Obligations.QueuesStayLawful : Prop :=
  ∀ s t : State, s.queuesLawful → step s = .next t → t.queuesLawful

/-- R1 to R8, R24, R79, R81, R129, R161, R179: every step keeps every position and shadow position in its range, every
report queue within 32 records, every point setting in its range with t_reverse not below t_guard and the lower soft
limit below the upper, every group setting in its range with the trip band at least twice the gate band, and every
holder at OPERATE or above. -/
def Obligations.RecordsStayLegal : Prop :=
  ∀ s t : State, step s = .next t →
    (s.positionsBounded → t.positionsBounded) ∧ (s.reportsBounded → t.reportsBounded) ∧
    (s.settingsLegal → t.settingsLegal) ∧ (s.groupSettingsLegal → t.groupSettingsLegal) ∧ (s.holdersEntitled → t.holdersEntitled)

end
end

