-- ==== Sys2Proof/Laws/State.lean ====
section
/-! SUPPORT. What each update of a record leaves as it was, field by field, and what it writes. -/

namespace Sys2Proof.Machine

variable (s : State)

/-! ## Fields an update does not write -/

@[simp] theorem State.groups_setPoint (i : PointIdx) (p : Point) : (s.setPoint i p).groups = s.groups := rfl
@[simp] theorem State.rights_setPoint (i : PointIdx) (p : Point) : (s.setPoint i p).rights = s.rights := rfl
@[simp] theorem State.ports_setPoint (i : PointIdx) (p : Point) : (s.setPoint i p).ports = s.ports := rfl
@[simp] theorem State.estop_setPoint (i : PointIdx) (p : Point) : (s.setPoint i p).estop = s.estop := rfl
@[simp] theorem State.loopClosed_setPoint (i : PointIdx) (p : Point) : (s.setPoint i p).loopClosed = s.loopClosed := rfl
@[simp] theorem State.estopDue_setPoint (i : PointIdx) (p : Point) : (s.setPoint i p).estopDue = s.estopDue := rfl
@[simp] theorem State.linkChars_setPoint (i : PointIdx) (p : Point) : (s.setPoint i p).linkChars = s.linkChars := rfl
@[simp] theorem State.linkGapDue_setPoint (i : PointIdx) (p : Point) : (s.setPoint i p).linkGapDue = s.linkGapDue := rfl
@[simp] theorem State.time_setPoint (i : PointIdx) (p : Point) : (s.setPoint i p).time = s.time := rfl
@[simp] theorem State.resetAsserted_setPoint (i : PointIdx) (p : Point) : (s.setPoint i p).resetAsserted = s.resetAsserted := rfl
@[simp] theorem State.pending_setPoint (i : PointIdx) (p : Point) : (s.setPoint i p).pending = s.pending := rfl

@[simp] theorem State.groups_modPoint (i : PointIdx) (f : Point → Point) : (s.modPoint i f).groups = s.groups := rfl
@[simp] theorem State.rights_modPoint (i : PointIdx) (f : Point → Point) : (s.modPoint i f).rights = s.rights := rfl
@[simp] theorem State.ports_modPoint (i : PointIdx) (f : Point → Point) : (s.modPoint i f).ports = s.ports := rfl
@[simp] theorem State.estop_modPoint (i : PointIdx) (f : Point → Point) : (s.modPoint i f).estop = s.estop := rfl
@[simp] theorem State.loopClosed_modPoint (i : PointIdx) (f : Point → Point) : (s.modPoint i f).loopClosed = s.loopClosed := rfl
@[simp] theorem State.estopDue_modPoint (i : PointIdx) (f : Point → Point) : (s.modPoint i f).estopDue = s.estopDue := rfl
@[simp] theorem State.linkChars_modPoint (i : PointIdx) (f : Point → Point) : (s.modPoint i f).linkChars = s.linkChars := rfl
@[simp] theorem State.linkGapDue_modPoint (i : PointIdx) (f : Point → Point) : (s.modPoint i f).linkGapDue = s.linkGapDue := rfl
@[simp] theorem State.time_modPoint (i : PointIdx) (f : Point → Point) : (s.modPoint i f).time = s.time := rfl
@[simp] theorem State.resetAsserted_modPoint (i : PointIdx) (f : Point → Point) : (s.modPoint i f).resetAsserted = s.resetAsserted := rfl
@[simp] theorem State.pending_modPoint (i : PointIdx) (f : Point → Point) : (s.modPoint i f).pending = s.pending := rfl

@[simp] theorem State.points_setGroup (g : GroupIdx) (r : Group) : (s.setGroup g r).points = s.points := rfl
@[simp] theorem State.rights_setGroup (g : GroupIdx) (r : Group) : (s.setGroup g r).rights = s.rights := rfl
@[simp] theorem State.ports_setGroup (g : GroupIdx) (r : Group) : (s.setGroup g r).ports = s.ports := rfl
@[simp] theorem State.estop_setGroup (g : GroupIdx) (r : Group) : (s.setGroup g r).estop = s.estop := rfl
@[simp] theorem State.loopClosed_setGroup (g : GroupIdx) (r : Group) : (s.setGroup g r).loopClosed = s.loopClosed := rfl
@[simp] theorem State.estopDue_setGroup (g : GroupIdx) (r : Group) : (s.setGroup g r).estopDue = s.estopDue := rfl
@[simp] theorem State.linkChars_setGroup (g : GroupIdx) (r : Group) : (s.setGroup g r).linkChars = s.linkChars := rfl
@[simp] theorem State.linkGapDue_setGroup (g : GroupIdx) (r : Group) : (s.setGroup g r).linkGapDue = s.linkGapDue := rfl
@[simp] theorem State.time_setGroup (g : GroupIdx) (r : Group) : (s.setGroup g r).time = s.time := rfl
@[simp] theorem State.resetAsserted_setGroup (g : GroupIdx) (r : Group) : (s.setGroup g r).resetAsserted = s.resetAsserted := rfl
@[simp] theorem State.pending_setGroup (g : GroupIdx) (r : Group) : (s.setGroup g r).pending = s.pending := rfl

@[simp] theorem State.points_modGroup (g : GroupIdx) (f : Group → Group) : (s.modGroup g f).points = s.points := rfl
@[simp] theorem State.rights_modGroup (g : GroupIdx) (f : Group → Group) : (s.modGroup g f).rights = s.rights := rfl
@[simp] theorem State.ports_modGroup (g : GroupIdx) (f : Group → Group) : (s.modGroup g f).ports = s.ports := rfl
@[simp] theorem State.estop_modGroup (g : GroupIdx) (f : Group → Group) : (s.modGroup g f).estop = s.estop := rfl
@[simp] theorem State.loopClosed_modGroup (g : GroupIdx) (f : Group → Group) : (s.modGroup g f).loopClosed = s.loopClosed := rfl
@[simp] theorem State.estopDue_modGroup (g : GroupIdx) (f : Group → Group) : (s.modGroup g f).estopDue = s.estopDue := rfl
@[simp] theorem State.linkChars_modGroup (g : GroupIdx) (f : Group → Group) : (s.modGroup g f).linkChars = s.linkChars := rfl
@[simp] theorem State.linkGapDue_modGroup (g : GroupIdx) (f : Group → Group) : (s.modGroup g f).linkGapDue = s.linkGapDue := rfl
@[simp] theorem State.time_modGroup (g : GroupIdx) (f : Group → Group) : (s.modGroup g f).time = s.time := rfl
@[simp] theorem State.resetAsserted_modGroup (g : GroupIdx) (f : Group → Group) : (s.modGroup g f).resetAsserted = s.resetAsserted := rfl
@[simp] theorem State.pending_modGroup (g : GroupIdx) (f : Group → Group) : (s.modGroup g f).pending = s.pending := rfl

@[simp] theorem State.points_modPort (p : Port) (f : PortState → PortState) : (s.modPort p f).points = s.points := rfl
@[simp] theorem State.groups_modPort (p : Port) (f : PortState → PortState) : (s.modPort p f).groups = s.groups := rfl
@[simp] theorem State.rights_modPort (p : Port) (f : PortState → PortState) : (s.modPort p f).rights = s.rights := rfl
@[simp] theorem State.estop_modPort (p : Port) (f : PortState → PortState) : (s.modPort p f).estop = s.estop := rfl
@[simp] theorem State.loopClosed_modPort (p : Port) (f : PortState → PortState) : (s.modPort p f).loopClosed = s.loopClosed := rfl
@[simp] theorem State.estopDue_modPort (p : Port) (f : PortState → PortState) : (s.modPort p f).estopDue = s.estopDue := rfl
@[simp] theorem State.linkChars_modPort (p : Port) (f : PortState → PortState) : (s.modPort p f).linkChars = s.linkChars := rfl
@[simp] theorem State.linkGapDue_modPort (p : Port) (f : PortState → PortState) : (s.modPort p f).linkGapDue = s.linkGapDue := rfl
@[simp] theorem State.time_modPort (p : Port) (f : PortState → PortState) : (s.modPort p f).time = s.time := rfl
@[simp] theorem State.resetAsserted_modPort (p : Port) (f : PortState → PortState) : (s.modPort p f).resetAsserted = s.resetAsserted := rfl
@[simp] theorem State.pending_modPort (p : Port) (f : PortState → PortState) : (s.modPort p f).pending = s.pending := rfl

@[simp] theorem State.points_setLevel (p : Port) (g : GroupIdx) (v : Level) : (s.setLevel p g v).points = s.points := rfl
@[simp] theorem State.groups_setLevel (p : Port) (g : GroupIdx) (v : Level) : (s.setLevel p g v).groups = s.groups := rfl
@[simp] theorem State.ports_setLevel (p : Port) (g : GroupIdx) (v : Level) : (s.setLevel p g v).ports = s.ports := rfl
@[simp] theorem State.estop_setLevel (p : Port) (g : GroupIdx) (v : Level) : (s.setLevel p g v).estop = s.estop := rfl
@[simp] theorem State.loopClosed_setLevel (p : Port) (g : GroupIdx) (v : Level) : (s.setLevel p g v).loopClosed = s.loopClosed := rfl
@[simp] theorem State.estopDue_setLevel (p : Port) (g : GroupIdx) (v : Level) : (s.setLevel p g v).estopDue = s.estopDue := rfl
@[simp] theorem State.linkChars_setLevel (p : Port) (g : GroupIdx) (v : Level) : (s.setLevel p g v).linkChars = s.linkChars := rfl
@[simp] theorem State.linkGapDue_setLevel (p : Port) (g : GroupIdx) (v : Level) : (s.setLevel p g v).linkGapDue = s.linkGapDue := rfl
@[simp] theorem State.time_setLevel (p : Port) (g : GroupIdx) (v : Level) : (s.setLevel p g v).time = s.time := rfl
@[simp] theorem State.resetAsserted_setLevel (p : Port) (g : GroupIdx) (v : Level) : (s.setLevel p g v).resetAsserted = s.resetAsserted := rfl
@[simp] theorem State.pending_setLevel (p : Port) (g : GroupIdx) (v : Level) : (s.setLevel p g v).pending = s.pending := rfl

@[simp] theorem State.points_distribute (r : Report) : (s.distribute r).points = s.points := rfl
@[simp] theorem State.groups_distribute (r : Report) : (s.distribute r).groups = s.groups := rfl
@[simp] theorem State.rights_distribute (r : Report) : (s.distribute r).rights = s.rights := rfl
@[simp] theorem State.estop_distribute (r : Report) : (s.distribute r).estop = s.estop := rfl
@[simp] theorem State.loopClosed_distribute (r : Report) : (s.distribute r).loopClosed = s.loopClosed := rfl
@[simp] theorem State.estopDue_distribute (r : Report) : (s.distribute r).estopDue = s.estopDue := rfl
@[simp] theorem State.linkChars_distribute (r : Report) : (s.distribute r).linkChars = s.linkChars := rfl
@[simp] theorem State.linkGapDue_distribute (r : Report) : (s.distribute r).linkGapDue = s.linkGapDue := rfl
@[simp] theorem State.time_distribute (r : Report) : (s.distribute r).time = s.time := rfl
@[simp] theorem State.resetAsserted_distribute (r : Report) : (s.distribute r).resetAsserted = s.resetAsserted := rfl
@[simp] theorem State.pending_distribute (r : Report) : (s.distribute r).pending = s.pending := rfl

@[simp] theorem State.points_produce (g : Option GroupIdx) (b : ReportBody) (x : Bool) : (s.produce g b x).points = s.points := rfl
@[simp] theorem State.groups_produce (g : Option GroupIdx) (b : ReportBody) (x : Bool) : (s.produce g b x).groups = s.groups := rfl
@[simp] theorem State.rights_produce (g : Option GroupIdx) (b : ReportBody) (x : Bool) : (s.produce g b x).rights = s.rights := rfl
@[simp] theorem State.estop_produce (g : Option GroupIdx) (b : ReportBody) (x : Bool) : (s.produce g b x).estop = s.estop := rfl
@[simp] theorem State.loopClosed_produce (g : Option GroupIdx) (b : ReportBody) (x : Bool) : (s.produce g b x).loopClosed = s.loopClosed := rfl
@[simp] theorem State.estopDue_produce (g : Option GroupIdx) (b : ReportBody) (x : Bool) : (s.produce g b x).estopDue = s.estopDue := rfl
@[simp] theorem State.linkChars_produce (g : Option GroupIdx) (b : ReportBody) (x : Bool) : (s.produce g b x).linkChars = s.linkChars := rfl
@[simp] theorem State.linkGapDue_produce (g : Option GroupIdx) (b : ReportBody) (x : Bool) : (s.produce g b x).linkGapDue = s.linkGapDue := rfl
@[simp] theorem State.time_produce (g : Option GroupIdx) (b : ReportBody) (x : Bool) : (s.produce g b x).time = s.time := rfl
@[simp] theorem State.resetAsserted_produce (g : Option GroupIdx) (b : ReportBody) (x : Bool) : (s.produce g b x).resetAsserted = s.resetAsserted := rfl
@[simp] theorem State.pending_produce (g : Option GroupIdx) (b : ReportBody) (x : Bool) : (s.produce g b x).pending = s.pending := rfl

@[simp] theorem State.points_modEntry (g : GroupIdx) (i : PointIdx) (f : RunEntry → RunEntry) : (s.modEntry g i f).points = s.points := rfl
@[simp] theorem State.rights_modEntry (g : GroupIdx) (i : PointIdx) (f : RunEntry → RunEntry) : (s.modEntry g i f).rights = s.rights := rfl
@[simp] theorem State.ports_modEntry (g : GroupIdx) (i : PointIdx) (f : RunEntry → RunEntry) : (s.modEntry g i f).ports = s.ports := rfl
@[simp] theorem State.estop_modEntry (g : GroupIdx) (i : PointIdx) (f : RunEntry → RunEntry) : (s.modEntry g i f).estop = s.estop := rfl
@[simp] theorem State.loopClosed_modEntry (g : GroupIdx) (i : PointIdx) (f : RunEntry → RunEntry) : (s.modEntry g i f).loopClosed = s.loopClosed := rfl
@[simp] theorem State.estopDue_modEntry (g : GroupIdx) (i : PointIdx) (f : RunEntry → RunEntry) : (s.modEntry g i f).estopDue = s.estopDue := rfl
@[simp] theorem State.linkChars_modEntry (g : GroupIdx) (i : PointIdx) (f : RunEntry → RunEntry) : (s.modEntry g i f).linkChars = s.linkChars := rfl
@[simp] theorem State.linkGapDue_modEntry (g : GroupIdx) (i : PointIdx) (f : RunEntry → RunEntry) : (s.modEntry g i f).linkGapDue = s.linkGapDue := rfl
@[simp] theorem State.time_modEntry (g : GroupIdx) (i : PointIdx) (f : RunEntry → RunEntry) : (s.modEntry g i f).time = s.time := rfl
@[simp] theorem State.resetAsserted_modEntry (g : GroupIdx) (i : PointIdx) (f : RunEntry → RunEntry) : (s.modEntry g i f).resetAsserted = s.resetAsserted := rfl
@[simp] theorem State.pending_modEntry (g : GroupIdx) (i : PointIdx) (f : RunEntry → RunEntry) : (s.modEntry g i f).pending = s.pending := rfl

@[simp] theorem State.points_setResult (p : Port) (r : Result) : (s.setResult p r).points = s.points := rfl
@[simp] theorem State.groups_setResult (p : Port) (r : Result) : (s.setResult p r).groups = s.groups := rfl
@[simp] theorem State.rights_setResult (p : Port) (r : Result) : (s.setResult p r).rights = s.rights := rfl
@[simp] theorem State.estop_setResult (p : Port) (r : Result) : (s.setResult p r).estop = s.estop := rfl
@[simp] theorem State.loopClosed_setResult (p : Port) (r : Result) : (s.setResult p r).loopClosed = s.loopClosed := rfl
@[simp] theorem State.estopDue_setResult (p : Port) (r : Result) : (s.setResult p r).estopDue = s.estopDue := rfl
@[simp] theorem State.linkChars_setResult (p : Port) (r : Result) : (s.setResult p r).linkChars = s.linkChars := rfl
@[simp] theorem State.linkGapDue_setResult (p : Port) (r : Result) : (s.setResult p r).linkGapDue = s.linkGapDue := rfl
@[simp] theorem State.time_setResult (p : Port) (r : Result) : (s.setResult p r).time = s.time := rfl
@[simp] theorem State.resetAsserted_setResult (p : Port) (r : Result) : (s.setResult p r).resetAsserted = s.resetAsserted := rfl
@[simp] theorem State.pending_setResult (p : Port) (r : Result) : (s.setResult p r).pending = s.pending := rfl

@[simp] theorem State.points_endFrame (p : Port) : (s.endFrame p).points = s.points := rfl
@[simp] theorem State.groups_endFrame (p : Port) : (s.endFrame p).groups = s.groups := rfl
@[simp] theorem State.rights_endFrame (p : Port) : (s.endFrame p).rights = s.rights := rfl
@[simp] theorem State.estop_endFrame (p : Port) : (s.endFrame p).estop = s.estop := rfl
@[simp] theorem State.loopClosed_endFrame (p : Port) : (s.endFrame p).loopClosed = s.loopClosed := rfl
@[simp] theorem State.estopDue_endFrame (p : Port) : (s.endFrame p).estopDue = s.estopDue := rfl
@[simp] theorem State.linkChars_endFrame (p : Port) : (s.endFrame p).linkChars = s.linkChars := rfl
@[simp] theorem State.linkGapDue_endFrame (p : Port) : (s.endFrame p).linkGapDue = s.linkGapDue := rfl
@[simp] theorem State.time_endFrame (p : Port) : (s.endFrame p).time = s.time := rfl
@[simp] theorem State.resetAsserted_endFrame (p : Port) : (s.endFrame p).resetAsserted = s.resetAsserted := rfl
@[simp] theorem State.pending_endFrame (p : Port) : (s.endFrame p).pending = s.pending := rfl

/-! ## Records an update does not write -/

@[simp] theorem State.group_setPoint (i : PointIdx) (p : Point) (h : GroupIdx) : (s.setPoint i p).group h = s.group h := rfl
@[simp] theorem State.port_setPoint (i : PointIdx) (p : Point) (q : Port) : (s.setPoint i p).port q = s.port q := rfl
@[simp] theorem State.level_setPoint (i : PointIdx) (p : Point) (q : Port) (h : GroupIdx) : (s.setPoint i p).level q h = s.level q h := rfl
@[simp] theorem State.group_modPoint (i : PointIdx) (f : Point → Point) (h : GroupIdx) : (s.modPoint i f).group h = s.group h := rfl
@[simp] theorem State.port_modPoint (i : PointIdx) (f : Point → Point) (q : Port) : (s.modPoint i f).port q = s.port q := rfl
@[simp] theorem State.level_modPoint (i : PointIdx) (f : Point → Point) (q : Port) (h : GroupIdx) : (s.modPoint i f).level q h = s.level q h := rfl
@[simp] theorem State.point_setGroup (g : GroupIdx) (r : Group) (j : PointIdx) : (s.setGroup g r).point j = s.point j := rfl
@[simp] theorem State.port_setGroup (g : GroupIdx) (r : Group) (q : Port) : (s.setGroup g r).port q = s.port q := rfl
@[simp] theorem State.level_setGroup (g : GroupIdx) (r : Group) (q : Port) (h : GroupIdx) : (s.setGroup g r).level q h = s.level q h := rfl
@[simp] theorem State.point_modGroup (g : GroupIdx) (f : Group → Group) (j : PointIdx) : (s.modGroup g f).point j = s.point j := rfl
@[simp] theorem State.port_modGroup (g : GroupIdx) (f : Group → Group) (q : Port) : (s.modGroup g f).port q = s.port q := rfl
@[simp] theorem State.level_modGroup (g : GroupIdx) (f : Group → Group) (q : Port) (h : GroupIdx) : (s.modGroup g f).level q h = s.level q h := rfl
@[simp] theorem State.point_modPort (p : Port) (f : PortState → PortState) (j : PointIdx) : (s.modPort p f).point j = s.point j := rfl
@[simp] theorem State.group_modPort (p : Port) (f : PortState → PortState) (h : GroupIdx) : (s.modPort p f).group h = s.group h := rfl
@[simp] theorem State.groupOf_modPort (p : Port) (f : PortState → PortState) (j : PointIdx) : (s.modPort p f).groupOf j = s.groupOf j := rfl
@[simp] theorem State.level_modPort (p : Port) (f : PortState → PortState) (q : Port) (h : GroupIdx) : (s.modPort p f).level q h = s.level q h := rfl
@[simp] theorem State.point_setLevel (p : Port) (g : GroupIdx) (v : Level) (j : PointIdx) : (s.setLevel p g v).point j = s.point j := rfl
@[simp] theorem State.group_setLevel (p : Port) (g : GroupIdx) (v : Level) (h : GroupIdx) : (s.setLevel p g v).group h = s.group h := rfl
@[simp] theorem State.port_setLevel (p : Port) (g : GroupIdx) (v : Level) (q : Port) : (s.setLevel p g v).port q = s.port q := rfl
@[simp] theorem State.groupOf_setLevel (p : Port) (g : GroupIdx) (v : Level) (j : PointIdx) : (s.setLevel p g v).groupOf j = s.groupOf j := rfl
@[simp] theorem State.point_distribute (r : Report) (j : PointIdx) : (s.distribute r).point j = s.point j := rfl
@[simp] theorem State.group_distribute (r : Report) (h : GroupIdx) : (s.distribute r).group h = s.group h := rfl
@[simp] theorem State.groupOf_distribute (r : Report) (j : PointIdx) : (s.distribute r).groupOf j = s.groupOf j := rfl
@[simp] theorem State.level_distribute (r : Report) (q : Port) (h : GroupIdx) : (s.distribute r).level q h = s.level q h := rfl
@[simp] theorem State.point_produce (g : Option GroupIdx) (b : ReportBody) (x : Bool) (j : PointIdx) : (s.produce g b x).point j = s.point j := rfl
@[simp] theorem State.group_produce (g : Option GroupIdx) (b : ReportBody) (x : Bool) (h : GroupIdx) : (s.produce g b x).group h = s.group h := rfl
@[simp] theorem State.groupOf_produce (g : Option GroupIdx) (b : ReportBody) (x : Bool) (j : PointIdx) : (s.produce g b x).groupOf j = s.groupOf j := rfl
@[simp] theorem State.level_produce (g : Option GroupIdx) (b : ReportBody) (x : Bool) (q : Port) (h : GroupIdx) : (s.produce g b x).level q h = s.level q h := rfl
@[simp] theorem State.point_modEntry (g : GroupIdx) (i : PointIdx) (f : RunEntry → RunEntry) (j : PointIdx) : (s.modEntry g i f).point j = s.point j := rfl
@[simp] theorem State.port_modEntry (g : GroupIdx) (i : PointIdx) (f : RunEntry → RunEntry) (q : Port) : (s.modEntry g i f).port q = s.port q := rfl
@[simp] theorem State.level_modEntry (g : GroupIdx) (i : PointIdx) (f : RunEntry → RunEntry) (q : Port) (h : GroupIdx) : (s.modEntry g i f).level q h = s.level q h := rfl
@[simp] theorem State.point_setResult (p : Port) (r : Result) (j : PointIdx) : (s.setResult p r).point j = s.point j := rfl
@[simp] theorem State.group_setResult (p : Port) (r : Result) (h : GroupIdx) : (s.setResult p r).group h = s.group h := rfl
@[simp] theorem State.groupOf_setResult (p : Port) (r : Result) (j : PointIdx) : (s.setResult p r).groupOf j = s.groupOf j := rfl
@[simp] theorem State.level_setResult (p : Port) (r : Result) (q : Port) (h : GroupIdx) : (s.setResult p r).level q h = s.level q h := rfl
@[simp] theorem State.point_endFrame (p : Port) (j : PointIdx) : (s.endFrame p).point j = s.point j := rfl
@[simp] theorem State.group_endFrame (p : Port) (h : GroupIdx) : (s.endFrame p).group h = s.group h := rfl
@[simp] theorem State.groupOf_endFrame (p : Port) (j : PointIdx) : (s.endFrame p).groupOf j = s.groupOf j := rfl
@[simp] theorem State.level_endFrame (p : Port) (q : Port) (h : GroupIdx) : (s.endFrame p).level q h = s.level q h := rfl

/-! ## What an update writes -/

@[simp] theorem State.point_setPoint_self (i : PointIdx) (p : Point) : (s.setPoint i p).point i = p := by
  simp [State.point, State.setPoint]

theorem State.point_setPoint_ne {i j : PointIdx} (h : i ≠ j) (p : Point) : (s.setPoint i p).point j = s.point j := by
  have h' : i.val ≠ j.val := fun e => h (Fin.ext e)
  simp [State.point, State.setPoint, Vector.getElem_set_ne, h']

@[simp] theorem State.point_modPoint_self (i : PointIdx) (f : Point → Point) :
    (s.modPoint i f).point i = f (s.point i) := State.point_setPoint_self s i _

theorem State.point_modPoint_ne {i j : PointIdx} (h : i ≠ j) (f : Point → Point) :
    (s.modPoint i f).point j = s.point j := State.point_setPoint_ne s h _

theorem State.point_modPoint (i j : PointIdx) (f : Point → Point) :
    (s.modPoint i f).point j = if i = j then f (s.point i) else s.point j := by
  split
  · rename_i h; subst h; exact State.point_modPoint_self s i f
  · rename_i h; exact State.point_modPoint_ne s h f

@[simp] theorem State.group_setGroup_self (g : GroupIdx) (r : Group) : (s.setGroup g r).group g = r := by
  simp [State.group, State.setGroup]

theorem State.group_setGroup_ne {g h : GroupIdx} (n : g ≠ h) (r : Group) :
    (s.setGroup g r).group h = s.group h := by
  have n' : g.val ≠ h.val := fun e => n (Fin.ext e)
  simp [State.group, State.setGroup, Vector.getElem_set_ne, n']

@[simp] theorem State.group_modGroup_self (g : GroupIdx) (f : Group → Group) :
    (s.modGroup g f).group g = f (s.group g) := State.group_setGroup_self s g _

theorem State.group_modGroup_ne {g h : GroupIdx} (n : g ≠ h) (f : Group → Group) :
    (s.modGroup g f).group h = s.group h := State.group_setGroup_ne s n _

theorem State.group_modGroup (g h : GroupIdx) (f : Group → Group) :
    (s.modGroup g f).group h = if g = h then f (s.group g) else s.group h := by
  split
  · rename_i n; subst n; exact State.group_modGroup_self s g f
  · rename_i n; exact State.group_modGroup_ne s n f

@[simp] theorem PerPort.get_set_self {α : Type} (x : PerPort α) (p : Port) (v : α) : (x.set p v).get p = v := by
  cases p <;> rfl

theorem PerPort.get_set_ne {α : Type} (x : PerPort α) {p q : Port} (h : p ≠ q) (v : α) :
    (x.set p v).get q = x.get q := by
  cases p <;> cases q <;> first | rfl | exact absurd rfl h

@[simp] theorem State.port_modPort_self (p : Port) (f : PortState → PortState) :
    (s.modPort p f).port p = f (s.port p) := PerPort.get_set_self _ _ _

theorem State.port_modPort_ne {p q : Port} (h : p ≠ q) (f : PortState → PortState) :
    (s.modPort p f).port q = s.port q := PerPort.get_set_ne _ h _

theorem State.port_modPort (p q : Port) (f : PortState → PortState) :
    (s.modPort p f).port q = if p = q then f (s.port p) else s.port q := by
  split
  · rename_i h; subst h; exact State.port_modPort_self s p f
  · rename_i h; exact State.port_modPort_ne s h f

@[simp] theorem State.level_setLevel_self (p : Port) (g : GroupIdx) (v : Level) : (s.setLevel p g v).level p g = v := by
  simp [State.level, State.setLevel]

theorem State.level_setLevel_ne_port {p q : Port} (h : p ≠ q) (g k : GroupIdx) (v : Level) :
    (s.setLevel p g v).level q k = s.level q k := by
  simp [State.level, State.setLevel, PerPort.get_set_ne _ h]

theorem State.level_setLevel_ne_group (p q : Port) {g k : GroupIdx} (h : g ≠ k) (v : Level) :
    (s.setLevel p g v).level q k = s.level q k := by
  have h' : g.val ≠ k.val := fun e => h (Fin.ext e)
  by_cases e : p = q
  · subst e; simp [State.level, State.setLevel, Vector.getElem_set_ne, h']
  · exact State.level_setLevel_ne_port s e g k v

@[simp] theorem State.port_distribute (r : Report) (q : Port) : (s.distribute r).port q = s.offer r q := by
  cases q <;> rfl

/-! ## All points, all groups, and the records at reset -/

theorem mem_allPoints (i : PointIdx) : i ∈ allPoints := by revert i; decide

theorem mem_allGroups (g : GroupIdx) : g ∈ allGroups := by revert g; decide

@[simp] theorem State.point_atReset (levels : ResetLevels) (i : PointIdx) :
    (State.atReset levels).point i = Point.reset levels i := by
  have h : ∀ i : PointIdx, allPoints[i.val]? = some i := by decide
  obtain ⟨a, b⟩ := List.getElem?_eq_some_iff.mp (h i)
  simp [State.point, State.atReset, b]

@[simp] theorem State.group_atReset (levels : ResetLevels) (g : GroupIdx) :
    (State.atReset levels).group g = Group.reset := by
  simp [State.group, State.atReset]

end Sys2Proof.Machine
end

