-- ==== Sys2Proof/Laws/Kept.lean ====
section
/-! SUPPORT. The relation `Kept`: what no operation of the Channel Sequencer, the Motion Executor, the Group Unit and
the Fault Unit changes, and how far the rest may move. -/

namespace Sys2Proof.Machine

/-! ## The relation on one record -/

/-- What a motion operation leaves of a point's record. -/
structure PointKept (p q : Point) : Prop where
  group : q.group = p.group
  settings : q.settings = p.settings
  staged : q.staged = p.staged
  switches : q.switches = p.switches
  load : q.load = p.load
  position : q.capture.position = p.capture.position
  referenced : q.capture.referenced = p.capture.referenced
  lastCount : q.capture.lastCount = p.capture.lastCount
  phaseA : q.capture.phaseA = p.capture.phaseA
  phaseB : q.capture.phaseB = p.capture.phaseB
  off : q.channel.state = .off → p.channel.state = .off
  latched : p.latched.isSome = true → q.latched = p.latched
  coast : p.coast ≤ 2000 → q.coast ≤ 2000
  shadowSome : q.shadow.isSome = p.shadow.isSome
  shadowRange : (∀ sh, p.shadow = some sh → inPositionRange sh.position = true) →
    ∀ sh, q.shadow = some sh → inPositionRange sh.position = true

theorem PointKept.refl (p : Point) : PointKept p p :=
  ⟨rfl, rfl, rfl, rfl, rfl, rfl, rfl, rfl, rfl, rfl, id, fun _ => rfl, id, rfl, id⟩

theorem PointKept.trans {p q r : Point} (h : PointKept p q) (k : PointKept q r) : PointKept p r where
  group := k.group.trans h.group
  settings := k.settings.trans h.settings
  staged := k.staged.trans h.staged
  switches := k.switches.trans h.switches
  load := k.load.trans h.load
  position := k.position.trans h.position
  referenced := k.referenced.trans h.referenced
  lastCount := k.lastCount.trans h.lastCount
  phaseA := k.phaseA.trans h.phaseA
  phaseB := k.phaseB.trans h.phaseB
  off := fun x => h.off (k.off x)
  latched := fun x => by
    have e := h.latched x
    rw [k.latched (by rw [e]; exact x), e]
  coast := fun x => k.coast (h.coast x)
  shadowSome := k.shadowSome.trans h.shadowSome
  shadowRange := fun x => k.shadowRange (h.shadowRange x)

/-- What a motion operation leaves of a group's record. -/
structure GroupKept (a b : Group) : Prop where
  gateBand : b.gateBand = a.gateBand
  tripBand : b.tripBand = a.tripBand
  shareBand : b.shareBand = a.shareBand
  stagger : b.stagger = a.stagger
  window : b.window = a.window
  holder : b.holder = a.holder
  preferred : b.preferred = a.preferred
  localPriority : b.localPriority = a.localPriority
  rehearsal : b.rehearsal = a.rehearsal
  short : a.queue.length ≤ 4 → b.queue.length ≤ 4
  waiting : (∀ m ∈ a.queue.tail, m.state = .queued) → ∀ m ∈ b.queue.tail, m.state = .queued
  emptied : a.queue = [] → b.queue = []

theorem GroupKept.refl (a : Group) : GroupKept a a :=
  ⟨rfl, rfl, rfl, rfl, rfl, rfl, rfl, rfl, rfl, id, id, id⟩

theorem GroupKept.trans {a b c : Group} (h : GroupKept a b) (k : GroupKept b c) : GroupKept a c :=
  ⟨k.gateBand.trans h.gateBand, k.tripBand.trans h.tripBand, k.shareBand.trans h.shareBand,
    k.stagger.trans h.stagger, k.window.trans h.window, k.holder.trans h.holder, k.preferred.trans h.preferred,
    k.localPriority.trans h.localPriority, k.rehearsal.trans h.rehearsal, fun x => k.short (h.short x),
    fun x => k.waiting (h.waiting x), fun x => k.emptied (h.emptied x)⟩

/-- What appends to a port's queue leave of the port's record (R179). -/
structure PortKept (a b : PortState) : Prop where
  crcOn : b.crcOn = a.crcOn
  seed : b.seed = a.seed
  attention : b.attention = a.attention
  lastResult : b.lastResult = a.lastResult
  silent : b.silent = a.silent
  silenceDue : b.silenceDue = a.silenceDue
  frame : b.frame = a.frame
  grown : ∃ l, b.queue = a.queue ++ l
  bounded : a.queue.length ≤ 32 → b.queue.length ≤ 32

theorem PortKept.refl (a : PortState) : PortKept a a :=
  ⟨rfl, rfl, rfl, rfl, rfl, rfl, rfl, ⟨[], by simp⟩, id⟩

theorem PortKept.trans {a b c : PortState} (h : PortKept a b) (k : PortKept b c) : PortKept a c :=
  ⟨k.crcOn.trans h.crcOn, k.seed.trans h.seed, k.attention.trans h.attention, k.lastResult.trans h.lastResult,
    k.silent.trans h.silent, k.silenceDue.trans h.silenceDue, k.frame.trans h.frame,
    (by obtain ⟨l, e⟩ := h.grown; obtain ⟨m, f⟩ := k.grown; exact ⟨l ++ m, by rw [f, e, List.append_assoc]⟩),
    fun x => k.bounded (h.bounded x)⟩

/-! ## The relation on states -/

/-- Only the points, the groups and the report queues may differ, and they differ as the three relations allow. -/
structure Kept (s t : State) : Prop where
  points : ∀ i, PointKept (s.point i) (t.point i)
  groups : ∀ g, GroupKept (s.group g) (t.group g)
  ports : ∀ p, PortKept (s.port p) (t.port p)
  rights : t.rights = s.rights
  estop : t.estop = s.estop
  loopClosed : t.loopClosed = s.loopClosed
  estopDue : t.estopDue = s.estopDue
  linkChars : t.linkChars = s.linkChars
  linkGapDue : t.linkGapDue = s.linkGapDue
  time : t.time = s.time
  resetAsserted : t.resetAsserted = s.resetAsserted
  pending : t.pending = s.pending

theorem Kept.refl (s : State) : Kept s s :=
  ⟨fun _ => .refl _, fun _ => .refl _, fun _ => .refl _, rfl, rfl, rfl, rfl, rfl, rfl, rfl, rfl, rfl⟩

theorem Kept.trans {s t u : State} (h : Kept s t) (k : Kept t u) : Kept s u :=
  ⟨fun i => (h.points i).trans (k.points i), fun g => (h.groups g).trans (k.groups g),
    fun p => (h.ports p).trans (k.ports p), k.rights.trans h.rights, k.estop.trans h.estop,
    k.loopClosed.trans h.loopClosed, k.estopDue.trans h.estopDue, k.linkChars.trans h.linkChars,
    k.linkGapDue.trans h.linkGapDue, k.time.trans h.time, k.resetAsserted.trans h.resetAsserted,
    k.pending.trans h.pending⟩

/-- `Kept`, and a group's trip cause changes only where its queue ends up empty. -/
structure Moved (s t : State) : Prop extends Kept s t where
  tripped : ∀ g, (t.group g).trip = (s.group g).trip ∨ (t.group g).queue = []

theorem Moved.refl (s : State) : Moved s s := ⟨.refl s, fun _ => .inl rfl⟩

theorem Moved.trans {s t u : State} (h : Moved s t) (k : Moved t u) : Moved s u :=
  ⟨h.toKept.trans k.toKept, fun g => by
    rcases k.tripped g with a | a
    · rcases h.tripped g with b | b
      · exact .inl (a.trans b)
      · exact .inr ((k.groups g).emptied b)
    · exact .inr a⟩

theorem Moved.foldl {α : Type} (f : State → α → State) (h : ∀ s a, Moved s (f s a)) (l : List α) (s : State) :
    Moved s (l.foldl f s) := by
  induction l generalizing s with
  | nil => exact .refl s
  | cons a l ih => exact (h s a).trans (ih (f s a))

/-! ## Primitive updates -/

theorem State.setPoint_moved (s : State) (i : PointIdx) (p : Point)
    (h : PointKept (s.point i) p) : Moved s (s.setPoint i p) where
  tripped _ := .inl rfl
  points j := by
    by_cases e : i = j
    · subst e; rw [s.point_setPoint_self]; exact h
    · rw [s.point_setPoint_ne e]; exact .refl _
  groups _ := .refl _
  ports _ := .refl _
  rights := rfl
  estop := rfl
  loopClosed := rfl
  estopDue := rfl
  linkChars := rfl
  linkGapDue := rfl
  time := rfl
  resetAsserted := rfl
  pending := rfl

theorem State.modPoint_moved (s : State) (i : PointIdx) (f : Point → Point)
    (h : PointKept (s.point i) (f (s.point i))) : Moved s (s.modPoint i f) := s.setPoint_moved i _ h

theorem State.modGroup_kept (s : State) (g : GroupIdx) (f : Group → Group)
    (h : GroupKept (s.group g) (f (s.group g))) : Kept s (s.modGroup g f) where
  points _ := .refl _
  groups k := by
    by_cases e : g = k
    · subst e; rw [s.group_modGroup_self]; exact h
    · rw [s.group_modGroup_ne e]; exact .refl _
  ports _ := .refl _
  rights := rfl
  estop := rfl
  loopClosed := rfl
  estopDue := rfl
  linkChars := rfl
  linkGapDue := rfl
  time := rfl
  resetAsserted := rfl
  pending := rfl

/-- A change of a group's record that leaves its trip cause. -/
theorem State.modGroup_moved (s : State) (g : GroupIdx) (f : Group → Group)
    (h : GroupKept (s.group g) (f (s.group g))) (k : (f (s.group g)).trip = (s.group g).trip) :
    Moved s (s.modGroup g f) :=
  ⟨s.modGroup_kept g f h, fun j => by
    by_cases e : g = j
    · subst e; rw [s.group_modGroup_self]; exact .inl k
    · rw [s.group_modGroup_ne e]; exact .inl rfl⟩

/-- A change of a group's head move that leaves the record's other fields. -/
theorem Group.modHead_kept (r : Group) (f : Move → Move) : GroupKept r (r.modHead f) := by
  unfold Group.modHead
  split
  · exact .refl r
  · rename_i m rest e
    exact ⟨rfl, rfl, rfl, rfl, rfl, rfl, rfl, rfl, rfl, by simp [e], by simp [e], by simp [e]⟩

theorem Group.modHead_trip (r : Group) (f : Move → Move) : (r.modHead f).trip = r.trip := by
  unfold Group.modHead; split <;> rfl

theorem State.modEntry_moved (s : State) (g : GroupIdx) (i : PointIdx) (f : RunEntry → RunEntry) :
    Moved s (s.modEntry g i f) :=
  s.modGroup_moved g _ (Group.modHead_kept _ _) (Group.modHead_trip _ _)

/-- An append to a port's queue (R179). -/
theorem PortState.append_kept (ps : PortState) (r : Report) : PortKept ps (ps.append r) := by
  unfold PortState.append
  split
  · rename_i h
    exact ⟨rfl, rfl, rfl, rfl, rfl, rfl, rfl, ⟨_, rfl⟩, fun _ => by
      simp only [List.length_append, List.length_cons, List.length_nil]; exact h⟩
  · exact ⟨rfl, rfl, rfl, rfl, rfl, rfl, rfl, ⟨[], (List.append_nil _).symm⟩, id⟩

theorem State.offer_kept (s : State) (r : Report) (p : Port) : PortKept (s.port p) (s.offer r p) := by
  unfold State.offer
  split
  · exact PortState.append_kept _ _
  · exact .refl _

/-- Distribution appends to queues and does nothing else (R178). -/
theorem State.distribute_moved (s : State) (r : Report) : Moved s (s.distribute r) where
  tripped _ := .inl rfl
  points _ := .refl _
  groups _ := .refl _
  ports p := by rw [State.port_distribute]; exact s.offer_kept r p
  rights := rfl
  estop := rfl
  loopClosed := rfl
  estopDue := rfl
  linkChars := rfl
  linkGapDue := rfl
  time := rfl
  resetAsserted := rfl
  pending := rfl

theorem State.produce_moved (s : State) (g : Option GroupIdx) (b : ReportBody) (x : Bool) :
    Moved s (s.produce g b x) := s.distribute_moved _

end Sys2Proof.Machine
end

