-- ==== Sys2Proof/Laws/Ops.lean ====
section
/-! SUPPORT. Each operation of Machine/Ops.lean leaves what `Moved` says it leaves. -/

namespace Sys2Proof.Machine

theorem clampInt_range {lo hi : Int} (h : lo ≤ hi) (v : Int) : lo ≤ clampInt lo hi v ∧ clampInt lo hi v ≤ hi := by
  unfold clampInt; split
  · exact ⟨Int.le_refl _, h⟩
  · split
    · exact ⟨h, Int.le_refl _⟩
    · omega

/-- A clamped position lies in the range (R3, R161). -/
theorem clampPosition_range (v : Int) : inPositionRange (clampPosition v) = true := by
  have h := clampInt_range (lo := -positionMax) (hi := positionMax) (by decide) v
  unfold inPositionRange clampPosition
  rw [decide_eq_true h.1, decide_eq_true h.2]; rfl

theorem clampNat_range {lo hi : Nat} (h : lo ≤ hi) (v : Int) : lo ≤ clampNat lo hi v ∧ clampNat lo hi v ≤ hi := by
  have k := clampInt_range (lo := (lo : Int)) (hi := (hi : Int)) (by omega) v
  unfold clampNat; omega

/-- R140: a latch keeps an earlier latched fault. -/
theorem State.latchFault_moved (s : State) (i : PointIdx) (c : FaultCode) : Moved s (s.latchFault i c) := by
  unfold State.latchFault
  refine (s.setPoint_moved i _ ?_).trans (State.produce_moved _ _ _ _)
  split
  · rename_i h
    exact ⟨rfl, rfl, rfl, rfl, rfl, rfl, rfl, rfl, rfl, rfl, id, fun x => by simp_all, id, rfl, id⟩
  · exact ⟨rfl, rfl, rfl, rfl, rfl, rfl, rfl, rfl, rfl, rfl, id, fun _ => rfl, id, rfl, id⟩

theorem State.updateProgress_moved (s : State) (i : PointIdx) : Moved s (s.updateProgress i) := by
  unfold State.updateProgress
  dsimp only
  split
  · split
    · exact State.modEntry_moved _ _ _ _
    · exact .refl s
  · exact .refl s

/-- A shadow that stands for a point is that point's. -/
theorem State.shadowOf_some {s : State} {i : PointIdx} {sh : Shadow} (h : s.shadowOf i = some sh) :
    (s.point i).shadow = some sh := by
  unfold State.shadowOf at h
  split at h
  · exact h
  · exact absurd h (by simp)

theorem State.simulateCoast_moved (s : State) (i : PointIdx) (raises : Bool) : Moved s (s.simulateCoast i raises) := by
  unfold State.simulateCoast
  split
  · rename_i sh hs
    have k : (s.point i).shadow.isSome = true := by rw [State.shadowOf_some hs]; rfl
    have h := (s.modPoint_moved i (fun p =>
      { p with shadow := some { sh with position := clampPosition (s.coastTarget i sh), simDue := none } })
      ⟨rfl, rfl, rfl, rfl, rfl, rfl, rfl, rfl, rfl, rfl, id, fun _ => rfl, id, k.symm, fun _ sh' e => by
        cases e; exact clampPosition_range _⟩).trans (State.updateProgress_moved _ i)
    dsimp only
    split
    · exact h.trans (State.latchFault_moved _ _ _)
    · exact h
  · exact .refl s

theorem Point.toSettle_kept (p : Point) (now : Nat) : PointKept p (p.toSettle now) :=
  ⟨rfl, rfl, rfl, rfl, rfl, rfl, rfl, rfl, rfl, rfl, (fun h => nomatch h), fun _ => rfl, id, rfl, id⟩

theorem State.enterSettle_moved (s : State) (i : PointIdx) : Moved s (s.enterSettle i) :=
  (s.modPoint_moved i _ (Point.toSettle_kept _ _)).trans (State.simulateCoast_moved _ _ _)

/-- An update of the channel that keeps its state. -/
theorem State.modChannel_moved (s : State) (i : PointIdx) (f : Point → Channel)
    (h : (f (s.point i)).state = (s.point i).channel.state) :
    Moved s (s.modPoint i fun p => { p with channel := f p }) :=
  s.modPoint_moved i _
    ⟨rfl, rfl, rfl, rfl, rfl, rfl, rfl, rfl, rfl, rfl, fun x => h ▸ x, fun _ => rfl, id, rfl, id⟩

theorem State.dropPending_moved (s : State) (i : PointIdx) : Moved s (s.dropPending i) :=
  s.modChannel_moved i _ rfl

theorem State.hardRelease_moved (s : State) (i : PointIdx) : Moved s (s.hardRelease i) := by
  unfold State.hardRelease
  split
  · exact s.enterSettle_moved i
  · exact s.dropPending_moved i

theorem Group.dropHead_kept (r : Group) : GroupKept r r.dropHead :=
  ⟨rfl, rfl, rfl, rfl, rfl, rfl, rfl, rfl, rfl, fun h => by simp only [Group.dropHead, List.length_tail]; omega,
    fun h m k => h m (List.mem_of_mem_tail k), fun h => by simp [Group.dropHead, h]⟩

theorem State.endHead_moved (s : State) (g : GroupIdx) (o : Outcome) (n : Option PointIdx)
    (l : List (PointIdx × Int)) : Moved s (s.endHead g o n l) := by
  unfold State.endHead
  split
  · exact (State.produce_moved s _ _ _).trans (State.modGroup_moved _ g _ (Group.dropHead_kept _) rfl)
  · exact .refl s

theorem State.endAll_moved (s : State) (g : GroupIdx) (f : Move → Outcome) : Moved s (s.endAll g f) :=
  Moved.foldl (fun t m => t.endHead g (f m)) (fun t m => t.endHead_moved g (f m) none []) _ s

/-- An end removes the head of its own group's queue. -/
theorem State.endHead_queue (s : State) (g : GroupIdx) (o : Outcome) (n : Option PointIdx)
    (l : List (PointIdx × Int)) : ((s.endHead g o n l).group g).queue = (s.group g).queue.tail := by
  unfold State.endHead Group.head
  split
  · rw [State.group_modGroup_self]; rfl
  · rename_i h; simp_all

/-- All ends together empty the queue (R102, R144, R151). -/
theorem State.endAll_queue (s : State) (g : GroupIdx) (f : Move → Outcome) : ((s.endAll g f).group g).queue = [] := by
  unfold State.endAll
  generalize hq : (s.group g).queue = q
  induction q generalizing s with
  | nil => exact hq
  | cons m q ih => exact ih (s.endHead g (f m)) (by rw [State.endHead_queue, hq]; rfl)

theorem State.hardReleaseAll_moved (s : State) (l : List PointIdx) : Moved s (s.hardReleaseAll l) :=
  Moved.foldl _ State.hardRelease_moved l s

theorem State.reportTrip_moved (s : State) (g : GroupIdx) (c : TripCause) (p : Option PointIdx) :
    Moved s (s.reportTrip g c p) := State.produce_moved _ _ _ _

/-- R144: a trip leaves its group's queue empty and every setting as it was. -/
theorem State.trip_moved (s : State) (g : GroupIdx) (c : TripCause) (p : Option PointIdx) : Moved s (s.trip g c p) := by
  unfold State.trip
  split
  · exact .refl s
  · dsimp only
    generalize hs1 : s.hardReleaseAll (s.runPoints g) = s1
    have h1 : Moved s s1 := hs1 ▸ s.hardReleaseAll_moved _
    refine h1.trans ?_
    have h2 := (s1.modGroup_kept g (fun r => { r with schedule := [], trip := some ⟨c, p⟩ })
      ⟨rfl, rfl, rfl, rfl, rfl, rfl, rfl, rfl, rfl, id, id, id⟩)
    generalize hs2 : (s1.modGroup g fun r => { r with schedule := [], trip := some ⟨c, p⟩ }) = s2
    have h3 : Moved s2 ((s2.reportTrip g c p).endAll g tripOutcome) :=
      (s2.reportTrip_moved g c p).trans (State.endAll_moved _ _ _)
    refine ⟨(hs2 ▸ h2).trans h3.toKept, fun k => ?_⟩
    by_cases e : g = k
    · subst e; exact .inr (State.endAll_queue _ _ _)
    · rcases h3.tripped k with a | a
      · left; rw [a, ← hs2, s1.group_modGroup_ne e]
      · exact .inr a

theorem State.tripMember_moved (s : State) (i : PointIdx) : Moved s (s.tripMember i) := by
  unfold State.tripMember
  dsimp only
  split
  · exact s.trip_moved _ _ _
  · exact .refl s

theorem State.release_moved (s : State) (i : PointIdx) : Moved s (s.release i) := by
  unfold State.release
  dsimp only
  split
  · exact (s.hardRelease_moved i).trans (State.tripMember_moved _ _)
  · exact s.hardRelease_moved i

theorem State.releaseAll_moved (s : State) (l : List PointIdx) : Moved s (s.releaseAll l) :=
  Moved.foldl _ State.release_moved l s

theorem State.raiseFault_moved (s : State) (i : PointIdx) (c : FaultCode) : Moved s (s.raiseFault i c) := by
  unfold State.raiseFault
  dsimp only
  split
  · exact (s.latchFault_moved i c).trans ((State.release_moved _ i).trans (State.tripMember_moved _ i))
  · exact (s.latchFault_moved i c).trans (State.tripMember_moved _ i)

theorem State.softRelease_moved (s : State) (i : PointIdx) : Moved s (s.softRelease i) := by
  unfold State.softRelease
  dsimp only
  split
  · split
    · exact .refl s
    · split
      · exact s.release_moved i
      · exact s.modChannel_moved i _ rfl
  · exact s.dropPending_moved i

theorem Dir.channelState_ne_off (d : Dir) : d.channelState ≠ .off := by cases d <;> decide

theorem Point.energize_kept (p : Point) (r : Bool) (d : Dir) (now : Nat) : PointKept p (p.energize r d now) := by
  unfold Point.energize
  split
  · exact ⟨rfl, rfl, rfl, rfl, rfl, rfl, rfl, rfl, rfl, rfl, fun h => absurd h (Dir.channelState_ne_off d),
      fun _ => rfl, id, by simp, fun h sh' e => by
        cases hs : p.shadow with
        | none => simp [hs] at e
        | some sh =>
          simp only [hs, Option.map_some, Option.some.injEq] at e
          subst e; exact h sh hs⟩
  · exact ⟨rfl, rfl, rfl, rfl, rfl, rfl, rfl, rfl, rfl, rfl, fun h => absurd h (Dir.channelState_ne_off d),
      fun _ => rfl, id, rfl, id⟩

theorem State.energize_moved (s : State) (i : PointIdx) (d : Dir) : Moved s (s.energize i d) := by
  unfold State.energize
  dsimp only
  split
  · exact (s.modPoint_moved i _ (Point.energize_kept _ _ _ _)).trans (State.raiseFault_moved _ _ _)
  · exact s.modPoint_moved i _ (Point.energize_kept _ _ _ _)

theorem State.takeOrHold_moved (s : State) (i : PointIdx) (d : Dir) : Moved s (s.takeOrHold i d).1 := by
  unfold State.takeOrHold
  split
  · exact s.energize_moved i d
  · exact s.modChannel_moved i (fun p => { p.channel with pending := some d }) rfl

theorem State.energizeRequest_moved (s : State) (i : PointIdx) (d : Dir) : Moved s (s.energizeRequest i d).1 := by
  unfold State.energizeRequest
  split
  · split <;> exact .refl s
  · split
    · exact .refl s
    · split
      · exact .refl s
      · exact s.takeOrHold_moved i d

theorem State.holdHead_moved (s : State) (g : GroupIdx) (m : Move) : Moved s (s.holdHead g m) :=
  (s.modGroup_moved g _ (Group.modHead_kept _ _) (Group.modHead_trip _ _)).trans (State.produce_moved _ _ _ _)

theorem State.endTest_moved (s : State) (g : GroupIdx) : Moved s (s.endTest g) := by
  unfold State.endTest
  split
  · split
    · split
      · exact s.endHead_moved _ _ _ _
      · exact s.endHead_moved _ _ _ _
      · split
        · exact s.endHead_moved _ _ _ _
        · split
          · exact s.endHead_moved _ _ _ _
          · exact s.holdHead_moved _ _
    · exact .refl s
  · exact .refl s

theorem Group.toStopping_kept (r : Group) (a : Option StopReason) (b : Option EndMark) :
    GroupKept r (r.toStopping a b) := by
  have h := Group.modHead_kept r fun m => { m with state := .stopping, endMark := b }
  exact ⟨h.gateBand, h.tripBand, h.shareBand, h.stagger, h.window, h.holder, h.preferred, h.localPriority,
    h.rehearsal, h.short, h.waiting, h.emptied⟩

theorem State.enterStopping_moved (s : State) (g : GroupIdx) (a : Option StopReason) (b : Option EndMark) :
    Moved s (s.enterStopping g a b) := by
  unfold State.enterStopping
  split
  · dsimp only
    split
    · exact (s.releaseAll_moved _).trans
        ((State.modGroup_moved _ g _ (Group.toStopping_kept _ a b) (Group.modHead_trip _ _)).trans
          (State.endTest_moved _ _))
    · exact s.releaseAll_moved _
  · exact .refl s

end Sys2Proof.Machine
end

