-- ==== Sys2Proof/Laws/Motion.lean ====
section
/-! SUPPORT. Each operation of Machine/Motion.lean leaves what `Moved` says it leaves. -/

namespace Sys2Proof.Machine

theorem State.stageSkew_moved (s : State) (g : GroupIdx) : Moved s (s.stageSkew g) := by
  unfold State.stageSkew; dsimp only
  split
  · exact s.trip_moved _ _ _
  · exact .refl s

theorem State.stageJog_moved (s : State) (g : GroupIdx) : Moved s (s.stageJog g) := by
  unfold State.stageJog; dsimp only
  split
  · exact s.enterStopping_moved _ _ _
  · exact .refl s

theorem State.releaseAtTarget_moved (s : State) (g : GroupIdx) (i : PointIdx) : Moved s (s.releaseAtTarget g i) :=
  (s.modEntry_moved g i _).trans (State.release_moved _ i)

theorem State.markReleased_moved (s : State) (g : GroupIdx) (i : PointIdx) (v : Int) :
    Moved s (s.markReleased g i v) := by
  unfold State.markReleased; dsimp only
  split
  · exact (s.modEntry_moved g i _).trans (State.softRelease_moved _ i)
  · exact s.modEntry_moved g i _

theorem State.coastMember_moved (s : State) (g : GroupIdx) (i : PointIdx) : Moved s (s.coastMember g i) := by
  unfold State.coastMember; dsimp only
  split
  · split
    · split
      · exact .refl s
      · split
        · exact s.releaseAtTarget_moved g i
        · split
          · exact s.markReleased_moved g i _
          · exact .refl s
    · exact .refl s
  · exact .refl s

theorem State.stageCoast_moved (s : State) (g : GroupIdx) : Moved s (s.stageCoast g) :=
  Moved.foldl (fun t i => t.coastMember g i) (fun t i => t.coastMember_moved g i) _ s

theorem State.stageAllReleased_moved (s : State) (g : GroupIdx) : Moved s (s.stageAllReleased g) := by
  unfold State.stageAllReleased; dsimp only
  split
  · exact s.enterStopping_moved _ _ _
  · exact .refl s

theorem State.gateMember_moved (s : State) (g : GroupIdx) (v : Int) (i : PointIdx) :
    Moved s (s.gateMember g v i) := by
  unfold State.gateMember; dsimp only
  split
  · split
    · exact (s.modEntry_moved g i _).trans (State.softRelease_moved _ i)
    · exact .refl s
  · exact .refl s

theorem State.rejoinDropped_moved (s : State) (g : GroupIdx) (i : PointIdx) (c : Denial) :
    Moved s (s.rejoinDropped g i c) := by
  unfold State.rejoinDropped
  split
  · split
    · exact s.trip_moved _ _ _
    · exact s.modEntry_moved _ _ _
  · exact .refl s

theorem State.rejoinAnswer_moved (s : State) (g : GroupIdx) (i : PointIdx) (a : Answer) :
    Moved s (s.rejoinAnswer g i a) := by
  cases a with
  | taken => exact s.modEntry_moved _ _ _
  | held => exact .refl s
  | refused => exact .refl s
  | dropped c => exact s.rejoinDropped_moved g i c

theorem State.rejoinMember_moved (s : State) (g : GroupIdx) (v : Int) (i : PointIdx) :
    Moved s (s.rejoinMember g v i) := by
  unfold State.rejoinMember; dsimp only
  split
  · split
    · exact (s.modEntry_moved g i _).trans ((State.energizeRequest_moved _ i _).trans
        (State.rejoinAnswer_moved _ g i _))
    · exact .refl s
  · exact .refl s

theorem State.stageGate_moved (s : State) (g : GroupIdx) : Moved s (s.stageGate g) := by
  unfold State.stageGate; dsimp only
  split
  · exact (Moved.foldl (fun t i => t.gateMember g _ i) (fun t i => t.gateMember_moved g _ i) _ s).trans
      (Moved.foldl (fun t i => t.rejoinMember g _ i) (fun t i => t.rejoinMember_moved g _ i) _ _)
  · exact .refl s

/-- R108: an evaluation. -/
theorem State.evaluate_moved (s : State) (g : GroupIdx) : Moved s (s.evaluate g) :=
  (s.stageSkew_moved g).trans ((State.stageJog_moved _ g).trans ((State.stageCoast_moved _ g).trans
    ((State.stageAllReleased_moved _ g).trans (State.stageGate_moved _ g))))

theorem State.countArrival_moved (s : State) (i : PointIdx) : Moved s (s.countArrival i) := by
  unfold State.countArrival; dsimp only
  split
  · split
    · exact (s.updateProgress_moved i).trans (State.evaluate_moved _ _)
    · exact s.updateProgress_moved i
  · exact .refl s

/-- R122: "A point's coast estimate lies within 0..2000 counts at all times." -/
theorem learnedCoast_le {c m : Nat} (h : c ≤ 2000) (k : m ≤ 2000) : learnedCoast c m ≤ 2000 := by
  unfold learnedCoast roundDiv; dsimp only
  split
  · omega
  · split
    · omega
    · split <;> omega

theorem measuredCoast_le (d : Dir) (a b : Int) : measuredCoast d a b ≤ 2000 :=
  (clampNat_range (by decide) _).2

theorem State.learnCoast_moved (s : State) (i : PointIdx) (d : Dir) (e : RunEntry) :
    Moved s (s.learnCoast i d e) := by
  unfold State.learnCoast
  split
  · split
    · exact .refl s
    · exact s.modPoint_moved i _ ⟨rfl, rfl, rfl, rfl, rfl, rfl, rfl, rfl, rfl, rfl, id, fun _ => rfl,
        fun h => learnedCoast_le h (measuredCoast_le _ _ _), rfl, id⟩
  · exact .refl s

theorem State.learnAtSettle_moved (s : State) (g : GroupIdx) (i : PointIdx) : Moved s (s.learnAtSettle g i) := by
  unfold State.learnAtSettle
  split
  · split
    · exact s.learnCoast_moved _ _ _
    · exact .refl s
  · exact .refl s

theorem State.recordSettle_moved (s : State) (g : GroupIdx) (i : PointIdx) : Moved s (s.recordSettle g i) :=
  (s.learnAtSettle_moved g i).trans (State.modEntry_moved _ _ _ _)

theorem State.settledEvent_moved (s : State) (i : PointIdx) : Moved s (s.settledEvent i) := by
  unfold State.settledEvent; dsimp only
  split
  · split
    · exact (s.recordSettle_moved _ i).trans (State.evaluate_moved _ _)
    · exact (s.recordSettle_moved _ i).trans (State.endTest_moved _ _)
  · exact .refl s

theorem State.memberStarted_moved (s : State) (g : GroupIdx) (i : PointIdx) : Moved s (s.memberStarted g i) :=
  (s.modEntry_moved g i _).trans
    (State.modGroup_moved _ g _ (Group.modHead_kept _ _) (Group.modHead_trip _ _))

theorem State.slotLimit_moved (s : State) (g : GroupIdx) (i : PointIdx) : Moved s (s.slotLimit g i) := by
  unfold State.slotLimit
  split
  · exact s.trip_moved _ _ _
  · exact s.enterStopping_moved _ _ _

theorem State.startAnswer_moved (s : State) (g : GroupIdx) (i : PointIdx) (a : Answer) :
    Moved s (s.startAnswer g i a) := by
  unfold State.startAnswer
  split
  · split
    · exact s.memberStarted_moved g i
    · exact s.slotLimit_moved g i
    · exact s.enterStopping_moved _ _ _
    all_goals exact .refl s
  · exact .refl s

/-- A change of a group's schedule, permit, stop reason or baseline. -/
theorem State.modRun_moved (s : State) (g : GroupIdx) (f : Group → List (PointIdx × Nat))
    (p : Group → Option Nat) (a : Group → Option StopReason) (b : Group → Option (List (PointIdx × Nat))) :
    Moved s (s.modGroup g fun r => { r with schedule := f r, permit := p r, stopReason := a r, baseline := b r }) :=
  s.modGroup_moved g _ ⟨rfl, rfl, rfl, rfl, rfl, rfl, rfl, rfl, rfl, id, id, id⟩ rfl

theorem State.startSlot_moved (s : State) (g : GroupIdx) : Moved s (s.startSlot g) := by
  unfold State.startSlot; dsimp only
  split
  · exact (s.modRun_moved g (fun r => r.schedule.tail) (·.permit) (·.stopReason) (·.baseline)).trans
      ((State.energizeRequest_moved _ _ _).trans (State.startAnswer_moved _ _ _ _))
  · exact .refl s

theorem State.enterStarting_moved (s : State) (g : GroupIdx) : Moved s (s.enterStarting g) := by
  unfold State.enterStarting; dsimp only
  refine Moved.trans (s.modGroup_moved g _ ?_ ?_)
    (Moved.foldl (fun t _ => t.startSlot g) (fun t _ => t.startSlot_moved g) _ _)
  · have h := Group.modHead_kept (s.group g) fun m =>
      { m with
        state := .starting
        runList := m.runList.map fun e => e.enter (s.group g).direction (s.positionOf e.point) }
    exact ⟨h.gateBand, h.tripBand, h.shareBand, h.stagger, h.window, h.holder, h.preferred, h.localPriority,
      h.rehearsal, h.short, h.waiting, h.emptied⟩
  · exact Group.modHead_trip _ _

theorem State.reportStart_moved (s : State) (g : GroupIdx) (r : Bool) (m : Move) : Moved s (s.reportStart g r m) :=
  State.produce_moved _ _ _ _

theorem State.firstStart_moved (s : State) (g : GroupIdx) (m : Move) : Moved s (s.firstStart g m).1 := by
  unfold State.firstStart; dsimp only
  have h := s.modGroup_moved g (fun r => r.modHead fun h => { h with
    runList := (s.involved g m.body).map (s.newEntry m.body)
    toDirection := startDirection m.body ((s.involved g m.body).map (s.newEntry m.body)) })
    (Group.modHead_kept _ _) (Group.modHead_trip _ _)
  split
  · exact h.trans (State.endHead_moved _ _ _ _ _)
  · split
    · exact h.trans (State.endHead_moved _ _ _ _ _)
    · exact h.trans ((State.modRun_moved _ g (·.schedule) (·.permit) (·.stopReason) _).trans
        ((State.reportStart_moved _ _ _ _).trans (State.enterStarting_moved _ _)))

theorem State.resume_moved (s : State) (g : GroupIdx) (m : Move) : Moved s (s.resume g m) :=
  (s.modGroup_moved g _ (Group.modHead_kept _ _) (Group.modHead_trip _ _)).trans
    ((State.reportStart_moved _ _ _ _).trans (State.enterStarting_moved _ _))

theorem State.dueAnswer_moved (s : State) (i : PointIdx) (b : Bool) (a : Answer) : Moved s (s.dueAnswer i b a) := by
  unfold State.dueAnswer; dsimp only
  split
  · split
    · exact (s.modEntry_moved _ i _).trans (State.evaluate_moved _ _)
    · exact (s.evaluate_moved _).trans (State.rejoinDropped_moved _ _ _ _)
    all_goals exact .refl s
  · exact s.startAnswer_moved _ _ _

theorem State.pendingDue_moved (s : State) (i : PointIdx) : Moved s (s.pendingDue i) := by
  unfold State.pendingDue; dsimp only
  split
  · split
    · exact (s.energize_moved _ _).trans (State.dueAnswer_moved _ _ _ _)
    · exact (s.dropPending_moved _).trans (State.dueAnswer_moved _ _ _ _)
  · exact .refl s

theorem State.pendingMoved_moved (s : State) (i : PointIdx) (c : Settings) : Moved s (s.pendingMoved i c) := by
  unfold State.pendingMoved; dsimp only
  split
  · exact s.pendingDue_moved i
  · exact .refl s

/-- Removing a holder changes no field of any record but the holder, beyond what a stop does (R128, R136). -/
theorem State.removeHolder_moved (s : State) (g : GroupIdx) (c : AuthorityCause) :
    Moved (s.modGroup g fun r => { r with holder := none }) (s.removeHolder g c) :=
  (State.produce_moved _ _ _ _).trans (State.enterStopping_moved _ _ _ _)

end Sys2Proof.Machine
end

