-- ==== Sys2Proof/Laws/Drive.lean ====
section
/-! SUPPORT. The law of R41 through each operation: releases make channels quiet and never drive one, and a channel is
driven only where the permission test of R43 passes. -/

namespace Sys2Proof.Machine

/-! ## The law at one point, and quiet groups -/

/-- R41 at point i, apart from ESTOP: when its channel is not quiet, the conditions hold. -/
def State.lawAt (s : State) (i : PointIdx) : Prop :=
  (s.point i).channel.quiet = false →
    (s.groupOf i).inRunList i = true ∧ (s.groupOf i).headIs MoveState.driving = true ∧
      (s.groupOf i).permit.isSome = true ∧ (s.point i).latched = none

/-- Every channel is quiet. -/
def State.still (s : State) : Prop := ∀ i, (s.point i).channel.quiet = true

/-- Every member of the group is quiet. -/
def State.groupStill (s : State) (g : GroupIdx) : Prop :=
  ∀ i, (s.point i).group = g → (s.point i).channel.quiet = true

/-- No channel that was quiet is made otherwise. -/
def Calm (s t : State) : Prop := ∀ i, (s.point i).channel.quiet = true → (t.point i).channel.quiet = true

theorem Calm.refl (s : State) : Calm s s := fun _ h => h
theorem Calm.trans {s t u : State} (h : Calm s t) (k : Calm t u) : Calm s u := fun i x => k i (h i x)

theorem State.driveLawful_iff (s : State) :
    s.driveLawful ↔ (∀ i, s.lawAt i) ∧ (s.estop = true → s.still) := by
  constructor
  · intro h
    refine ⟨fun i q => ?_, fun e i => ?_⟩
    · have k := h i q; exact ⟨k.1, k.2.1, k.2.2.1, k.2.2.2.1⟩
    · cases q : (s.point i).channel.quiet with
      | true => rfl
      | false => have k := (h i q).2.2.2.2; rw [e] at k; cases k
  · intro h i q
    have k := h.1 i q
    refine ⟨k.1, k.2.1, k.2.2.1, k.2.2.2, ?_⟩
    cases e : s.estop with
    | false => rfl
    | true => have := h.2 e i; rw [this] at q; cases q

/-- A group whose head move is not driving is still. -/
theorem State.groupStill_of_not_driving {s : State} {g : GroupIdx} (h : ∀ i, s.lawAt i)
    (k : (s.group g).headIs MoveState.driving = false) : s.groupStill g := by
  intro i e
  cases q : (s.point i).channel.quiet with
  | true => rfl
  | false =>
    have x := (h i q).2.1
    rw [State.groupOf, e, k] at x; cases x

/-- An empty queue leaves its group still. -/
theorem State.groupStill_of_empty {s : State} {g : GroupIdx} (h : ∀ i, s.lawAt i)
    (k : (s.group g).queue = []) : s.groupStill g :=
  State.groupStill_of_not_driving h (by simp [Group.headIs, k])

/-! ## Primitive updates -/

/-- An update of a point that never makes it drive. -/
theorem State.setPoint_law {s : State} (i : PointIdx) (p : Point) (h : ∀ j, j ≠ i → s.lawAt j)
    (k : p.channel.quiet = false → (s.group p.group).inRunList i = true ∧
      (s.group p.group).headIs MoveState.driving = true ∧ (s.group p.group).permit.isSome = true ∧ p.latched = none) :
    ∀ j, (s.setPoint i p).lawAt j := by
  intro j
  by_cases e : i = j
  · subst e
    simp only [State.lawAt, State.groupOf, State.point_setPoint_self]
    exact k
  · simp only [State.lawAt, State.groupOf, State.point_setPoint_ne s e]
    exact h j (Ne.symm e)

/-- An update of a point that keeps its group, drives it only if it was driven, and then keeps its latch. -/
theorem State.modPoint_law {s : State} (i : PointIdx) (f : Point → Point) (h : ∀ j, s.lawAt j)
    (hg : (f (s.point i)).group = (s.point i).group)
    (hq : (s.point i).channel.quiet = true → (f (s.point i)).channel.quiet = true)
    (hl : (s.point i).latched = none → (f (s.point i)).channel.quiet = false → (f (s.point i)).latched = none) :
    ∀ j, (s.modPoint i f).lawAt j := by
  refine State.setPoint_law i _ (fun j _ => h j) fun q => ?_
  have q' : (s.point i).channel.quiet = false := by
    cases x : (s.point i).channel.quiet with
    | false => rfl
    | true => rw [hq x] at q; cases q
  have k := h i q'
  rw [hg]
  exact ⟨k.1, k.2.1, k.2.2.1, hl k.2.2.2 q⟩

theorem State.setPoint_calm (s : State) (i : PointIdx) (p : Point)
    (h : (s.point i).channel.quiet = true → p.channel.quiet = true) : Calm s (s.setPoint i p) := by
  intro j x
  by_cases e : i = j
  · subst e; rw [State.point_setPoint_self]; exact h x
  · rw [State.point_setPoint_ne s e]; exact x

theorem State.modPoint_calm (s : State) (i : PointIdx) (f : Point → Point)
    (h : (s.point i).channel.quiet = true → (f (s.point i)).channel.quiet = true) : Calm s (s.modPoint i f) :=
  s.setPoint_calm i _ h

/-- What a change of a group's record must keep for the law. -/
structure GroupDrives (a b : Group) : Prop where
  inRunList : ∀ i, a.inRunList i = true → b.inRunList i = true
  driving : a.headIs MoveState.driving = true → b.headIs MoveState.driving = true
  permit : a.permit.isSome = true → b.permit.isSome = true

theorem State.modGroup_law {s : State} (g : GroupIdx) (f : Group → Group) (h : ∀ j, s.lawAt j)
    (k : GroupDrives (s.group g) (f (s.group g))) : ∀ j, (s.modGroup g f).lawAt j := by
  intro j q
  have x := h j q
  simp only [State.groupOf, State.point_modGroup] at *
  by_cases e : g = (s.point j).group
  · rw [← e, State.group_modGroup_self]
    rw [← e] at x
    exact ⟨k.inRunList _ x.1, k.driving x.2.1, k.permit x.2.2.1, x.2.2.2⟩
  · rw [State.group_modGroup_ne s e]; exact x

theorem State.modGroup_law_of_still {s : State} (g : GroupIdx) (f : Group → Group) (h : ∀ j, s.lawAt j)
    (k : s.groupStill g) : ∀ j, (s.modGroup g f).lawAt j := by
  intro j q
  have x := h j q
  simp only [State.groupOf, State.point_modGroup] at *
  by_cases e : g = (s.point j).group
  · have := k j e.symm; rw [this] at q; cases q
  · rw [State.group_modGroup_ne s e]; exact x

/-- States with the same points and groups have the same law. -/
theorem State.lawAt_congr {s t : State} (hp : t.points = s.points) (hg : t.groups = s.groups)
    (h : ∀ j, s.lawAt j) : ∀ j, t.lawAt j := by
  intro j
  have := h j
  simp only [State.lawAt, State.groupOf, State.point, State.group, hp, hg] at *
  exact this

theorem Calm.of_points {s t : State} (hp : t.points = s.points) : Calm s t := by
  intro i h; simp only [State.point, hp] at *; exact h

theorem State.produce_law {s : State} (g : Option GroupIdx) (b : ReportBody) (x : Bool) (h : ∀ j, s.lawAt j) :
    ∀ j, (s.produce g b x).lawAt j := State.lawAt_congr rfl rfl h

/-! ## Head moves -/

/-- A change of the head move that keeps the members of its run list and, when it drives, its driving. -/
theorem Group.modHead_drives (r : Group) (f : Move → Move)
    (h : ∀ m, (f m).runList.map (·.point) = m.runList.map (·.point))
    (k : ∀ m, m.state.driving = true → (f m).state.driving = true) : GroupDrives r (r.modHead f) := by
  have key : ∀ (l l' : List RunEntry) (i : PointIdx), l'.map (·.point) = l.map (·.point) →
      l.any (·.point == i) = true → l'.any (·.point == i) = true := by
    intro l l' i e x
    have a : ∀ l : List RunEntry, l.any (·.point == i) = (l.map (·.point)).any (· == i) := by
      intro l; simp [List.any_map, Function.comp_def]
    rw [a] at *; rw [e]; exact x
  unfold Group.modHead
  split
  · exact ⟨fun _ => id, id, id⟩
  · rename_i m rest e
    refine ⟨fun i x => ?_, fun x => ?_, id⟩
    · simp only [Group.inRunList, Group.runList, e] at *
      exact key _ _ i (h m) x
    · simp only [Group.headIs, e] at *
      exact k m x

theorem Move.modEntry_points (m : Move) (i : PointIdx) (f : RunEntry → RunEntry) (h : ∀ e, (f e).point = e.point) :
    (m.modEntry i f).runList.map (·.point) = m.runList.map (·.point) := by
  simp only [Move.modEntry, List.map_map]
  apply List.map_congr_left
  intro e _
  simp only [Function.comp]
  split
  · exact h e
  · rfl

theorem State.modEntry_law {s : State} (g : GroupIdx) (i : PointIdx) (f : RunEntry → RunEntry)
    (hf : ∀ e, (f e).point = e.point) (h : ∀ j, s.lawAt j) : ∀ j, (s.modEntry g i f).lawAt j :=
  State.modGroup_law g _ h (Group.modHead_drives _ _ (fun m => m.modEntry_points i f hf) fun _ => id)

theorem State.updateProgress_law {s : State} (i : PointIdx) (h : ∀ j, s.lawAt j) :
    ∀ j, (s.updateProgress i).lawAt j := by
  unfold State.updateProgress; dsimp only
  split
  · split
    · exact State.modEntry_law _ _ _ (fun _ => rfl) h
    · exact h
  · exact h

theorem State.updateProgress_points (s : State) (i : PointIdx) : (s.updateProgress i).points = s.points := by
  unfold State.updateProgress; dsimp only
  split
  · split <;> rfl
  · rfl

/-! ## Releases -/

/-- A latch on a quiet point. -/
theorem State.latchFault_law {s : State} (i : PointIdx) (c : FaultCode) (h : ∀ j, s.lawAt j)
    (q : (s.point i).channel.quiet = true) : ∀ j, (s.latchFault i c).lawAt j := by
  unfold State.latchFault; dsimp only
  refine State.produce_law _ _ _ (State.setPoint_law i _ (fun j _ => h j) fun x => ?_)
  have : (if (s.point i).latched.isNone = true then { s.point i with latched := some c }
    else { s.point i with further := true }).channel = (s.point i).channel := by split <;> rfl
  rw [this, q] at x; cases x

/-- A latch spoils the law of its own point only. -/
theorem State.latchFault_law_ne {s : State} (i : PointIdx) (c : FaultCode) (h : ∀ j, s.lawAt j) :
    ∀ j, j ≠ i → (s.latchFault i c).lawAt j := by
  intro j e
  have : (s.latchFault i c).lawAt j ↔ s.lawAt j := by
    simp only [State.latchFault, State.lawAt, State.groupOf, State.point_produce, State.group_produce,
      State.point_setPoint_ne s (Ne.symm e), State.group_setPoint]
  exact this.mpr (h j)

theorem State.latchFault_calm (s : State) (i : PointIdx) (c : FaultCode) : Calm s (s.latchFault i c) := by
  unfold State.latchFault
  refine (s.setPoint_calm i _ ?_).trans (Calm.of_points rfl)
  split <;> exact id

theorem State.simulateCoast_quiet (s : State) (i : PointIdx) (b : Bool) (q : (s.point i).channel.quiet = true)
    (h : ∀ j, s.lawAt j) : ∀ j, (s.simulateCoast i b).lawAt j := by
  unfold State.simulateCoast
  split
  · rename_i sh _
    have h1 := State.modPoint_law i (fun p =>
      { p with shadow := some { sh with position := clampPosition (s.coastTarget i sh), simDue := none } }) h rfl id
      fun x _ => x
    have h2 := State.updateProgress_law i h1
    dsimp only
    split
    · refine State.latchFault_law _ _ h2 ?_
      have e : ∀ t : State, (t.updateProgress i).point i = t.point i := fun t => by
        simp only [State.point, State.updateProgress_points]
      rw [e, State.point_modPoint_self]; exact q
    · exact h2
  · exact h

theorem State.simulateCoast_calm (s : State) (i : PointIdx) (b : Bool) : Calm s (s.simulateCoast i b) := by
  unfold State.simulateCoast
  split
  · rename_i sh _
    have h := (s.modPoint_calm i (fun p =>
      { p with shadow := some { sh with position := clampPosition (s.coastTarget i sh), simDue := none } }) id).trans
      (Calm.of_points (State.updateProgress_points _ i))
    dsimp only
    split
    · exact h.trans (State.latchFault_calm _ _ _)
    · exact h
  · exact .refl s

theorem Point.toSettle_quiet (p : Point) (now : Nat) : (p.toSettle now).channel.quiet = true := rfl

/-- A hard release makes its point quiet (R50). -/
theorem State.hardRelease_quiet (s : State) (i : PointIdx) : ((s.hardRelease i).point i).channel.quiet = true := by
  unfold State.hardRelease
  split
  · exact State.simulateCoast_calm _ i _ i (by rw [State.point_modPoint_self]; rfl)
  · rename_i e
    unfold State.dropPending
    rw [State.point_modPoint_self]
    simp only [Channel.quiet, Option.isNone_none, Bool.and_true]
    simpa using e

theorem State.hardRelease_calm (s : State) (i : PointIdx) : Calm s (s.hardRelease i) := by
  unfold State.hardRelease
  split
  · exact (s.modPoint_calm i _ fun _ => rfl).trans (State.simulateCoast_calm _ _ _)
  · exact s.modPoint_calm i _ fun x => by
      simp only [Channel.quiet, Bool.and_eq_true, Option.isNone_none] at *; exact ⟨x.1, trivial⟩

/-- A hard release restores the law of its point and keeps that of the others. -/
theorem State.hardRelease_law {s : State} (i : PointIdx) (h : ∀ j, j ≠ i → s.lawAt j) :
    ∀ j, (s.hardRelease i).lawAt j := by
  unfold State.hardRelease
  split
  · refine State.simulateCoast_quiet _ i _ (by rw [State.point_modPoint_self]; rfl) ?_
    exact State.setPoint_law i _ h fun q => by cases q
  · rename_i e
    refine State.setPoint_law i _ h fun q => ?_
    have : (s.point i).channel.state.energized = false := by simpa using e
    simp [Channel.quiet, this] at q

theorem State.hardReleaseAll_law {s : State} (l : List PointIdx) (h : ∀ j, s.lawAt j) :
    ∀ j, (s.hardReleaseAll l).lawAt j := by
  unfold State.hardReleaseAll
  induction l generalizing s with
  | nil => exact h
  | cons a l ih => exact ih (State.hardRelease_law a fun j _ => h j)

theorem State.hardReleaseAll_calm (s : State) (l : List PointIdx) : Calm s (s.hardReleaseAll l) := by
  unfold State.hardReleaseAll
  induction l generalizing s with
  | nil => exact .refl s
  | cons a l ih => exact (s.hardRelease_calm a).trans (ih _)

theorem State.hardReleaseAll_quiet (s : State) (l : List PointIdx) (i : PointIdx) (h : i ∈ l) :
    ((s.hardReleaseAll l).point i).channel.quiet = true := by
  induction l generalizing s with
  | nil => cases h
  | cons a l ih =>
    rcases List.mem_cons.mp h with e | e
    · subst e; exact State.hardReleaseAll_calm (s.hardRelease i) l i (s.hardRelease_quiet i)
    · exact ih (s.hardRelease a) e

/-! ## Ends and trips -/

theorem State.groupStill_congr {s t : State} (hp : t.points = s.points) {g : GroupIdx} (h : s.groupStill g) :
    t.groupStill g := by
  intro i; simp only [State.point, hp]; exact h i

theorem State.endHead_points (s : State) (g : GroupIdx) (o : Outcome) (n : Option PointIdx)
    (l : List (PointIdx × Int)) : (s.endHead g o n l).points = s.points := by
  unfold State.endHead; split <;> rfl

theorem State.endHead_law {s : State} (g : GroupIdx) (o : Outcome) (n : Option PointIdx)
    (l : List (PointIdx × Int)) (h : ∀ j, s.lawAt j) (k : s.groupStill g) : ∀ j, (s.endHead g o n l).lawAt j := by
  unfold State.endHead
  split
  · exact State.modGroup_law_of_still g _ (State.produce_law _ _ _ h) (State.groupStill_congr rfl k)
  · exact h

theorem State.endAll_points (s : State) (g : GroupIdx) (f : Move → Outcome) : (s.endAll g f).points = s.points := by
  unfold State.endAll
  generalize (s.group g).queue = q
  induction q generalizing s with
  | nil => rfl
  | cons m q ih => exact (ih _).trans (s.endHead_points _ _ _ _)

theorem State.endAll_law {s : State} (g : GroupIdx) (f : Move → Outcome) (h : ∀ j, s.lawAt j)
    (k : s.groupStill g) : ∀ j, (s.endAll g f).lawAt j := by
  unfold State.endAll
  generalize (s.group g).queue = q
  induction q generalizing s with
  | nil => exact h
  | cons m q ih =>
    exact ih (State.endHead_law g _ _ _ h k) (State.groupStill_congr (s.endHead_points _ _ _ _) k)

/-- After the hard release of its run list a group is still. -/
theorem State.groupStill_of_released {s t : State} {g : GroupIdx} (h : ∀ j, s.lawAt j) (m : Moved s t) (c : Calm s t)
    (r : ∀ i ∈ s.runPoints g, (t.point i).channel.quiet = true) : t.groupStill g := by
  intro i e
  cases q : (s.point i).channel.quiet with
  | true => exact c i q
  | false =>
    have k := (h i q).1
    rw [(m.points i).group] at e
    rw [State.groupOf, e] at k
    refine r i ?_
    simp only [Group.inRunList, List.any_eq_true, beq_iff_eq] at k
    obtain ⟨x, hx, hi⟩ := k
    exact List.mem_map.mpr ⟨x, hx, hi⟩

theorem State.trip_calm (s : State) (g : GroupIdx) (c : TripCause) (p : Option PointIdx) : Calm s (s.trip g c p) := by
  unfold State.trip
  split
  · exact .refl s
  · exact (s.hardReleaseAll_calm _).trans (Calm.of_points (State.endAll_points _ _ _))

theorem State.trip_law {s : State} (g : GroupIdx) (c : TripCause) (p : Option PointIdx) (h : ∀ j, s.lawAt j) :
    ∀ j, (s.trip g c p).lawAt j := by
  unfold State.trip
  split
  · exact h
  · have k := State.groupStill_of_released h (s.hardReleaseAll_moved (s.runPoints g)) (s.hardReleaseAll_calm _)
      (State.hardReleaseAll_quiet s _)
    refine State.endAll_law _ _ (State.produce_law _ _ _ (State.modGroup_law_of_still _ _
      (State.hardReleaseAll_law _ h) k)) ?_
    exact State.groupStill_congr (s := s.hardReleaseAll (s.runPoints g)) rfl k

theorem State.tripMember_law {s : State} (i : PointIdx) (h : ∀ j, s.lawAt j) : ∀ j, (s.tripMember i).lawAt j := by
  unfold State.tripMember; dsimp only
  split
  · exact State.trip_law _ _ _ h
  · exact h

theorem State.tripMember_calm (s : State) (i : PointIdx) : Calm s (s.tripMember i) := by
  unfold State.tripMember; dsimp only
  split
  · exact s.trip_calm _ _ _
  · exact .refl s

theorem State.release_law {s : State} (i : PointIdx) (h : ∀ j, j ≠ i → s.lawAt j) : ∀ j, (s.release i).lawAt j := by
  unfold State.release; dsimp only
  split
  · exact State.tripMember_law _ (State.hardRelease_law i h)
  · exact State.hardRelease_law i h

theorem State.release_calm (s : State) (i : PointIdx) : Calm s (s.release i) := by
  unfold State.release; dsimp only
  split
  · exact (s.hardRelease_calm i).trans (State.tripMember_calm _ _)
  · exact s.hardRelease_calm i

theorem State.release_quiet (s : State) (i : PointIdx) : ((s.release i).point i).channel.quiet = true := by
  unfold State.release; dsimp only
  split
  · exact State.tripMember_calm _ _ i (s.hardRelease_quiet i)
  · exact s.hardRelease_quiet i

theorem State.releaseAll_law {s : State} (l : List PointIdx) (h : ∀ j, s.lawAt j) :
    ∀ j, (s.releaseAll l).lawAt j := by
  unfold State.releaseAll
  induction l generalizing s with
  | nil => exact h
  | cons a l ih => exact ih (State.release_law a fun j _ => h j)

theorem State.releaseAll_calm (s : State) (l : List PointIdx) : Calm s (s.releaseAll l) := by
  unfold State.releaseAll
  induction l generalizing s with
  | nil => exact .refl s
  | cons a l ih => exact (s.release_calm a).trans (ih _)

theorem State.releaseAll_quiet (s : State) (l : List PointIdx) (i : PointIdx) (h : i ∈ l) :
    ((s.releaseAll l).point i).channel.quiet = true := by
  induction l generalizing s with
  | nil => cases h
  | cons a l ih =>
    rcases List.mem_cons.mp h with e | e
    · subst e; exact State.releaseAll_calm (s.release i) l i (s.release_quiet i)
    · exact ih (s.release a) e

theorem State.raiseFault_law {s : State} (i : PointIdx) (c : FaultCode) (h : ∀ j, s.lawAt j) :
    ∀ j, (s.raiseFault i c).lawAt j := by
  unfold State.raiseFault; dsimp only
  split
  · exact State.tripMember_law _ (State.release_law i (State.latchFault_law_ne i c h))
  · rename_i f
    refine State.tripMember_law _ (State.latchFault_law i c h ?_)
    cases q : (s.point i).channel.quiet with
    | true => rfl
    | false => rw [(h i q).2.2.2] at f; exact absurd rfl f

theorem State.raiseFault_calm (s : State) (i : PointIdx) (c : FaultCode) : Calm s (s.raiseFault i c) := by
  unfold State.raiseFault; dsimp only
  split
  · exact (s.latchFault_calm i c).trans ((State.release_calm _ _).trans (State.tripMember_calm _ _))
  · exact (s.latchFault_calm i c).trans (State.tripMember_calm _ _)

theorem State.softRelease_calm (s : State) (i : PointIdx) : Calm s (s.softRelease i) := by
  unfold State.softRelease; dsimp only
  split
  · split
    · exact .refl s
    · split
      · exact s.release_calm i
      · exact s.modPoint_calm i _ id
  · exact s.modPoint_calm i _ fun x => by
      simp only [Channel.quiet, Bool.and_eq_true, Option.isNone_none] at *; exact ⟨x.1, trivial⟩

theorem State.softRelease_law {s : State} (i : PointIdx) (h : ∀ j, s.lawAt j) : ∀ j, (s.softRelease i).lawAt j := by
  unfold State.softRelease; dsimp only
  split
  · split
    · exact h
    · split
      · exact State.release_law i fun j _ => h j
      · exact State.modPoint_law i _ h rfl id fun x _ => x
  · exact State.modPoint_law i _ h rfl (fun x => by
      simp only [Channel.quiet, Bool.and_eq_true, Option.isNone_none] at *; exact ⟨x.1, trivial⟩) fun x _ => x

/-! ## The whole law -/

/-- An operation that drives nothing keeps the whole law. -/
theorem State.driveLawful_of_calm {s t : State} (h : s.driveLawful) (l : ∀ j, t.lawAt j) (c : Calm s t)
    (e : t.estop = s.estop) : t.driveLawful := by
  rw [State.driveLawful_iff] at *
  exact ⟨l, fun x i => c i (h.2 (e ▸ x) i)⟩

theorem State.driveLawful.law {s : State} (h : s.driveLawful) : ∀ j, s.lawAt j := ((s.driveLawful_iff).mp h).1

/-- A group whose head move is not driving is still. -/
theorem State.driveLawful.groupStill {s : State} (h : s.driveLawful) {g : GroupIdx}
    (k : (s.group g).headIs MoveState.driving = false) : s.groupStill g :=
  State.groupStill_of_not_driving h.law k

/-- An update of a group that keeps members, driving and permit. -/
theorem State.modGroup_lawful {s : State} (g : GroupIdx) (f : Group → Group) (h : s.driveLawful)
    (k : GroupDrives (s.group g) (f (s.group g))) : (s.modGroup g f).driveLawful :=
  State.driveLawful_of_calm h (State.modGroup_law g f h.law k) (Calm.of_points rfl) rfl

/-- An update of a point's record that never drives it. -/
theorem State.modPoint_lawful {s : State} (i : PointIdx) (f : Point → Point) (h : s.driveLawful)
    (hg : (f (s.point i)).group = (s.point i).group)
    (hq : (s.point i).channel.quiet = true → (f (s.point i)).channel.quiet = true)
    (hl : (s.point i).latched = none → (f (s.point i)).latched = none) : (s.modPoint i f).driveLawful :=
  State.driveLawful_of_calm h (State.modPoint_law i f h.law hg hq fun x _ => hl x) (s.modPoint_calm i f hq) rfl

/-- States with the same points, groups and ESTOP state. -/
theorem State.driveLawful_congr {s t : State} (h : s.driveLawful) (hp : t.points = s.points)
    (hg : t.groups = s.groups) (he : t.estop = s.estop) : t.driveLawful :=
  State.driveLawful_of_calm h (State.lawAt_congr hp hg h.law) (Calm.of_points hp) he

theorem State.produce_lawful {s : State} (g : Option GroupIdx) (b : ReportBody) (x : Bool) (h : s.driveLawful) :
    (s.produce g b x).driveLawful := State.driveLawful_congr h rfl rfl rfl

theorem State.modEntry_lawful {s : State} (g : GroupIdx) (i : PointIdx) (f : RunEntry → RunEntry)
    (hf : ∀ e, (f e).point = e.point) (h : s.driveLawful) : (s.modEntry g i f).driveLawful :=
  State.modGroup_lawful g _ h (Group.modHead_drives _ _ (fun m => m.modEntry_points i f hf) fun _ => id)

theorem State.updateProgress_lawful {s : State} (i : PointIdx) (h : s.driveLawful) :
    (s.updateProgress i).driveLawful :=
  State.driveLawful_of_calm h (State.updateProgress_law i h.law) (Calm.of_points (s.updateProgress_points i))
    (s.updateProgress_moved i).estop

theorem State.trip_lawful {s : State} (g : GroupIdx) (c : TripCause) (p : Option PointIdx) (h : s.driveLawful) :
    (s.trip g c p).driveLawful :=
  State.driveLawful_of_calm h (State.trip_law g c p h.law) (s.trip_calm g c p) (s.trip_moved g c p).estop

theorem State.release_lawful {s : State} (i : PointIdx) (h : s.driveLawful) : (s.release i).driveLawful :=
  State.driveLawful_of_calm h (State.release_law i fun j _ => h.law j) (s.release_calm i) (s.release_moved i).estop

theorem State.releaseAll_lawful {s : State} (l : List PointIdx) (h : s.driveLawful) : (s.releaseAll l).driveLawful :=
  State.driveLawful_of_calm h (State.releaseAll_law l h.law) (s.releaseAll_calm l) (s.releaseAll_moved l).estop

theorem State.raiseFault_lawful {s : State} (i : PointIdx) (c : FaultCode) (h : s.driveLawful) :
    (s.raiseFault i c).driveLawful :=
  State.driveLawful_of_calm h (State.raiseFault_law i c h.law) (s.raiseFault_calm i c) (s.raiseFault_moved i c).estop

theorem State.softRelease_lawful {s : State} (i : PointIdx) (h : s.driveLawful) : (s.softRelease i).driveLawful :=
  State.driveLawful_of_calm h (State.softRelease_law i h.law) (s.softRelease_calm i) (s.softRelease_moved i).estop

theorem State.endHead_lawful {s : State} (g : GroupIdx) (o : Outcome) (n : Option PointIdx)
    (l : List (PointIdx × Int)) (h : s.driveLawful) (k : s.groupStill g) : (s.endHead g o n l).driveLawful :=
  State.driveLawful_of_calm h (State.endHead_law g o n l h.law k) (Calm.of_points (s.endHead_points _ _ _ _))
    (s.endHead_moved g o n l).estop

theorem State.endAll_lawful {s : State} (g : GroupIdx) (f : Move → Outcome) (h : s.driveLawful)
    (k : s.groupStill g) : (s.endAll g f).driveLawful :=
  State.driveLawful_of_calm h (State.endAll_law g f h.law k) (Calm.of_points (s.endAll_points _ _))
    (s.endAll_moved g f).estop

theorem State.endTest_lawful {s : State} (g : GroupIdx) (h : s.driveLawful) : (s.endTest g).driveLawful := by
  unfold State.endTest Group.head
  split
  · rename_i m e
    split
    · rename_i c
      have st : m.state = .stopping := by simp only [Bool.and_eq_true, decide_eq_true_eq] at c; exact c.1
      have nd : (s.group g).headIs MoveState.driving = false := by
        unfold Group.headIs
        split
        · rfl
        · rename_i m' rest q
          rw [q, List.head?_cons, Option.some.injEq] at e
          subst e; rw [st]; rfl
      have k := h.groupStill nd
      split
      · exact State.endHead_lawful _ _ _ _ h k
      · exact State.endHead_lawful _ _ _ _ h k
      · split
        · exact State.endHead_lawful _ _ _ _ h k
        · split
          · exact State.endHead_lawful _ _ _ _ h k
          · exact State.produce_lawful _ _ _ (State.driveLawful_of_calm h
              (State.modGroup_law_of_still g _ h.law k) (Calm.of_points rfl) rfl)
    · exact h
  · exact h

/-- R96: a stop keeps the law. -/
theorem State.enterStopping_lawful {s : State} (g : GroupIdx) (a : Option StopReason) (b : Option EndMark)
    (h : s.driveLawful) : (s.enterStopping g a b).driveLawful := by
  unfold State.enterStopping
  split
  · dsimp only
    split
    · have k := State.groupStill_of_released h.law (s.releaseAll_moved (s.runPoints g)) (s.releaseAll_calm _)
        (State.releaseAll_quiet s _)
      have h1 := State.releaseAll_lawful (s.runPoints g) h
      exact State.endTest_lawful g (State.driveLawful_of_calm h1 (State.modGroup_law_of_still g _ h1.law k)
        (Calm.of_points rfl) rfl)
    · exact State.releaseAll_lawful _ h
  · exact h

/-! ## Energizations -/

/-- What a passed permission test says (R43). -/
theorem State.denial_none {s : State} {i : PointIdx} {d : Dir} (h : s.denial i d = none) :
    (s.groupOf i).inRunList i = true ∧ (s.groupOf i).headIs MoveState.driving = true ∧
      (s.groupOf i).permit.any (s.time ≤ ·) = true ∧ (s.point i).latched = none ∧
      (s.point i).switches.closedToward d = true ∧ s.estop = false := by
  unfold State.denial at h
  dsimp only at h
  split at h
  · rename_i c
    rw [Bool.and_eq_true] at c
    split at h
    · rename_i f
      simp only [State.failing, List.append_eq_nil_iff, ite_eq_left_iff, reduceCtorEq, imp_false,
        Decidable.not_not, Bool.not_eq_true, Option.isNone_iff_eq_none, ite_eq_right_iff] at f
      have b : ∀ x : Bool, ¬x = false → x = true := fun x => by cases x <;> simp
      exact ⟨c.1, c.2, b _ f.1.1.1, f.1.1.2, b _ f.1.2, f.2⟩
    · cases h
    · cases h
  · cases h

/-- What a failed permission test names: that the point is in no driving run list, or a condition that fails (R43). -/
theorem State.denial_some {s : State} {i : PointIdx} {d : Dir} {c : Denial} (h : s.denial i d = some c) :
    (((s.groupOf i).inRunList i && (s.groupOf i).headIs MoveState.driving) = false ∧ c = .notActive) ∨
      (((s.groupOf i).inRunList i && (s.groupOf i).headIs MoveState.driving) = true ∧ c ∈ s.failing i d) := by
  unfold State.denial at h
  dsimp only at h
  split at h
  · rename_i k
    refine .inr ⟨k, ?_⟩
    split at h
    · cases h
    · rename_i f
      rw [f]
      simpa using h.symm
    · rename_i b rest _ f
      rw [f, ← Option.some.inj h, List.getD_eq_getElem _ _ (Nat.mod_lt _ (by simp))]
      exact List.getElem_mem _
  · rename_i k
    exact .inl ⟨by simpa using k, (Option.some.inj h).symm⟩

/-- A point whose permission test has passed may be driven. -/
theorem State.drive_lawful {s : State} (i : PointIdx) (d : Dir) (f : Point → Point) (h : s.driveLawful)
    (p : s.denial i d = none) (hg : (f (s.point i)).group = (s.point i).group)
    (hl : (f (s.point i)).latched = (s.point i).latched) : (s.modPoint i f).driveLawful := by
  have k := State.denial_none p
  rw [State.driveLawful_iff]
  refine ⟨State.setPoint_law i _ (fun j _ => h.law j) fun _ => ?_, fun e => ?_⟩
  · rw [hg, hl]
    refine ⟨k.1, k.2.1, ?_, k.2.2.2.1⟩
    have := k.2.2.1
    rw [State.groupOf] at this
    cases q : (s.group (s.point i).group).permit with
    | none => rw [q] at this; cases this
    | some v => rfl
  · have : s.estop = true := e
    rw [k.2.2.2.2.2] at this; cases this

theorem State.energize_lawful {s : State} (i : PointIdx) (d : Dir) (h : s.driveLawful)
    (p : s.denial i d = none) : (s.energize i d).driveLawful := by
  have h1 : (s.modPoint i fun p => p.energize (s.rehearsing i) d s.time).driveLawful :=
    State.drive_lawful i d _ h p (by unfold Point.energize; split <;> rfl) (by unfold Point.energize; split <;> rfl)
  unfold State.energize; dsimp only
  split
  · exact State.raiseFault_lawful _ _ h1
  · exact h1

theorem State.energizeRequest_lawful {s : State} (i : PointIdx) (d : Dir) (h : s.driveLawful) :
    (s.energizeRequest i d).1.driveLawful := by
  unfold State.energizeRequest
  split
  · split <;> exact h
  · split
    · exact h
    · rename_i p
      split
      · exact h
      · unfold State.takeOrHold
        split
        · exact State.energize_lawful i d h p
        · exact State.drive_lawful i d _ h p rfl rfl

/-! ## The Motion Executor and the start sequence -/

theorem State.driveLawful_foldl {α : Type} (f : State → α → State)
    (k : ∀ s a, s.driveLawful → (f s a).driveLawful) (l : List α) {s : State} (h : s.driveLawful) :
    (l.foldl f s).driveLawful := by
  induction l generalizing s with
  | nil => exact h
  | cons a l ih => exact ih (k s a h)

theorem State.stageSkew_lawful {s : State} (g : GroupIdx) (h : s.driveLawful) : (s.stageSkew g).driveLawful := by
  unfold State.stageSkew; dsimp only
  split
  · exact State.trip_lawful _ _ _ h
  · exact h

theorem State.stageJog_lawful {s : State} (g : GroupIdx) (h : s.driveLawful) : (s.stageJog g).driveLawful := by
  unfold State.stageJog; dsimp only
  split
  · exact State.enterStopping_lawful _ _ _ h
  · exact h

theorem State.coastMember_lawful {s : State} (g : GroupIdx) (i : PointIdx) (h : s.driveLawful) :
    (s.coastMember g i).driveLawful := by
  unfold State.coastMember; dsimp only
  split
  · split
    · split
      · exact h
      · split
        · exact State.release_lawful i (State.modEntry_lawful g i _ (fun _ => rfl) h)
        · split
          · unfold State.markReleased; dsimp only
            split
            · exact State.softRelease_lawful i (State.modEntry_lawful g i _ (fun _ => rfl) h)
            · exact State.modEntry_lawful g i _ (fun _ => rfl) h
          · exact h
    · exact h
  · exact h

theorem State.stageAllReleased_lawful {s : State} (g : GroupIdx) (h : s.driveLawful) :
    (s.stageAllReleased g).driveLawful := by
  unfold State.stageAllReleased; dsimp only
  split
  · exact State.enterStopping_lawful _ _ _ h
  · exact h

theorem State.gateMember_lawful {s : State} (g : GroupIdx) (v : Int) (i : PointIdx) (h : s.driveLawful) :
    (s.gateMember g v i).driveLawful := by
  unfold State.gateMember; dsimp only
  split
  · split
    · exact State.softRelease_lawful i (State.modEntry_lawful g i _ (fun _ => rfl) h)
    · exact h
  · exact h

theorem State.rejoinDropped_lawful {s : State} (g : GroupIdx) (i : PointIdx) (c : Denial) (h : s.driveLawful) :
    (s.rejoinDropped g i c).driveLawful := by
  unfold State.rejoinDropped
  split
  · split
    · exact State.trip_lawful _ _ _ h
    · exact State.modEntry_lawful _ _ _ (fun _ => rfl) h
  · exact h

theorem State.rejoinMember_lawful {s : State} (g : GroupIdx) (v : Int) (i : PointIdx) (h : s.driveLawful) :
    (s.rejoinMember g v i).driveLawful := by
  unfold State.rejoinMember; dsimp only
  split
  · split
    · have k := State.energizeRequest_lawful i (s.group g).direction (State.modEntry_lawful g i
        (fun e => { e with gated := false }) (fun _ => rfl) h)
      unfold State.rejoinAnswer
      split
      · exact State.modEntry_lawful _ _ _ (fun _ => rfl) k
      · exact k
      · exact k
      · exact State.rejoinDropped_lawful _ _ _ k
    · exact h
  · exact h

theorem State.stageGate_lawful {s : State} (g : GroupIdx) (h : s.driveLawful) : (s.stageGate g).driveLawful := by
  unfold State.stageGate; dsimp only
  split
  · exact State.driveLawful_foldl _ (fun t i => State.rejoinMember_lawful g _ i) _
      (State.driveLawful_foldl _ (fun t i => State.gateMember_lawful g _ i) _ h)
  · exact h

/-- R108: an evaluation keeps the law. -/
theorem State.evaluate_lawful {s : State} (g : GroupIdx) (h : s.driveLawful) : (s.evaluate g).driveLawful :=
  State.stageGate_lawful g (State.stageAllReleased_lawful g (State.driveLawful_foldl _
    (fun _ i => State.coastMember_lawful g i) _ (State.stageJog_lawful g (State.stageSkew_lawful g h))))

theorem State.countArrival_lawful {s : State} (i : PointIdx) (h : s.driveLawful) :
    (s.countArrival i).driveLawful := by
  unfold State.countArrival; dsimp only
  split
  · split
    · exact State.evaluate_lawful _ (State.updateProgress_lawful i h)
    · exact State.updateProgress_lawful i h
  · exact h

theorem State.recordSettle_lawful {s : State} (g : GroupIdx) (i : PointIdx) (h : s.driveLawful) :
    (s.recordSettle g i).driveLawful := by
  refine State.modEntry_lawful _ _ _ (fun _ => rfl) ?_
  unfold State.learnAtSettle
  split
  · split
    · unfold State.learnCoast
      split
      · split
        · exact h
        · exact State.modPoint_lawful i _ h rfl id id
      · exact h
    · exact h
  · exact h

theorem State.settledEvent_lawful {s : State} (i : PointIdx) (h : s.driveLawful) :
    (s.settledEvent i).driveLawful := by
  unfold State.settledEvent; dsimp only
  split
  · split
    · exact State.evaluate_lawful _ (State.recordSettle_lawful _ i h)
    · exact State.endTest_lawful _ (State.recordSettle_lawful _ i h)
  · exact h

theorem Move.form_drives (r : Group) : GroupDrives r (r.modHead Move.form) :=
  Group.modHead_drives _ _ (fun m => by unfold Move.form; split <;> rfl)
    (fun m h => by unfold Move.form; split <;> first | rfl | exact h)

theorem State.startAnswer_lawful {s : State} (g : GroupIdx) (i : PointIdx) (a : Answer) (h : s.driveLawful) :
    (s.startAnswer g i a).driveLawful := by
  unfold State.startAnswer
  split
  · split
    · exact State.modGroup_lawful _ _ (State.modEntry_lawful _ _ _ (fun _ => rfl) h) (Move.form_drives _)
    · unfold State.slotLimit
      split
      · exact State.trip_lawful _ _ _ h
      · exact State.enterStopping_lawful _ _ _ h
    · exact State.enterStopping_lawful _ _ _ h
    all_goals exact h
  · exact h

theorem State.startSlot_lawful {s : State} (g : GroupIdx) (h : s.driveLawful) : (s.startSlot g).driveLawful := by
  unfold State.startSlot; dsimp only
  split
  · exact State.startAnswer_lawful _ _ _ (State.energizeRequest_lawful _ _
      (State.modGroup_lawful g _ h ⟨fun _ => id, id, id⟩))
  · exact h

theorem State.enterStarting_lawful {s : State} (g : GroupIdx) (h : s.driveLawful) :
    (s.enterStarting g).driveLawful := by
  unfold State.enterStarting; dsimp only
  refine State.driveLawful_foldl _ (fun t _ => State.startSlot_lawful g) _ (State.modGroup_lawful g _ h ?_)
  have k := Group.modHead_drives (s.group g) (fun m =>
    { m with
      state := .starting
      runList := m.runList.map fun e => e.enter (s.group g).direction (s.positionOf e.point) })
    (fun m => by simp [RunEntry.enter]) (fun _ _ => rfl)
  exact ⟨k.inRunList, k.driving, fun _ => rfl⟩

theorem State.firstStart_lawful {s : State} (g : GroupIdx) (m : Move) (h : s.driveLawful)
    (k : s.groupStill g) : (s.firstStart g m).1.driveLawful := by
  unfold State.firstStart; dsimp only
  have h1 : ∀ f, (s.modGroup g f).driveLawful := fun f =>
    State.driveLawful_of_calm h (State.modGroup_law_of_still g f h.law k) (Calm.of_points rfl) rfl
  have k1 : ∀ f, (s.modGroup g f).groupStill g := fun f => State.groupStill_congr rfl k
  split
  · exact State.endHead_lawful _ _ _ _ (h1 _) (k1 _)
  · split
    · exact State.endHead_lawful _ _ _ _ (h1 _) (k1 _)
    · exact State.enterStarting_lawful g (State.produce_lawful _ _ _
        (State.modGroup_lawful g _ (h1 _) ⟨fun _ => id, id, id⟩))

theorem State.resume_lawful {s : State} (g : GroupIdx) (m : Move) (h : s.driveLawful) :
    (s.resume g m).driveLawful := by
  unfold State.resume; dsimp only
  refine State.enterStarting_lawful g (State.produce_lawful _ _ _ (State.modGroup_lawful g _ h
    (Group.modHead_drives _ _ (fun m => ?_) fun _ => id)))
  simp only [List.map_map]
  apply List.map_congr_left
  intro e _
  simp only [Function.comp]
  split <;> rfl

theorem State.dropPending_lawful {s : State} (i : PointIdx) (h : s.driveLawful) : (s.dropPending i).driveLawful :=
  State.modPoint_lawful i _ h rfl (fun x => by
    simp only [Channel.quiet, Bool.and_eq_true, Option.isNone_none] at *; exact ⟨x.1, trivial⟩) id

theorem State.pendingDue_lawful {s : State} (i : PointIdx) (h : s.driveLawful) : (s.pendingDue i).driveLawful := by
  have k : ∀ (t : State) (b : Bool) (a : Answer), t.driveLawful → (t.dueAnswer i b a).driveLawful := by
    intro t b a ht
    unfold State.dueAnswer; dsimp only
    split
    · split
      · exact State.evaluate_lawful _ (State.modEntry_lawful _ _ _ (fun _ => rfl) ht)
      · exact State.rejoinDropped_lawful _ _ _ (State.evaluate_lawful _ ht)
      all_goals exact ht
    · exact State.startAnswer_lawful _ _ _ ht
  unfold State.pendingDue; dsimp only
  split
  · split
    · rename_i p; exact k _ _ _ (State.energize_lawful _ _ h p)
    · exact k _ _ _ (State.dropPending_lawful i h)
  · exact h

theorem State.pendingMoved_lawful {s : State} (i : PointIdx) (c : Settings) (h : s.driveLawful) :
    (s.pendingMoved i c).driveLawful := by
  unfold State.pendingMoved; dsimp only
  split
  · exact State.pendingDue_lawful i h
  · exact h

theorem State.removeHolder_lawful {s : State} (g : GroupIdx) (c : AuthorityCause) (h : s.driveLawful) :
    (s.removeHolder g c).driveLawful :=
  State.enterStopping_lawful _ _ _ (State.produce_lawful _ _ _ (State.modGroup_lawful g _ h ⟨fun _ => id, id, id⟩))

end Sys2Proof.Machine
end

