-- ==== Sys2Proof/Laws/Frames.lean ====
section
/-! SUPPORT. The frame ends: what step 1 of R170 leaves, and what the end of a good frame gives. -/

namespace Sys2Proof.Machine

/-! ## After step 1 of R170 only the ports have changed -/

@[simp] theorem State.points_afterFrame (s : State) (p : Port) : (s.afterFrame p).points = s.points := by
  unfold State.afterFrame State.heard; dsimp only; split <;> rfl

@[simp] theorem State.groups_afterFrame (s : State) (p : Port) : (s.afterFrame p).groups = s.groups := by
  unfold State.afterFrame State.heard; dsimp only; split <;> rfl

@[simp] theorem State.rights_afterFrame (s : State) (p : Port) : (s.afterFrame p).rights = s.rights := by
  unfold State.afterFrame State.heard; dsimp only; split <;> rfl

@[simp] theorem State.estop_afterFrame (s : State) (p : Port) : (s.afterFrame p).estop = s.estop := by
  unfold State.afterFrame State.heard; dsimp only; split <;> rfl

@[simp] theorem State.loopClosed_afterFrame (s : State) (p : Port) : (s.afterFrame p).loopClosed = s.loopClosed := by
  unfold State.afterFrame State.heard; dsimp only; split <;> rfl

@[simp] theorem State.estopDue_afterFrame (s : State) (p : Port) : (s.afterFrame p).estopDue = s.estopDue := by
  unfold State.afterFrame State.heard; dsimp only; split <;> rfl

@[simp] theorem State.linkChars_afterFrame (s : State) (p : Port) : (s.afterFrame p).linkChars = s.linkChars := by
  unfold State.afterFrame State.heard; dsimp only; split <;> rfl

@[simp] theorem State.linkGapDue_afterFrame (s : State) (p : Port) : (s.afterFrame p).linkGapDue = s.linkGapDue := by
  unfold State.afterFrame State.heard; dsimp only; split <;> rfl

@[simp] theorem State.time_afterFrame (s : State) (p : Port) : (s.afterFrame p).time = s.time := by
  unfold State.afterFrame State.heard; dsimp only; split <;> rfl

@[simp] theorem State.resetAsserted_afterFrame (s : State) (p : Port) : (s.afterFrame p).resetAsserted = s.resetAsserted := by
  unfold State.afterFrame State.heard; dsimp only; split <;> rfl

@[simp] theorem State.pending_afterFrame (s : State) (p : Port) : (s.afterFrame p).pending = s.pending := by
  unfold State.afterFrame State.heard; dsimp only; split <;> rfl

@[simp] theorem State.point_afterFrame (s : State) (p : Port) (i : PointIdx) : (s.afterFrame p).point i = s.point i := by
  simp only [State.point, State.points_afterFrame]

@[simp] theorem State.group_afterFrame (s : State) (p : Port) (g : GroupIdx) : (s.afterFrame p).group g = s.group g := by
  simp only [State.group, State.groups_afterFrame]

@[simp] theorem State.groupOf_afterFrame (s : State) (p : Port) (i : PointIdx) :
    (s.afterFrame p).groupOf i = s.groupOf i := by
  simp only [State.groupOf, State.point_afterFrame, State.group_afterFrame]

@[simp] theorem State.level_afterFrame (s : State) (p q : Port) (g : GroupIdx) :
    (s.afterFrame p).level q g = s.level q g := by
  simp only [State.level, State.rights_afterFrame]

@[simp] theorem State.allowed_afterFrame (s : State) (p q : Port) (g : GroupIdx) (v : Level) :
    (s.afterFrame p).allowed q g v = s.allowed q g v := by
  simp only [State.allowed, State.level_afterFrame]

@[simp] theorem State.atRest_afterFrame (s : State) (p : Port) (i : PointIdx) :
    (s.afterFrame p).atRest i = s.atRest i := by
  simp only [State.atRest, State.rehearsing, State.inStartedMove, State.point_afterFrame, State.groupOf_afterFrame]

@[simp] theorem State.members_afterFrame (s : State) (p : Port) (g : GroupIdx) :
    (s.afterFrame p).members g = s.members g := by
  simp only [State.members, State.point_afterFrame]

@[simp] theorem State.rehearsing_afterFrame (s : State) (p : Port) (i : PointIdx) :
    (s.afterFrame p).rehearsing i = s.rehearsing i := by
  simp only [State.rehearsing, State.groupOf_afterFrame]

@[simp] theorem State.referencedOf_afterFrame (s : State) (p : Port) (i : PointIdx) :
    (s.afterFrame p).referencedOf i = s.referencedOf i := by
  simp only [State.referencedOf, State.shadowOf, State.rehearsing_afterFrame, State.point_afterFrame]

@[simp] theorem State.positionOf_afterFrame (s : State) (p : Port) (i : PointIdx) :
    (s.afterFrame p).positionOf i = s.positionOf i := by
  simp only [State.positionOf, State.shadowOf, State.rehearsing_afterFrame, State.point_afterFrame]

@[simp] theorem State.involved_afterFrame (s : State) (p : Port) (g : GroupIdx) (b : MoveBody) :
    (s.afterFrame p).involved g b = s.involved g b := by
  simp only [State.involved, State.members_afterFrame]

@[simp] theorem State.bodyRefusal_afterFrame (s : State) (p : Port) (g : GroupIdx) (b : MoveBody) :
    (s.afterFrame p).bodyRefusal g b = s.bodyRefusal g b := by
  cases b <;>
  simp only [State.bodyRefusal, State.involvedRefusal, State.lacksEncoder, State.targetRefusal, State.hasFault,
    State.passesSoft, State.involved_afterFrame, State.members_afterFrame, State.point_afterFrame,
    State.referencedOf_afterFrame] <;> rfl

/-- The port whose frame ended: no frame, not SILENT, 500 ms to run (R170 step 1, R172). -/
theorem State.port_afterFrame_self (s : State) (p : Port) :
    ((s.afterFrame p).port p).frame = none ∧ ((s.afterFrame p).port p).silent = false ∧
      ((s.afterFrame p).port p).silenceDue = some (s.time + silenceTime) ∧
      ((s.afterFrame p).port p).queue = (s.port p).queue ∧ ((s.afterFrame p).port p).lost = (s.port p).lost ∧
      ((s.afterFrame p).port p).crcOn = (s.port p).crcOn ∧ ((s.afterFrame p).port p).seed = (s.port p).seed ∧
      ((s.afterFrame p).port p).attention = (s.port p).attention := by
  have ne : ∀ t : State, ∀ r : Report, r.body = .portBack p → t.offer r p = t.port p := fun t r e => by
    simp [State.offer, State.entitled, e]
  unfold State.afterFrame State.heard
  dsimp only
  split
  · rename_i h
    simp only [State.endFrame, State.port_modPort_self] at h ⊢
    simp [State.produce, ne]
  · rename_i h
    simp only [State.endFrame, State.port_modPort_self, Bool.not_eq_true] at h ⊢
    simp [h]

/-- A port other than the one whose frame ended takes at most the PORT_BACK report (R172). -/
theorem State.port_afterFrame_ne (s : State) {p q : Port} (h : p ≠ q) :
    PortKept (s.port q) ((s.afterFrame p).port q) := by
  unfold State.afterFrame State.heard
  dsimp only
  split
  · rw [State.port_modPort_ne _ h]
    refine PortKept.trans ?_ ((State.produce_moved _ _ _ _).ports q)
    rw [State.port_modPort_ne _ h, State.endFrame, State.port_modPort_ne _ h]
    exact .refl _
  · rw [State.port_modPort_ne _ h, State.endFrame, State.port_modPort_ne _ h]
    exact .refl _

/-! ## The end of a good frame (R170) -/

/-- The end of a good frame that names the request: index, length, owner, result. -/
theorem State.takeRequest_of_brings {s : State} {p : Port} {tail : FrameTail} {req : Request} {f : GoodFrame}
    (h : s.brings p tail req f) {α : Type} (index : Word → Option α)
    (owner : State → α → GoodFrame → State × Result) :
    s.takeRequest p tail req index owner =
      (((s.afterFrame p).decideRequest f req index owner).1).setResult p
        ((s.afterFrame p).decideRequest f req index owner).2 := by
  unfold State.takeRequest
  rw [h.2.1]
  simp only [h.2.2, if_true]
  rfl

/-- A frame end changes nothing, or is the end of a good frame that names the request. -/
theorem State.takeRequest_cases (s : State) (p : Port) (tail : FrameTail) (req : Request) {α : Type}
    (index : Word → Option α) (owner : State → α → GoodFrame → State × Result) :
    s.takeRequest p tail req index owner = s ∨
      ∃ f, s.takeRequest p tail req index owner =
        (((s.afterFrame p).decideRequest f req index owner).1).setResult p
          ((s.afterFrame p).decideRequest f req index owner).2 := by
  unfold State.takeRequest
  split
  · rename_i f _
    split
    · exact .inr ⟨f, rfl⟩
    · exact .inl rfl
  · exact .inl rfl

/-- A property that port changes cannot disturb and that the owner keeps holds after the frame end. -/
theorem State.takeRequest_keeps {P : State → Prop} (s : State) (p : Port) (tail : FrameTail) (req : Request)
    {α : Type} (index : Word → Option α) (owner : State → α → GoodFrame → State × Result) (h : P s)
    (ha : P (s.afterFrame p)) (hr : ∀ t r, P t → P (t.setResult p r))
    (ho : ∀ a f, P (owner (s.afterFrame p) a f).1) : P (s.takeRequest p tail req index owner) := by
  rcases s.takeRequest_cases p tail req index owner with e | ⟨f, e⟩
  · rw [e]; exact h
  · rw [e]
    refine hr _ _ ?_
    unfold State.decideRequest
    split
    · exact ha
    · split
      · exact ho _ _
      · exact ha

end Sys2Proof.Machine
end

