-- ==== Sys2Proof/Laws/Exec.lean ====
section
/-! SUPPORT. What `exec` answers for each command, once: the event's function of the state, and for a good frame end the
owner's answer after step 1 of R170. -/

namespace Sys2Proof.Machine

/-- While RESET is not asserted a command acts. -/
theorem State.live_of_running {s : State} (h : s.resetAsserted = false) (f : State → State) :
    s.live f = .next (f s) := by
  simp [State.live, h]

/-! ## Events -/

section
variable {s : State} (h : s.resetAsserted = false)
include h

theorem exec_frameStart (p : Port) : exec (.frameStart p) s = .next (s.startFrame p) :=
  State.live_of_running h (fun s => s.startFrame p)

theorem exec_headerComplete (p : Port) (w : Word) : exec (.headerComplete p w) s = .next (s.completeHeader p w) :=
  State.live_of_running h (fun s => s.completeHeader p w)

theorem exec_badFrame (p : Port) (tail : FrameTail) : exec (.badFrame p tail) s = .next (s.endBadFrame p tail) :=
  State.live_of_running h (fun s => s.endBadFrame p tail)

theorem exec_silenceExpiry (p : Port) : exec (.silenceExpiry p) s = .next (s.silenceExpiry p) :=
  State.live_of_running h (fun s => s.silenceExpiry p)

theorem exec_encoderEdge (i : PointIdx) (ph : Phase) (high : Bool) : exec (.encoderEdge i ph high) s = .next (s.encoderEdge i ph high) :=
  State.live_of_running h (fun s => s.encoderEdge i ph high)

theorem exec_startSlot (g : GroupIdx) : exec (.startSlot g) s = .next (s.startSlot g) :=
  State.live_of_running h (fun s => s.startSlot g)

theorem exec_permitExpiry (g : GroupIdx) : exec (.permitExpiry g) s = .next (s.permitExpiry g) :=
  State.live_of_running h (fun s => s.permitExpiry g)

theorem exec_pendingEnergizeDue (i : PointIdx) : exec (.pendingEnergizeDue i) s = .next (s.pendingEnergizeDue i) :=
  State.live_of_running h (fun s => s.pendingEnergizeDue i)

theorem exec_minimumRunDue (i : PointIdx) : exec (.minimumRunDue i) s = .next (s.minimumRunDue i) :=
  State.live_of_running h (fun s => s.minimumRunDue i)

theorem exec_settleEnd (i : PointIdx) : exec (.settleEnd i) s = .next (s.settleEnd i) :=
  State.live_of_running h (fun s => s.settleEnd i)

theorem exec_stallExpiry (i : PointIdx) : exec (.stallExpiry i) s = .next (s.stallExpiry i) :=
  State.live_of_running h (fun s => s.stallExpiry i)

theorem exec_limitInputChange (i : PointIdx) (k : Switch) (level : Bool) : exec (.limitInputChange i k level) s = .next (s.limitInputChange i k level) :=
  State.live_of_running h (fun s => s.limitInputChange i k level)

theorem exec_switchEvent (i : PointIdx) (k : Switch) : exec (.switchEvent i k) s = .next (s.switchEvent i k) :=
  State.live_of_running h (fun s => s.switchEvent i k)

theorem exec_estopAsserted : exec .estopAsserted s = .next (s.estopOpened) :=
  State.live_of_running h (fun s => s.estopOpened)

theorem exec_estopLoopClosed : exec .estopLoopClosed s = .next (s.estopLoopClosed) :=
  State.live_of_running h (fun s => s.estopLoopClosed)

theorem exec_estopReleased : exec .estopReleased s = .next (s.estopReleased) :=
  State.live_of_running h (fun s => s.estopReleased)

theorem exec_loadRecord (chars : List Byte) : exec (.loadRecord chars) s = .next (chars.foldl State.receiveChar s) :=
  State.live_of_running h (fun s => chars.foldl State.receiveChar s)

theorem exec_loadFramingError : exec .loadFramingError s = .next (s.discardRecord) :=
  State.live_of_running h (fun s => s.discardRecord)

theorem exec_loadLinkGap : exec .loadLinkGap s = .next (s.linkGap) :=
  State.live_of_running h (fun s => s.linkGap)

theorem exec_ageExpiry (i : PointIdx) : exec (.ageExpiry i) s = .next (s.ageExpiry i) :=
  State.live_of_running h (fun s => s.ageExpiry i)

theorem exec_simulatedCount (i : PointIdx) : exec (.simulatedCount i) s = .next (s.simulatedCount i) :=
  State.live_of_running h (fun s => s.simulatedCount i)

end

/-! ## Good frame ends -/

theorem groupIndex_of_eq {h : Word} {g : GroupIdx} (e : headerIndex h = g.val) : groupIndex h = some g := by
  simp [groupIndex, groupOfNat, e]

theorem pointIndex_of_eq {h : Word} {i : PointIdx} (e : headerIndex h = i.val) : pointIndex h = some i := by
  simp [pointIndex, pointOfNat, e]

theorem assignIndex_of_eq {h : Word} {i : PointIdx} {g : GroupIdx} (e : headerIndex h = i.val)
    (k : headerNewGroup h = g.val) : assignIndex h = some (i, g) := by
  simp [assignIndex, pointOfNat, groupOfNat, e, k]

/-- The answer of a request's owner becomes the state and the port's last result (R170 step 5). -/
def State.concluded (out : State × Result) (p : Port) : State := out.1.setResult p out.2

/-- A delivered request with its index in range is its owner's (R170). -/
theorem State.live_of_delivers {s : State} {p : Port} {tail : FrameTail} {req : Request} {f : GoodFrame}
    (h : s.delivers p tail req f) {α : Type} (index : Word → Option α)
    (owner : State → α → GoodFrame → State × Result) (a : α) (e : index f.header = some a) :
    (s.live fun s => s.takeRequest p tail req index owner) =
      .next (State.concluded (owner (s.afterFrame p) a f) p) := by
  rw [State.live_of_running h.1.1, State.takeRequest_of_brings h.1]
  have hl : lengthOk req (headerLength f.header) = true := by
    have := h.2
    cases req <;> simp [lengthAccepted, acceptedLength] at this <;> simp [lengthOk, this]
  simp [State.decideRequest, e, hl, State.concluded]

section
variable {s : State} {p : Port} {tail : FrameTail} {f : GoodFrame}

theorem exec_groupSetup {g : GroupIdx} (h : s.delivers p tail .groupSetup f) (e : headerIndex f.header = g.val) :
    exec (.groupSetup p tail) s = .next (State.concluded (groupSetupOwner p (s.afterFrame p) g f) p) :=
  State.live_of_delivers h groupIndex (groupSetupOwner p) g (groupIndex_of_eq e)

theorem exec_setRights {g : GroupIdx} (h : s.delivers p tail .setRights f) (e : headerIndex f.header = g.val) :
    exec (.setRights p tail) s = .next (State.concluded (setRightsOwner p (s.afterFrame p) g f) p) :=
  State.live_of_delivers h groupIndex (setRightsOwner p) g (groupIndex_of_eq e)

theorem exec_take {g : GroupIdx} (h : s.delivers p tail .take f) (e : headerIndex f.header = g.val) :
    exec (.take p tail) s = .next (State.concluded (takeOwner p (s.afterFrame p) g f) p) :=
  State.live_of_delivers h groupIndex (takeOwner p) g (groupIndex_of_eq e)

theorem exec_release {g : GroupIdx} (h : s.delivers p tail .release f) (e : headerIndex f.header = g.val) :
    exec (.release p tail) s = .next (State.concluded (releaseOwner p (s.afterFrame p) g f) p) :=
  State.live_of_delivers h groupIndex (releaseOwner p) g (groupIndex_of_eq e)

theorem exec_submitMove {g : GroupIdx} (h : s.delivers p tail .submitMove f) (e : headerIndex f.header = g.val) :
    exec (.submitMove p tail) s = .next (State.concluded (submitMoveOwner p (s.afterFrame p) g f) p) :=
  State.live_of_delivers h groupIndex (submitMoveOwner p) g (groupIndex_of_eq e)

theorem exec_go {g : GroupIdx} (h : s.delivers p tail .go f) (e : headerIndex f.header = g.val) :
    exec (.go p tail) s = .next (State.concluded (goOwner p (s.afterFrame p) g f) p) :=
  State.live_of_delivers h groupIndex (goOwner p) g (groupIndex_of_eq e)

theorem exec_cancel {g : GroupIdx} (h : s.delivers p tail .cancel f) (e : headerIndex f.header = g.val) :
    exec (.cancel p tail) s = .next (State.concluded (cancelOwner p (s.afterFrame p) g f) p) :=
  State.live_of_delivers h groupIndex (cancelOwner p) g (groupIndex_of_eq e)

theorem exec_clearTrip {g : GroupIdx} (h : s.delivers p tail .clearTrip f) (e : headerIndex f.header = g.val) :
    exec (.clearTrip p tail) s = .next (State.concluded (clearTripOwner p (s.afterFrame p) g f) p) :=
  State.live_of_delivers h groupIndex (clearTripOwner p) g (groupIndex_of_eq e)

theorem exec_rehearsal {g : GroupIdx} (h : s.delivers p tail .rehearsal f) (e : headerIndex f.header = g.val) :
    exec (.rehearsal p tail) s = .next (State.concluded (rehearsalOwner p (s.afterFrame p) g f) p) :=
  State.live_of_delivers h groupIndex (rehearsalOwner p) g (groupIndex_of_eq e)

theorem exec_pointSetup {i : PointIdx} (h : s.delivers p tail .pointSetup f) (e : headerIndex f.header = i.val) :
    exec (.pointSetup p tail) s = .next (State.concluded (pointSetupOwner p (s.afterFrame p) i f) p) :=
  State.live_of_delivers h pointIndex (pointSetupOwner p) i (pointIndex_of_eq e)

theorem exec_setPosition {i : PointIdx} (h : s.delivers p tail .setPosition f) (e : headerIndex f.header = i.val) :
    exec (.setPosition p tail) s = .next (State.concluded (setPositionOwner p (s.afterFrame p) i f) p) :=
  State.live_of_delivers h pointIndex (setPositionOwner p) i (pointIndex_of_eq e)

theorem exec_clearFault {i : PointIdx} (h : s.delivers p tail .clearFault f) (e : headerIndex f.header = i.val) :
    exec (.clearFault p tail) s = .next (State.concluded (clearFaultOwner p (s.afterFrame p) i f) p) :=
  State.live_of_delivers h pointIndex (clearFaultOwner p) i (pointIndex_of_eq e)

theorem exec_portSetup (h : s.delivers p tail .portSetup f) :
    exec (.portSetup p tail) s = .next (State.concluded (portSetupOwner p (s.afterFrame p) () f) p) :=
  State.live_of_delivers h anyIndex (portSetupOwner p) () rfl

theorem exec_popReport (h : s.delivers p tail .popReport f) :
    exec (.popReport p tail) s = .next (State.concluded (popReportOwner p (s.afterFrame p) () f) p) :=
  State.live_of_delivers h anyIndex (popReportOwner p) () rfl

theorem exec_portRestart (h : s.delivers p tail .portRestart f) :
    exec (.portRestart p tail) s = .next (State.concluded (portRestartOwner p (s.afterFrame p) () f) p) :=
  State.live_of_delivers h anyIndex (portRestartOwner p) () rfl

theorem exec_assign {i : PointIdx} {g : GroupIdx} (h : s.delivers p tail .assign f) (e : headerIndex f.header = i.val)
    (k : headerNewGroup f.header = g.val) :
    exec (.assign p tail) s = .next (State.concluded (assignOwner p (s.afterFrame p) (i, g) f) p) :=
  State.live_of_delivers h assignIndex (assignOwner p) (i, g) (assignIndex_of_eq e k)

theorem exec_nop (h : s.delivers p tail .nop f) : exec (.nop p tail) s = .next ((s.afterFrame p).setResult p .ok) := by
  have k := State.live_of_delivers h anyIndex (fun s _ _ => (s, .ok)) () rfl
  simp only [State.concluded] at k
  exact k

theorem exec_readTable {t : Option Table} (h : s.delivers p tail .readTable f) (e : tableIndex f.header = some t) :
    exec (.readTable p tail) s = .next (State.concluded (readTableOwner (s.afterFrame p) t f) p) :=
  State.live_of_delivers h tableIndex readTableOwner t e

theorem exec_stop {g : GroupIdx} (h : s.delivers p tail .stop f) (e : headerIndex f.header = g.val) :
    exec (.stop p tail) s = .next (((s.afterFrame p).stopGroup g).setResult p .ok) := by
  have k := State.live_of_delivers h groupIndex (fun s g _ => (s.stopGroup g, .ok)) g (groupIndex_of_eq e)
  simp only [State.concluded] at k
  exact k

theorem exec_stopAll (h : s.delivers p tail .stopAll f) :
    exec (.stopAll p tail) s = .next ((allGroups.foldl State.stopGroup (s.afterFrame p)).setResult p .ok) := by
  have k := State.live_of_delivers h anyIndex (fun s _ _ => (allGroups.foldl State.stopGroup s, .ok)) () rfl
  simp only [State.concluded] at k
  exact k

end

/-! ## Reading the conditions -/

theorem GroupState.moving_iff (x : GroupState) :
    x.moving = true ↔ (x = .starting ∨ x = .running ∨ x = .stopping) := by
  cases x <;> decide

theorem MoveState.ofHead_ne_tripped (x : MoveState) : x.ofHead ≠ .tripped := by
  cases x <;> simp [MoveState.ofHead]

/-- A group is TRIPPED exactly while it has a trip cause. -/
theorem Group.state_eq_tripped (r : Group) : r.state = .tripped ↔ r.trip ≠ none := by
  unfold Group.state
  cases r.trip with
  | none =>
    cases r.queue with
    | nil => simp
    | cons m _ => simp [MoveState.ofHead_ne_tripped]
  | some _ => simp

/-- A lawful group that is not moving has no driving head. -/
theorem Group.not_driving_of_not_moving {r : Group} (q : r.queueLawful) (m : r.state.moving = false) :
    r.headIs MoveState.driving = false := by
  unfold Group.headIs
  cases e : r.queue with
  | nil => rfl
  | cons x rest =>
    unfold Group.state at m
    have t : r.trip = none := by
      cases t : r.trip with
      | none => rfl
      | some y =>
        have := q.2.2 (by simp [t])
        rw [e] at this; cases this
    simp only [t, e, Option.isSome_none, Bool.false_eq_true, if_false] at m
    change x.state.driving = false
    revert m
    cases x.state <;> simp [MoveState.ofHead, GroupState.moving, MoveState.driving]

theorem allowed_operate_iff (l : Level) : levelNumber .operate ≤ levelNumber l ↔ ¬ (l = .none ∨ l = .view) := by
  cases l <;> decide

theorem allowed_setup_iff (l : Level) : levelNumber .setup ≤ levelNumber l ↔ l = .setup := by
  cases l <;> decide

theorem inPositionRange_iff (v : Int) : inPositionRange v = true ↔ (-2000000 ≤ v ∧ v ≤ 2000000) := by
  unfold inPositionRange
  rw [Bool.and_eq_true, decide_eq_true_iff, decide_eq_true_iff]
  rfl

theorem State.isDue_of_le {s : State} {o : Option Nat} {due : Nat} (h : o = some due) (k : due ≤ s.time) :
    s.isDue o = true := by
  simp [State.isDue, h, k]

/-- Two changes of one group make one. -/
theorem State.modGroup_modGroup (s : State) (g : GroupIdx) (f k : Group → Group) :
    (s.modGroup g f).modGroup g k = s.modGroup g fun r => k (f r) := by
  unfold State.modGroup State.setGroup
  congr 1
  simp [State.group]

/-- A report reads no more of the groups than their rehearsal bits. -/
theorem State.produce_modGroup (s : State) (g : GroupIdx) (f : Group → Group) (x : Option GroupIdx) (b : ReportBody)
    (c : Bool) (h : (f (s.group g)).rehearsal = (s.group g).rehearsal) :
    (s.modGroup g f).produce x b c = (s.produce x b c).modGroup g f := by
  have hr : ∀ k, ((s.modGroup g f).group k).rehearsal = (s.group k).rehearsal := by
    intro k
    by_cases e : g = k
    · subst e; rw [State.group_modGroup_self]; exact h
    · rw [State.group_modGroup_ne s e]
  unfold State.produce
  simp only [hr]
  rfl

/-! ## The settle end (R53) -/

/-- The entry to OFF (R5, R8, R53). -/
theorem Point.toOff_eq_inOff (p : Point) : p.toOff = p.inOff := by
  unfold Point.toOff Point.inOff
  cases p.staged with
  | none => rfl
  | some k =>
    simp only [Settings.applyStaged, Settings.raiseReverse]
    split
    · rw [Nat.max_eq_right (by omega)]
    · rw [Nat.max_eq_left (by omega)]

/-- R53, R46: a settle end that is due, as `State.afterSettle` says it. -/
theorem exec_settleEnd_due {s : State} {i : PointIdx} {due : Nat} (h : s.resetAsserted = false)
    (d : (s.point i).channel.settleDue = some due) (k : due ≤ s.time) :
    exec (.settleEnd i) s = ((s.setPoint i (s.point i).inOff).settledEvent i).afterSettle i (s.point i) := by
  have e : s.modPoint i Point.toOff = s.setPoint i (s.point i).inOff := by
    unfold State.modPoint; rw [Point.toOff_eq_inOff]
  have m := (s.setPoint i (s.point i).inOff).settledEvent_moved i
  have hs : (((s.setPoint i (s.point i).inOff).settledEvent i).point i).settings = (s.point i).inOff.settings := by
    rw [(m.points i).settings]; simp
  have hr : ((s.setPoint i (s.point i).inOff).settledEvent i).resetAsserted = false := m.resetAsserted.trans h
  rw [exec_settleEnd h]
  unfold State.settleEnd
  simp only [State.isDue, d, Option.any_some, k, decide_true, if_true, e]
  generalize (s.setPoint i (s.point i).inOff).settledEvent i = u at hs hr
  unfold State.pendingMoved State.afterSettle
  dsimp only
  rw [hs, exec_pendingEnergizeDue hr]
  unfold State.pendingEnergizeDue
  by_cases c : (s.point i).inOff.settings.tGuard = (s.point i).settings.tGuard ∧
      (s.point i).inOff.settings.tReverse = (s.point i).settings.tReverse
  · simp [c]
  · have c' : (((s.point i).inOff.settings.tGuard != (s.point i).settings.tGuard) ||
        ((s.point i).inOff.settings.tReverse != (s.point i).settings.tReverse)) = true := by
      rw [Bool.or_eq_true, bne_iff_ne, bne_iff_ne]; exact Decidable.not_and_iff_not_or_not.mp c
    cases q : (u.point i).channel.pending with
    | none => simp
    | some d => simp only [c, c', reduceCtorEq, or_self, if_false, Bool.true_and]

end Sys2Proof.Machine
end

