-- ==== Sys2Proof/Laws/Live.lean ====
section
/-! SUPPORT. Outside a rehearsal a release changes one point's record and nothing else (R50, R51): what releases,
stops and trips then do, in full. -/

namespace Sys2Proof.Machine

/-! ## Releases -/

/-- The point's record after a release outside a rehearsal (R50, R51). -/
def Point.rest (p : Point) (now : Nat) : Point :=
  if p.channel.state.energized then p.toSettle now else { p with channel := { p.channel with pending := none } }

theorem Point.rest_group (p : Point) (now : Nat) : (p.rest now).group = p.group := by
  unfold Point.rest; split <;> rfl

theorem Point.rest_rest (p : Point) (now : Nat) : (p.rest now).rest now = p.rest now := by
  unfold Point.rest
  split
  · rfl
  · rename_i h; simp only [h]

theorem State.shadowOf_live {s : State} {i : PointIdx} (h : s.rehearsing i = false) : s.shadowOf i = none := by
  simp [State.shadowOf, h]

theorem State.coastRaises_live {s : State} {i : PointIdx} (h : s.rehearsing i = false) : s.coastRaises i = false := by
  simp [State.coastRaises, State.shadowOf_live h]

/-- A change of point records that keeps their groups leaves who rehearses. -/
theorem State.rehearsing_modPoint {s : State} (i j : PointIdx) (f : Point → Point)
    (h : (f (s.point i)).group = (s.point i).group) : (s.modPoint i f).rehearsing j = s.rehearsing j := by
  simp only [State.rehearsing, State.groupOf, State.group_modPoint, State.point_modPoint]
  split
  · rename_i e; subst e; rw [h]
  · rfl

/-- R50, R51: a hard release outside a rehearsal. -/
theorem State.hardRelease_live {s : State} {i : PointIdx} (h : s.rehearsing i = false) :
    s.hardRelease i = s.modPoint i fun p => p.rest s.time := by
  unfold State.hardRelease
  split
  · rename_i e
    have k : (s.modPoint i fun p => p.toSettle s.time).rehearsing i = false := by
      rw [State.rehearsing_modPoint i i _ rfl]; exact h
    simp only [State.enterSettle, State.simulateCoast, State.shadowOf_live k]
    simp only [State.modPoint, Point.rest, e, if_true]
  · rename_i e
    simp only [State.dropPending, State.modPoint, Point.rest, e]
    rfl

theorem State.release_live {s : State} {i : PointIdx} (h : s.rehearsing i = false) :
    s.release i = s.modPoint i fun p => p.rest s.time := by
  simp only [State.release, State.coastRaises_live h, Bool.false_eq_true, if_false, State.hardRelease_live h]

/-- The states differ in their points alone, and the points of t are those of s with the listed ones at rest. -/
structure Rests (s : State) (l : List PointIdx) (t : State) : Prop where
  same : t = { s with points := t.points }
  point : ∀ j, t.point j = if j ∈ l then (s.point j).rest s.time else s.point j

theorem Rests.refl (s : State) : Rests s [] s := ⟨rfl, fun _ => by simp⟩

theorem Rests.rehearsing {s t : State} {l : List PointIdx} (h : Rests s l t) (j : PointIdx) :
    t.rehearsing j = s.rehearsing j := by
  have hg : ∀ k, t.group k = s.group k := fun k => by rw [h.same]; rfl
  simp only [State.rehearsing, State.groupOf, hg, h.point j]
  split
  · rw [Point.rest_group]
  · rfl

theorem Rests.step {s t : State} {l : List PointIdx} (h : Rests s l t) (i : PointIdx) :
    Rests s (i :: l) (t.modPoint i fun p => p.rest t.time) := by
  have ht : t.time = s.time := by rw [h.same]
  refine ⟨?_, fun j => ?_⟩
  · rw [h.same]; rfl
  · rw [State.point_modPoint, ht]
    by_cases e : i = j
    · subst e
      simp only [if_true, List.mem_cons, true_or, h.point i]
      split
      · rw [Point.rest_rest]
      · rfl
    · have e' : j ≠ i := fun x => e x.symm
      simp only [e, if_false, h.point j, List.mem_cons, e', false_or]

/-- Releases of several channels outside a rehearsal put each at rest. -/
theorem State.foldl_rests {f : State → PointIdx → State}
    (hf : ∀ (u : State) (i : PointIdx), u.rehearsing i = false → f u i = u.modPoint i fun p => p.rest u.time)
    (s : State) : ∀ (l : List PointIdx) (t : State) (k : List PointIdx), Rests s k t →
      (∀ i ∈ l, s.rehearsing i = false) → Rests s (l.reverse ++ k) (l.foldl f t)
  | [], t, k, h, _ => h
  | i :: l, t, k, h, hl => by
    have e : f t i = t.modPoint i fun p => p.rest t.time := hf t i (by rw [h.rehearsing]; exact hl i (by simp))
    have := State.foldl_rests hf s l (f t i) (i :: k) (by rw [e]; exact h.step i) fun j hj => hl j (by simp [hj])
    simpa using this

theorem State.releaseAll_live {s : State} {l : List PointIdx} (h : ∀ i ∈ l, s.rehearsing i = false) :
    Rests s l (s.releaseAll l) := by
  have := State.foldl_rests (f := State.release) (fun _ _ k => State.release_live k) s l s [] (.refl s) h
  exact ⟨this.same, fun j => by rw [show s.releaseAll l = l.foldl State.release s from rfl, this.point j]; simp⟩

theorem State.hardReleaseAll_live {s : State} {l : List PointIdx} (h : ∀ i ∈ l, s.rehearsing i = false) :
    Rests s l (s.hardReleaseAll l) := by
  have := State.foldl_rests (f := State.hardRelease) (fun _ _ k => State.hardRelease_live k) s l s [] (.refl s) h
  exact ⟨this.same, fun j => by rw [show s.hardReleaseAll l = l.foldl State.hardRelease s from rfl, this.point j]; simp⟩

/-! ## Reports -/

/-- What a report reads: the ports, the rights, the time, and the rehearsal bit of its group. -/
theorem State.ports_produce_congr {s t : State} (g : Option GroupIdx) (b : ReportBody) (x : Bool)
    (hp : t.ports = s.ports) (hr : t.rights = s.rights) (ht : t.time = s.time)
    (hg : ∀ h, (t.group h).rehearsal = (s.group h).rehearsal) : (t.produce g b x).ports = (s.produce g b x).ports := by
  have e : ∀ r p, t.offer r p = s.offer r p := by
    intro r p
    simp only [State.offer, State.entitled, State.allowed, State.level, State.port, hp, hr]
    rfl
  simp only [State.produce, State.distribute, State.reportTime, ht, hg, e]

/-- The two states answer reports alike. -/
structure SameReports (s t : State) : Prop where
  ports : t.ports = s.ports
  rights : t.rights = s.rights
  time : t.time = s.time
  rehearsal : ∀ g, (t.group g).rehearsal = (s.group g).rehearsal

theorem SameReports.refl (s : State) : SameReports s s := ⟨rfl, rfl, rfl, fun _ => rfl⟩

theorem SameReports.trans {s t u : State} (h : SameReports s t) (k : SameReports t u) : SameReports s u :=
  ⟨k.ports.trans h.ports, k.rights.trans h.rights, k.time.trans h.time, fun g => (k.rehearsal g).trans (h.rehearsal g)⟩

theorem SameReports.produce {s t : State} (h : SameReports s t) (g : Option GroupIdx) (b : ReportBody) (x : Bool) :
    SameReports (s.produce g b x) (t.produce g b x) :=
  ⟨State.ports_produce_congr g b x h.ports h.rights h.time h.rehearsal, h.rights, h.time, h.rehearsal⟩

theorem SameReports.modGroup {s t : State} (h : SameReports s t) (g : GroupIdx) (f : Group → Group)
    (k : (f (t.group g)).rehearsal = (t.group g).rehearsal) : SameReports s (t.modGroup g f) :=
  ⟨h.ports, h.rights, h.time, fun j => by
    rw [State.group_modGroup]
    split
    · rename_i e; subst e; rw [k]; exact h.rehearsal g
    · exact h.rehearsal j⟩

theorem Rests.sameReports {s t : State} {l : List PointIdx} (h : Rests s l t) : SameReports s t := by
  refine ⟨?_, ?_, ?_, fun g => ?_⟩ <;> rw [h.same] <;> rfl

/-! ## The stop of a move (R96, R98) -/

theorem State.endTest_unsettled {s : State} {g : GroupIdx} {m : Move} {rest : List Move}
    (h : (s.group g).queue = m :: rest) (k : m.allSettled = false) : s.endTest g = s := by
  simp [State.endTest, Group.head, h, k]

/-- R98: with every member settled the end test passes, by the end mark, the kind and the released flags. -/
theorem State.endTest_settled {s : State} {g : GroupIdx} {m : Move} {rest : List Move}
    (h : (s.group g).queue = m :: rest) (hs : m.state = .stopping) (ha : m.allSettled = true) :
    s.endTest g =
      match m.endMark with
      | some .limit => s.endHead g .limit
      | some .softLimit => s.endHead g .softLimit
      | none =>
        if m.body.kind.jog then s.endHead g .jogStopped
        else if m.allReleased then s.endHead g .arrived none m.arrivalPairs
        else s.holdHead g m := by
  have c : (m.state == .stopping && m.allSettled) = true := by rw [hs, ha]; rfl
  unfold State.endTest Group.head
  rw [h]
  exact if_pos c

/-- R96: outside a rehearsal a driven move with an unsettled member is STOPPING, its members at rest. -/
theorem State.enterStopping_live {s : State} {g : GroupIdx} {m : Move} {rest : List Move}
    (a : Option StopReason) (b : Option EndMark) (h : (s.group g).queue = m :: rest) (d : m.state.driving = true)
    (u : s.settlesLater g) :
    s.enterStopping g a b = (s.releaseAll (s.runPoints g)).modGroup g fun r =>
      { r with
        queue := { m with state := .stopping, endMark := b } :: rest, schedule := [], permit := none
        stopReason := a } := by
  have hr := State.releaseAll_live u.2
  have hg : ∀ k, (s.releaseAll (s.runPoints g)).group k = s.group k := fun k => by rw [hr.same]; rfl
  have hd : (s.group g).headIs MoveState.driving = true := by simp [Group.headIs, h, d]
  have hs : m.allSettled = false := by
    have := u.1
    rw [Group.runList, h] at this
    obtain ⟨e, he, hn⟩ := List.any_eq_true.mp this
    exact List.all_eq_false.mpr ⟨e, he, by simpa using hn⟩
  have hf : (s.releaseAll (s.runPoints g)).modGroup g (fun r => r.toStopping a b) =
      (s.releaseAll (s.runPoints g)).modGroup g fun r =>
        { r with
          queue := { m with state := .stopping, endMark := b } :: rest, schedule := [], permit := none
          stopReason := a } := by
    unfold State.modGroup
    rw [hg g]
    simp [Group.toStopping, Group.modHead, h]
  unfold State.enterStopping
  simp only [hd, if_true, hg, hf]
  exact State.endTest_unsettled (m := { m with state := .stopping, endMark := b }) (rest := rest) (by simp)
    (by simpa [Move.allSettled] using hs)

/-- R96: in any other state nothing happens. -/
theorem State.enterStopping_idle {s : State} {g : GroupIdx} (a : Option StopReason) (b : Option EndMark)
    (h : (s.group g).headIs MoveState.driving = false) : s.enterStopping g a b = s := by
  simp [State.enterStopping, h]

/-! ## Trips (R144, R145) -/

/-- The ends of a list of moves, in turn: the reports, and the queue empty. -/
theorem State.endAll_reports {s t : State} {g : GroupIdx} (o : Move → Outcome) (h : SameReports s t) :
    SameReports ((t.group g).queue.foldl (fun u m => State.reportEnd g (o m) u m) s) (t.endAll g o) := by
  unfold State.endAll
  generalize hq : (t.group g).queue = q
  induction q generalizing s t with
  | nil => exact h
  | cons m q ih =>
    have e : t.endHead g (o m) = (t.produce (some g) (m.endedBody (o m) none [])).modGroup g Group.dropHead := by
      simp [State.endHead, Group.head, hq]
    have k : SameReports (State.reportEnd g (o m) s m) (t.endHead g (o m)) := by
      rw [e]
      have : m.endedBody (o m) none [] = .moveEnded (o m) m.tag m.body.kind m.body.point [] := by
        cases hp : m.body.point <;> simp [Move.endedBody, hp]
      rw [this]
      exact (h.produce _ _ _).modGroup g _ rfl
    exact ih k (by rw [State.endHead_queue, hq]; rfl)

/-- An end touches no other group. -/
theorem State.endHead_group_ne {s : State} {g k : GroupIdx} (o : Outcome) (n : Option PointIdx)
    (l : List (PointIdx × Int)) (h : k ≠ g) : (s.endHead g o n l).group k = s.group k := by
  unfold State.endHead
  split
  · rw [State.group_modGroup_ne _ h.symm]; rfl
  · rfl

theorem State.endAll_group_ne {s : State} {g k : GroupIdx} (o : Move → Outcome) (h : k ≠ g) :
    (s.endAll g o).group k = s.group k := by
  unfold State.endAll
  generalize (s.group g).queue = q
  induction q generalizing s with
  | nil => rfl
  | cons m q ih => rw [List.foldl_cons, ih, State.endHead_group_ne _ _ _ h]

theorem State.foldl_flush (g : GroupIdx) (q : List Move) (hq : ∀ m ∈ q, m.state = .queued) (s : State) :
    q.foldl (fun u m => State.reportEnd g (tripOutcome m) u m) s = q.foldl (State.reportEnd g .flushed) s := by
  induction q generalizing s with
  | nil => rfl
  | cons m q ih =>
    have e : tripOutcome m = .flushed := by simp [tripOutcome, hq m (by simp)]
    rw [List.foldl_cons, List.foldl_cons, e]
    exact ih (fun x hx => hq x (by simp [hx])) _

/-- R144, R145: outside a rehearsal a trip's reports are those of `reportTripOf`, and no other group changes. -/
theorem State.trip_live {s u : State} {g : GroupIdx} {c : TripCause} {p : Option PointIdx} {m : Move} {rest : List Move}
    (t : (s.group g).trip = none) (h : (s.group g).queue = m :: rest) (hm : m.state ≠ .queued)
    (hr : ∀ x ∈ rest, x.state = .queued) (l : ∀ i ∈ s.runPoints g, s.rehearsing i = false) (hu : SameReports u s) :
    SameReports (u.reportTripOf g c p m rest) (s.trip g c p) ∧ ∀ k, k ≠ g → (s.trip g c p).group k = s.group k := by
  have nt : ¬ (s.group g).state = .tripped := by rw [Group.state_eq_tripped]; simp [t]
  unfold State.trip
  simp only [nt, if_false]
  have hs := State.hardReleaseAll_live l
  have hg : ∀ k, (s.hardReleaseAll (s.runPoints g)).group k = s.group k := fun k => by rw [hs.same]; rfl
  generalize s.hardReleaseAll (s.runPoints g) = s1 at hs hg
  have k1 : SameReports u (s1.modGroup g fun r => { r with schedule := [], trip := some ⟨c, p⟩ }) :=
    (hu.trans hs.sameReports).modGroup g _ rfl
  have hq1 : ((s1.modGroup g fun r => { r with schedule := [], trip := some ⟨c, p⟩ }).group g).queue = m :: rest := by
    simp [hg, h]
  have hn1 : ∀ k, k ≠ g → (s1.modGroup g fun r => { r with schedule := [], trip := some ⟨c, p⟩ }).group k = s.group k :=
    fun k hk => by rw [State.group_modGroup_ne _ hk.symm, hg]
  generalize (s1.modGroup g fun r => { r with schedule := [], trip := some ⟨c, p⟩ }) = s2 at k1 hq1 hn1
  have e : s2.reportTrip g c p = s2.produce (some g) (.groupTripped c p (some (m.tag, m.body.kind))) := by
    simp [State.reportTrip, Group.head, hq1]
  rw [e]
  have k2 := k1.produce (some g) (.groupTripped c p (some (m.tag, m.body.kind))) false
  refine ⟨?_, fun k hk => ?_⟩
  · have k3 := State.endAll_reports (g := g) tripOutcome k2
    have hq2 : ((s2.produce (some g) (.groupTripped c p (some (m.tag, m.body.kind)))).group g).queue = m :: rest := hq1
    rw [hq2, List.foldl_cons] at k3
    have ht : tripOutcome m = .aborted := by simp [tripOutcome, hm]
    rw [ht, State.foldl_flush g rest hr] at k3
    exact k3
  · rw [State.endAll_group_ne _ hk]; exact hn1 k hk

/-! ## The removal of a holder (R128, R136) -/

/-- A group whose head drives has a head. -/
theorem Group.queue_of_driving (r : Group) (h : r.headIs MoveState.driving = true) :
    ∃ m rest, r.queue = m :: rest ∧ m.state.driving = true := by
  unfold Group.headIs at h
  cases hq : r.queue with
  | nil => simp [hq] at h
  | cons m rest => exact ⟨m, rest, rfl, by simpa [hq] using h⟩

/-- `settlesLater` reads the group's record and who rehearses. -/
theorem State.settlesLater_congr {s t : State} {g : GroupIdx} (hg : t.group g = s.group g)
    (hr : ∀ i, t.rehearsing i = s.rehearsing i) : s.settlesLater g → t.settlesLater g := by
  intro ⟨a, b⟩
  refine ⟨by rw [hg]; exact a, fun i hi => ?_⟩
  rw [hr]; exact b i (by simpa [State.runPoints, hg] using hi)

/-- The group state reads the trip cause and the queue. -/
theorem Group.state_congr {a b : Group} (h1 : a.trip = b.trip) (h2 : a.queue = b.queue) : a.state = b.state := by
  unfold Group.state; rw [h1, h2]

/-- A lawful group whose head drives has no trip cause (R85). -/
theorem Group.trip_of_driving {r : Group} (q : r.queueLawful) (h : r.headIs MoveState.driving = true) :
    r.trip = none := by
  cases t : r.trip with
  | none => rfl
  | some y =>
    have := q.2.2 (by simp [t]); simp [Group.headIs, this] at h

/-- After the removal of g's holder: g's record is r, the listed points are at rest, one report was made, and nothing
else changed. -/
structure Removed (s : State) (g : GroupIdx) (b : ReportBody) (r : Group) (l : List PointIdx) (t : State) : Prop where
  group : t.group g = r
  others : ∀ h, h ≠ g → t.group h = s.group h
  point : ∀ j, t.point j = if j ∈ l then (s.point j).rest s.time else s.point j
  reports : SameReports (s.produce (some g) b) t
  estop : t.estop = s.estop

/-- R128, R136, R137: outside a rehearsal the holder of a driving group is removed, with its report, and the move is STOPPING. -/
theorem State.removeHolder_live (s : State) (g : GroupIdx) (cause : AuthorityCause) (m : Move) (rest : List Move)
    (hq : (s.group g).queue = m :: rest) (hd : m.state.driving = true)
   (ht : (s.group g).trip = none) (hs : s.settlesLater g) :
   Removed s g (.authority cause none (s.group g).holder .stopping) { s.group g with
        queue := { m with state := .stopping, endMark := none } :: rest, schedule := [], permit := none
        stopReason := some .authority, holder := none } (s.runPoints g) (s.removeHolder g cause) := by
  set s1 := s.modGroup g fun r => { r with holder := none } with h1
  have hg1 : s1.group g = { s.group g with holder := none } := by simp [h1]
  have hrh : ∀ i, s1.rehearsing i = s.rehearsing i := by
    intro i; simp only [h1, State.rehearsing, State.groupOf, State.group_modGroup, State.point_modGroup]
    split
    · rename_i e; rw [← e]
    · rfl
  have sl1 : s1.settlesLater g := ⟨by rw [hg1]; exact hs.1, fun i hi => by
    rw [hrh]; exact hs.2 i (by simpa [State.runPoints, hg1, Group.runList] using hi)⟩
  have e1 := State.enterStopping_live (s := s1) (g := g) (some .authority) none (by rw [hg1]; exact hq) hd sl1
  have hr1 := State.releaseAll_live sl1.2
  have hgr1 : ∀ k, (s1.releaseAll (s1.runPoints g)).group k = s1.group k := fun k => by rw [hr1.same]; simp [State.group]
  have hst : ((s1.enterStopping g (some .authority) none).group g).state = .stopping := by
    rw [e1]; simp [hgr1, Group.state, hg1, ht, MoveState.ofHead]
  unfold State.removeHolder State.dropHolder State.stateAfterRemoval
  simp only [← h1, hst]
  set s2 := s1.produce (some g) (.authority cause none (s.group g).holder .stopping) with h2
  have hg2 : ∀ k, s2.group k = s1.group k := fun k => by simp [h2]
  have sl2 : s2.settlesLater g := State.settlesLater_congr (hg2 g) (fun i => by simp [h2, State.rehearsing]) sl1
  have e2 := State.enterStopping_live (s := s2) (g := g) (some .authority) none (by rw [hg2, hg1]; exact hq) hd sl2
  have hr2 := State.releaseAll_live sl2.2
  have hrp : s2.runPoints g = s.runPoints g := by simp [State.runPoints, hg2, hg1, Group.runList]
  rw [hrp] at hr2 e2
  have hgr2 : ∀ k, (s2.releaseAll (s.runPoints g)).group k = s1.group k := fun k => by rw [hr2.same]; exact hg2 k
  rw [e2]
  refine ⟨?_, ?_, ?_, ?_, ?_⟩
  · simp [hgr2, hg1]
  · intro k hk; rw [State.group_modGroup_ne _ hk.symm, hgr2, h1, State.group_modGroup_ne _ hk.symm]
  · intro j; simpa [h2, h1] using hr2.point j
  · refine SameReports.modGroup ?_ g _ rfl
    refine SameReports.trans ?_ hr2.sameReports
    exact SameReports.produce ((SameReports.refl s).modGroup g _ rfl) _ _ _
  · have := (s2.releaseAll_moved (s.runPoints g)).estop
    simpa [h2, h1] using this

/-- R135, R137: the holder of a group that does not drive is removed, with its report. -/
theorem State.removeHolder_idle (s : State) (g : GroupIdx) (cause : AuthorityCause)
    (hd : (s.group g).headIs MoveState.driving = false) :
   Removed s g (.authority cause none (s.group g).holder (s.group g).state) { s.group g with holder := none } [] (s.removeHolder g cause) := by
  set s1 := s.modGroup g fun r => { r with holder := none } with h1
  have hg1 : s1.group g = { s.group g with holder := none } := by simp [h1]
  have e1 := State.enterStopping_idle (s := s1) (g := g) (some .authority) none (by rw [hg1]; exact hd)
  unfold State.removeHolder State.dropHolder State.stateAfterRemoval
  simp only [← h1, e1]
  have e2 := State.enterStopping_idle (s := s1.produce (some g) (.authority cause none (s.group g).holder (s1.group g).state)) (g := g) (some .authority) none (by rw [State.group_produce, hg1]; exact hd)
  rw [e2]
  have : (s1.group g).state = (s.group g).state := Group.state_congr (by rw [hg1]) (by rw [hg1])
  rw [this]
  refine ⟨by simp [hg1], fun k hk => by rw [State.group_produce, h1, State.group_modGroup_ne _ hk.symm], by simp [h1], ?_, by simp [h1]⟩
  exact SameReports.produce ((SameReports.refl s).modGroup g _ rfl) _ _ _

end Sys2Proof.Machine
end

