-- ==== Sys2Proof/Laws/Progress.lean ====
section
/-! SUPPORT. Reading a run list: its least advanced and most advanced members (R107), the entry of a member in a sorted
list, and the folds of a stage of which one member acts (R108). -/

namespace Sys2Proof.Machine

/-- The group takes its direction from its head move. -/
theorem Group.direction_of_queue {r : Group} {m : Move} {rest : List Move} (h : r.queue = m :: rest) :
    r.direction = m.direction.getD .up := by
  simp [Group.direction, Group.head, h]

/-- A point with an entry is in the run list. -/
theorem Group.inRunList_of_entry {r : Group} {i e} (h : r.entry i = some e) : r.inRunList i = true := by
  unfold Group.entry at h; unfold Group.inRunList
  rw [List.any_eq_true]
  exact ⟨e, List.mem_of_find?_eq_some h, by have := List.find?_some h; simpa using this⟩

/-- The fold of `minProgress` is a bound that is reached. -/
theorem foldl_min_progress (l : List RunEntry) : ∀ a : Int,
    l.foldl (fun m x => min m x.progress) a ≤ a ∧ (∀ x ∈ l, l.foldl (fun m x => min m x.progress) a ≤ x.progress) ∧
      (l.foldl (fun m x => min m x.progress) a = a ∨ ∃ x ∈ l, l.foldl (fun m x => min m x.progress) a = x.progress) := by
  induction l with
  | nil => intro a; simp
  | cons b l ih =>
    intro a
    simp only [List.foldl_cons]
    obtain ⟨h1, h2, h3⟩ := ih (min a b.progress)
    refine ⟨by omega, ?_, ?_⟩
    · intro x hx
      rcases List.mem_cons.mp hx with rfl | hx
      · omega
      · exact h2 x hx
    · rcases h3 with h | ⟨x, hx, h⟩
      · rcases Int.le_total a b.progress with k | k
        · left; omega
        · right; exact ⟨b, by simp, by omega⟩
      · right; exact ⟨x, by simp [hx], h⟩

/-- The fold of `maxProgress` is a bound that is reached. -/
theorem foldl_max_progress (l : List RunEntry) : ∀ a : Int,
    a ≤ l.foldl (fun m x => max m x.progress) a ∧ (∀ x ∈ l, x.progress ≤ l.foldl (fun m x => max m x.progress) a) ∧
      (l.foldl (fun m x => max m x.progress) a = a ∨ ∃ x ∈ l, l.foldl (fun m x => max m x.progress) a = x.progress) := by
  induction l with
  | nil => intro a; simp
  | cons b l ih =>
    intro a
    simp only [List.foldl_cons]
    obtain ⟨h1, h2, h3⟩ := ih (max a b.progress)
    refine ⟨by omega, ?_, ?_⟩
    · intro x hx
      rcases List.mem_cons.mp hx with rfl | hx
      · omega
      · exact h2 x hx
    · rcases h3 with h | ⟨x, hx, h⟩
      · rcases Int.le_total a b.progress with k | k
        · right; exact ⟨b, by simp, by omega⟩
        · left; omega
      · right; exact ⟨x, by simp [hx], h⟩

/-- The smallest progress is that of a member below all others (R107). -/
theorem minProgress_eq {l : List RunEntry} {e} (he : e ∈ l) (h : ∀ x ∈ l, e.progress ≤ x.progress) :
    minProgress l = e.progress := by
  cases l with
  | nil => simp at he
  | cons b l =>
    obtain ⟨h1, h2, h3⟩ := foldl_min_progress l b.progress
    simp only [minProgress]
    have h4 : ∀ x ∈ b :: l, List.foldl (fun m x => min m x.progress) b.progress l ≤ x.progress := by
      intro x hx; rcases List.mem_cons.mp hx with rfl | hx
      · exact h1
      · exact h2 x hx
    have := h4 e he
    rcases h3 with k | ⟨x, hx, k⟩
    · have := h b (by simp); omega
    · have := h x (by simp [hx]); omega

/-- No progress exceeds the largest (R107). -/
theorem le_maxProgress {l : List RunEntry} {x} (he : x ∈ l) : x.progress ≤ maxProgress l := by
  cases l with
  | nil => simp at he
  | cons b l =>
    obtain ⟨h1, h2, h3⟩ := foldl_max_progress l b.progress
    simp only [maxProgress]
    rcases List.mem_cons.mp he with rfl | hx
    · exact h1
    · exact h2 x hx

/-- A bound of every progress bounds the largest (R107). -/
theorem maxProgress_le {l : List RunEntry} {e : RunEntry} {k : Int} (he : e ∈ l) (h : ∀ x ∈ l, x.progress ≤ k) :
    maxProgress l ≤ k := by
  cases l with
  | nil => simp at he
  | cons b l =>
    obtain ⟨h1, h2, h3⟩ := foldl_max_progress l b.progress
    simp only [maxProgress]
    rcases h3 with q | ⟨x, hx, q⟩
    · have := h b (by simp); omega
    · have := h x (by simp [hx]); omega

/-- The laggard is the lowest-numbered of the members with the smallest progress (R110). -/
theorem laggard_eq {l : List RunEntry} {e} (hs : l.Pairwise (fun x y => x.point < y.point)) (he : e ∈ l)
    (h : ∀ x ∈ l, e.progress ≤ x.progress ∧ (x.progress = e.progress → e.point ≤ x.point)) :
    laggard l = some e.point := by
  unfold laggard
  rw [minProgress_eq he fun x hx => (h x hx).1]
  induction l with
  | nil => simp at he
  | cons b l ih =>
    simp only [List.find?_cons]
    by_cases k : b.progress = e.progress
    · simp only [k, beq_self_eq_true, Option.map_some]
      rcases List.mem_cons.mp he with rfl | he'
      · rfl
      · have h1 := (h b (by simp)).2 k
        have h2 := (List.pairwise_cons.mp hs).1 e he'
        exact absurd (lt_of_le_of_lt h1 h2) (lt_irrefl _)
    · have : (b.progress == e.progress) = false := by simpa using k
      rw [this]
      rcases List.mem_cons.mp he with rfl | he'
      · exact absurd rfl k
      · exact ih (List.pairwise_cons.mp hs).2 he' (fun x hx => h x (by simp [hx]))

/-- A trip of a group that was not TRIPPED empties its queue (R144). -/
theorem State.trip_queue (s : State) (g : GroupIdx) (c : TripCause) (p : Option PointIdx)
    (h : (s.group g).trip = none) : ((s.trip g c p).group g).queue = [] := by
  unfold State.trip
  have : ¬ (s.group g).state = .tripped := by rw [Group.state_eq_tripped]; simp [h]
  simp only [this, if_false]
  exact State.endAll_queue _ _ _

/-- Stages 2 to 5 do nothing to an empty queue (R108). -/
theorem State.stages_of_empty (s : State) (g : GroupIdx) (h : (s.group g).queue = []) :
    (((s.stageJog g).stageCoast g).stageAllReleased g).stageGate g = s := by
  have hj : s.stageJog g = s := by simp [State.stageJog, Group.headIs, h]
  have hc : s.stageCoast g = s := by simp [State.stageCoast, State.runPoints, Group.runList, h]
  have ha : s.stageAllReleased g = s := by simp [State.stageAllReleased, Group.headIs, h]
  have hg : s.stageGate g = s := by simp [State.stageGate, Group.headIs, h]
  rw [hj, hc, ha, hg]

/-- In a list sorted by point, the entry found for a member is that member. -/
theorem find_of_sorted {l : List RunEntry} (hs : l.Pairwise (fun x y => x.point < y.point)) {x} (hx : x ∈ l) :
    l.find? (·.point == x.point) = some x := by
  induction l with
  | nil => simp at hx
  | cons b l ih =>
    rw [List.find?_cons]
    rcases List.mem_cons.mp hx with rfl | h
    · simp
    · have := (List.pairwise_cons.mp hs).1 x h
      have hne : (b.point == x.point) = false := by simpa using (ne_of_lt this)
      simp only [hne]
      exact ih (List.pairwise_cons.mp hs).2 h

/-- A stage in which no member acts changes nothing. -/
theorem foldl_of_fixed {α : Type} (f : State → α → State) (l : List α) (s : State) (h : ∀ a ∈ l, f s a = s) :
    l.foldl f s = s := by
  induction l with
  | nil => rfl
  | cons a l ih => rw [List.foldl_cons, h a (by simp)]; exact ih fun b hb => h b (by simp [hb])

/-- A stage in which one member acts is that member's action. -/
theorem foldl_of_one (f : State → PointIdx → State) (l : List PointIdx) (s t : State) (i : PointIdx) (hn : l.Nodup)
    (hi : i ∈ l) (h1 : ∀ a ∈ l, a ≠ i → f s a = s) (h2 : f s i = t) (h3 : ∀ a ∈ l, a ≠ i → f t a = t) :
    l.foldl f s = t := by
  induction l with
  | nil => simp at hi
  | cons a l ih =>
    rw [List.foldl_cons]
    have hn' := List.nodup_cons.mp hn
    by_cases k : a = i
    · subst k; rw [h2]
      exact foldl_of_fixed f l t fun b hb => h3 b (by simp [hb]) (fun e => hn'.1 (e ▸ hb))
    · rw [h1 a (by simp) k]
      exact ih hn'.2 ((List.mem_cons.mp hi).resolve_left fun e => k e.symm) (fun b hb => h1 b (by simp [hb]))
        fun b hb => h3 b (by simp [hb])

/-- Clamping as a maximum of a minimum (R3). -/
theorem clampInt_eq (lo hi v : Int) (h : lo ≤ hi) : clampInt lo hi v = max lo (min hi v) := by
  unfold clampInt; split
  · omega
  · split <;> omega

/-- Writing a record back changes nothing. -/
theorem State.setPoint_point (s : State) (i) : s.setPoint i (s.point i) = s := by
  simp [State.setPoint, State.point]

end Sys2Proof.Machine
end

