-- ==== Sys2Proof/Laws/Evaluate.lean ====
section
/-! SUPPORT. An evaluation in which one member acts (R108): what the stages do at the other members, and the evaluation
put together from the three stages at that member. -/

namespace Sys2Proof.Machine

/-! ## One entry of a run list replaced -/

/-- The run list with point i's entries changed. -/
def replaced (l : List RunEntry) (i : PointIdx) (f : RunEntry → RunEntry) : List RunEntry :=
  l.map fun x => if x.point = i then f x else x

theorem replaced_sorted {l : List RunEntry} (hs : l.Pairwise (fun x y => x.point < y.point)) (i : PointIdx)
    (f : RunEntry → RunEntry) (hf : ∀ x, (f x).point = x.point) :
    (replaced l i f).Pairwise (fun x y => x.point < y.point) := by
  unfold replaced
  rw [List.pairwise_map]
  refine hs.imp fun {a b} h => ?_
  have k : ∀ x : RunEntry, (if x.point = i then f x else x).point = x.point := by intro x; split <;> simp [hf]
  rw [k, k]
  exact h

theorem replaced_replaced (l : List RunEntry) (i : PointIdx) (f k : RunEntry → RunEntry)
    (hk : ∀ x, (k x).point = x.point) : replaced (replaced l i k) i f = replaced l i fun x => f (k x) := by
  unfold replaced
  rw [List.map_map]
  refine List.map_congr_left fun x _ => ?_
  simp only [Function.comp]
  by_cases h : x.point = i
  · simp [h, hk]
  · simp [h]

theorem State.group_modEntry_of_queue {s : State} {g : GroupIdx} {m : Move} {rest : List Move} (i : PointIdx)
    (f : RunEntry → RunEntry) (hq : (s.group g).queue = m :: rest) :
    (s.modEntry g i f).group g =
      { s.group g with queue := { m with runList := replaced m.runList i f } :: rest } := by
  simp [State.modEntry, Group.modHead, hq, Move.modEntry, replaced]

theorem State.rehearsing_modEntry (s : State) (g : GroupIdx) (i : PointIdx) (f : RunEntry → RunEntry) (j : PointIdx) :
    (s.modEntry g i f).rehearsing j = s.rehearsing j := by
  have h := s.modEntry_moved g i f
  simp only [State.rehearsing, State.groupOf, State.point_modEntry, (h.groups _).rehearsal]

theorem State.positionOf_congr {s t : State} {j : PointIdx} (hr : t.rehearsing j = s.rehearsing j)
    (hp : t.point j = s.point j) : t.positionOf j = s.positionOf j := by
  simp only [State.positionOf, State.shadowOf, hr, hp]

theorem State.modEntry_modEntry (s : State) (g : GroupIdx) (i : PointIdx) (f k : RunEntry → RunEntry)
    (hk : ∀ x, (k x).point = x.point) :
    (s.modEntry g i k).modEntry g i f = s.modEntry g i fun x => f (k x) := by
  unfold State.modEntry
  rw [State.modGroup_modGroup]
  unfold State.modGroup
  congr 1
  cases hq : (s.group g).queue with
  | nil => simp [Group.modHead, hq]
  | cons m rest =>
    have := replaced_replaced m.runList i f k hk
    unfold replaced at this
    simp only [Group.modHead, hq, Move.modEntry, this]

/-- A change of an entry that keeps its point leaves the permission test (R43). -/
theorem State.denial_modEntry (s : State) (g : GroupIdx) (i : PointIdx) (f : RunEntry → RunEntry)
    (hf : ∀ x, (f x).point = x.point) (j : PointIdx) (d : Dir) : (s.modEntry g i f).denial j d = s.denial j d := by
  have h : ∀ k, ((s.modEntry g i f).group k).inRunList j = (s.group k).inRunList j ∧
      ((s.modEntry g i f).group k).headIs MoveState.driving = (s.group k).headIs MoveState.driving ∧
      ((s.modEntry g i f).group k).permit = (s.group k).permit := by
    intro k
    by_cases hk : g = k
    · subst hk
      unfold State.modEntry
      rw [State.group_modGroup_self]
      cases hq : (s.group g).queue with
      | nil => simp [Group.modHead, hq]
      | cons m rest =>
        refine ⟨?_, by simp [Group.modHead, hq, Group.headIs, Move.modEntry], by simp [Group.modHead, hq]⟩
        simp only [Group.modHead, hq, Group.inRunList, Group.runList, Move.modEntry, List.any_map]
        refine List.any_congr rfl fun x => ?_
        simp only [Function.comp]
        split <;> simp [hf]
    · unfold State.modEntry
      rw [State.group_modGroup_ne _ hk]
      simp
  have h5 : (s.modEntry g i f).failing j d = s.failing j d := by
    simp only [State.failing, State.permitLive, State.point_modEntry, (h _).2.2]
    rfl
  have h6 : (s.modEntry g i f).groupOf j = (s.modEntry g i f).group (s.point j).group := by simp [State.groupOf]
  simp only [State.denial, h5, h6, h]
  rfl

/-- Where nothing is pending there is nothing to drop (R49, R50). -/
theorem State.dropPending_of_none {s : State} {i : PointIdx} (h : (s.point i).channel.pending = none) :
    s.dropPending i = s := by
  unfold State.dropPending State.modPoint
  have k : (fun p : Point => { p with channel := { p.channel with pending := none } }) (s.point i) = s.point i := by
    generalize s.point i = p at h
    rcases p with ⟨a, b, c, d, e, f, ⟨x1, x2, x3, x4, x5, x6, x7⟩, h1, h2, h3, h4⟩
    simp only at h
    subst h
    rfl
  rw [k]
  exact s.setPoint_point i

/-- A hard release of a quiet channel changes nothing (R50). -/
theorem State.release_of_quiet {s : State} {i : PointIdx} (h : (s.point i).channel.quiet = true) : s.release i = s := by
  simp only [Channel.quiet, Bool.and_eq_true, Bool.not_eq_true', Option.isNone_iff_eq_none] at h
  simp [State.release, State.coastRaises, State.hardRelease, h.1, State.dropPending_of_none h.2]

/-- Hard releases of quiet channels change nothing (R50, R114). -/
theorem State.releaseAll_of_quiet {s : State} {l : List PointIdx} (h : ∀ i ∈ l, (s.point i).channel.quiet = true) :
    s.releaseAll l = s :=
  foldl_of_fixed _ _ _ fun a ha => State.release_of_quiet (h a ha)

/-! ## A state that differs at one member -/

/-- The state t differs from s at point i and at its entries in the run list of group g's head move alone. -/
structure Elsewhere (s t : State) (g : GroupIdx) (m : Move) (rest : List Move) (i : PointIdx)
    (f : RunEntry → RunEntry) : Prop where
  group : t.group g = { s.group g with queue := { m with runList := replaced m.runList i f } :: rest }
  point : ∀ j, j ≠ i → t.point j = s.point j
  rehearsing : ∀ j, t.rehearsing j = s.rehearsing j

namespace Elsewhere
variable {s t : State} {g : GroupIdx} {m : Move} {rest : List Move} {i : PointIdx} {f : RunEntry → RunEntry}

theorem refl (i : PointIdx) (hq : (s.group g).queue = m :: rest) : Elsewhere s s g m rest i id := by
  refine ⟨?_, fun _ _ => rfl, fun _ => rfl⟩
  have : replaced m.runList i id = m.runList := by unfold replaced; simp
  rw [this, ← hq]

theorem of_modEntry (i : PointIdx) (f : RunEntry → RunEntry) (hq : (s.group g).queue = m :: rest) :
    Elsewhere s (s.modEntry g i f) g m rest i f :=
  ⟨State.group_modEntry_of_queue i f hq, fun j _ => by simp, s.rehearsing_modEntry g i f⟩

theorem modPoint (h : Elsewhere s t g m rest i f) (k : Point → Point)
    (hk : (k (t.point i)).group = (t.point i).group) : Elsewhere s (t.modPoint i k) g m rest i f :=
  ⟨by simpa using h.group, fun j hj => by rw [State.point_modPoint_ne _ hj.symm]; exact h.point j hj,
    fun j => by rw [State.rehearsing_modPoint i j k hk]; exact h.rehearsing j⟩

theorem modEntry (h : Elsewhere s t g m rest i f) (hf : ∀ x, (f x).point = x.point) (k : RunEntry → RunEntry) :
    Elsewhere s (t.modEntry g i k) g m rest i fun x => k (f x) := by
  refine ⟨?_, fun j hj => by simpa using h.point j hj, fun j => by rw [State.rehearsing_modEntry, h.rehearsing]⟩
  have := State.group_modEntry_of_queue (s := t) (g := g) (m := { m with runList := replaced m.runList i f })
    (rest := rest) i k (by rw [h.group])
  rw [this, h.group]
  simp [replaced_replaced _ _ _ _ hf]

theorem entry (h : Elsewhere s t g m rest i f) (hs : m.runList.Pairwise (fun x y => x.point < y.point))
    (hf : ∀ x, (f x).point = x.point) {x : RunEntry} (hx : x ∈ m.runList) :
    (t.group g).entry x.point = some (if x.point = i then f x else x) := by
  unfold Group.entry
  rw [h.group]
  simp only [Group.runList]
  have := find_of_sorted (replaced_sorted hs i f hf) (x := if x.point = i then f x else x)
    (List.mem_map.mpr ⟨x, hx, rfl⟩)
  have e : (if x.point = i then f x else x).point = x.point := by split <;> simp [hf]
  rwa [e] at this

theorem runPoints (h : Elsewhere s t g m rest i f) (hf : ∀ x, (f x).point = x.point) :
    t.runPoints g = m.runList.map (·.point) := by
  simp only [State.runPoints, Group.runList, h.group, replaced, List.map_map]
  refine List.map_congr_left fun x _ => ?_
  simp only [Function.comp]
  split <;> simp [hf]

theorem direction (h : Elsewhere s t g m rest i f) (hq : (s.group g).queue = m :: rest) :
    (t.group g).direction = (s.group g).direction := by
  rw [h.group]
  simp [Group.direction, Group.head, hq, Move.direction]

/-- Stage 3 does nothing at another member that is released or is farther from its target than its coast (R112,
R113). -/
theorem coastMember (h : Elsewhere s t g m rest i f) (hq : (s.group g).queue = m :: rest)
    (hs : m.runList.Pairwise (fun x y => x.point < y.point)) (hf : ∀ x, (f x).point = x.point) {x : RunEntry}
    (hx : x ∈ m.runList) (hxi : x.point ≠ i)
    (far : x.released = true ∨ ∀ v, m.body.kind.jog = false → x.target = some v →
      ((s.point x.point).coast : Int) < (s.group g).direction.sign * (v - s.positionOf x.point)) :
    t.coastMember g x.point = t := by
  unfold State.coastMember
  have he := h.entry hs hf hx
  simp only [hxi, if_false] at he
  have hh : (t.group g).head = some { m with runList := replaced m.runList i f } := by rw [h.group]; rfl
  simp only [hh, he]
  cases ht : x.target with
  | none => rfl
  | some v =>
    by_cases hj : m.body.kind.jog = true
    · simp [hj]
    · rcases far with hr | far
      · simp [hr]
      · have := far v (by simpa using hj) ht
        have hn : t.atCoastLead (t.group g).direction x.point v = false := by
          unfold State.atCoastLead remaining
          rw [h.direction hq, State.positionOf_congr (h.rehearsing _) (h.point _ hxi), h.point _ hxi,
            decide_eq_false_iff_not]
          omega
        simp [hn]

end Elsewhere

/-- The points of a sorted run list are distinct. -/
theorem nodup_points {l : List RunEntry} (hs : l.Pairwise (fun x y => x.point < y.point)) : (l.map (·.point)).Nodup :=
  List.pairwise_map.mpr (hs.imp fun h => ne_of_lt h)

/-- Of two or more members one is another. -/
theorem exists_other {l : List RunEntry} (hs : l.Pairwise (fun x y => x.point < y.point)) (h2 : 2 ≤ l.length)
    (i : PointIdx) : ∃ x ∈ l, x.point ≠ i := by
  rcases hl : l with _ | ⟨a, _ | ⟨b, k⟩⟩
  · simp [hl] at h2
  · simp [hl] at h2
  · rw [hl] at hs
    have hab := (List.pairwise_cons.mp hs).1 b (by simp)
    by_cases ha : a.point = i
    · exact ⟨b, by simp, fun hb => by rw [ha, hb] at hab; exact lt_irrefl _ hab⟩
    · exact ⟨a, by simp, ha⟩

/-- Stage 3 at one member, when nothing is asked of the others (R108, R112, R113). -/
theorem State.stageCoast_one {s t : State} {g : GroupIdx} {m : Move} {rest : List Move} {i : PointIdx} {e : RunEntry}
    {f : RunEntry → RunEntry} (hq : (s.group g).queue = m :: rest)
    (hs : m.runList.Pairwise (fun x y => x.point < y.point)) (he : e ∈ m.runList) (hp : e.point = i)
    (far : ∀ x ∈ m.runList, x.point ≠ i → x.released = true ∨ ∀ v, m.body.kind.jog = false → x.target = some v →
      ((s.point x.point).coast : Int) < (s.group g).direction.sign * (v - s.positionOf x.point))
    (hf : ∀ x, (f x).point = x.point) (h : Elsewhere s t g m rest i f) (c : s.coastMember g i = t) :
    s.stageCoast g = t := by
  unfold State.stageCoast
  rw [(Elsewhere.refl i hq).runPoints fun _ => rfl]
  refine foldl_of_one _ _ _ _ i (nodup_points hs) (hp ▸ List.mem_map_of_mem he) ?_ c ?_
  · intro a ha hai
    obtain ⟨x, hx, rfl⟩ := List.mem_map.mp ha
    exact (Elsewhere.refl i hq).coastMember hq hs (fun _ => rfl) hx hai (far x hx hai)
  · intro a ha hai
    obtain ⟨x, hx, rfl⟩ := List.mem_map.mp ha
    exact h.coastMember hq hs hf hx hai (far x hx hai)

/-- Stage 4 waits for a member that is not released (R114). -/
theorem State.stageAllReleased_of_other {t s : State} {g : GroupIdx} {m : Move} {rest : List Move} {i : PointIdx}
    {f : RunEntry → RunEntry} (h : Elsewhere s t g m rest i f) {x : RunEntry} (hx : x ∈ m.runList) (hxi : x.point ≠ i)
    (hr : x.released = false) : t.stageAllReleased g = t := by
  have : ({ m with runList := replaced m.runList i f } : Move).allReleased = false :=
    List.all_eq_false.mpr ⟨x, List.mem_map.mpr ⟨x, hx, by simp [hxi]⟩, by simp [hr]⟩
  simp [State.stageAllReleased, h.group, Group.head, this]

/-- Stage 1 does nothing within the trip band (R110). -/
theorem State.stageSkew_within {s : State} {g : GroupIdx} {m : Move} {rest : List Move}
    (hq : (s.group g).queue = m :: rest)
    (h : ∀ x ∈ m.runList, ∀ y ∈ m.runList, x.progress - y.progress ≤ ((s.group g).tripBand : Int)) :
    s.stageSkew g = s := by
  have hl : (s.group g).runList = m.runList := by simp [Group.runList, hq]
  have : ¬ ((s.group g).tripBand : Int) < spread (s.group g).runList := by
    rw [hl]
    unfold spread
    cases hr : m.runList with
    | nil => simp [maxProgress, minProgress]
    | cons a l =>
      obtain ⟨_, _, h1⟩ := foldl_min_progress l a.progress
      have hmin : ∃ y ∈ m.runList, minProgress (a :: l) = y.progress := by
        rcases h1 with k | ⟨y, hy, k⟩
        · exact ⟨a, by simp [hr], k⟩
        · exact ⟨y, by simp [hr, hy], k⟩
      obtain ⟨y, hy, k⟩ := hmin
      have := maxProgress_le (l := a :: l) (e := a) (k := y.progress + ((s.group g).tripBand : Int)) (by simp)
        fun x hx => by have := h x (by rw [hr]; exact hx) y hy; omega
      omega
  simp [State.stageSkew, this]

/-- Stage 2 does nothing in a move that is no jog (R111). -/
theorem State.stageJog_of_not_jog {s : State} {g : GroupIdx} {m : Move} {rest : List Move}
    (hq : (s.group g).queue = m :: rest) (h : m.body.kind.jog = false) : s.stageJog g = s := by
  simp [State.stageJog, Group.head, hq, h]

/-- Stage 5 does nothing in a move that is not RUNNING (R115, R117). -/
theorem State.stageGate_of_not_running {s : State} {g : GroupIdx} (h : (s.group g).headIs isRunning = false) :
    s.stageGate g = s := by
  simp [State.stageGate, h]

/-! ## An evaluation in which the other members are level -/

section
variable {s t : State} {g : GroupIdx} {m : Move} {rest : List Move} {i : PointIdx} {e low : RunEntry}
  {f : RunEntry → RunEntry}

theorem State.levelBut.far (h : s.levelBut g m i low) (x : RunEntry) (hx : x ∈ m.runList) (hxi : x.point ≠ i) (v : Int)
    (hj : m.body.kind.jog = false) (ht : x.target = some v) :
    ((s.point x.point).coast : Int) < (s.group g).direction.sign * (v - s.positionOf x.point) := by
  refine ((h.2.2.2.2.2 x hx).2.2.2 hxi).2.2.2 ?_ v ht
  have hk := h.2.1
  revert hk hj
  cases m.body.kind <;> simp [MoveKind.ofGroup, MoveKind.jog]

/-- Stages 1 and 2 do nothing. -/
theorem State.levelBut.stages (hq : (s.group g).queue = m :: rest) (h : s.levelBut g m i low) :
    (s.stageSkew g).stageJog g = s := by
  obtain ⟨hm, hk, h2, hs, hlow, hall⟩ := h
  have hl : (s.group g).runList = m.runList := by simp [Group.runList, hq]
  rw [State.stageSkew_within hq fun x hx y hy => by have := (hall x hx).2.1; have := (hall y hy).1; omega]
  unfold State.stageJog
  by_cases hj : m.body.kind = .groupJog
  · have : (s.group g).runList.any (s.atJogBound (s.group g).direction) = false := by
      rw [hl, List.any_eq_false]
      intro x hx
      have := (hall x hx).2.2.1 hj
      unfold State.atJogBound State.jogDistance
      cases hd : (s.group g).direction <;> rw [hd] at this <;> simp <;> intro h <;> have := this h <;> simp at this <;>
        omega
    simp [this]
  · have : m.body.kind.jog = false := by
      revert hk hj
      cases m.body.kind <;> simp [MoveKind.ofGroup, MoveKind.jog]
    simp [Group.head, hq, this]

/-- Gating does nothing at another member. -/
theorem State.levelBut.gateMember (hL : s.levelBut g m i low) (h : Elsewhere s t g m rest i f)
    (hf : ∀ x, (f x).point = x.point) {x : RunEntry} (hx : x ∈ m.runList) (hxi : x.point ≠ i) :
    t.gateMember g low.progress x.point = t := by
  obtain ⟨hm, hk, h2, hs, hlow, hall⟩ := hL
  unfold State.gateMember
  have he := h.entry hs hf hx
  simp only [hxi, if_false] at he
  have := ((hall x hx).2.2.2 hxi).2.2.1
  have hb : (t.group g).gateBand = (s.group g).gateBand := by rw [h.group]
  simp only [he, hb]
  rw [if_neg]
  simp
  intros
  omega

/-- Rejoin does nothing at another member. -/
theorem State.levelBut.rejoinMember (hL : s.levelBut g m i low) (h : Elsewhere s t g m rest i f)
    (hf : ∀ x, (f x).point = x.point) {x : RunEntry} (hx : x ∈ m.runList) (hxi : x.point ≠ i) :
    t.rejoinMember g low.progress x.point = t := by
  obtain ⟨hm, hk, h2, hs, hlow, hall⟩ := hL
  unfold State.rejoinMember
  have he := h.entry hs hf hx
  simp only [hxi, if_false] at he
  have := ((hall x hx).2.2.2 hxi).1
  simp [he, this]

theorem minProgress_replaced {l : List RunEntry} (hf : ∀ x, (f x).progress = x.progress) (hl : low ∈ l)
    (h : ∀ x ∈ l, low.progress ≤ x.progress) : minProgress (replaced l i f) = low.progress := by
  have : minProgress (replaced l i f) = (if low.point = i then f low else low).progress := by
    refine minProgress_eq (List.mem_map.mpr ⟨low, hl, rfl⟩) fun x hx => ?_
    obtain ⟨y, hy, rfl⟩ := List.mem_map.mp hx
    have := h y hy
    split <;> split <;> simp [hf, this]
  rw [this]
  split <;> simp [hf]

/-- The evaluation from stage 3, gating and rejoin at member i (R108, R112 to R117). -/
theorem State.levelBut.evaluate {t1 t2 t3 : State} {f1 f2 : RunEntry → RunEntry}
    (hq : (s.group g).queue = m :: rest) (hL : s.levelBut g m i low) (he : e ∈ m.runList) (hp : e.point = i)
    (hf1 : ∀ x, (f1 x).point = x.point ∧ (f1 x).progress = x.progress)
    (hf2 : ∀ x, (f2 x).point = x.point ∧ (f2 x).progress = x.progress)
    (h1 : Elsewhere s t1 g m rest i f1) (h2 : Elsewhere s t2 g m rest i f2) (c : s.coastMember g i = t1)
    (gm : t1.gateMember g low.progress i = t2) (rm : t2.rejoinMember g low.progress i = t3)
    (h3 : ∀ x ∈ m.runList, x.point ≠ i → t3.rejoinMember g low.progress x.point = t3) : s.evaluate g = t3 := by
  obtain ⟨hm, hk, h2', hs, hlow, hall⟩ := id hL
  have hi : i ∈ m.runList.map (·.point) := hp ▸ List.mem_map_of_mem he
  unfold State.evaluate
  rw [hL.stages hq,
    State.stageCoast_one hq hs he hp (fun x hx hxi => .inr (hL.far x hx hxi)) (fun x => (hf1 x).1) h1 c]
  obtain ⟨y, hy, hyi⟩ := exists_other hs h2' i
  rw [State.stageAllReleased_of_other h1 hy hyi ((hall y hy).2.2.2 hyi).2.1]
  unfold State.stageGate
  have hrun : (t1.group g).headIs isRunning = true := by simp [h1.group, Group.headIs, hm, isRunning]
  have hsy : (t1.group g).synchronised = true := by
    simp [h1.group, Group.synchronised, Group.head, Move.synchronised, hk, replaced, h2']
  have hmin : minProgress (t1.group g).runList = low.progress := by
    rw [h1.group]
    exact minProgress_replaced (fun x => (hf1 x).2) hlow fun x hx => (hall x hx).1
  simp only [hrun, hsy, Bool.and_self, if_true, hmin]
  have hg : (t1.runPoints g).foldl (fun t i => t.gateMember g low.progress i) t1 = t2 := by
    rw [h1.runPoints fun x => (hf1 x).1]
    refine foldl_of_one _ _ _ _ i (nodup_points hs) hi ?_ gm ?_
    · intro a ha hai
      obtain ⟨x, hx, rfl⟩ := List.mem_map.mp ha
      exact hL.gateMember h1 (fun x => (hf1 x).1) hx hai
    · intro a ha hai
      obtain ⟨x, hx, rfl⟩ := List.mem_map.mp ha
      exact hL.gateMember h2 (fun x => (hf2 x).1) hx hai
  rw [hg, h2.runPoints fun x => (hf2 x).1]
  refine foldl_of_one _ _ _ _ i (nodup_points hs) hi ?_ rm ?_
  · intro a ha hai
    obtain ⟨x, hx, rfl⟩ := List.mem_map.mp ha
    exact hL.rejoinMember h2 (fun x => (hf2 x).1) hx hai
  · intro a ha hai
    obtain ⟨x, hx, rfl⟩ := List.mem_map.mp ha
    exact h3 x hx hai

end

end Sys2Proof.Machine
end

