-- ==== Sys2Proof/Laws/Images.lean ====
section
/-! SUPPORT. The packed words of chapter 12 as their fields appended from bit 31 down: the status word, the table images
and the report records. -/

namespace Sys2Proof.Machine

/-! ## Fields -/

/-- A field is its number, cut to its width, at its place. -/
theorem field_toNat (width lo n : Nat) (h : lo + width ≤ 32) :
    (field width lo n).toNat = (BitVec.ofNat width n).toNat <<< lo := by
  unfold field
  rw [BitVec.toNat_ofNat, BitVec.toNat_ofNat, Nat.mod_eq_of_lt]
  have h1 : n % 2 ^ width < 2 ^ width := Nat.mod_lt _ (by positivity)
  rw [Nat.shiftLeft_eq]
  calc n % 2 ^ width * 2 ^ lo < 2 ^ width * 2 ^ lo := Nat.mul_lt_mul_of_pos_right h1 (by positivity)
    _ = 2 ^ (lo + width) := by rw [← Nat.pow_add, Nat.add_comm]
    _ ≤ 2 ^ 32 := Nat.pow_le_pow_right (by decide) h

/-- A one-bit field is its bit at its place. -/
theorem flag_toNat (lo : Nat) (b : Bool) (h : lo + 1 ≤ 32) : (flag lo b).toNat = (BitVec.ofBool b).toNat <<< lo := by
  unfold flag
  rw [field_toNat 1 lo _ h]
  cases b <;> rfl

theorem Word.zero_toNat : (0 : Word).toNat = 0 := rfl

/-- A 16-bit number in the low half of a word. -/
theorem half_toNat (x : BitVec 16) : (x.setWidth 32).toNat = x.toNat := by
  rw [BitVec.toNat_setWidth, Nat.mod_eq_of_lt (by omega)]

/-- A field bit by bit. -/
theorem field_getLsbD (width lo n k : Nat) (h : lo + width ≤ 32) :
    (field width lo n).getLsbD k = (decide (lo ≤ k ∧ k < lo + width) && n.testBit (k - lo)) := by
  unfold field
  rw [BitVec.getLsbD_ofNat, Nat.testBit_shiftLeft, Nat.testBit_mod_two_pow]
  by_cases a : lo ≤ k <;> by_cases b : k < lo + width
  · have : k < 32 := by omega
    have c : k - lo < width := by omega
    simp [a, b, c, this]
  · have c : ¬ k - lo < width := by omega
    simp [a, b, c]
  · simp [a]
  · simp [a]

/-- A flag bit by bit. -/
theorem flag_getLsbD (lo k : Nat) (b : Bool) (h : lo < 32) : (flag lo b).getLsbD k = (decide (k = lo) && b) := by
  unfold flag
  rw [field_getLsbD 1 lo _ k h]
  by_cases e : k = lo
  · subst e; cases b <;> simp
  · rw [decide_eq_false (by omega : ¬ (lo ≤ k ∧ k < lo + 1)), decide_eq_false e, Bool.false_and, Bool.false_and]

/-- A packed word has the bits of its parts. -/
theorem pack_getLsbD (l : List Word) (k : Nat) : (pack l).getLsbD k = l.any fun w => w.getLsbD k := by
  have h : ∀ (l : List Word) (a : Word), (l.foldl (· ||| ·) a).getLsbD k = (a.getLsbD k || l.any fun w => w.getLsbD k) := by
    intro l
    induction l with
    | nil => intro a; simp
    | cons b l ih => intro a; rw [List.foldl_cons, ih]; simp [Bool.or_assoc]
  rw [pack, h]
  simp

/-! ## The status word and the POINT image -/

/-- Word 0 of a POINT image (12.4). -/
theorem Point.word0_eq (q : Point) : q.word0 =
    BitVec.ofNat 3 q.group ++ BitVec.ofNat 2 (encoderModeCode q.settings.encoderMode) ++
      BitVec.ofBool q.capture.referenced ++ BitVec.ofNat 2 (dirCode q.capture.lastCount) ++
      BitVec.ofNat 2 q.capture.wrongWay ++ BitVec.ofNat 2 q.capture.creep ++
      BitVec.ofNat 2 (channelCode q.channel.state) ++ BitVec.ofNat 2 (dirCode q.channel.lastDir) ++
      BitVec.ofNat 2 (dirCode q.channel.pending) ++ BitVec.ofBool q.channel.deferredDue.isSome ++
      BitVec.ofBool q.capture.stallDue.isSome ++ BitVec.ofNat 2 (loadStateCode q.load.state) ++
      BitVec.ofBool q.load.ring.isSome ++ BitVec.ofNat 3 q.load.ringIndex ++ BitVec.ofBool q.load.sensor ++
      BitVec.ofBool q.load.overExcursion ++ BitVec.ofBool q.load.underExcursion ++
      BitVec.ofBool q.switches.upperClosed ++ BitVec.ofBool q.switches.lowerClosed ++ BitVec.ofBool q.further := by
  apply BitVec.eq_of_toNat_eq
  refine Eq.trans ?_ (BitVec.toNat_append _ _).symm
  simp only [BitVec.toNat_append]
  simp (discharger := decide) only [Point.word0, pack, List.foldl_cons, List.foldl_nil, BitVec.toNat_or,
    BitVec.toNat_append, field_toNat, flag_toNat, Nat.shiftLeft_or_distrib, ← Nat.shiftLeft_add, Nat.reduceAdd,
    Word.zero_toNat, Nat.zero_or, Nat.or_assoc, Nat.shiftLeft_zero]

/-- Word 1 of a POINT image (12.4). -/
theorem Point.word1_eq (q : Point) : q.word1 =
    BitVec.ofNat 4 ((q.latched.map faultCodeNumber).getD 0) ++ BitVec.ofBool q.load.filtered.isSome ++
      BitVec.ofBool q.load.ageDue.isSome ++ BitVec.ofBool (q.staged.bind (·.softUpper)).isSome ++
      BitVec.ofBool (q.staged.bind (·.softLower)).isSome ++ BitVec.ofBool (q.staged.bind (·.tGuard)).isSome ++
      BitVec.ofBool (q.staged.bind (·.tReverse)).isSome ++ BitVec.ofBool (q.staged.bind (·.tMinrun)).isSome ++
      BitVec.ofBool (q.staged.bind (·.tSettle)).isSome ++ BitVec.ofBool (q.staged.bind (·.tStall)).isSome ++
      BitVec.ofBool q.capture.phaseA ++ BitVec.ofBool q.capture.phaseB ++ 0#2 ++
      BitVec.ofNat 15 (q.load.filtered.getD 0) := by
  apply BitVec.eq_of_toNat_eq
  refine Eq.trans ?_ (BitVec.toNat_append _ _).symm
  simp only [BitVec.toNat_append]
  unfold Point.word1
  cases q.latched <;> cases q.staged <;>
    simp (discharger := decide) [pack, stagedMask, field_toNat, flag_toNat, BitVec.toNat_append,
      Nat.shiftLeft_or_distrib, ← Nat.shiftLeft_add, Nat.or_assoc, -BitVec.toNat_ofNat, -BitVec.toNat_ofBool,
      Option.bind, Word.zero_toNat]

/-! ## The other images -/

/-- Word 0 of a GROUP image (12.4). -/
theorem Group.word0_eq (r : Group) : r.word0 =
    BitVec.ofNat 3 (groupStateCode r.state) ++ BitVec.ofNat 2 (portCode r.holder) ++
      BitVec.ofNat 2 (deskCode r.preferred) ++ BitVec.ofBool r.localPriority ++ BitVec.ofBool r.rehearsal ++
      BitVec.ofNat 3 r.queue.length ++ BitVec.ofNat 2 (stopReasonCode r.stopReason) ++
      BitVec.ofNat 3 ((r.trip.map fun x => tripCauseCode x.cause).getD 0) ++
      BitVec.ofBool (r.trip.bind (·.point)).isSome ++ BitVec.ofNat 5 ((r.trip.bind (·.point)).getD 0) ++
      BitVec.ofBool r.permit.isSome ++ BitVec.ofBool (!r.schedule.isEmpty) ++ 0#7 := by
  apply BitVec.eq_of_toNat_eq
  refine Eq.trans ?_ (BitVec.toNat_append _ _).symm
  simp only [BitVec.toNat_append]
  rcases h : r.trip with _ | ⟨c, _ | j⟩ <;>
    simp (discharger := decide) [Group.word0, h,  pack, field_toNat, flag_toNat, Nat.shiftLeft_or_distrib, ← Nat.shiftLeft_add,
    Nat.or_assoc, -BitVec.toNat_ofNat, -BitVec.toNat_ofBool, Word.zero_toNat, half_toNat,
    -BitVec.toNat_setWidth, -BitVec.toNat_ofInt]

/-- The first word of a move in a QUEUE image (12.4). -/
theorem Move.words_eq (m : Move) : m.words =
    [BitVec.ofNat 2 (moveKindCode m.body.kind) ++ BitVec.ofNat 3 (moveStateCode m.state) ++
        BitVec.ofNat 2 (portCode (some m.submitter)) ++ BitVec.ofNat 2 (dirCode m.direction) ++
        BitVec.ofNat 2 (endMarkCode m.endMark) ++ BitVec.ofNat 5 (m.body.point.getD 0) ++ m.tag,
      match m.body with
      | .groupBy v | .pointTo _ v => BitVec.ofInt 32 v
      | .groupJog _ | .pointJog _ _ => 0] := by
  unfold Move.words
  refine congrArg₂ List.cons ?_ ?_
  · apply BitVec.eq_of_toNat_eq
    refine Eq.trans ?_ (BitVec.toNat_append _ _).symm
    simp only [BitVec.toNat_append]
    cases h : m.body.point <;>
      simp (discharger := decide) [h,  pack, field_toNat, flag_toNat, Nat.shiftLeft_or_distrib, ← Nat.shiftLeft_add,
    Nat.or_assoc, -BitVec.toNat_ofNat, -BitVec.toNat_ofBool, Word.zero_toNat, half_toNat,
    -BitVec.toNat_setWidth, -BitVec.toNat_ofInt]
  · cases m.body <;> rfl

/-- The words of a run-list entry in a QUEUE image (12.4). -/
theorem RunEntry.words_eq (e : RunEntry) : e.words =
    [BitVec.ofNat 5 e.point ++ BitVec.ofBool e.gated ++ BitVec.ofBool e.released ++ BitVec.ofBool e.settled ++
        BitVec.ofBool e.releasePos.isSome ++ BitVec.ofBool e.arrivalError.isSome ++ 0#6 ++
        BitVec.ofInt 16 (e.arrivalError.getD 0),
      BitVec.ofInt 32 e.start, BitVec.ofInt 32 (e.target.getD 0), BitVec.ofInt 32 e.progress,
      BitVec.ofInt 32 (e.releasePos.getD 0)] := by
  unfold RunEntry.words
  refine congrArg₂ List.cons ?_ rfl
  apply BitVec.eq_of_toNat_eq
  refine Eq.trans ?_ (BitVec.toNat_append _ _).symm
  simp only [BitVec.toNat_append]
  cases h : e.arrivalError <;>
    simp (discharger := decide) [h, signedHalf,  pack, field_toNat, flag_toNat, Nat.shiftLeft_or_distrib, ← Nat.shiftLeft_add,
    Nat.or_assoc, -BitVec.toNat_ofNat, -BitVec.toNat_ofBool, Word.zero_toNat, half_toNat,
    -BitVec.toNat_setWidth, -BitVec.toNat_ofInt]

/-- A word of the RIGHTS image (12.4). -/
theorem rightsWord_eq (v : Vector Level 8) : rightsWord v =
    0#16 ++ BitVec.ofNat 2 (levelNumber v[7]) ++ BitVec.ofNat 2 (levelNumber v[6]) ++
      BitVec.ofNat 2 (levelNumber v[5]) ++ BitVec.ofNat 2 (levelNumber v[4]) ++
      BitVec.ofNat 2 (levelNumber v[3]) ++ BitVec.ofNat 2 (levelNumber v[2]) ++
      BitVec.ofNat 2 (levelNumber v[1]) ++ BitVec.ofNat 2 (levelNumber v[0]) := by
  have h : rightsWord v =
      pack [field 2 0 (levelNumber v[0]), field 2 2 (levelNumber v[1]), field 2 4 (levelNumber v[2]),
        field 2 6 (levelNumber v[3]), field 2 8 (levelNumber v[4]), field 2 10 (levelNumber v[5]),
        field 2 12 (levelNumber v[6]), field 2 14 (levelNumber v[7])] := rfl
  rw [h]
  apply BitVec.eq_of_toNat_eq
  refine Eq.trans ?_ (BitVec.toNat_append _ _).symm
  simp only [BitVec.toNat_append]
  simp (discharger := decide) only [pack, List.foldl_cons, List.foldl_nil, BitVec.toNat_or, field_toNat,
    Nat.shiftLeft_or_distrib, ← Nat.shiftLeft_add, Nat.reduceAdd, Word.zero_toNat, Nat.zero_or, Nat.or_assoc,
    Nat.shiftLeft_zero, BitVec.toNat_zero, Nat.zero_shiftLeft]
  ac_rfl

/-- The words of a port in the PORTS image (12.4). -/
theorem PortState.words_eq (ps : PortState) : ps.words =
    [ps.seed ++ BitVec.ofBool ps.crcOn ++ BitVec.ofBool ps.silent ++ BitVec.ofBool ps.lost ++
        BitVec.ofNat 5 (resultCode ps.lastResult) ++ 0#2 ++ BitVec.ofNat 6 ps.queue.length, 0#20 ++ ps.attention] := by
  unfold PortState.words
  refine congrArg₂ List.cons ?_ (congrArg₂ List.cons ?_ rfl)
  · apply BitVec.eq_of_toNat_eq
    refine Eq.trans ?_ (BitVec.toNat_append _ _).symm
    simp only [BitVec.toNat_append]
    simp (discharger := decide) [ pack, field_toNat, flag_toNat, Nat.shiftLeft_or_distrib, ← Nat.shiftLeft_add,
    Nat.or_assoc, -BitVec.toNat_ofNat, -BitVec.toNat_ofBool, Word.zero_toNat, half_toNat,
    -BitVec.toNat_setWidth, -BitVec.toNat_ofInt]
  · apply BitVec.eq_of_toNat_eq
    refine Eq.trans ?_ (BitVec.toNat_append _ _).symm
    rw [BitVec.toNat_setWidth, Nat.mod_eq_of_lt (by omega)]
    simp

/-- Two halves of a word. -/
theorem pack_pair (x y : Nat) : pack [field 16 16 x, field 16 0 y] = BitVec.ofNat 16 x ++ BitVec.ofNat 16 y := by
  apply BitVec.eq_of_toNat_eq
  refine Eq.trans ?_ (BitVec.toNat_append _ _).symm
  simp (discharger := decide) [ pack, field_toNat, flag_toNat, Nat.shiftLeft_or_distrib, ← Nat.shiftLeft_add,
    Nat.or_assoc, -BitVec.toNat_ofNat, -BitVec.toNat_ofBool, Word.zero_toNat, half_toNat,
    -BitVec.toNat_setWidth, -BitVec.toNat_ofInt]

/-! ## Report records -/

/-- The 16 bits of a move report's word 2 above its pair (12.5). -/
def moveHalf (code : Nat) (kind : MoveKind) (p : Option PointIdx) : BitVec 16 :=
  BitVec.ofNat 5 code ++ BitVec.ofNat 2 (moveKindCode kind) ++ BitVec.ofBool p.isSome ++ 0#3 ++ BitVec.ofNat 5 (p.getD 0)

/-- Word 2 of a move report (12.5). -/
theorem moveWord_eq (code : Nat) (kind : MoveKind) (p : Option PointIdx) :
    moveWord code kind p = moveHalf code kind p ++ 0#16 := by
  unfold moveHalf
  apply BitVec.eq_of_toNat_eq
  refine Eq.trans ?_ (BitVec.toNat_append _ _).symm
  simp only [BitVec.toNat_append]
  cases p <;>
    simp (discharger := decide) [moveWord, pointField, pack, field_toNat, flag_toNat, Nat.shiftLeft_or_distrib, ← Nat.shiftLeft_add,
    Nat.or_assoc, -BitVec.toNat_ofNat, -BitVec.toNat_ofBool, Word.zero_toNat, half_toNat,
    -BitVec.toNat_setWidth, -BitVec.toNat_ofInt]

/-- A pair word of an ARRIVED record (12.5). -/
theorem arrivalWord_eq (kind : MoveKind) (x : PointIdx × Int) :
    arrivalWord kind x = moveHalf 0 kind (some x.1) ++ BitVec.ofInt 16 x.2 := by
  unfold moveHalf
  apply BitVec.eq_of_toNat_eq
  refine Eq.trans ?_ (BitVec.toNat_append _ _).symm
  simp only [BitVec.toNat_append]
  simp (discharger := decide) [arrivalWord, moveWord, pointField, signedHalf, outcomeCode, pack, field_toNat, flag_toNat, Nat.shiftLeft_or_distrib, ← Nat.shiftLeft_add,
    Nat.or_assoc, -BitVec.toNat_ofNat, -BitVec.toNat_ofBool, Word.zero_toNat, half_toNat,
    -BitVec.toNat_setWidth, -BitVec.toNat_ofInt]

/-- The short body of a record (12.5). -/
def shortHalf : ReportBody → BitVec 16
  | .moveStarted _ tag _ _ | .moveEnded _ tag _ _ _ | .moveHeld _ tag _ _ => tag
  | .groupTripped c p _ => BitVec.ofNat 5 (tripCauseCode c) ++ 0#5 ++ BitVec.ofBool p.isSome ++ BitVec.ofNat 5 (p.getD 0)
  | .tripCleared => 0
  | .pointFault c i => BitVec.ofNat 5 (faultCodeNumber c) ++ 0#5 ++ 1#1 ++ BitVec.ofNat 5 i
  | .limit w closed i => BitVec.ofNat 5 (limitCode w closed) ++ 0#5 ++ 1#1 ++ BitVec.ofNat 5 i
  | .loadStatus st _ i => BitVec.ofNat 5 (loadStateCode st) ++ 0#5 ++ 1#1 ++ BitVec.ofNat 5 i
  | .authority c _ _ _ => BitVec.ofNat 5 (authorityCauseCode c) ++ 0#11
  | .estop asserted => BitVec.ofNat 5 (if asserted then 0 else 1) ++ 0#11
  | .portSilent p | .portBack p => BitVec.ofNat 5 (portCode (some p)) ++ 0#11

theorem shortBody_eq (b : ReportBody) : (shortBody b).toNat = (shortHalf b).toNat := by
  cases b with
  | moveStarted _ tag _ _ => exact half_toNat tag
  | moveEnded _ tag _ _ _ => exact half_toNat tag
  | moveHeld _ tag _ _ => exact half_toNat tag
  | tripCleared => rfl
  | groupTripped c p _ =>
    simp only [shortHalf]
    refine Eq.trans ?_ (BitVec.toNat_append _ _).symm
    simp only [BitVec.toNat_append]
    cases p <;>
      simp (discharger := decide) [shortBody, shortPoint, pack, field_toNat, flag_toNat, Nat.shiftLeft_or_distrib, ← Nat.shiftLeft_add,
    Nat.or_assoc, -BitVec.toNat_ofNat, -BitVec.toNat_ofBool, Word.zero_toNat, half_toNat,
    -BitVec.toNat_setWidth, -BitVec.toNat_ofInt]
  | pointFault c i =>
    simp only [shortHalf]
    refine Eq.trans ?_ (BitVec.toNat_append _ _).symm
    try simp only [BitVec.toNat_append]
    simp (discharger := decide) [shortBody, shortPoint, pack, field_toNat, flag_toNat, Nat.shiftLeft_or_distrib, ← Nat.shiftLeft_add,
    Nat.or_assoc, -BitVec.toNat_ofNat, -BitVec.toNat_ofBool, Word.zero_toNat, half_toNat,
    -BitVec.toNat_setWidth, -BitVec.toNat_ofInt]
  | limit w k i =>
    simp only [shortHalf]
    refine Eq.trans ?_ (BitVec.toNat_append _ _).symm
    try simp only [BitVec.toNat_append]
    simp (discharger := decide) [shortBody, shortPoint, pack, field_toNat, flag_toNat, Nat.shiftLeft_or_distrib, ← Nat.shiftLeft_add,
    Nat.or_assoc, -BitVec.toNat_ofNat, -BitVec.toNat_ofBool, Word.zero_toNat, half_toNat,
    -BitVec.toNat_setWidth, -BitVec.toNat_ofInt]
  | loadStatus st _ i =>
    simp only [shortHalf]
    refine Eq.trans ?_ (BitVec.toNat_append _ _).symm
    try simp only [BitVec.toNat_append]
    simp (discharger := decide) [shortBody, shortPoint, pack, field_toNat, flag_toNat, Nat.shiftLeft_or_distrib, ← Nat.shiftLeft_add,
    Nat.or_assoc, -BitVec.toNat_ofNat, -BitVec.toNat_ofBool, Word.zero_toNat, half_toNat,
    -BitVec.toNat_setWidth, -BitVec.toNat_ofInt]
  | authority c _ _ _ =>
    simp only [shortHalf]
    refine Eq.trans ?_ (BitVec.toNat_append _ _).symm
    try simp only [BitVec.toNat_append]
    simp (discharger := decide) [shortBody, shortPoint, pack, field_toNat, flag_toNat, Nat.shiftLeft_or_distrib, ← Nat.shiftLeft_add,
    Nat.or_assoc, -BitVec.toNat_ofNat, -BitVec.toNat_ofBool, Word.zero_toNat, half_toNat,
    -BitVec.toNat_setWidth, -BitVec.toNat_ofInt]
  | estop k =>
    simp only [shortHalf]
    refine Eq.trans ?_ (BitVec.toNat_append _ _).symm
    try simp only [BitVec.toNat_append]
    simp (discharger := decide) [shortBody, shortPoint, pack, field_toNat, flag_toNat, Nat.shiftLeft_or_distrib, ← Nat.shiftLeft_add,
    Nat.or_assoc, -BitVec.toNat_ofNat, -BitVec.toNat_ofBool, Word.zero_toNat, half_toNat,
    -BitVec.toNat_setWidth, -BitVec.toNat_ofInt]
  | portSilent p =>
    simp only [shortHalf]
    refine Eq.trans ?_ (BitVec.toNat_append _ _).symm
    try simp only [BitVec.toNat_append]
    simp (discharger := decide) [shortBody, shortPoint, pack, field_toNat, flag_toNat, Nat.shiftLeft_or_distrib, ← Nat.shiftLeft_add,
    Nat.or_assoc, -BitVec.toNat_ofNat, -BitVec.toNat_ofBool, Word.zero_toNat, half_toNat,
    -BitVec.toNat_setWidth, -BitVec.toNat_ofInt]
  | portBack p =>
    simp only [shortHalf]
    refine Eq.trans ?_ (BitVec.toNat_append _ _).symm
    try simp only [BitVec.toNat_append]
    simp (discharger := decide) [shortBody, shortPoint, pack, field_toNat, flag_toNat, Nat.shiftLeft_or_distrib, ← Nat.shiftLeft_add,
    Nat.or_assoc, -BitVec.toNat_ofNat, -BitVec.toNat_ofBool, Word.zero_toNat, half_toNat,
    -BitVec.toNat_setWidth, -BitVec.toNat_ofInt]

/-- Word 0 of a record (12.5). -/
theorem Report.word0_eq (r : Report) : r.word0 =
    BitVec.ofNat 4 (kindNumber r.body.kind) ++ BitVec.ofNat 5 r.length ++ BitVec.ofBool r.rehearsal ++
      BitVec.ofBool r.lostBefore ++ BitVec.ofBool r.additional ++ BitVec.ofBool r.group.isSome ++
      BitVec.ofNat 3 (r.group.getD 0) ++ shortHalf r.body := by
  apply BitVec.eq_of_toNat_eq
  refine Eq.trans ?_ (BitVec.toNat_append _ _).symm
  simp only [BitVec.toNat_append]
  simp (discharger := decide) [Report.word0, shortBody_eq, pack, field_toNat, flag_toNat, Nat.shiftLeft_or_distrib, ← Nat.shiftLeft_add,
    Nat.or_assoc, -BitVec.toNat_ofNat, -BitVec.toNat_ofBool, Word.zero_toNat, half_toNat,
    -BitVec.toNat_setWidth, -BitVec.toNat_ofInt]


end Sys2Proof.Machine
end

