-- ==== Sys2Proof/Laws/Restart.lean ====
section
/-! SUPPORT. What a PORT_RESTART comes to (R136, R174): the AUTHORITY reports of the released groups, and the stops that
follow them. -/

namespace Sys2Proof.Machine

/-! ## Stops outside a rehearsal, whether or not they end at once -/

/-- The record of a group after a STOPPING end test depends on no more than its record before (R98). -/
theorem State.endTest_group_congr {s t : State} {g : GroupIdx} (h : s.group g = t.group g) :
    (s.endTest g).group g = (t.endTest g).group g := by
  have k : ∀ (u v : State), u.group g = v.group g → ∀ o n l, (u.endHead g o n l).group g = (v.endHead g o n l).group g := by
    intro u v e o n l
    unfold State.endHead
    rw [e]
    cases (v.group g).head <;> simp [e]
  have hold : ∀ m, (s.holdHead g m).group g = (t.holdHead g m).group g := by
    intro m
    simp [State.holdHead, h]
  unfold State.endTest
  rw [h]
  cases (t.group g).head with
  | none => exact h
  | some m =>
    dsimp only
    split
    · rcases m.endMark with _ | (_ | _)
      · dsimp only
        split
        · exact k s t h _ _ _
        · split
          · exact k s t h _ _ _
          · exact hold m
      · exact k s t h _ _ _
      · exact k s t h _ _ _
    · exact h

/-- A STOPPING end test leaves the other groups. -/
theorem State.endTest_group_ne {s : State} {g k : GroupIdx} (h : k ≠ g) : (s.endTest g).group k = s.group k := by
  unfold State.endTest
  repeat' split
  all_goals first
    | rfl
    | exact State.endHead_group_ne _ _ _ h
    | simp [State.holdHead, State.group_modGroup_ne _ h.symm]

/-- A stop of group g outside a rehearsal: the record it leaves depends on no more than the record before, and the other
groups stay (R96, R98). -/
theorem State.enterStopping_group {s t : State} {g : GroupIdx} (a : Option StopReason) (b : Option EndMark)
    (h : s.group g = t.group g) (hs : ∀ i ∈ s.runPoints g, s.rehearsing i = false)
    (ht : ∀ i ∈ t.runPoints g, t.rehearsing i = false) :
    (s.enterStopping g a b).group g = (t.enterStopping g a b).group g ∧
      ∀ k, k ≠ g → (s.enterStopping g a b).group k = s.group k := by
  have hr : ∀ (u : State), (∀ i ∈ u.runPoints g, u.rehearsing i = false) →
      ∀ k, (u.releaseAll (u.runPoints g)).group k = u.group k := fun u hu k => by
    rw [(State.releaseAll_live hu).same]; rfl
  unfold State.enterStopping
  simp only [hr s hs, hr t ht, h]
  split
  · refine ⟨State.endTest_group_congr (by simp [hr s hs, hr t ht, h]), fun k hk => ?_⟩
    rw [State.endTest_group_ne hk, State.group_modGroup_ne _ hk.symm, hr s hs]
  · exact ⟨h, fun _ _ => rfl⟩

theorem Moved.rehearsing {s t : State} (h : Moved s t) (i : PointIdx) : t.rehearsing i = s.rehearsing i := by
  simp only [State.rehearsing, State.groupOf, (h.points i).group, (h.groups _).rehearsal]

/-- Stops of several groups outside a rehearsal leave in each what its own stop leaves, and the other groups as they
were (R99, R136). -/
theorem State.foldl_enterStopping_group (a : Option StopReason) (l : List GroupIdx) (hn : l.Nodup) : ∀ t : State,
    (∀ g ∈ l, ∀ i ∈ t.runPoints g, t.rehearsing i = false) →
    (∀ g ∈ l, (l.foldl (fun t g => t.enterStopping g a none) t).group g = (t.enterStopping g a none).group g) ∧
      ∀ g, g ∉ l → (l.foldl (fun t g => t.enterStopping g a none) t).group g = t.group g := by
  induction l with
  | nil => intro t _; simp
  | cons g l ih =>
    intro t h
    have hn' := List.nodup_cons.mp hn
    have ne : ∀ k ∈ l, k ≠ g := fun k hk e => hn'.1 (e ▸ hk)
    have e := (State.enterStopping_group a none (rfl : t.group g = t.group g) (h g (by simp)) (h g (by simp))).2
    have hm := t.enterStopping_moved g a none
    have h' : ∀ k ∈ l, ∀ i ∈ (t.enterStopping g a none).runPoints k, (t.enterStopping g a none).rehearsing i = false := by
      intro k hk i hi
      rw [hm.rehearsing]
      simp only [State.runPoints, e k (ne k hk)] at hi
      exact h k (by simp [hk]) i hi
    obtain ⟨i1, i2⟩ := ih hn'.2 _ h'
    simp only [List.foldl_cons]
    refine ⟨fun k hk => ?_, fun k hk => ?_⟩
    · rcases List.mem_cons.mp hk with rfl | hk
      · exact i2 k hn'.1
      · rw [i1 k hk]
        exact (State.enterStopping_group a none (e k (ne k hk)) (h' k hk) (h k (by simp [hk]))).1
    · simp only [List.mem_cons, not_or] at hk
      rw [i2 k hk.2, e k hk.1]

/-! ## The AUTHORITY reports -/

theorem State.group_dropHolder (s : State) (g h : GroupIdx) (c : AuthorityCause) :
    (s.dropHolder g c).group h = if h = g then { s.group g with holder := none } else s.group h := by
  unfold State.dropHolder
  dsimp only
  rw [State.group_produce, State.group_modGroup]
  by_cases e : g = h
  · subst e; simp
  · simp [e, Ne.symm e]

theorem State.points_dropHolder (s : State) (g : GroupIdx) (c : AuthorityCause) :
    (s.dropHolder g c).points = s.points := rfl

/-- The report of a removed holder, and the rest as it was (R137). -/
theorem State.dropHolder_reports (s : State) (g : GroupIdx) (c : AuthorityCause) :
    SameReports (s.produce (some g) (.authority c none (s.group g).holder
      ((s.modGroup g fun r => { r with holder := none }).stateAfterRemoval g))) (s.dropHolder g c) :=
  SameReports.produce ((SameReports.refl s).modGroup g _ rfl) _ _ _

/-- Who rehearses does not depend on the holders. -/
theorem State.rehearsing_dropHolder (s : State) (g : GroupIdx) (c : AuthorityCause) (i : PointIdx) :
    (s.dropHolder g c).rehearsing i = s.rehearsing i := by
  simp only [State.rehearsing, State.groupOf]
  rw [(s.dropHolder_reports g c).rehearsal]
  simp [State.point, State.points_dropHolder]

/-- A port's queue after an AUTHORITY report, when there is room (R178, R179). -/
theorem State.port_produce_authority (s : State) (p : Port) (g : GroupIdx) (c : AuthorityCause) (x y : Option Port)
    (st : GroupState) (l : (s.port p).lost = false) (n : (s.port p).queue.length < 32) :
    ((s.produce (some g) (.authority c x y st)).port p) =
      { s.port p with
        queue := (s.port p).queue ++ if s.level p g != .none then
          [{ time := s.reportTime, group := some g, rehearsal := (s.group g).rehearsal, lostBefore := false
             additional := false, body := .authority c x y st }] else [] } := by
  unfold State.produce
  rw [State.port_distribute, State.offer]
  have e : ∀ r : Report, r.group = some g → r.body = .authority c x y st → s.entitled p r = (s.level p g != .none) := by
    intro r h k
    simp only [State.entitled, k, h, Option.any_some, State.allowed]
    cases s.level p g <;> decide
  rw [e _ rfl rfl]
  cases s.level p g != .none
  · simp
  · simp [PortState.append, reportCapacity, n, l]

end Sys2Proof.Machine
end

