-- ==== Sys2Proof/Laws/Waits.lean ====
section
/-! SUPPORT. The required wait of R42 through each operation: a channel that was not energized and becomes so has had its
wait elapse, and one that leaves UP or DOWN has the present time as its last de-energization time (R51). -/

namespace Sys2Proof.Machine

/-! ## The relation -/

/-- From p to q within an event at `now`: the guard and reverse times stay; where they are above 0, an energized channel
was energized already or has had its wait elapse; a channel at rest has kept its last de-energization, or it is now. A
channel that is energized and also holds a pending energize, which no run reaches (R44), is left out. -/
structure Waits (now : Nat) (p q : Point) : Prop where
  guard : q.settings.tGuard = p.settings.tGuard
  reverse : q.settings.tReverse = p.settings.tReverse
  clear : q.channel.state.energized = true → (p.channel.state.energized = true → p.channel.pending = none) →
    q.channel.pending = none
  driven : 0 < p.settings.tGuard → 0 < p.settings.tReverse → q.channel.state.energized = true →
    q.channel.state = p.channel.state ∨
      (p.channel.state.energized = false ∧ ∃ d : Dir, q.channel.state = d.channelState ∧ p.energizeDue d ≤ now) ∨
      (p.channel.state.energized = true ∧ p.channel.pending ≠ none)
  rests : q.channel.state.energized = false →
    q.channel.lastOff = now ∨
      p.channel.state.energized = false ∧ q.channel.lastOff = p.channel.lastOff ∧ q.channel.lastDir = p.channel.lastDir

/-- A change that keeps the channel's state, its last de-energization and direction, and the times. -/
theorem Waits.of_same {now : Nat} {p q : Point} (h1 : q.channel.state = p.channel.state)
    (h2 : q.channel.lastOff = p.channel.lastOff) (h3 : q.channel.lastDir = p.channel.lastDir)
    (h4 : q.settings.tGuard = p.settings.tGuard) (h5 : q.settings.tReverse = p.settings.tReverse)
    (h6 : p.channel.state.energized = true → q.channel.pending = p.channel.pending := by exact fun _ => rfl) :
    Waits now p q :=
  ⟨h4, h5, fun e k => (h6 (h1 ▸ e)).trans (k (h1 ▸ e)), fun _ _ _ => .inl h1, fun h => .inr ⟨h1 ▸ h, h2, h3⟩⟩

theorem Waits.refl (now : Nat) (p : Point) : Waits now p p := .of_same rfl rfl rfl rfl rfl

/-- A wait is above 0 where both times are. -/
theorem Point.requiredWait_pos {p : Point} (h : 0 < p.settings.tGuard) (k : 0 < p.settings.tReverse) (d : Dir) :
    0 < p.requiredWait d := by
  unfold Point.requiredWait msToUs
  split
  · split <;> omega
  · omega

/-- The due moment reads the last de-energization, the last direction and the two times (R42). -/
theorem Point.energizeDue_congr {p q : Point} (h1 : q.channel.lastOff = p.channel.lastOff)
    (h2 : q.channel.lastDir = p.channel.lastDir) (h3 : q.settings.tGuard = p.settings.tGuard)
    (h4 : q.settings.tReverse = p.settings.tReverse) (d : Dir) : q.energizeDue d = p.energizeDue d := by
  simp only [Point.energizeDue, Point.requiredWait, h1, h2, h3, h4]

theorem Waits.trans {now : Nat} {p q r : Point} (h : Waits now p q) (k : Waits now q r) : Waits now p r where
  guard := k.guard.trans h.guard
  reverse := k.reverse.trans h.reverse
  clear e c := k.clear e fun x => h.clear x c
  driven a b e := by
    rcases k.driven (h.guard ▸ a) (h.reverse ▸ b) e with x | ⟨x, d, y, z⟩ | ⟨x, y⟩
    · rcases h.driven a b (x ▸ e) with w | ⟨w, d, y, z⟩ | w
      · exact .inl (x.trans w)
      · exact .inr (.inl ⟨w, d, x.trans y, z⟩)
      · exact .inr (.inr w)
    · rcases h.rests x with w | ⟨w, u, v⟩
      · have := Point.requiredWait_pos (h.guard ▸ a) (h.reverse ▸ b) d
        unfold Point.energizeDue at z
        omega
      · exact .inr (.inl ⟨w, d, y, Point.energizeDue_congr u v h.guard h.reverse d ▸ z⟩)
    · refine .inr (.inr ?_)
      by_contra c
      exact y (h.clear x fun f => by_contra fun n => c ⟨f, n⟩)
  rests e := by
    rcases k.rests e with x | ⟨x, u, v⟩
    · exact .inl x
    · rcases h.rests x with y | ⟨y, u', v'⟩
      · exact .inl (u.trans y)
      · exact .inr ⟨y, u.trans u', v.trans v'⟩

/-- Every point of t follows from s's as `Waits` says. -/
structure Waited (s t : State) : Prop where
  time : t.time = s.time
  point : ∀ i, Waits s.time (s.point i) (t.point i)

theorem Waited.of_points {s t : State} (hp : t.points = s.points) (ht : t.time = s.time) : Waited s t :=
  ⟨ht, fun i => by simp only [State.point, hp]; exact .refl _ _⟩

theorem Waited.refl (s : State) : Waited s s := .of_points rfl rfl

theorem Waited.trans {s t u : State} (h : Waited s t) (k : Waited t u) : Waited s u :=
  ⟨k.time.trans h.time, fun i => (h.point i).trans (h.time ▸ k.point i)⟩

theorem Waited.foldl {α : Type} (f : State → α → State) (h : ∀ s a, Waited s (f s a)) (l : List α) (s : State) :
    Waited s (l.foldl f s) := by
  induction l generalizing s with
  | nil => exact .refl s
  | cons a l ih => exact (h s a).trans (ih _)

theorem State.modPoint_waited (s : State) (i : PointIdx) (f : Point → Point)
    (h : Waits s.time (s.point i) (f (s.point i))) : Waited s (s.modPoint i f) := by
  refine ⟨rfl, fun j => ?_⟩
  rw [State.point_modPoint]
  split
  · rename_i e; subst e; exact h
  · exact .refl _ _

theorem State.modGroup_waited (s : State) (g : GroupIdx) (f : Group → Group) : Waited s (s.modGroup g f) :=
  .of_points rfl rfl

theorem State.modEntry_waited (s : State) (g : GroupIdx) (i : PointIdx) (f : RunEntry → RunEntry) :
    Waited s (s.modEntry g i f) := .of_points rfl rfl

theorem State.produce_waited (s : State) (g : Option GroupIdx) (b : ReportBody) (x : Bool) :
    Waited s (s.produce g b x) := .of_points rfl rfl

/-! ## The operations of Machine/Ops.lean -/

theorem State.latchFault_waited (s : State) (i : PointIdx) (c : FaultCode) : Waited s (s.latchFault i c) := by
  refine (s.modPoint_waited i (fun p => if p.latched.isNone then { p with latched := some c }
    else { p with further := true }) ?_).trans (.of_points rfl rfl)
  split <;> exact .of_same rfl rfl rfl rfl rfl

theorem State.updateProgress_waited (s : State) (i : PointIdx) : Waited s (s.updateProgress i) :=
  .of_points (s.updateProgress_points i) (s.updateProgress_moved i).time

theorem State.simulateCoast_waited (s : State) (i : PointIdx) (b : Bool) : Waited s (s.simulateCoast i b) := by
  unfold State.simulateCoast
  split
  · rename_i sh _
    have h := (s.modPoint_waited i (fun p =>
      { p with shadow := some { sh with position := clampPosition (s.coastTarget i sh), simDue := none } })
      (.of_same rfl rfl rfl rfl rfl)).trans (State.updateProgress_waited _ i)
    dsimp only
    split
    · exact h.trans (State.latchFault_waited _ _ _)
    · exact h
  · exact .refl s

theorem Point.toSettle_waits (p : Point) (now : Nat) : Waits now p (p.toSettle now) :=
  ⟨rfl, rfl, fun _ _ => rfl, fun _ _ h => absurd h (by simp [Point.toSettle, ChannelState.energized, ChannelState.dir]),
    fun _ => .inl rfl⟩

theorem State.dropPending_waited (s : State) (i : PointIdx) : Waited s (s.dropPending i) :=
  s.modPoint_waited i _
    ⟨rfl, rfl, fun _ _ => rfl, fun _ _ _ => .inl rfl, fun h => .inr ⟨h, rfl, rfl⟩⟩

theorem State.hardRelease_waited (s : State) (i : PointIdx) : Waited s (s.hardRelease i) := by
  unfold State.hardRelease
  split
  · exact (s.modPoint_waited i _ (Point.toSettle_waits _ _)).trans (State.simulateCoast_waited _ _ _)
  · exact s.dropPending_waited i

theorem State.endHead_waited (s : State) (g : GroupIdx) (o : Outcome) (n : Option PointIdx)
    (l : List (PointIdx × Int)) : Waited s (s.endHead g o n l) :=
  .of_points (s.endHead_points g o n l) (s.endHead_moved g o n l).time

theorem State.endAll_waited (s : State) (g : GroupIdx) (f : Move → Outcome) : Waited s (s.endAll g f) :=
  .of_points (s.endAll_points g f) (s.endAll_moved g f).time

theorem State.trip_waited (s : State) (g : GroupIdx) (c : TripCause) (p : Option PointIdx) : Waited s (s.trip g c p) := by
  unfold State.trip
  split
  · exact .refl s
  · exact (Waited.foldl _ State.hardRelease_waited (s.runPoints g) s).trans
      ((State.modGroup_waited _ _ _).trans ((State.produce_waited _ _ _ _).trans (State.endAll_waited _ _ _)))

theorem State.tripMember_waited (s : State) (i : PointIdx) : Waited s (s.tripMember i) := by
  unfold State.tripMember; dsimp only
  split
  · exact s.trip_waited _ _ _
  · exact .refl s

theorem State.release_waited (s : State) (i : PointIdx) : Waited s (s.release i) := by
  unfold State.release; dsimp only
  split
  · exact (s.hardRelease_waited i).trans (State.tripMember_waited _ _)
  · exact s.hardRelease_waited i

theorem State.releaseAll_waited (s : State) (l : List PointIdx) : Waited s (s.releaseAll l) :=
  Waited.foldl _ State.release_waited l s

theorem State.raiseFault_waited (s : State) (i : PointIdx) (c : FaultCode) : Waited s (s.raiseFault i c) := by
  unfold State.raiseFault; dsimp only
  split
  · exact (s.latchFault_waited i c).trans ((State.release_waited _ i).trans (State.tripMember_waited _ i))
  · exact (s.latchFault_waited i c).trans (State.tripMember_waited _ i)

theorem State.softRelease_waited (s : State) (i : PointIdx) : Waited s (s.softRelease i) := by
  unfold State.softRelease; dsimp only
  split
  · split
    · exact .refl s
    · split
      · exact s.release_waited i
      · exact s.modPoint_waited i _ (.of_same rfl rfl rfl rfl rfl)
  · exact s.dropPending_waited i

/-- An energization of a channel that is not energized, or holds a pending energize, once its wait has elapsed (R42,
R44). -/
theorem State.energize_waited {s : State} {i : PointIdx} {d : Dir}
    (h : (s.point i).channel.state.energized = true → (s.point i).channel.pending ≠ none)
    (k : (s.point i).energizeDue d ≤ s.time) : Waited s (s.energize i d) := by
  have h1 : Waited s (s.modPoint i fun p => p.energize (s.rehearsing i) d s.time) := by
    refine s.modPoint_waited i _ ?_
    have e : d.channelState.energized = true := by cases d <;> rfl
    have w : ∀ x : ChannelState, x = d.channelState → x = (s.point i).channel.state ∨
        ((s.point i).channel.state.energized = false ∧ ∃ d : Dir, x = d.channelState ∧
          (s.point i).energizeDue d ≤ s.time) ∨
        ((s.point i).channel.state.energized = true ∧ (s.point i).channel.pending ≠ none) := fun x hx => by
      by_cases c : (s.point i).channel.state.energized = true
      · exact .inr (.inr ⟨c, h c⟩)
      · exact .inr (.inl ⟨by simpa using c, d, hx, k⟩)
    unfold Point.energize
    split
    · exact ⟨rfl, rfl, fun _ _ => rfl, fun _ _ _ => w _ rfl, fun x => absurd x (by simp [Channel.energize, e])⟩
    · exact ⟨rfl, rfl, fun _ _ => rfl, fun _ _ _ => w _ rfl, fun x => absurd x (by simp [Channel.energize, e])⟩
  unfold State.energize; dsimp only
  split
  · exact h1.trans (State.raiseFault_waited _ _ _)
  · exact h1

theorem State.energizeRequest_waited (s : State) (i : PointIdx) (d : Dir) : Waited s (s.energizeRequest i d).1 := by
  unfold State.energizeRequest
  split
  · split <;> exact .refl s
  · rename_i h
    have off : (s.point i).channel.state.energized = false := by simp [ChannelState.energized, h]
    split
    · exact .refl s
    · split
      · exact .refl s
      · unfold State.takeOrHold
        split
        · rename_i w
          exact State.energize_waited (by simp [off]) (by simpa [State.waitElapsed] using w)
        · exact s.modPoint_waited i (fun p => { p with channel := { p.channel with pending := some d } })
            (.of_same rfl rfl rfl rfl rfl fun x => absurd x (by simp [off]))

theorem State.endTest_waited (s : State) (g : GroupIdx) : Waited s (s.endTest g) := by
  unfold State.endTest
  split
  · split
    · split
      · exact s.endHead_waited _ _ _ _
      · exact s.endHead_waited _ _ _ _
      · split
        · exact s.endHead_waited _ _ _ _
        · split
          · exact s.endHead_waited _ _ _ _
          · exact (s.modGroup_waited _ _).trans (State.produce_waited _ _ _ _)
    · exact .refl s
  · exact .refl s

theorem State.enterStopping_waited (s : State) (g : GroupIdx) (a : Option StopReason) (b : Option EndMark) :
    Waited s (s.enterStopping g a b) := by
  unfold State.enterStopping
  split
  · dsimp only
    split
    · exact (s.releaseAll_waited _).trans ((State.modGroup_waited _ _ _).trans (State.endTest_waited _ _))
    · exact s.releaseAll_waited _
  · exact .refl s

/-! ## The operations of Machine/Motion.lean -/

theorem State.coastMember_waited (s : State) (g : GroupIdx) (i : PointIdx) : Waited s (s.coastMember g i) := by
  have h := s.modEntry_waited g i
  unfold State.coastMember; dsimp only
  split
  · split
    · split
      · exact .refl s
      · split
        · exact (h _).trans (State.release_waited _ i)
        · split
          · unfold State.markReleased; dsimp only
            split
            · exact (h _).trans (State.softRelease_waited _ i)
            · exact h _
          · exact .refl s
    · exact .refl s
  · exact .refl s

theorem State.gateMember_waited (s : State) (g : GroupIdx) (v : Int) (i : PointIdx) : Waited s (s.gateMember g v i) := by
  unfold State.gateMember; dsimp only
  split
  · split
    · exact (s.modEntry_waited g i _).trans (State.softRelease_waited _ i)
    · exact .refl s
  · exact .refl s

theorem State.rejoinDropped_waited (s : State) (g : GroupIdx) (i : PointIdx) (c : Denial) :
    Waited s (s.rejoinDropped g i c) := by
  unfold State.rejoinDropped
  split
  · split
    · exact s.trip_waited _ _ _
    · exact s.modEntry_waited _ _ _
  · exact .refl s

theorem State.rejoinAnswer_waited (s : State) (g : GroupIdx) (i : PointIdx) (a : Answer) :
    Waited s (s.rejoinAnswer g i a) := by
  unfold State.rejoinAnswer
  split
  · exact s.modEntry_waited _ _ _
  · exact .refl _
  · exact .refl _
  · exact s.rejoinDropped_waited _ _ _

theorem State.rejoinMember_waited (s : State) (g : GroupIdx) (v : Int) (i : PointIdx) :
    Waited s (s.rejoinMember g v i) := by
  unfold State.rejoinMember; dsimp only
  split
  · split
    · exact (s.modEntry_waited g i _).trans ((State.energizeRequest_waited _ i _).trans
        (State.rejoinAnswer_waited _ _ _ _))
    · exact .refl s
  · exact .refl s

/-- R108: an evaluation. -/
theorem State.evaluate_waited (s : State) (g : GroupIdx) : Waited s (s.evaluate g) := by
  have skew : ∀ t : State, Waited t (t.stageSkew g) := fun t => by
    unfold State.stageSkew; dsimp only
    split
    · exact t.trip_waited _ _ _
    · exact .refl t
  have jog : ∀ t : State, Waited t (t.stageJog g) := fun t => by
    unfold State.stageJog; dsimp only
    split
    · exact t.enterStopping_waited _ _ _
    · exact .refl t
  have all : ∀ t : State, Waited t (t.stageAllReleased g) := fun t => by
    unfold State.stageAllReleased; dsimp only
    split
    · exact t.enterStopping_waited _ _ _
    · exact .refl t
  have gate : ∀ t : State, Waited t (t.stageGate g) := fun t => by
    unfold State.stageGate; dsimp only
    split
    · exact (Waited.foldl _ (fun u i => u.gateMember_waited g _ i) _ t).trans
        (Waited.foldl _ (fun u i => u.rejoinMember_waited g _ i) _ _)
    · exact .refl t
  exact (skew s).trans ((jog _).trans ((Waited.foldl (fun t i => t.coastMember g i)
    (fun t i => t.coastMember_waited g i) _ _).trans ((all _).trans (gate _))))

theorem State.countArrival_waited (s : State) (i : PointIdx) : Waited s (s.countArrival i) := by
  unfold State.countArrival; dsimp only
  split
  · split
    · exact (s.updateProgress_waited i).trans (State.evaluate_waited _ _)
    · exact s.updateProgress_waited i
  · exact .refl s

theorem State.learnAtSettle_waited (s : State) (g : GroupIdx) (i : PointIdx) : Waited s (s.learnAtSettle g i) := by
  unfold State.learnAtSettle
  split
  · split
    · unfold State.learnCoast
      split
      · split
        · exact .refl s
        · exact s.modPoint_waited i _ (.of_same rfl rfl rfl rfl rfl)
      · exact .refl s
    · exact .refl s
  · exact .refl s

theorem State.settledEvent_waited (s : State) (i : PointIdx) : Waited s (s.settledEvent i) := by
  have h : ∀ g, Waited s (s.recordSettle g i) := fun g => (s.learnAtSettle_waited g i).trans (State.modEntry_waited _ _ _ _)
  unfold State.settledEvent; dsimp only
  split
  · split
    · exact (h _).trans (State.evaluate_waited _ _)
    · exact (h _).trans (State.endTest_waited _ _)
  · exact .refl s

theorem State.startAnswer_waited (s : State) (g : GroupIdx) (i : PointIdx) (a : Answer) :
    Waited s (s.startAnswer g i a) := by
  unfold State.startAnswer
  split
  · split
    · exact (s.modEntry_waited _ _ _).trans (State.modGroup_waited _ _ _)
    · unfold State.slotLimit
      split
      · exact s.trip_waited _ _ _
      · exact s.enterStopping_waited _ _ _
    · exact s.enterStopping_waited _ _ _
    all_goals exact .refl s
  · exact .refl s

theorem State.startSlot_waited (s : State) (g : GroupIdx) : Waited s (s.startSlot g) := by
  unfold State.startSlot; dsimp only
  split
  · exact (s.modGroup_waited _ _).trans
      ((State.energizeRequest_waited _ _ _).trans (State.startAnswer_waited _ _ _ _))
  · exact .refl s

theorem State.enterStarting_waited (s : State) (g : GroupIdx) : Waited s (s.enterStarting g) := by
  unfold State.enterStarting; dsimp only
  exact (s.modGroup_waited _ _).trans
    (Waited.foldl (fun t _ => t.startSlot g) (fun t _ => t.startSlot_waited g) _ _)

theorem State.firstStart_waited (s : State) (g : GroupIdx) (m : Move) : Waited s (s.firstStart g m).1 := by
  unfold State.firstStart; dsimp only
  split
  · exact (s.modGroup_waited _ _).trans (State.endHead_waited _ _ _ _ _)
  · split
    · exact (s.modGroup_waited _ _).trans (State.endHead_waited _ _ _ _ _)
    · exact (s.modGroup_waited _ _).trans ((State.modGroup_waited _ _ _).trans
        ((State.produce_waited _ _ _ _).trans (State.enterStarting_waited _ _)))

theorem State.resume_waited (s : State) (g : GroupIdx) (m : Move) : Waited s (s.resume g m) :=
  (s.modGroup_waited _ _).trans ((State.produce_waited _ _ _ _).trans (State.enterStarting_waited _ _))

theorem State.dueAnswer_waited (s : State) (i : PointIdx) (b : Bool) (a : Answer) : Waited s (s.dueAnswer i b a) := by
  unfold State.dueAnswer; dsimp only
  split
  · split
    · exact (s.modEntry_waited _ _ _).trans (State.evaluate_waited _ _)
    · exact (s.evaluate_waited _).trans (State.rejoinDropped_waited _ _ _ _)
    all_goals exact .refl s
  · exact s.startAnswer_waited _ _ _

/-- A pending energize that comes due once its wait has elapsed (R46). -/
theorem State.pendingDue_waited {s : State} {i : PointIdx}
    (h : (s.point i).channel.pending.any (s.waitElapsed i) = true) : Waited s (s.pendingDue i) := by
  unfold State.pendingDue; dsimp only
  split
  · rename_i d e
    have w : (s.point i).energizeDue d ≤ s.time := by simpa [e, State.waitElapsed] using h
    split
    · exact (State.energize_waited (fun _ => by simp [e]) w).trans (State.dueAnswer_waited _ _ _ _)
    · exact (s.dropPending_waited i).trans (State.dueAnswer_waited _ _ _ _)
  · exact .refl s

/-- R46: times that have changed make a pending energize due once its wait has elapsed under them. -/
theorem State.pendingMoved_waited (s : State) (i : PointIdx) (c : Settings) : Waited s (s.pendingMoved i c) := by
  unfold State.pendingMoved; dsimp only
  split
  · rename_i h
    rw [Bool.and_eq_true] at h
    exact State.pendingDue_waited h.2
  · exact .refl s

/-! ## The commands -/

theorem State.setResult_waited (s : State) (p : Port) (r : Result) : Waited s (s.setResult p r) := .of_points rfl rfl

theorem State.afterFrame_waited (s : State) (p : Port) : Waited s (s.afterFrame p) := .of_points (by simp) (by simp)

theorem State.takeRequest_waited (s : State) (p : Port) (tail : FrameTail) (req : Request) {α : Type}
    (index : Word → Option α) (owner : State → α → GoodFrame → State × Result)
    (h : ∀ t a f, Waited t (owner t a f).1) : Waited s (s.takeRequest p tail req index owner) :=
  State.takeRequest_keeps (P := Waited s) s p tail req index owner (.refl s) (s.afterFrame_waited p)
    (fun t r k => k.trans (t.setResult_waited p r)) fun a f => (s.afterFrame_waited p).trans (h _ a f)

theorem State.removeHolder_waited (s : State) (g : GroupIdx) (c : AuthorityCause) : Waited s (s.removeHolder g c) :=
  (s.modGroup_waited _ _).trans ((State.produce_waited _ _ _ _).trans (State.enterStopping_waited _ _ _ _))

theorem setRightsOwner_waited (p : Port) (s : State) (g : GroupIdx) (f : GoodFrame) :
    Waited s (setRightsOwner p s g f).1 := by
  unfold setRightsOwner
  split
  · exact .refl s
  · split
    · exact .refl s
    · rename_i q _
      refine Waited.trans (t := s.setLevel q g (headerLevel f.header)) (.of_points rfl rfl) ?_
      dsimp only
      unfold State.rightsWritten
      split
      · exact State.removeHolder_waited _ _ _
      · exact .refl _

theorem takeOwner_waited (p : Port) (s : State) (g : GroupIdx) (f : GoodFrame) : Waited s (takeOwner p s g f).1 := by
  have h : Waited s (s.grant g p) := (s.modGroup_waited _ _).trans (State.produce_waited _ _ _ _)
  unfold takeOwner; dsimp only
  split
  · exact .refl s
  · split
    · exact h
    · split
      · exact .refl s
      · split
        · exact .refl s
        · split
          · exact h
          · split
            · exact h
            · exact .refl s

theorem releaseOwner_waited (p : Port) (s : State) (g : GroupIdx) (f : GoodFrame) :
    Waited s (releaseOwner p s g f).1 := by
  unfold releaseOwner
  split
  · exact .refl s
  · split
    · exact .refl s
    · split
      · exact .refl s
      · exact s.removeHolder_waited _ _

theorem submitMoveOwner_waited (p : Port) (s : State) (g : GroupIdx) (f : GoodFrame) :
    Waited s (submitMoveOwner p s g f).1 := by
  unfold submitMoveOwner; dsimp only
  split
  · exact .refl s
  · split
    · exact .refl s
    · split
      · exact .refl s
      · split
        · exact .refl s
        · split
          · exact .refl s
          · split
            · exact .refl s
            · exact .of_points rfl rfl

theorem goOwner_waited (p : Port) (s : State) (g : GroupIdx) (f : GoodFrame) : Waited s (goOwner p s g f).1 := by
  unfold goOwner; dsimp only
  split
  · exact .refl s
  · split
    · exact .refl s
    · split
      · exact .refl s
      · split
        · exact .refl s
        · split
          · exact .refl s
          · exact .of_points rfl rfl
          · exact .of_points rfl rfl
          · unfold State.goFirst
            split
            · exact .refl s
            · split
              · exact .refl s
              · split
                · exact .refl s
                · exact s.firstStart_waited _ _
          · unfold State.goResume
            split
            · exact .refl s
            · exact s.resume_waited _ _

theorem cancelOwner_waited (p : Port) (s : State) (g : GroupIdx) (f : GoodFrame) : Waited s (cancelOwner p s g f).1 := by
  unfold cancelOwner; dsimp only
  split
  · exact .refl s
  · split
    · exact .refl s
    · split
      · exact .refl s
      · split
        · exact s.endAll_waited _ _
        · exact s.endHead_waited _ _ _ _

theorem clearTripOwner_waited (p : Port) (s : State) (g : GroupIdx) (f : GoodFrame) :
    Waited s (clearTripOwner p s g f).1 := by
  unfold clearTripOwner
  split
  · exact .refl s
  · split
    · exact .refl s
    · split
      · exact .refl s
      · split
        · exact .refl s
        · exact (s.modGroup_waited _ _).trans (State.produce_waited _ _ _ _)

theorem clearFaultOwner_waited (p : Port) (s : State) (i : PointIdx) (f : GoodFrame) :
    Waited s (clearFaultOwner p s i f).1 := by
  unfold clearFaultOwner
  split
  · exact .refl s
  · split
    · exact .refl s
    · split
      · exact .refl s
      · dsimp only
        exact s.modPoint_waited i _ (.of_same rfl rfl rfl rfl rfl)

theorem setPositionOwner_waited (p : Port) (s : State) (i : PointIdx) (f : GoodFrame) :
    Waited s (setPositionOwner p s i f).1 := by
  unfold setPositionOwner
  split
  · exact .refl s
  · split
    · exact .refl s
    · split
      · exact .refl s
      · dsimp only
        exact s.modPoint_waited i _ (.of_same rfl rfl rfl rfl rfl)

theorem groupSetupOwner_waited (p : Port) (s : State) (g : GroupIdx) (f : GoodFrame) :
    Waited s (groupSetupOwner p s g f).1 := by
  unfold groupSetupOwner; dsimp only
  split
  · exact .refl s
  · split
    · exact .refl s
    · exact .of_points rfl rfl

theorem assignOwner_waited (p : Port) (s : State) (x : PointIdx × GroupIdx) (f : GoodFrame) :
    Waited s (assignOwner p s x f).1 := by
  unfold assignOwner; dsimp only
  split
  · exact .refl s
  · split
    · exact .refl s
    · dsimp only
      exact s.modPoint_waited x.1 _ (.of_same rfl rfl rfl rfl rfl)

theorem rehearsalOwner_waited (p : Port) (s : State) (g : GroupIdx) (f : GoodFrame) :
    Waited s (rehearsalOwner p s g f).1 := by
  have h : ∀ (k : Point → Option Shadow) (b : Bool), Waited s ((s.members g).foldl
      (fun t i => t.modPoint i fun q => { q with shadow := k q }) (s.modGroup g fun r => { r with rehearsal := b })) :=
    fun k b => (s.modGroup_waited _ _).trans (Waited.foldl _ (fun t i => t.modPoint_waited i _
      (.of_same rfl rfl rfl rfl rfl)) _ _)
  unfold rehearsalOwner
  split
  · exact .refl s
  · split
    · exact .refl s
    · split
      · exact .refl s
      · split
        · exact .refl s
        · split
          · split
            · exact h (fun q => some ⟨q.capture.position, q.capture.referenced, none⟩) true
            · exact .refl s
          · split
            · exact h (fun _ => none) false
            · exact .refl s

theorem portRestartOwner_waited (p : Port) (s : State) (u : Unit) (f : GoodFrame) :
    Waited s (portRestartOwner p s u f).1 := by
  unfold portRestartOwner State.restartRelease; dsimp only
  refine Waited.trans (t := s.modPort p fun ps => { ps with queue := [], lost := false }) (.of_points rfl rfl) ?_
  exact (Waited.foldl (fun t g => t.dropHolder g .restart) (fun t g => (t.modGroup_waited _ _).trans
    (State.produce_waited _ _ _ _)) _ _).trans (Waited.foldl (fun t g => t.enterStopping g (some .authority) none)
      (fun t g => t.enterStopping_waited g _ _) _ _)

/-! ## The events -/

theorem State.encoderEdge_waited (s : State) (i : PointIdx) (ph : Phase) (high : Bool) :
    Waited s (s.encoderEdge i ph high) := by
  have same : ∀ (t : State) (f : Point → Point), (∀ p, (f p).channel = p.channel) → (∀ p, (f p).settings = p.settings) →
      Waited t (t.modPoint i f) := fun t f a b =>
    t.modPoint_waited i f (.of_same (by rw [a]) (by rw [a]) (by rw [a]) (by rw [b]) (by rw [b]) fun _ => by rw [a])
  have creep : ∀ t : State, Waited t (t.creepCount i) := fun t => by
    unfold State.creepCount
    split
    · exact (same t _ (by intro _; rfl) (by intro _; rfl)).trans (State.raiseFault_waited _ _ _)
    · exact same t _ (by intro _; rfl) (by intro _; rfl)
  have wrong : ∀ t : State, Waited t (t.wrongWayCount i) := fun t => by
    unfold State.wrongWayCount
    split
    · exact (same t _ (by intro _; rfl) (by intro _; rfl)).trans (State.raiseFault_waited _ _ _)
    · exact same t _ (by intro _; rfl) (by intro _; rfl)
  have count : ∀ (t : State) (d : Dir), Waited t (t.countByState i d) := fun t d => by
    unfold State.countByState
    split
    · exact creep t
    · split
      · exact creep t
      · exact .refl t
      all_goals
        split
        · exact same t _ (by intro _; rfl) (by intro _; rfl)
        · exact wrong t
  have take : ∀ (t : State) (d : Dir), Waited t (t.takeCount i d) := fun t d => by
    unfold State.takeCount; dsimp only
    split
    · have h := (same t (fun p => { p with capture :=
        { p.capture with position := (t.point i).capture.position + d.sign, lastCount := some d } })
        (fun _ => rfl) (fun _ => rfl)).trans (count _ d)
      split
      · exact h
      · exact h.trans (State.countArrival_waited _ i)
    · unfold State.raiseRange
      split
      · exact .refl t
      · exact t.raiseFault_waited _ _
  unfold State.encoderEdge; dsimp only
  split
  · exact .refl s
  · have h := same s (fun p => { p with capture := p.capture.setLevel ph high }) (by intro _; rfl) (by intro _; rfl)
    split
    · exact h.trans (take _ _)
    · exact h

theorem State.simulatedCount_waited (s : State) (i : PointIdx) : Waited s (s.simulatedCount i) := by
  have h : ∀ sh : Shadow, Waited s (s.modPoint i fun p => { p with shadow := some sh }) := fun sh =>
    s.modPoint_waited i _ (.of_same rfl rfl rfl rfl rfl)
  unfold State.simulatedCount
  split
  · rename_i sh _ _ _
    split
    · unfold State.moveShadow; dsimp only
      split
      · exact (h _).trans (State.countArrival_waited _ i)
      · refine (h (sh.retime (s.point i).settings.nominalSpeed)).trans ?_
        unfold State.raiseRange
        split
        · exact .refl _
        · exact State.raiseFault_waited _ _ _
    · exact .refl s
  · exact .refl s

theorem State.pendingEnergizeDue_waited (s : State) (i : PointIdx) : Waited s (s.pendingEnergizeDue i) := by
  unfold State.pendingEnergizeDue
  split
  · rename_i h; exact State.pendingDue_waited h
  · exact .refl s

theorem State.minimumRunDue_waited (s : State) (i : PointIdx) : Waited s (s.minimumRunDue i) := by
  unfold State.minimumRunDue
  split
  · refine (s.evaluate_waited (s.point i).group).trans ?_
    generalize s.evaluate (s.point i).group = u
    unfold State.redecide
    split
    · exact .refl _
    · split
      · exact u.release_waited i
      · exact u.modPoint_waited i _ (.of_same rfl rfl rfl rfl rfl)
  · exact .refl s

theorem State.stallExpiry_waited (s : State) (i : PointIdx) : Waited s (s.stallExpiry i) := by
  unfold State.stallExpiry
  split
  · exact (s.modPoint_waited i (fun p => { p with capture := { p.capture with stallDue := none } })
      (.of_same rfl rfl rfl rfl rfl)).trans (State.raiseFault_waited _ _ _)
  · exact .refl s

theorem State.switchEvent_waited (s : State) (i : PointIdx) (k : Switch) : Waited s (s.switchEvent i k) := by
  have limit : ∀ t : State, Waited t (t.limitStop i) := fun t => by
    unfold State.limitStop; dsimp only
    split
    · split
      · exact (t.release_waited i).trans (State.trip_waited _ _ _ _)
      · exact (t.release_waited i).trans (State.enterStopping_waited _ _ _ _)
    · exact t.release_waited i
  have opened : ∀ t : State, Waited t (t.switchOpened i k) := fun t => by
    have h : Waited t (if (t.point i).channel.state.dir = some (switchDir k) then t.limitStop i else t) := by
      split
      · exact limit t
      · exact .refl t
    unfold State.switchOpened; dsimp only
    revert h
    generalize (if (t.point i).channel.state.dir = some (switchDir k) then t.limitStop i else t) = u
    intro h
    split
    · exact h.trans (State.raiseFault_waited _ _ _)
    · exact h
  unfold State.switchEvent; dsimp only
  split
  · have h := (s.modPoint_waited i (fun p =>
      { p with switches := (p.switches.setClosed k ((s.point i).switches.input k)).setDue k none })
      (.of_same rfl rfl rfl rfl rfl)).trans (State.produce_waited _ (some (s.point i).group)
        (.limit k ((s.point i).switches.input k) i) false)
    split
    · exact h
    · exact h.trans (opened _)
  · exact .refl s

theorem State.estopOpened_waited (s : State) : Waited s s.estopOpened := by
  have group : ∀ (t : State) (g : GroupIdx), Waited t (t.estopGroup g) := fun t g => by
    unfold State.estopGroup; dsimp only
    split
    · exact .refl t
    · split
      · exact t.trip_waited _ _ _
      · exact t.endAll_waited _ _
  unfold State.estopOpened; dsimp only
  have h : Waited s { s with loopClosed := false, estopDue := none } := .of_points rfl rfl
  split
  · exact h
  · refine h.trans ?_
    unfold State.assertEstop; dsimp only
    refine Waited.trans ?_ (Waited.foldl _ group _ _)
    refine Waited.trans ?_ (State.produce_waited _ _ _ _)
    refine Waited.trans ?_ (State.releaseAll_waited _ _)
    exact .of_points rfl rfl

theorem State.receiveChar_waited (s : State) (c : Byte) : Waited s (s.receiveChar c) := by
  have share : ∀ (t : State) (g : GroupIdx), Waited t (t.shareCheck g) := fun t g => by
    unfold State.shareCheck; dsimp only
    split
    · split
      · split
        · split
          · exact t.trip_waited _ _ _
          · exact .refl t
        · exact .refl t
      · exact .refl t
    · exact .refl t
  have load : ∀ (t : State) (i : PointIdx) (f : Point → Load), Waited t (t.modPoint i fun p => { p with load := f p }) :=
    fun t i f => t.modPoint_waited i _ (.of_same rfl rfl rfl rfl rfl)
  have overload : ∀ (t : State) (i : PointIdx), Waited t (t.overloadCheck i) := fun t i => by
    unfold State.overloadCheck; dsimp only
    split
    · exact (load t i fun p => { p.load with overExcursion := p.overloaded }).trans (State.raiseFault_waited _ _ _)
    · exact load t i _
  have underload : ∀ (t : State) (i : PointIdx), Waited t (t.underloadCheck i) := fun t i => by
    unfold State.underloadCheck; dsimp only
    split
    · exact (load t i fun p => { p.load with underExcursion := t.underloaded i }).trans (State.raiseFault_waited _ _ _)
    · exact load t i _
  have check : ∀ (t : State) (i : PointIdx), Waited t ((t.overloadCheck i).underloadCheck i) := fun t i =>
    (overload t i).trans (underload _ i)
  have sample : ∀ (t : State) (i : PointIdx) (v : Int), Waited t (t.takeSample i v) := fun t i v => by
    unfold State.takeSample
    split
    · unfold State.sensorMarker
      split
      · exact .refl t
      · exact (load t i _).trans (State.raiseFault_waited _ _ _)
    · have h : ∀ b : Bool, Waited t (if b = true then t.modPoint i fun p => { p with load := p.load.accept v.toNat t.time }
          else (t.modPoint i fun p => { p with load := p.load.accept v.toNat t.time }).reportLoad i .valid) := fun b => by
        split
        · exact load t i _
        · exact (load t i _).trans (State.produce_waited _ _ _ _)
      unfold State.acceptSample; dsimp only
      have h := h ((t.point i).load.state == .valid)
      revert h
      generalize (if ((t.point i).load.state == .valid) = true then _ else _ : State) = u
      intro h
      split
      · exact (h.trans (check u i)).trans (share _ _)
      · exact h.trans (check u i)
  unfold State.receiveChar; dsimp only
  split
  · refine Waited.trans (t := { s with linkChars := [], linkGapDue := none }) (.of_points rfl rfl) ?_
    unfold State.takeRecord
    split
    · split
      · split
        · exact sample _ _ _
        · exact .refl _
      · exact .refl _
    · exact .refl _
  · exact .of_points rfl rfl

theorem State.ageExpiry_waited (s : State) (i : PointIdx) : Waited s (s.ageExpiry i) := by
  have h := s.modPoint_waited i (fun p => { p with load := { p.load with state := .stale, ageDue := none } })
    (.of_same rfl rfl rfl rfl rfl)
  unfold State.ageExpiry; dsimp only
  split
  · split
    · exact h.trans (State.raiseFault_waited _ _ _)
    · exact h.trans (State.produce_waited _ _ _ _)
  · exact .refl s

/-! ## Every command -/

/-- R42: no command but the three whose event changes or resets a point's times lets a channel skip its wait. -/
theorem exec_waited {c : Instr} {s t : State} (h : exec c s = .next t) (h1 : ∀ levels, c ≠ .deviceReset levels)
    (h2 : ∀ p tail, c ≠ .pointSetup p tail) (h3 : ∀ i, c ≠ .settleEnd i) : Waited s t := by
  have live : ∀ {f : State → State}, s.live f = .next t → Waited s (f s) → Waited s t := by
    intro f e w
    unfold State.live at e
    injection e with e
    split at e
    · rw [← e]; exact .refl s
    · rw [← e]; exact w
  have port : ∀ (u : State) (p : Port) (f : PortState → PortState), Waited u (u.modPort p f) := fun u p f =>
    .of_points rfl rfl
  unfold exec at h
  cases c with
  | deviceReset levels => exact absurd rfl (h1 levels)
  | pointSetup p tail => exact absurd rfl (h2 p tail)
  | settleEnd i => exact absurd rfl (h3 i)
  | resetAsserted => injection h with e; rw [← e]; exact .of_points rfl rfl
  | frameStart p =>
    unfold execFrameStart at h
    exact live h (by unfold State.startFrame; split <;> exact .of_points rfl rfl)
  | headerComplete p w =>
    unfold execHeaderComplete at h
    refine live h ?_
    unfold State.completeHeader
    split
    · split <;> exact .of_points rfl rfl
    · exact .refl s
  | badFrame p tail =>
    unfold execBadFrame at h
    refine live h ?_
    unfold State.endBadFrame
    split
    · split <;> exact .of_points rfl rfl
    · exact .refl s
  | unknownRequest p tail =>
    unfold execUnknownRequest at h
    refine live h ?_
    unfold State.refuseUnknown
    split
    · split
      · exact (s.afterFrame_waited p).trans (State.setResult_waited _ _ _)
      · exact .refl s
    · exact .refl s
  | nop p tail =>
    unfold execNop at h
    exact live h (State.takeRequest_waited _ _ _ _ _ _ fun t _ _ => .refl t)
  | readTable p tail =>
    unfold execReadTable at h
    exact live h (State.takeRequest_waited _ _ _ _ _ _ fun t a _ => by unfold readTableOwner; split <;> exact .refl t)
  | groupSetup p tail =>
    unfold execGroupSetup at h
    exact live h (State.takeRequest_waited _ _ _ _ _ _ (groupSetupOwner_waited p))
  | portSetup p tail =>
    unfold execPortSetup at h
    refine live h (State.takeRequest_waited _ _ _ _ _ _ fun t _ f => ?_)
    unfold portSetupOwner; dsimp only
    split
    · exact port t p fun ps => ps.applyWrites none (decodePortWrites f.header f.payload)
    · split
      · rename_i b _
        exact port t p fun ps => ps.applyWrites (some b) (decodePortWrites f.header f.payload)
      · exact .refl t
  | setRights p tail =>
    unfold execSetRights at h
    exact live h (State.takeRequest_waited _ _ _ _ _ _ (setRightsOwner_waited p))
  | assign p tail =>
    unfold execAssign at h
    exact live h (State.takeRequest_waited _ _ _ _ _ _ (assignOwner_waited p))
  | setPosition p tail =>
    unfold execSetPosition at h
    exact live h (State.takeRequest_waited _ _ _ _ _ _ (setPositionOwner_waited p))
  | take p tail =>
    unfold execTake at h
    exact live h (State.takeRequest_waited _ _ _ _ _ _ (takeOwner_waited p))
  | release p tail =>
    unfold execRelease at h
    exact live h (State.takeRequest_waited _ _ _ _ _ _ (releaseOwner_waited p))
  | submitMove p tail =>
    unfold execSubmitMove at h
    exact live h (State.takeRequest_waited _ _ _ _ _ _ (submitMoveOwner_waited p))
  | go p tail =>
    unfold execGo at h
    exact live h (State.takeRequest_waited _ _ _ _ _ _ (goOwner_waited p))
  | stop p tail =>
    unfold execStop at h
    exact live h (State.takeRequest_waited _ _ _ _ _ _ fun t g _ => t.enterStopping_waited g (some .stop) none)
  | stopAll p tail =>
    unfold execStopAll at h
    have stop : ∀ (t : State) (g : GroupIdx), Waited t (t.stopGroup g) := fun t g => t.enterStopping_waited _ _ _
    generalize allGroups = l at h
    refine live h (State.takeRequest_waited _ _ _ _ _ _ fun t _ _ => ?_)
    dsimp only
    exact Waited.foldl _ stop l t
  | cancel p tail =>
    unfold execCancel at h
    exact live h (State.takeRequest_waited _ _ _ _ _ _ (cancelOwner_waited p))
  | clearFault p tail =>
    unfold execClearFault at h
    exact live h (State.takeRequest_waited _ _ _ _ _ _ (clearFaultOwner_waited p))
  | clearTrip p tail =>
    unfold execClearTrip at h
    exact live h (State.takeRequest_waited _ _ _ _ _ _ (clearTripOwner_waited p))
  | rehearsal p tail =>
    unfold execRehearsal at h
    exact live h (State.takeRequest_waited _ _ _ _ _ _ (rehearsalOwner_waited p))
  | popReport p tail =>
    unfold execPopReport at h
    refine live h (State.takeRequest_waited _ _ _ _ _ _ fun t _ f => ?_)
    unfold popReportOwner
    split
    · exact .refl t
    · exact port t p fun ps => { ps with queue := ps.queue.drop f.popCount }
  | portRestart p tail =>
    unfold execPortRestart at h
    exact live h (State.takeRequest_waited _ _ _ _ _ _ (portRestartOwner_waited p))
  | silenceExpiry p =>
    unfold execSilenceExpiry at h
    refine live h ?_
    unfold State.silenceExpiry
    split
    · exact .of_points rfl rfl
    · exact .refl s
  | encoderEdge i ph high =>
    unfold execEncoderEdge at h
    exact live h (s.encoderEdge_waited i ph high)
  | startSlot g =>
    unfold execStartSlot at h
    exact live h (s.startSlot_waited g)
  | permitExpiry g =>
    unfold execPermitExpiry at h
    refine live h ?_
    unfold State.permitExpiry
    split
    · exact s.enterStopping_waited _ _ _
    · exact .refl s
  | pendingEnergizeDue i =>
    unfold execPendingEnergizeDue at h
    exact live h (s.pendingEnergizeDue_waited i)
  | minimumRunDue i =>
    unfold execMinimumRunDue at h
    exact live h (s.minimumRunDue_waited i)
  | stallExpiry i =>
    unfold execStallExpiry at h
    exact live h (s.stallExpiry_waited i)
  | limitInputChange i k level =>
    unfold execLimitInputChange at h
    refine live h ?_
    unfold State.limitInputChange
    split
    · exact .refl s
    · exact s.modPoint_waited i _ (.of_same rfl rfl rfl rfl rfl)
  | switchEvent i k =>
    unfold execSwitchEvent at h
    exact live h (s.switchEvent_waited i k)
  | estopAsserted =>
    unfold execEstopAsserted at h
    exact live h s.estopOpened_waited
  | estopLoopClosed =>
    unfold execEstopLoopClosed at h
    exact live h (by unfold State.estopLoopClosed; split <;> exact .of_points rfl rfl)
  | estopReleased =>
    unfold execEstopReleased at h
    refine live h ?_
    unfold State.estopReleased
    split
    · exact .of_points rfl rfl
    · exact .refl s
  | loadRecord chars =>
    unfold execLoadRecord at h
    exact live h (Waited.foldl _ State.receiveChar_waited _ _)
  | loadFramingError =>
    unfold execLoadFramingError at h
    exact live h (.of_points rfl rfl)
  | loadLinkGap =>
    unfold execLoadLinkGap at h
    exact live h (by unfold State.linkGap; split <;> exact .of_points rfl rfl)
  | ageExpiry i =>
    unfold execAgeExpiry at h
    exact live h (s.ageExpiry_waited i)
  | simulatedCount i =>
    unfold execSimulatedCount at h
    exact live h (s.simulatedCount_waited i)

/-- A channel that is not energized in p and is in q has had its wait elapse, under the times that both have (R42). -/
theorem Waits.elapsed {now : Nat} {p q : Point} (h : Waits now p q) (g : 0 < p.settings.tGuard)
    (r : 0 < p.settings.tReverse) (off : p.channel.state.energized = false) {d : Dir}
    (on : q.channel.state = d.channelState) : p.energizeDue d ≤ now := by
  have e : ∀ x : Dir, x.channelState.energized = true := fun x => by cases x <;> rfl
  rcases h.driven g r (by rw [on, e]) with x | ⟨_, d', x, y⟩ | ⟨x, _⟩
  · rw [← x, on, e] at off; cases off
  · have : d' = d := by rw [x] at on; revert on; cases d <;> cases d' <;> decide
    rw [← this]; exact y
  · rw [off] at x; cases x

end Sys2Proof.Machine
end

