-- ==== Sys2Proof/WellFormed.lean ====
section
/-! DEFINITION. Which commands are well formed: the checks on a command's operands that its type does not
already make. -/

namespace Sys2Proof

/-- What can follow the header of a good frame: whole words only, at most 32 of payload or reply and one CRC
word (R166, R167). -/
def FrameTail.wellFormed (t : FrameTail) : Bool :=
  t.stray == 0 && t.words.length ≤ 33

/-- The operands are ones the command's step can have. A bad frame may hold anything. A request's frame end
belongs to a good frame. A LOAD_RECORD brings at least one character. -/
def Instr.wellFormed : Instr → Bool
  | .unknownRequest _ t | .nop _ t | .readTable _ t | .pointSetup _ t | .groupSetup _ t | .portSetup _ t
  | .setRights _ t | .assign _ t | .setPosition _ t | .take _ t | .release _ t | .submitMove _ t | .go _ t
  | .stop _ t | .stopAll _ t | .cancel _ t | .clearFault _ t | .clearTrip _ t | .rehearsal _ t
  | .popReport _ t | .portRestart _ t => t.wellFormed
  | .loadRecord chars => !chars.isEmpty
  | .deviceReset _ | .resetAsserted | .frameStart _ | .headerComplete _ _ | .badFrame _ _ | .silenceExpiry _
  | .encoderEdge _ _ _ | .startSlot _ | .permitExpiry _ | .pendingEnergizeDue _ | .minimumRunDue _
  | .settleEnd _ | .stallExpiry _ | .limitInputChange _ _ _ | .switchEvent _ _ | .estopAsserted
  | .estopLoopClosed | .estopReleased | .loadFramingError | .loadLinkGap | .ageExpiry _
  | .simulatedCount _ => true

end Sys2Proof
end

