-- ==== Sys2Proof/Tests/Slice0.lean ====
section
/-! SUPPORT. The smoke test of WellFormed, the spec's worked values, and for every statement that has hypotheses
a concrete state and operands that meet them (`test_meets_<statement>`). -/

namespace Sys2Proof.Tests

open Sys2Proof.Machine

/-! ## Helpers: small states built from the reset state -/

/-- A header word. -/
def hdr (code index len sub : Nat) : Word := BitVec.ofNat 32 (code * 2 ^ 27 + index * 2 ^ 22 + len * 2 ^ 16 + sub)

/-- The state a command leads to. -/
def after (c : Instr) (s : State) : State :=
  match exec c s with
  | .next t => t
  | _ => s

/-- A frame in progress at port p with a complete header. -/
def framed (p : Port) (h : Word) (s : State) : State :=
  s.modPort p fun ps =>
    { ps with
      frame := some
        { status := 0, crcOn := ps.crcOn, seed := ps.seed, words := [h], reply := [], popCount := 0
          popEmpty := ps.queue.isEmpty } }

/-- What that frame brings. -/
def good (h : Word) (payload : List Word) : GoodFrame := ⟨h, payload, 0, true⟩

/-- The result that the end of such a frame leaves. -/
def resultOf (mk : Port → FrameTail → Instr) (p : Port) (h : Word) (payload : List Word) (s : State) : Result :=
  ((after (mk p ⟨payload, 0⟩) (framed p h s)).port p).lastResult

/-- `State.delivers` from four facts that can be evaluated. -/
theorem delivers_of {s : State} {p : Port} {tail : FrameTail} {req : Request} {f : GoodFrame}
    (h : s.resetAsserted = false ∧ s.goodEnd p tail = some f ∧ headerRequest f.header = some req ∧
      ((acceptedLength req).all fun n => headerLength f.header == n) = true) : s.delivers p tail req f := by
  obtain ⟨h1, h2, h3, h4⟩ := h
  refine ⟨⟨h1, h2, h3⟩, fun n hn => ?_⟩
  rw [hn] at h4
  simpa using h4

/-- The law of R85 from a test that can be evaluated. -/
theorem queuesLawful_of {s : State}
    (h : ∀ g : GroupIdx, (s.group g).queue.length ≤ 4 ∧ (∀ m ∈ (s.group g).queue.tail, m.state = .queued) ∧
      ((s.group g).trip.isSome = true → (s.group g).queue = [])) : s.queuesLawful := h

/-- One second after reset. -/
def base : State := { State.reset with time := 1000000 }

/-- Points 0 and 1 in group 1, which port A holds; both referenced at 0. -/
def pair : State :=
  let own : Point → Point := fun q => { q with group := 1, capture := { q.capture with referenced := true } }
  ((base.modPoint 0 own).modPoint 1 own).modGroup 1 fun r => { r with holder := some .a }

/-- Group 1 with a queue. -/
def queued (l : List Move) (s : State) : State := s.modGroup 1 fun r => { r with queue := l }

/-- A move that waits. -/
def waiting (b : MoveBody) : Move :=
  { body := b, tag := 7, submitter := .a, state := .queued, toDirection := none, endMark := none, runList := [] }

/-- A run-list entry at the start of its run. -/
def entryOf (i : PointIdx) : RunEntry :=
  { point := i, start := 0, target := none, progress := 0, gated := false, released := false, settled := false
    started := true, releasePos := none, arrivalError := none }

/-- A move in a state, with a run list. -/
def moving (b : MoveBody) (st : MoveState) (l : List RunEntry) : Move := { waiting b with state := st, runList := l }

/-- Channel i driven since 0.9 s. -/
def drive (i : PointIdx) (d : Dir) (s : State) : State :=
  s.modPoint i fun q =>
    { q with
      channel := { q.channel with state := d.channelState, lastDir := some d, lastOn := 900000 }
      capture := { q.capture with stallDue := some 1000000 } }

/-- Group 1 with this head move and a live permit. -/
def running (m : Move) (s : State) : State := s.modGroup 1 fun r => { r with queue := [m], permit := some 1000000 }

/-- A jog of both members, driven up. -/
def jogging : State := drive 0 .up (drive 1 .up (running (moving (.groupJog .up) .running [entryOf 0, entryOf 1]) pair))

/-- A jog of point 0 alone, driven up. -/
def single : State := drive 0 .up (running (moving (.pointJog 0 .up) .running [entryOf 0]) pair)

/-- The same jog, stopping, its settle about to end. -/
def settling (b : MoveBody) : State :=
  (queued [moving b .stopping [entryOf 0]] pair).modPoint 0 fun q =>
    { q with
      channel := { q.channel with state := .settle, lastDir := some .up, settleDue := some 1000000 }
      staged := some ⟨none, none, some 400, none, none, none, none⟩ }

/-- Group 1 in rehearsal, with shadows. -/
def rehearsing (x : Int) (s : State) : State :=
  let shade : Point → Point := fun q =>
    { q with shadow := some { position := x, referenced := true, simDue := some 1000000 } }
  ((s.modPoint 0 shade).modPoint 1 shade).modGroup 1 fun r => { r with rehearsal := true }

/-- A latched fault on point 0. -/
def faulted (c : FaultCode) (s : State) : State := s.modPoint 0 fun q => { q with latched := some c }

/-- Group 1 tripped. -/
def tripped (s : State) : State := s.modGroup 1 fun r => { r with trip := some ⟨.skew, none⟩, queue := [] }

/-- A record to fill queues with. -/
def filler : Report :=
  { time := 0, group := some 0, rehearsal := false, lostBefore := false, additional := false, body := .tripCleared }

/-- A port whose queue holds n records. -/
def filled (p : Port) (n : Nat) (s : State) : State := s.modPort p fun ps => { ps with queue := List.replicate n filler }

/-- The four characters of a load record with a right checksum. -/
def sample (i hi lo : Nat) : List Byte :=
  [BitVec.ofNat 8 i, BitVec.ofNat 8 hi, BitVec.ofNat 8 lo, BitVec.ofNat 8 (1023 - i - hi - lo)]

/-! ## WellFormed: each check refuses an ill-formed command -/

theorem test_wellFormed_accepts : (Instr.nop .a ⟨[], 0⟩).wellFormed = true ∧
    (Instr.go .b ⟨List.replicate 33 0, 0⟩).wellFormed = true ∧ (Instr.loadRecord [1]).wellFormed = true := by decide

theorem test_wellFormed_refuses_stray_bits : (Instr.nop .a ⟨[], 1⟩).wellFormed = false := by decide

theorem test_wellFormed_refuses_a_long_tail : (Instr.go .b ⟨List.replicate 34 0, 0⟩).wellFormed = false := by decide

theorem test_wellFormed_refuses_an_empty_loadRecord : (Instr.loadRecord []).wellFormed = false := by decide

/-! ## The opcode table, the clock and the queue of commands -/

theorem test_no_word_spells_a_command : decodeTableWord 8 5 = none ∧ decodeTableWord 0 0 = none := by decide

theorem test_withFetchWord_places_nothing : base.withFetchWord 8 5 = base := by decide

theorem test_idle_step_ticks : step State.reset = .next { State.reset with time := 1 } := rfl

theorem test_meets_StepRunsFrontCommand :
    ({ base with pending := [.estopAsserted] } : State).pending = .estopAsserted :: [] := by decide

theorem test_meets_StepsGoOnAndKeepTheClock : State.reset.pending = [] := by decide

/-! ## Reset -/

/-- Both switches of point 5 read open and the ESTOP loop is open. -/
def openLevels : ResetLevels := { quietLevels with upperClosed := 0xFFFFDF, lowerClosed := 0xFFFFDF, loopClosed := false }

theorem test_reset_is_DEVICE_RESET : after (.deviceReset quietLevels) jogging = State.reset := by decide +kernel

theorem test_reset_finds_limitWiring :
    ((after (.deviceReset openLevels) base).point 5).latched = some .limitWiring ∧
      ((after (.deviceReset openLevels) base).point 4).latched = none ∧
      (after (.deviceReset openLevels) base).estop = true ∧
      (((after (.deviceReset openLevels) base).port .l).queue.map (·.body)) = [.pointFault .limitWiring 5] := by
  decide +kernel

theorem test_meets_DeviceResetSetsGroupsAndPorts :
    ∀ i : PointIdx, quietLevels.upperClosed.getLsbD i = true ∨ quietLevels.lowerClosed.getLsbD i = true := by decide

theorem test_meets_ResetAssertedHoldsThePart : (after .resetAsserted jogging).resetAsserted = true ∧
    Instr.estopAsserted ≠ .resetAsserted ∧ (after .resetAsserted jogging).upOutput 0 = false ∧
    jogging.upOutput 0 = true := by decide

/-! ## Frames -/

theorem test_meets_FrameStartCapturesTheStatusWord : base.resetAsserted = false ∧ (base.port .b).frame = none := by decide

/-- Group 1 moves, group 0 is tripped, the queue is full: bits 30, 29 and the count 32 of port B. -/
theorem test_meets_FrameStartCapturesTheStatusWord_bits : ((filled .b 32 jogging).port .b).queue.length ≤ 32 ∧
    (filled .b 32 jogging).statusWord .b = 0x24008000 := by decide

theorem test_meets_HeaderTakesTheReadImage :
    let h := hdr 1 23 27 0
    let s := after (.frameStart .a) base
    s.resetAsserted = false ∧ (s.port .a).frame.isSome = true ∧ ((s.port .a).frame.all fun f => f.words.isEmpty) = true ∧
      headerRequest h ≠ some .popReport ∧ headerRequest h = some .readTable ∧ headerTable h = some .point ∧
      (s.tableImage .point (headerIndex h)).isSome = true ∧ headerTable (hdr 1 0 32 (5 * 2 ^ 13)) = none ∧
      s.tableImage .group (headerIndex (hdr 1 8 32 (2 ^ 13))) = none := by decide

/-- The image word 3 of a point after reset is its soft upper limit; words beyond the image are zero (R166). -/
theorem test_image_words_are_driven :
    let t := after (.headerComplete .a (hdr 1 0 32 0)) (after (.frameStart .a) base)
    ((t.port .a).frame.map fun f => (f.driven 0, f.driven 28, f.driven 32, f.driven 33)) =
      some (base.statusWord .a, 0, 0, 0) := by decide

/-- With CRC on, the word after the reply is the CRC of the words driven, and zero words follow it (R169). -/
theorem test_meets_HeaderTakesTheReadImage_crc :
    let f : Frame :=
      { status := 0x8000, crcOn := true, seed := 0xFFFF, words := [hdr 1 0 1 0], reply := [5], popCount := 0, popEmpty := true }
    f.driven 1 = 5 ∧ f.driven 2 = crcWord (crcOf 0xFFFF [0x8000, 5]) ∧ f.driven 3 = 0 ∧
      ({ f with crcOn := false } : Frame).driven 2 = 0 := ⟨rfl, rfl, rfl, rfl⟩

/-- Words of the group, rights, ports and queue images (12.4): holder A, desk A preferred, members 0 and 1, shadow
positions 5; SETUP at the desks and OPERATE at the pendant; the seed; one move with two run-list entries. -/
theorem test_meets_HeaderTakesTheReadImage_tables :
    (pair.groupImage 1).getD 0 0 = 0x0A000000 ∧ (pair.groupImage 1).getD 7 0 = 3 ∧ (pair.groupImage 1).length = 9 ∧
      ((rehearsing 5 pair).groupImage 1).drop 7 = [3, 3, 5, 5] ∧ base.rightsImage = [0xFFFF, 0xFFFF, 0xAAAA] ∧
      base.portsImage.take 2 = [0xFFFF0000, 0xFFF] ∧ ((jogging.group 1).queueImage).getD 0 0 = 0x22000000 ∧
      ((pair.point 1).image).getD 0 0 = 0x3C000006 ∧ (pair.tableImage .group 1).isSome = true := by decide

theorem test_meets_HeaderChoosesWholeRecords :
    let s := after (.frameStart .a) (filled .a 3 base)
    let t := after (.headerComplete .a (hdr 18 0 5 0)) s
    s.resetAsserted = false ∧ (s.port .a).frame.isSome = true ∧ headerRequest (hdr 18 0 5 0) = some .popReport ∧
      (t.port .a).frame.map (·.popCount) = some 2 ∧ ((t.port .a).frame.map fun f => f.driven 5) = some 0 := by
  decide

theorem test_meets_BadFrameIsNotApplied :
    let s := framed .a (hdr 0 0 0 0) base
    s.resetAsserted = false ∧ (s.port .a).frame.isSome = true ∧
      ((after (.badFrame .a ⟨[], 1⟩) s).port .a).lastResult = .frame ∧
      ((after (.badFrame .a ⟨[], 5⟩) (after (.frameStart .a) base)).port .a).lastResult = .frame ∧
      ((after (.badFrame .a ⟨List.replicate 33 0, 0⟩) (framed .a (hdr 0 0 33 0) base)).port .a).lastResult = .frame ∧
      ((after (.badFrame .a ⟨List.replicate 31 0, 0⟩) (framed .a (hdr 1 0 32 0) base)).port .a).lastResult = .frame := by
  decide

/-- A frame with CRC on, whose CRC word is 0 where the CRC of a NOP header is not (R168). -/
theorem test_meets_BadFrameIsNotApplied_crc :
    let s := framed .a (hdr 0 0 0 0) (base.modPort .a fun ps => { ps with crcOn := true })
    (s.port .a).frame.map (·.crcOn) = some true ∧ headerLength (hdr 0 0 0 0) ≤ 32 ∧
      (0 : Nat) / 65536 ≠ (crcOf 0xFFFF [hdr 0 0 0 0]).toNat ∧
      ((after (.badFrame .a ⟨[0], 0⟩) s).port .a).lastResult = .crc := by decide +kernel

/-- Good frames: a length of 32 with CRC off; with CRC on, a CRC word with any lower half. One word fewer is not good. -/
theorem test_meets_BadFrameIsNotApplied_good :
    let s := framed .a (hdr 0 0 0 0) (base.modPort .a fun ps => { ps with crcOn := true })
    let w := crcWord (crcOf 0xFFFF [hdr 0 0 0 0]) + 5
    s.goodEnd .a ⟨[w], 0⟩ = some (good (hdr 0 0 0 0) []) ∧ s.goodEnd .a ⟨[], 0⟩ = none ∧ s.goodEnd .a ⟨[0], 0⟩ = none ∧
      (framed .a (hdr 1 0 32 0) base).goodEnd .a ⟨List.replicate 32 9, 0⟩ =
        some (good (hdr 1 0 32 0) (List.replicate 32 9)) ∧
      (framed .a (hdr 1 0 32 0) base).goodEnd .a ⟨List.replicate 31 9, 0⟩ = none := by decide +kernel

theorem test_meets_BadRequestIsRefused :
    let s := framed .a (hdr 20 0 0 0) base
    s.resetAsserted = false ∧ s.goodEnd .a ⟨[], 0⟩ = some (good (hdr 20 0 0 0) []) ∧ 20 ≤ headerCode (hdr 20 0 0 0) ∧
      resultOf .unknownRequest .a (hdr 20 0 0 0) [] base = .unknown ∧
      resultOf .unknownRequest .a (hdr 31 0 0 0) [] base = .unknown := by decide

/-- The fields of headers written out: SET_RIGHTS of group 3, port B to OPERATE; READ_TABLE of group 7, image words 5 to
20; ASSIGN of point 23 to group 7; CANCEL ALL of group 1; REHEARSAL on, off and neither. -/
theorem test_meets_BadRequestIsRefused_fields :
    let rights : Word := 0b00101_00011_000000_000000_10_000000_10
    let read : Word := 0b00001_00111_010000_001_00000_00000101
    let assign : Word := 0b00110_10111_000000_00000000000_00111
    headerRequest rights = some .setRights ∧ headerIndex rights = 3 ∧ headerLength rights = 0 ∧
      headerPort rights = some .b ∧ headerLevel rights = .operate ∧ headerRequest read = some .readTable ∧
      headerIndex read = 7 ∧ headerLength read = 16 ∧ headerTable read = some .group ∧ headerFirstWord read = 5 ∧
      headerRequest assign = some .assign ∧ headerIndex assign = 23 ∧ headerNewGroup assign = 7 ∧
      headerScopeAll 0b01110_00001_000000_0000000000000001 = true ∧ headerScopeAll 0b01110_00001_000000_0000000000000010 = false ∧
      [0, 1, 2, 3].map (fun k => headerMode (BitVec.ofNat 32 k)) = [some false, some true, none, none] ∧
      [0, 1, 2, 3].map (fun k => headerLevel (BitVec.ofNat 32 k)) = [.none, .view, .operate, .setup] ∧
      [0, 256, 512, 768].map (fun k => headerPort (BitVec.ofNat 32 k)) = [none, some .a, some .b, some .l] ∧
      [0, 1, 2, 3, 4, 5].map (fun k => headerTable (BitVec.ofNat 32 (8192 * k))) =
        [some .point, some .group, some .queue, some .rights, some .ports, none] := by decide

theorem test_meets_BadRequestIsRefused_index :
    let s := framed .a (hdr 11 8 0 0) base
    s.resetAsserted = false ∧ s.goodEnd .a ⟨[], 0⟩ = some (good (hdr 11 8 0 0) []) ∧
      headerRequest (hdr 11 8 0 0) = some .go ∧ indexInRange .go (hdr 11 8 0 0) = false ∧
      resultOf .go .a (hdr 11 8 0 0) [] base = .badIndex ∧ resultOf .assign .a (hdr 6 23 0 8) [] base = .badIndex ∧
      resultOf .clearFault .a (hdr 15 24 0 0) [] base = .badIndex := by decide

theorem test_meets_BadRequestIsRefused_length :
    indexInRange .go (hdr 11 7 1 0) = true ∧ acceptedLength .go = some 0 ∧ headerLength (hdr 11 7 1 0) ≠ 0 ∧
      resultOf .go .a (hdr 11 7 1 0) [0] base = .badValue ∧
      resultOf .pointSetup .a (hdr 2 0 10 0) (List.replicate 10 0) base = .badValue := by decide

theorem test_meets_NopAndReadTableChangeNothing :
    (framed .a (hdr 0 31 0 0) base).delivers .a ⟨[], 0⟩ .nop (good (hdr 0 31 0 0) []) ∧
      (framed .a (hdr 1 7 0 0x2000) base).delivers .a ⟨[], 0⟩ .readTable (good (hdr 1 7 0 0x2000) []) :=
  ⟨delivers_of (by decide), delivers_of (by decide)⟩

theorem test_meets_NopAndReadTableChangeNothing_tables :
    headerTable (hdr 1 7 0 0x2000) = some .group ∧ indexInRange .readTable (hdr 1 7 0 0x2000) = true ∧
      headerTable (hdr 1 31 0 0xA000) = none ∧ resultOf .readTable .a (hdr 1 31 0 0xA000) [] base = .badValue := by
  decide

theorem test_meets_PortSetupWritesItsPort :
    (framed .b (hdr 4 0 3 7) base).delivers .b ⟨[1, 0xABCD, 5], 0⟩ .portSetup (good (hdr 4 0 3 7) [1, 0xABCD, 5]) ∧
      (decodePortWrites (hdr 4 0 3 7) [1, 0xABCD, 5]).crc = some 1 ∧
      (decodePortWrites (hdr 4 0 3 1) [2, 0, 0]).crc = some 2 ∧
      resultOf .portSetup .b (hdr 4 0 3 1) [2, 0, 0] base = .badValue :=
  ⟨delivers_of (by decide), by decide⟩

/-- Mask bits 0 and 2 select payload words 1 and 3; the word between is not read. -/
theorem test_meets_PortSetupWritesItsPort_masks :
    decodePortWrites (hdr 4 0 3 5) [1, 0x1234, 0xFABC] = { crc := some 1, seed := none, attention := some 0xABC } ∧
      decodePortWrites (hdr 4 0 3 2) [1, 0xF1234, 0] = { crc := none, seed := some 0x1234, attention := none } ∧
      decodeGroupWrites (hdr 3 0 7 65) [0xFFFFFFFF, 1, 2, 3, 4, 5, 7] =
        { gateBand := some (-1), tripBand := none, shareBand := none, stagger := none, window := none, preferred := none
          localPriority := some true } := by decide

theorem test_meets_PopReportRemovesWhatItDrove :
    let s := after (.headerComplete .a (hdr 18 0 5 0)) (after (.frameStart .a) (filled .a 3 base))
    s.delivers .a ⟨List.replicate 5 0, 0⟩ .popReport ⟨hdr 18 0 5 0, List.replicate 5 0, 2, false⟩ ∧
      ((after (.popReport .a ⟨List.replicate 5 0, 0⟩) s).port .a).queue.length = 1 :=
  ⟨delivers_of (by decide), by decide⟩

theorem test_meets_PopReportRemovesWhatItDrove_none :
    let ask := fun s : State => after (.popReport .a ⟨[0], 0⟩) (after (.headerComplete .a (hdr 18 0 1 0)) (after (.frameStart .a) s))
    ((ask base).port .a).lastResult = .ok ∧ ((ask (filled .a 1 base)).port .a).lastResult = .shortRead := by
  decide

theorem test_meets_PortRestartReleasesItsGroups :
    (framed .a (hdr 19 0 0 0) jogging).delivers .a ⟨[], 0⟩ .portRestart (good (hdr 19 0 0 0) []) ∧
      (jogging.group 1).holder = some .a ∧ (jogging.group 2).holder ≠ some .a ∧
      ∀ g, (base.group g).holder ≠ some .a :=
  ⟨delivers_of (by decide), by decide⟩

/-- The restart of port A stops its driven move and reports it; port L may not view the group and gets nothing. -/
theorem test_meets_PortRestartReleasesItsGroups_driving :
    let s := framed .a (hdr 19 0 0 0) (filled .a 3 (jogging.setLevel .l 1 .none))
    let t := after (.portRestart .a ⟨[], 0⟩) s
    s.queuesLawful ∧ s.settlesLater 1 ∧ (∀ g, (s.group g).holder = some .a → g = 1) ∧
      (t.group 1).stopReason = some .authority ∧ (t.group 1).state = .stopping ∧
      (t.port .a).queue.map (·.body) = [.authority .restart none (some .a) .stopping] ∧ (t.port .a).lost = false ∧
      (t.port .b).queue.length = 1 ∧ (t.port .l).queue = [] :=
  ⟨queuesLawful_of (by decide), ⟨by decide, by decide⟩, by decide⟩

/-- Port A holds groups 1 and 2, whose moves have every member settled: both stops end at once, and their MOVE_HELD
records follow both AUTHORITY records. -/
theorem test_meets_PortRestartReleasesItsGroups_first_records :
    let still := fun i : PointIdx => moving (.groupBy 9) .running [{ entryOf i with settled := true }]
    let s := framed .a (hdr 19 0 0 0) ((running (still 0) pair).modGroup 2 fun r =>
      { r with holder := some .a, queue := [still 2], permit := some 1000000 })
    let t := after (.portRestart .a ⟨[], 0⟩) s
    (∀ g ∈ allGroups.filter (fun g => (s.group g).holder == some .a), ∀ i ∈ s.runPoints g, s.rehearsing i = false) ∧
      (t.port .a).queue.map (fun r => (r.group, r.body)) =
        [(some 1, .authority .restart none (some .a) .held), (some 2, .authority .restart none (some .a) .held),
          (some 1, .moveHeld (some .authority) 7 .groupBy none), (some 2, .moveHeld (some .authority) 7 .groupBy none)] ∧
      (t.group 1).state = .held ∧ (t.group 2).state = .held := by decide

theorem test_meets_SilenceIsTimedAndReported :
    base.resetAsserted = false ∧ (base.port .a).silenceDue = some 500000 ∧ 500000 ≤ base.time := by decide

/-- The CRC of R168 on the characters 1 to 8, the usual check of the polynomial 0x1021 from 0xFFFF. -/
theorem test_crc : crcOf 0xFFFF [0x31323334, 0x35363738] = 0xA12B ∧ crcOf 0x5A5A [0] = 0x849F := by decide +kernel

/-! ## Reports -/

/-- Chapter 11, "overflow on the pendant queue": at 30 records a trip's four records leave 32 and the marker. -/
theorem test_example_overflow_on_the_pendant_queue :
    let s := queued [moving (.groupBy 5) .running [entryOf 0, entryOf 1], waiting (.groupBy 9)] (filled .l 30 jogging)
    let t := after (.stallExpiry 0) s
    (t.port .l).queue.length = 32 ∧ (t.port .l).lost = true ∧
      ((t.port .l).queue.drop 30).map (·.body) =
        [.pointFault .stall 0, .groupTripped .point (some 0) (some (7, .groupBy))] ∧
      (t.port .a).queue.map (·.body.kind) = [.pointFault, .groupTripped, .moveEnded, .moveEnded] := by decide

theorem test_meets_ReportsGoToEntitledPorts :
    base.level .l 0 ≠ .none ∧ ((filled .l 31 base).port .l).queue.length < 32 ∧
      32 ≤ ((filled .l 32 base).port .l).queue.length ∧
      (((filled .l 32 base).distribute filler).port .l).lost = true ∧
      (((base.setLevel .l 0 .none).distribute filler).port .l).queue = [] := by decide

/-- ATTN is asserted by a record of a listed kind, and not by one of another kind, a discarded one or an empty set. -/
theorem test_meets_ReportsGoToEntitledPorts_attention :
    let seen := fun s : State => ((s.distribute filler).port .a).attnAsserted
    let attending := fun (v : BitVec 12) (s : State) => s.modPort .a fun ps => { ps with attention := v }
    (base.port .a).attnAsserted = false ∧ seen base = true ∧ attentionBit filler.body.kind = 4 ∧
      seen (attending 0x010 base) = true ∧ seen (attending 0xFEF base) = false ∧ seen (attending 0 base) = false ∧
      ((attending 1 (filled .a 32 base)).distribute { filler with body := .moveStarted false 7 .groupJog none }).ports.a.attnAsserted =
        false := by decide

/-- A report of a rehearsing group one second and 999 µs after reset, and one of no group. -/
theorem test_meets_ReportsGoToEntitledPorts_fields :
    let s : State := { rehearsing 0 pair with time := 1000999 }
    ((s.produce (some 1) .tripCleared).port .b).queue =
        [{ time := 1000, group := some 1, rehearsal := true, lostBefore := false, additional := false, body := .tripCleared }] ∧
      ((s.produce none (.estop true)).port .b).queue =
        [{ time := 1000, group := none, rehearsal := false, lostBefore := false, additional := false, body := .estop true }] :=
  by decide

/-- A MOVE_ENDED record of 24 pairs has 26 words (12.5). -/
theorem test_meets_RecordsHaveTheirLength :
    ({ filler with body := .moveEnded .arrived 7 .groupBy none (allPoints.map fun i => (i, 0)) } : Report).length = 26 ∧
      (allPoints.map fun i => (i, (0 : Int))).length ≤ 24 ∧ filler.length = 2 := by decide

/-! ## Requests that write records -/

/-- A POINT_SETUP payload with the soft limits at these values. -/
def softPayload (upper lower : Int) : List Word := [0, BitVec.ofInt 32 upper, BitVec.ofInt 32 lower] ++ List.replicate 8 0

theorem test_meets_PointSetupIsChecked :
    (framed .a (hdr 2 23 11 6) base).delivers .a ⟨softPayload 5 5, 0⟩ .pointSetup (good (hdr 2 23 11 6) (softPayload 5 5)) ∧
      headerIndex (hdr 2 23 11 6) = (23 : PointIdx).val ∧ base.level .a (base.point 23).group = .setup ∧
      resultOf .pointSetup .a (hdr 2 23 11 6) (softPayload 5 5) base = .badValue ∧
      resultOf .pointSetup .l (hdr 2 23 11 6) (softPayload 6 5) base = .noRight ∧
      resultOf .pointSetup .a (hdr 2 0 11 1) (softPayload 6 5) jogging = .busy :=
  ⟨delivers_of (by decide), by decide⟩

/-- At rest: not while driven, in rehearsal, or OFF in a held move; in the queue alone a point is. -/
theorem test_meets_PointSetupIsChecked_atRest :
    (queued [waiting (.groupBy 5)] pair).atRest 0 = true ∧ (rehearsing 0 pair).atRest 0 = false ∧
      (queued [moving (.groupBy 5) .held [entryOf 0, entryOf 1]] pair).atRest 0 = false ∧
      (queued [moving (.pointTo 1 5) .held [entryOf 1]] pair).atRest 0 = true ∧ (drive 0 .up pair).atRest 0 = false := by
  decide

/-- t_guard is written to 400 ms, above t_reverse: at once with the channel OFF, and as a staged copy otherwise. -/
theorem test_meets_PointSetupTakesEffect :
    let l := List.replicate 4 0 ++ [400] ++ List.replicate 6 0
    (framed .a (hdr 2 0 11 16) pair).delivers .a ⟨l, 0⟩ .pointSetup (good (hdr 2 0 11 16) l) ∧
      (pair.point 0).channel.state = .off ∧ (pair.point 0).settings.legal ∧
      ((after (.pointSetup .a ⟨l, 0⟩) (framed .a (hdr 2 0 11 16) pair)).point 0).settings.tReverse = 400 ∧
      (jogging.point 0).channel.state ≠ .off ∧
      ((after (.pointSetup .a ⟨l, 0⟩) (framed .a (hdr 2 0 11 16) jogging)).point 0).staged =
        some ⟨none, none, some 400, none, none, none, none⟩ :=
  ⟨delivers_of (by decide), by decide, by unfold Settings.legal; decide, by decide⟩

/-- A held request of a running move whose wait a shorter t_guard has made due (R46). -/
theorem test_meets_PointSetupTakesEffect_pending :
    let s := (running (moving (.groupJog .up) .running [entryOf 0, entryOf 1]) pair).modPoint 0 fun q =>
      { q with channel := { q.channel with pending := some .up, lastDir := some .up, lastOff := 950000 } }
    let l := List.replicate 4 0 ++ [50] ++ List.replicate 6 0
    s.time < (s.point 0).energizeDue .up ∧
      ((after (.pointSetup .a ⟨l, 0⟩) (framed .a (hdr 2 0 11 16) s)).point 0).channel.state = .up := by
  decide

/-- The ranges of R3 and R81 at their ends and one beyond. -/
theorem test_meets_PointSetupTakesEffect_ranges :
    [-2000001, -2000000, 2000000, 2000001].map clampPosition = [-2000000, -2000000, 2000000, 2000000] ∧
      [-1, 49, 50, 667, 2000, 2001].map clampSpeed = [50, 50, 50, 667, 2000, 2000] ∧
      [-1, 19, 20, 1000, 1001].map clampGuard = [20, 20, 20, 1000, 1000] ∧
      [99, 100, 2000, 2001].map clampReverse = [100, 100, 2000, 2000] ∧
      [49, 50, 2000, 2001].map clampMinrun = [50, 50, 2000, 2000] ∧
      [49, 50, 2000, 2001].map clampSettle = [50, 50, 2000, 2000] ∧
      [99, 100, 5000, 5001].map clampStall = [100, 100, 5000, 5000] ∧
      [0, 1, 32767, 32768].map clampOver = [1, 1, 32767, 32767] ∧
      [-1, 0, 32767, 32768].map clampUnder = [0, 0, 32767, 32767] := by decide

theorem test_meets_GroupSetupWritesTheGroup_ranges :
    [4, 5, 2000, 2001].map clampGateBand = [5, 5, 2000, 2000] ∧ [9, 10, 5000, 5001].map clampTripBand = [10, 10, 5000, 5000] ∧
      [-1, 0, 512, 513].map clampShareBand = [0, 0, 512, 512] ∧ [-1, 0, 100, 101].map clampStagger = [0, 0, 100, 100] ∧
      [49, 50, 1000, 1001].map clampWindow = [50, 50, 1000, 1000] := by decide

/-- Mask bits 0, 2 and 10: the mode's two bits, a negative number and the last word. -/
theorem test_meets_PointSetupTakesEffect_masks :
    decodePointWrites (hdr 2 0 11 1029) ([0xFFFFFFFE, 7, 0xFFFFFFFF] ++ List.replicate 7 7 ++ [9]) =
      { encoderMode := some .x2, softUpper := none, softLower := some (-1), nominalSpeed := none, tGuard := none
        tReverse := none, tMinrun := none, tSettle := none, tStall := none, overThreshold := none
        underThreshold := some 9 } ∧
      (stagedOfWrites (decodePointWrites (hdr 2 0 11 1033) (List.replicate 11 7))).isEmpty = true ∧
      (stagedOfWrites (decodePointWrites (hdr 2 0 11 2) (List.replicate 11 7))).softUpper = some 7 := by decide

theorem test_meets_SetPositionReferencesThePoint :
    (framed .a (hdr 7 0 1 0) pair).delivers .a ⟨[2000001], 0⟩ .setPosition (good (hdr 7 0 1 0) [2000001]) ∧
      pair.level .a (pair.point 0).group = .setup ∧ (pair.point 0).settings.encoderMode ≠ .off ∧
      pair.atRest 0 = true ∧ jogging.atRest 0 = false ∧
      ((after (.setPosition .a ⟨[2000001], 0⟩) (framed .a (hdr 7 0 1 0) pair)).point 0).capture.position = 2000000 ∧
      resultOf .setPosition .a (hdr 7 0 1 0) [0] jogging = .busy ∧
      resultOf .setPosition .l (hdr 7 0 1 0) [0] pair = .noRight ∧
      (resultOf .setPosition .a (hdr 7 0 1 0) [0]
        (pair.modPoint 0 fun q => { q with settings := { q.settings with encoderMode := .off } })) = .noEncoder :=
  ⟨delivers_of (by decide), by decide⟩

/-- The gate band raises the trip band to twice its value (R81). -/
theorem test_meets_GroupSetupWritesTheGroup :
    let l : List Word := [200, 0, 0, 0, 0, 2, 1]
    (framed .a (hdr 3 7 7 0x61) base).delivers .a ⟨l, 0⟩ .groupSetup (good (hdr 3 7 7 0x61) l) ∧
      base.level .a 7 = .setup ∧ (decodeGroupWrites (hdr 3 7 7 0x61) l).preferred = some 2 ∧
      ((after (.groupSetup .a ⟨l, 0⟩) (framed .a (hdr 3 7 7 0x61) base)).group 7).tripBand = 400 ∧
      resultOf .groupSetup .a (hdr 3 7 7 0x20) [0, 0, 0, 0, 0, 3, 0] base = .badValue ∧
      resultOf .groupSetup .l (hdr 3 7 7 0) l base = .noRight :=
  ⟨delivers_of (by decide), by decide⟩

theorem test_meets_AssignMovesThePoint :
    (framed .b (hdr 6 23 0 7) base).delivers .b ⟨[], 0⟩ .assign (good (hdr 6 23 0 7) []) ∧
      headerIndex (hdr 6 23 0 7) = (23 : PointIdx).val ∧ headerNewGroup (hdr 6 23 0 7) = (7 : GroupIdx).val ∧
      base.level .b 0 = .setup ∧ base.level .b 7 = .setup ∧ (base.group 0).assignable = true ∧
      ((after (.assign .b ⟨[], 0⟩) (framed .b (hdr 6 23 0 7) base)).point 23).group = 7 ∧
      resultOf .assign .l (hdr 6 23 0 7) [] base = .noRight ∧ resultOf .assign .a (hdr 6 2 0 1) [] jogging = .busy :=
  ⟨delivers_of (by decide), by decide⟩

/-! ## Authority -/

theorem test_meets_SetRightsWritesTheEntry :
    (framed .b (hdr 5 1 0 0x101) jogging).delivers .b ⟨[], 0⟩ .setRights (good (hdr 5 1 0 0x101) []) ∧
      headerPort (hdr 5 1 0 0x101) = some .a ∧ headerLevel (hdr 5 1 0 0x101) = .view ∧
      (jogging.group 1).holder = some .a ∧ (jogging.group 1).headIs MoveState.driving = true ∧
      jogging.queuesLawful ∧ (pair.group 1).headIs MoveState.driving = false ∧
      headerLevel (hdr 5 1 0 0x102) = .operate ∧ headerPort (hdr 5 1 0 1) = none ∧
      resultOf .setRights .l (hdr 5 1 0 0x101) [] pair = .noRight ∧
      resultOf .setRights .a (hdr 5 1 0 1) [] pair = .badValue ∧
      ((after (.setRights .b ⟨[], 0⟩) (framed .b (hdr 5 1 0 0x101) jogging)).group 1).holder = none :=
  ⟨delivers_of (by decide), by decide, by decide, by decide, by decide,
    queuesLawful_of (by decide), by decide⟩

/-- Port A loses OPERATE while its group drives. -/
theorem test_meets_SetRightsWritesTheEntry_driving :
    let t := after (.setRights .b ⟨[], 0⟩) (framed .b (hdr 5 1 0 0x101) jogging)
    jogging.settlesLater 1 ∧ (t.group 1).stopReason = some .authority ∧ (t.group 1).state = .stopping ∧
      (t.port .a).queue.map (·.body) = [.authority .rights none (some .a) .stopping] ∧
      (t.point 0).channel.state = .settle ∧ t.group 2 = jogging.group 2 :=
  ⟨⟨by decide, by decide⟩, by decide⟩

theorem test_meets_TakeFollowsItsTable :
    (framed .a (hdr 8 1 0 0) base).delivers .a ⟨[], 0⟩ .take (good (hdr 8 1 0 0) []) ∧
      headerIndex (hdr 8 1 0 0) = (1 : GroupIdx).val ∧ resultOf .take .a (hdr 8 1 0 0) [] base = .ok ∧
      resultOf .take .b (hdr 8 1 0 0) [] pair = .outranked ∧ resultOf .take .b (hdr 8 1 0 0) [] jogging = .busy ∧
      resultOf .take .b (hdr 8 1 0 0) [] (pair.modPort .a fun ps => { ps with silent := true }) = .ok ∧
      resultOf .take .l (hdr 8 1 0 0) [] (base.setLevel .l 1 .view) = .noRight :=
  ⟨delivers_of (by decide), by decide⟩

theorem test_meets_ReleaseRemovesTheHolder :
    (framed .a (hdr 9 1 0 0) pair).delivers .a ⟨[], 0⟩ .release (good (hdr 9 1 0 0) []) ∧ pair.queuesLawful ∧
      resultOf .release .a (hdr 9 1 0 0) [] pair = .ok ∧ resultOf .release .b (hdr 9 1 0 0) [] pair = .notHolder ∧
      resultOf .release .a (hdr 9 1 0 0) [] jogging = .busy ∧
      resultOf .release .l (hdr 9 1 0 0) [] (base.setLevel .l 1 .none) = .noRight :=
  ⟨delivers_of (by decide), queuesLawful_of (by decide), by decide⟩

theorem test_rank_order :
    Group.reset.preferred = .a ∧ Group.reset.outranks .a .b = true ∧ Group.reset.outranks .l .b = false ∧
      ({ Group.reset with preferred := .b, localPriority := true } : Group).outranks .l .b = true := by decide

/-! ## The move queue -/

/-- The first payload word of a SUBMIT_MOVE. -/
def params (kind dir point : Nat) : Word := BitVec.ofNat 32 (kind * 2 ^ 29 + dir * 2 ^ 27 + point * 2 ^ 16)

/-- The result of a SUBMIT_MOVE from port A to group 1. -/
def submitted (w : Word) (v : Int) (s : State) : Result := resultOf .submitMove .a (hdr 10 1 2 7) [w, BitVec.ofInt 32 v] s

theorem test_meets_SubmitMoveIsAdmitted :
    (framed .a (hdr 10 1 2 7) pair).delivers .a ⟨[params 0 0 0, 1000000], 0⟩ .submitMove
        (good (hdr 10 1 2 7) [params 0 0 0, 1000000]) ∧
      (pair.group 1).holder = some .a ∧ pair.estop = false ∧ (pair.group 1).trip = none ∧
      (pair.group 1).queue.length < 4 ∧ pair.members 1 = [0, 1] ∧
      (∀ i ∈ pair.members 1, (pair.point i).settings.encoderMode ≠ .off ∧ (pair.point i).latched = none) ∧
      pair.referencedOf 0 = true ∧ bitsOf (params 2 0 1) 31 29 = 2 ∧ bitsOf (params 2 0 1) 20 16 = (1 : PointIdx).val ∧
      dirOfCode (bitsOf (params 3 2 1) 28 27) = some .down :=
  ⟨delivers_of (by decide), by decide⟩

/-- The names of the statements at concrete records: a rehearsing point with a shadow, and one without; the members and
the points a move involves; the soft limits at their ends. -/
theorem test_meets_SubmitMoveIsAdmitted_names :
    let s := rehearsing 7 jogging
    let c := (pair.point 0).settings
    s.rehearsing 0 = true ∧ (s.positionOf 0, s.referencedOf 0) = (7, true) ∧
      (s.modPoint 0 fun q => { q with shadow := none }).positionOf 0 = 0 ∧ pair.rehearsing 0 = false ∧
      (pair.positionOf 0, pair.referencedOf 0, base.referencedOf 0) = (0, true, false) ∧ pair.members 1 = [0, 1] ∧
      pair.involved 1 (.groupBy 5) = [0, 1] ∧ pair.involved 1 (.pointTo 1 5) = [1] ∧ jogging.runPoints 1 = [0, 1] ∧
      jogging.inActiveMove 0 = true ∧ jogging.inActiveMove 2 = false ∧
      [-2000001, -2000000, 2000000, 2000001].map c.inside = [false, true, true, false] := by decide

/-- The direction and the state that head moves give their group. -/
theorem test_meets_SubmitMoveIsAdmitted_head :
    let group := fun m : Move => (queued [m] pair).group 1
    let state := fun st => (group (moving (.groupJog .up) st [])).state
    (group (waiting (.groupBy 5))).direction = .up ∧ (group (waiting (.groupBy (-5)))).direction = .down ∧
      (group (waiting (.groupJog .down))).direction = .down ∧ (group (waiting (.pointJog 0 .down))).direction = .down ∧
      (group { waiting (.pointTo 0 5) with toDirection := some .down }).direction = .down ∧
      (pair.group 1).queue = [] ∧ (pair.group 1).direction = .up ∧ (pair.group 1).state = .idle ∧
      [MoveState.queued, .starting, .running, .stopping, .held].map state =
        [.idle, .starting, .running, .stopping, .held] ∧ ((tripped pair).group 1).state = .tripped := by decide

theorem test_submit_accepts_at_its_bounds :
    submitted (params 0 0 0) 1000000 pair = .ok ∧ submitted (params 0 0 0) (-1000000) pair = .ok ∧
      submitted (params 1 1 0) 0 pair = .ok ∧ submitted (params 1 2 0) 0 pair = .ok ∧
      submitted (params 2 0 1) 2000000 pair = .ok ∧ submitted (params 2 0 0) (-2000000) pair = .ok ∧
      submitted (params 3 1 0) 0 pair = .ok ∧
      submitted (params 3 1 0) 0 (queued (List.replicate 3 (waiting (.groupJog .up))) pair) = .ok := by decide

theorem test_meets_SubmitMoveIsRefused :
    submitted (params 0 0 0) 1 base = .notHolder ∧ submitted (params 0 0 0) 1 { pair with estop := true } = .estop ∧
      submitted (params 0 0 0) 1 (tripped pair) = .tripped ∧
      submitted (params 0 0 0) 1 (queued (List.replicate 4 (waiting (.groupJog .up))) pair) = .queueFull ∧
      submitted (params 4 0 0) 1 pair = .badValue ∧ submitted (params 0 0 0) 0 pair = .badValue ∧
      submitted (params 0 0 0) 1000001 pair = .badValue ∧ submitted (params 0 0 0) (-1000001) pair = .badValue ∧
      submitted (params 1 0 0) 0 pair = .badValue ∧ submitted (params 3 3 0) 0 pair = .badValue ∧
      submitted (params 3 1 24) 0 pair = .badValue ∧ submitted (params 2 0 0) 2000001 pair = .badValue := by
  decide

/-- What the payload of a SUBMIT_MOVE describes, for each kind, and parameters that describe none. -/
theorem test_meets_SubmitMoveIsRefused_decoding :
    let body := fun (w : Word) (v : Int) => moveBodyOf (decodeMoveParams [w, BitVec.ofInt 32 v])
    body (params 0 0 0) (-1000000) = some (.groupBy (-1000000)) ∧ body (params 0 0 0) 0 = none ∧
      body (params 0 0 0) 1000001 = none ∧ body (params 1 2 0) 9 = some (.groupJog .down) ∧ body (params 1 3 0) 9 = none ∧
      body (params 2 0 23) 2000000 = some (.pointTo 23 2000000) ∧ body (params 2 0 24) 0 = none ∧
      body (params 2 0 1) (-2000001) = none ∧ body (params 3 1 5) 9 = some (.pointJog 5 .up) ∧
      body (params 3 0 5) 9 = none ∧ body (params 4 1 5) 9 = none := by decide

theorem test_meets_SubmitMoveIsRefused_later_checks :
    moveBodyOf (decodeMoveParams [params 2 0 0, 2000000]) = some (.pointTo 0 2000000) ∧
      submitted (params 1 1 0) 0 (base.modGroup 1 fun r => { r with holder := some .a }) = .empty ∧
      submitted (params 3 1 2) 0 pair = .badIndex ∧
      (submitted (params 2 0 0) 0
        (pair.modPoint 0 fun q => { q with settings := { q.settings with encoderMode := .off } })) = .noEncoder ∧
      (submitted (params 2 0 0) 0
        (pair.modPoint 0 fun q => { q with capture := { q.capture with referenced := false } })) = .notReferenced ∧
      (submitted (params 2 0 0) 2000000
        (pair.modPoint 0 fun q => { q with settings := { q.settings with softUpper := 1999999 } })) = .limit ∧
      submitted (params 2 0 0) 5 (faulted .creep pair) = .faulted := by decide

/-- The result of a GO from port A for group 1. -/
def wentTo (s : State) : Result := resultOf .go .a (hdr 11 1 0 0) [] s

theorem test_meets_GoExtendsThePermitOrIsRefused :
    (framed .a (hdr 11 1 0 0) jogging).delivers .a ⟨[], 0⟩ .go (good (hdr 11 1 0 0) []) ∧
      (jogging.group 1).state = .running ∧
      ((after (.go .a ⟨[], 0⟩) (framed .a (hdr 11 1 0 0) jogging)).group 1).permit = some 1200000 ∧
      wentTo base = .notHolder ∧ wentTo { pair with estop := true } = .estop ∧ wentTo (tripped pair) = .tripped ∧
      wentTo (settling (.pointJog 0 .up)) = .settling ∧ wentTo pair = .nothing ∧
      (wentTo (queued [waiting (.groupBy 5)]
        (pair.modPoint 0 fun q => { q with settings := { q.settings with encoderMode := .off } }))) = .noEncoder ∧
      (wentTo (queued [waiting (.pointTo 0 5)]
        (pair.modPoint 0 fun q => { q with capture := { q.capture with referenced := false } }))) = .notReferenced ∧
      wentTo (faulted .stall (queued [waiting (.groupJog .up)] pair)) = .faulted ∧
      wentTo (faulted .stall (queued [moving (.groupJog .up) .held [entryOf 0, entryOf 1]] pair)) = .faulted :=
  ⟨delivers_of (by decide), by decide⟩

theorem test_meets_GoEndsAMoveAtItsFirstStart :
    let s := queued [waiting (.pointTo 0 0)] pair
    (framed .a (hdr 11 1 0 0) s).delivers .a ⟨[], 0⟩ .go (good (hdr 11 1 0 0) []) ∧
      (s.group 1).holder = some .a ∧ s.estop = false ∧ (s.group 1).trip = none ∧
      (s.group 1).queue = waiting (.pointTo 0 0) :: [] ∧ s.referencedOf 0 = true ∧ s.positionOf 0 = 0 ∧
      (s.point 0).settings.inside 0 = true ∧ wentTo s = .ok ∧
      wentTo (queued [waiting (.pointTo 0 2000001)] pair) = .limit :=
  ⟨delivers_of (by decide), by decide⟩

/-- A GROUP_BY of 5 that takes point 1 past its soft limit, or point 0, unreferenced, past the position range. -/
theorem test_meets_GoEndsAMoveAtItsFirstStart_of_group :
    let at1 := fun v : Int => queued [waiting (.groupBy 5)] (pair.modPoint 1 fun q =>
      { q with settings := { q.settings with softUpper := v } })
    let at0 := fun v : Int => queued [waiting (.groupBy 5)] (pair.modPoint 0 fun q =>
      { q with capture := { q.capture with position := v, referenced := false } })
    let ended := fun s : State => ((after (.go .a ⟨[], 0⟩) (framed .a (hdr 11 1 0 0) s)).port .a).queue.map (·.body)
    wentTo (at1 4) = .limit ∧ ended (at1 4) = [.moveEnded .refusedLimit 7 .groupBy (some 1) []] ∧ wentTo (at1 5) = .ok ∧
      wentTo (at0 1999996) = .limit ∧ ended (at0 1999996) = [.moveEnded .refusedLimit 7 .groupBy (some 0) []] ∧
      wentTo (at0 1999995) = .ok := by decide

/-- A jog of point 0 starts; its channel has been off since before the start of the wait (R90, R42). -/
theorem test_meets_GoStartsOrResumesOneMember :
    let s := queued [waiting (.pointJog 0 .up)] pair
    (framed .a (hdr 11 1 0 0) s).delivers .a ⟨[], 0⟩ .go (good (hdr 11 1 0 0) []) ∧
      (s.group 1).holder = some .a ∧ s.estop = false ∧ (s.group 1).trip = none ∧
      (s.group 1).queue = waiting (.pointJog 0 .up) :: [] ∧ (s.point 0).group = 1 ∧ (s.point 0).latched = none ∧
      (s.point 0).switches.closedToward .up = true ∧ (s.point 0).channel.state.energized = false ∧
      (s.point 0).channel.pending = none ∧ (s.point 0).energizeDue .up ≤ s.time ∧ (s.point 0).load.state ≠ .stale ∧
      (after (.go .a ⟨[], 0⟩) (framed .a (hdr 11 1 0 0) s)).upOutput 0 = true :=
  ⟨delivers_of (by decide), by decide⟩

/-- A held move with one member at 3 counts resumes towards its target. -/
theorem test_meets_GoStartsOrResumesOneMember_resume :
    let m := { moving (.pointTo 0 500) .held [{ entryOf 0 with target := some 500, settled := true }] with toDirection := some .up }
    let s := (queued [m] pair).modPoint 0 fun q => { q with capture := { q.capture with position := 3 } }
    (framed .a (hdr 11 1 0 0) s).delivers .a ⟨[], 0⟩ .go (good (hdr 11 1 0 0) []) ∧ (s.group 1).direction = .up ∧
      ((after (.go .a ⟨[], 0⟩) (framed .a (hdr 11 1 0 0) s)).group 1).runList =
        [{ entryOf 0 with target := some 500, progress := 3 }] ∧
      ((after (.go .a ⟨[], 0⟩) (framed .a (hdr 11 1 0 0) s)).group 1).state = .running :=
  ⟨delivers_of (by decide), by decide⟩

/-- A first GO of a GROUP_JOG of two: with the stagger of 20 ms one member starts, with a stagger of 0 both. -/
theorem test_meets_GoStartsOrResumesOneMember_first :
    let s := framed .a (hdr 11 1 0 0) (queued [waiting (.groupJog .up)] pair)
    let t := after (.go .a ⟨[], 0⟩) s
    let u := after (.go .a ⟨[], 0⟩) (s.modGroup 1 fun r => { r with stagger := 0 })
    s.delivers .a ⟨[], 0⟩ .go (good (hdr 11 1 0 0) []) ∧ s.involved 1 (.groupJog .up) = [0, 1] ∧
      (∀ i ∈ s.involved 1 (.groupJog .up), (s.point i).settings.encoderMode ≠ .off ∧ (s.point i).latched = none) ∧
      (t.group 1).state = .starting ∧ (t.group 1).schedule = [(1, 1020000)] ∧ (t.group 1).permit = some 1200000 ∧
      (t.group 1).runList.map (fun e => (e.point, e.started)) = [(0, true), (1, false)] ∧
      (t.port .b).queue.map (·.body) = [.moveStarted false 7 .groupJog none] ∧ (u.group 1).state = .running :=
  ⟨delivers_of (by decide), by decide⟩

/-- A first GO of a GROUP_BY takes the targets and, with valid loads, the baseline; a POINT_TO takes its direction. -/
theorem test_meets_GoStartsOrResumesOneMember_targets :
    let loaded := after (.loadRecord (sample 1 0 100)) (after (.loadRecord (sample 0 1 44)) pair)
    let t := after (.go .a ⟨[], 0⟩) (framed .a (hdr 11 1 0 0) (queued [waiting (.groupBy (-5))] loaded))
    let u := after (.go .a ⟨[], 0⟩) (framed .a (hdr 11 1 0 0) (queued [waiting (.pointTo 1 (-9))] pair))
    (t.group 1).runList.map (·.target) = [some (-5), some (-5)] ∧ (t.group 1).baseline = some [(0, 768), (1, 256)] ∧
      (t.point 0).channel.state = .down ∧ (u.group 1).direction = .down ∧ (u.group 1).state = .running ∧
      (u.group 1).baseline = none := by decide

/-- A resume of two held members, one gated: their progress is recomputed and the flag cleared. -/
theorem test_meets_GoStartsOrResumesOneMember_resume_of_two :
    let m := moving (.groupBy 900) .held [{ entryOf 0 with gated := true }, entryOf 1]
    let s := (queued [m] pair).modPoint 0 fun q => { q with capture := { q.capture with position := 12 } }
    let t := after (.go .a ⟨[], 0⟩) (framed .a (hdr 11 1 0 0) s)
    (∀ e ∈ m.runList, e.released = false ∧ (s.point e.point).latched = none) ∧
      (t.group 1).runList.map (fun e => (e.progress, e.gated, e.started)) = [(12, false, true), (0, false, false)] ∧
      (t.port .a).queue.map (·.body) = [.moveStarted true 7 .groupBy none] := by decide

/-- The states that START_SLOT leads through exist from any state. -/
theorem test_meets_GoStartsOrResumesOneMember_run (u : State) : ∃ run : Nat → State, run 0 = u ∧
    ∀ k, k < 2 → exec (.startSlot 1) (run k) = .next (run (k + 1)) :=
  ⟨fun k => k.rec u fun _ t => after (.startSlot 1) t, rfl, fun _ _ => rfl⟩

theorem test_meets_StopsEndTheDriving :
    jogging.queuesLawful ∧ (framed .l (hdr 12 1 0 0) jogging).delivers .l ⟨[], 0⟩ .stop (good (hdr 12 1 0 0) []) ∧
      (framed .l (hdr 13 0 0 0) jogging).delivers .l ⟨[], 0⟩ .stopAll (good (hdr 13 0 0 0) []) ∧
      (jogging.group 1).permit = some 1000000 ∧ 1000000 ≤ jogging.time ∧ (jogging.group 1).headIs MoveState.driving = true ∧
      (∀ i ∈ jogging.runPoints 1, jogging.rehearsing i = false) ∧
      ((jogging.group 1).head.all fun m => !m.allSettled) = true ∧
      ((after (.permitExpiry 1) jogging).group 1).state = .stopping ∧ (pair.group 1).headIs MoveState.driving = false :=
  ⟨queuesLawful_of (by decide), delivers_of (by decide), delivers_of (by decide),
    by decide⟩

/-- STOP and STOP_ALL record the reason STOP and report nothing; the holder stays. -/
theorem test_meets_StopsEndTheDriving_reason :
    let t := after (.stop .l ⟨[], 0⟩) (framed .l (hdr 12 1 0 0) jogging)
    let u := after (.stopAll .l ⟨[], 0⟩) (framed .l (hdr 13 0 0 0) jogging)
    jogging.settlesLater 1 ∧ (∀ h, (jogging.group h).headIs MoveState.driving = true → h = 1) ∧
      (t.group 1).stopReason = some .stop ∧ (t.group 1).state = .stopping ∧ (t.group 1).holder = some .a ∧
      (t.port .a).queue = [] ∧ (u.group 1).stopReason = some .stop :=
  ⟨⟨by decide, by decide⟩, by decide⟩

/-- An entry to STOPPING with every member settled ends the move by its mark, its kind or its released flags, or holds it;
with one unsettled the reason and the mark are recorded. -/
theorem test_meets_StopsEndTheDriving_marks :
    let done := { entryOf 0 with settled := true }
    let s := fun (b : MoveBody) (l : List RunEntry) => running (moving b .running l) pair
    let ended := fun (b : MoveBody) (e : RunEntry) (a : Option StopReason) (mark : Option EndMark) =>
      (((s b [e]).enterStopping 1 a mark).port .b).queue.map (·.body)
    let t := (s (.groupBy 5) [done, entryOf 1]).enterStopping 1 none (some .limit)
    ended (.pointJog 0 .up) done none (some .limit) = [.moveEnded .limit 7 .pointJog (some 0) []] ∧
      ended (.groupJog .up) done none (some .softLimit) = [.moveEnded .softLimit 7 .groupJog none []] ∧
      ended (.groupJog .up) done (some .stop) none = [.moveEnded .jogStopped 7 .groupJog none []] ∧
      ended (.groupBy 5) { done with released := true, arrivalError := some 2 } none none =
        [.moveEnded .arrived 7 .groupBy none [(0, 2)]] ∧
      ended (.groupBy 5) done (some .permit) none = [.moveHeld (some .permit) 7 .groupBy none] ∧
      ((s (.groupBy 5) [done]).enterStopping 1 (some .permit) none).group 1 =
        { (s (.groupBy 5) [done]).group 1 with
          queue := [moving (.groupBy 5) .held [done]], permit := none, stopReason := some .permit } ∧
      (t.group 1).head.map (fun m => (m.state, m.endMark)) = some (.stopping, some .limit) ∧ (t.port .b).queue = [] ∧
      (queued [waiting (.groupBy 5)] pair).enterStopping 1 (some .stop) none = queued [waiting (.groupBy 5)] pair := by decide

theorem test_meets_CancelEndsTheMoves :
    let s := queued [waiting (.groupJog .up), waiting (.groupJog .down)] pair
    (framed .a (hdr 14 1 0 1) s).delivers .a ⟨[], 0⟩ .cancel (good (hdr 14 1 0 1) []) ∧ (s.group 1).state = .idle ∧
      ((after (.cancel .a ⟨[], 0⟩) (framed .a (hdr 14 1 0 0) s)).group 1).queue.length = 1 ∧
      ((after (.cancel .a ⟨[], 0⟩) (framed .a (hdr 14 1 0 1) s)).group 1).queue.length = 0 ∧
      resultOf .cancel .b (hdr 14 1 0 0) [] s = .notHolder ∧ resultOf .cancel .a (hdr 14 1 0 0) [] jogging = .busy ∧
      resultOf .cancel .a (hdr 14 1 0 0) [] pair = .nothing :=
  ⟨delivers_of (by decide), by decide⟩

/-! ## Channels -/

theorem test_meets_EnergizeSetsTheChannel : (pair.point 0).load.state ≠ .stale ∧
    ((pair.energize 0 .up).point 0).capture.stallDue = some 1400000 ∧
    (((rehearsing 0 pair).energize 0 .up).point 0).shadow.map (·.simDue) = some (some 1001499) := by decide

/-- Member 0 waits for its slot in a STARTING move; member 1 has started. -/
def starting (n : Nat) : State :=
  let l := if n = 2 then [{ entryOf 0 with started := false }, entryOf 1] else [{ entryOf 0 with started := false }]
  (running (moving (.groupJog .up) .starting l) pair).modGroup 1 fun r => { r with schedule := [(0, 1000000)] }

/-- Point 0's upper switch is stored open. -/
def opened (s : State) : State :=
  s.modPoint 0 fun q => { q with switches := { q.switches with upperClosed := false, upperInput := false } }

theorem test_meets_StartSlotEnergizesItsMember :
    let s := starting 2
    s.resetAsserted = false ∧ (s.group 1).schedule = (0, 1000000) :: [] ∧ 1000000 ≤ s.time ∧
      (s.group 1).headIs (· == .starting) = true ∧ (s.point 0).group = 1 ∧ .up = (s.group 1).direction ∧
      (s.point 0).channel.state.energized = false ∧ (s.point 0).channel.pending = none ∧ s.denial 0 .up = none ∧
      (s.point 0).energizeDue .up ≤ s.time ∧ ((after (.startSlot 1) s).group 1).state = .running := by decide

/-- The five conditions of R43: all hold at the permit's deadline itself, and each fails alone. -/
theorem test_meets_StartSlotEnergizesItsMember_conditions :
    (starting 2).denial 0 .up = none ∧ (starting 2).time = 1000000 ∧ ((starting 2).groupOf 0).permit = some 1000000 ∧
      pair.denial 0 .up = some .notActive ∧ ({ starting 2 with time := 1000001 } : State).denial 0 .up = some .permit ∧
      (faulted .creep (starting 2)).denial 0 .up = some .fault ∧ (opened (starting 2)).denial 0 .up = some .switch ∧
      (opened (starting 2)).denial 0 .down = none ∧ ({ starting 2 with estop := true } : State).denial 0 .up = some .estop :=
  by decide

/-- Point 0 was driven down until 0.9 s. -/
def reversed (s : State) : State :=
  s.modPoint 0 fun q => { q with channel := { q.channel with lastDir := some .down, lastOff := 900000 } }

/-- The required wait: t_guard of 100 ms after no drive or one in the same direction, t_reverse of 300 ms after the other;
a step that energizes a channel after it, from a state with legal settings. -/
theorem test_meets_StartSlotEnergizesItsMember_wait :
    let q := (reversed pair).point 0
    let s := { starting 2 with pending := [.startSlot 1] }
    (pair.point 0).energizeDue .up = 100000 ∧ q.energizeDue .up = 1200000 ∧ q.energizeDue .down = 1000000 ∧
      (s.point 0).channel.state = .off ∧ ((after (.startSlot 1) s).point 0).channel.state = .up ∧
      (match step s with | .next t => (t.point 0).channel.state | _ => .off) = .up ∧ s.settingsLegal := by
  refine ⟨by decide, by decide, by decide, by decide, by decide, by decide, fun i => ⟨?_, ?_, ?_⟩⟩
  · revert i; unfold Settings.legal; decide
  · have h : ∀ j : PointIdx, ((starting 2).point j).staged = none := by decide
    intro k hk
    exact absurd ((h i).symm.trans hk) (by simp)
  · revert i; decide

theorem test_meets_StartSlotEnergizesItsMember_dropped :
    (opened (starting 2)).denial 0 .up = some .switch ∧
      ((after (.startSlot 1) (opened (starting 2))).group 1).trip = some ⟨.limit, some 0⟩ ∧
      ((after (.startSlot 1) (opened (starting 1))).group 1).state = .stopping ∧
      ({ starting 2 with time := 1000001 } : State).denial 0 .up = some .permit ∧
      ((after (.startSlot 1) { starting 2 with time := 1000001 }).group 1).stopReason = some .permit ∧
      (faulted .creep (starting 2)).denial 0 .up = some .fault ∧
      (reversed (starting 2)).time < ((reversed (starting 2)).point 0).energizeDue .up ∧
      ((after (.startSlot 1) (reversed (starting 2))).point 0).channel.pending = some .up := by decide

/-- Member 0 waits with a pending energize that has come due. -/
def pendingUp (s : State) : State :=
  s.modPoint 0 fun q => { q with channel := { q.channel with pending := some .up, lastDir := some .up, lastOff := 900000 } }

theorem test_meets_PendingEnergizeComesDue :
    let s := pendingUp (starting 2)
    let t := pendingUp (running (moving (.groupJog .up) .running [entryOf 0, entryOf 1]) pair)
    s.resetAsserted = false ∧ (s.point 0).channel.pending = some .up ∧ (s.point 0).energizeDue .up ≤ s.time ∧
      (s.group 1).entry 0 = some { entryOf 0 with started := false } ∧ s.denial 0 .up = none ∧
      ((after (.pendingEnergizeDue 0) s).group 1).state = .running ∧ (t.group 1).entry 0 = some (entryOf 0) ∧
      t.denial 0 .up = none ∧ ((after (.pendingEnergizeDue 0) t).point 0).channel.state = .up ∧
      (faulted .sensor s).denial 0 .up = some .fault ∧
      ((after (.pendingEnergizeDue 0) (faulted .sensor s)).point 0).channel.pending = none := by decide

/-- 200 ms short of its wait a pending energize stays. -/
theorem test_meets_PendingEnergizeComesDue_early :
    let s := (pendingUp (starting 2)).modPoint 0 fun q => { q with channel := { q.channel with lastDir := some .down } }
    s.resetAsserted = false ∧ (s.point 0).channel.pending = some .up ∧ s.time < (s.point 0).energizeDue .up ∧
      after (.pendingEnergizeDue 0) s = s := by decide

/-- A rejoin with a STALE load: LOAD_STALE trips the group before the evaluation. -/
theorem test_meets_PendingEnergizeComesDue_stale :
    let s := (pendingUp (running (moving (.groupJog .up) .running [entryOf 0, entryOf 1]) pair)).modPoint 0 fun q =>
      { q with load := { q.load with state := .stale } }
    s.denial 0 .up = none ∧ ((after (.pendingEnergizeDue 0) s).group 1).trip = some ⟨.point, some 0⟩ ∧
      ((after (.pendingEnergizeDue 0) s).point 0).latched = some .loadStale := by decide

/-- Dropped before the member has started: for an open switch, of two and of one, and for a passed permit. -/
theorem test_meets_PendingEnergizeComesDue_dropped_start :
    let late := { pendingUp (starting 2) with time := 1000001 }
    (opened (pendingUp (starting 2))).denial 0 .up = some .switch ∧ late.denial 0 .up = some .permit ∧
      ((after (.pendingEnergizeDue 0) (opened (pendingUp (starting 2)))).group 1).trip = some ⟨.limit, some 0⟩ ∧
      ((after (.pendingEnergizeDue 0) (opened (pendingUp (starting 1)))).group 1).state = .stopping ∧
      ((after (.pendingEnergizeDue 0) late).group 1).stopReason = some .permit := by decide

/-- A dropped rejoin: a trip for an open switch, and the gated flag again for a passed permit. -/
theorem test_meets_PendingEnergizeComesDue_dropped_rejoin :
    let s := pendingUp (running (moving (.groupJog .up) .running [entryOf 0, entryOf 1]) pair)
    let late := { s with time := 1000001 }
    (opened s).denial 0 .up = some .switch ∧ late.denial 0 .up = some .permit ∧
      ((after (.pendingEnergizeDue 0) (opened s)).group 1).trip = some ⟨.limit, some 0⟩ ∧
      (((after (.pendingEnergizeDue 0) late).group 1).entry 0).map (·.gated) = some true ∧
      ((after (.pendingEnergizeDue 0) late).group 1).state = .running := by decide

theorem test_meets_HardReleaseFollowsTheChannelState :
    (jogging.point 0).channel.state = .up ∧ ((jogging.hardRelease 0).point 0).channel.settleDue = some 1250000 ∧
      (pair.point 0).channel.state = .off ∧ ((settling (.pointJog 0 .up)).point 0).channel.state = .settle := by
  decide

/-- The shadow of a rehearsing member at its release: 20 counts on, up to the bound, past it with a trip of its move. -/
theorem test_meets_HardReleaseFollowsTheChannelState_shadow :
    let at' := fun x : Int => rehearsing x jogging
    let alone := rehearsing 1999981 (drive 0 .up pair)
    let shadow := fun s : State => (s.point 0).shadow.map fun sh => (sh.position, sh.simDue)
    (at' 100).rehearsing 0 = true ∧ ((at' 100).point 0).channel.lastDir = some .up ∧
      shadow ((at' 100).hardRelease 0) = some (120, none) ∧
      (((at' 100).release 0).groupOf 0).entry 0 = some { entryOf 0 with progress := 120 } ∧
      shadow ((at' 1999980).release 0) = some (2000000, none) ∧
      (((at' 1999980).release 0).point 0).latched = none ∧ shadow ((at' 1999981).hardRelease 0) = some (2000000, none) ∧
      (((at' 1999981).release 0).group 1).trip = some ⟨.point, some 0⟩ ∧
      (((faulted .positionRange (at' 1999981)).release 0).group 1).trip = none ∧
      (((faulted .creep (at' 1999981)).release 0).point 0).further = true ∧ alone.inActiveMove 0 = false ∧
      ((alone.release 0).point 0).latched = some .positionRange ∧ ((alone.release 0).group 1).trip = none := by decide

/-- Member 0 is gated and its deferred release is due; member 1 lags. -/
def deferred (gated : Bool) : State :=
  (drive 0 .up (drive 1 .up (running
    (moving (.groupBy 500) .running [{ entryOf 0 with progress := 50, gated := gated }, entryOf 1]) pair))).modPoint 0
      fun q => { q with channel := { q.channel with deferredDue := some 1000000 }, capture := { q.capture with position := 50 } }

theorem test_meets_MinimumRunIsDecidedAgain :
    let t := (deferred true).evaluate 1
    (deferred true).resetAsserted = false ∧ ((deferred true).point 0).channel.deferredDue = some 1000000 ∧
      1000000 ≤ (deferred true).time ∧ (t.point 0).channel.deferredDue ≠ none ∧
      ((t.groupOf 0).entry 0).map (·.gated) = some true ∧
      ((after (.minimumRunDue 0) (deferred true)).point 0).channel.state = .settle := by decide

/-- A member back at the laggard's progress keeps running; one whose move the evaluation trips needs nothing more. -/
theorem test_meets_MinimumRunIsDecidedAgain_other_clauses :
    let near := (deferred false).modEntry 1 0 fun e => { e with progress := 0 }
    let far := (deferred true).modEntry 1 0 fun e => { e with progress := 301 }
    ((near.evaluate 1).point 0).channel.deferredDue ≠ none ∧
      ((((near.evaluate 1).groupOf 0).entry 0).map (·.gated)) = some false ∧
      ((after (.minimumRunDue 0) near).point 0).channel.state = .up ∧
      ((far.evaluate 1).point 0).channel.deferredDue = none := by decide

theorem test_meets_SettleEndReachesOff :
    let s := settling (.pointJog 0 .up)
    let t := settling (.pointTo 0 5)
    s.resetAsserted = false ∧ (s.point 0).channel.settleDue = some 1000000 ∧ 1000000 ≤ s.time ∧
      (s.point 0).channel.pending = none ∧ (s.group 1).runList = [entryOf 0] ∧ (s.group 1).state = .stopping ∧
      ((after (.settleEnd 0) s).point 0).settings.tReverse = 400 ∧ ((after (.settleEnd 0) s).group 1).queue = [] ∧
      ((after (.settleEnd 0) t).group 1).state = .held ∧ (queued [] s).inActiveMove 0 = false := by decide

/-- Of two members the first to settle leaves the move STOPPING; the last ends it by its mark or holds it; a driven
move goes on. -/
theorem test_meets_SettleEndReachesOff_of_two :
    let two := fun (b : MoveBody) (st : MoveState) (mark : Option EndMark) (done : Bool) =>
      (queued [{ moving b st [entryOf 0, { entryOf 1 with settled := done }] with endMark := mark }]
        (settling b)).modPoint 0 fun q => { q with staged := none }
    let ended := fun s : State => ((after (.settleEnd 0) s).port .a).queue.map (·.body)
    ((two (.groupBy 5) .stopping none false).group 1).inRunList 0 = true ∧
      ((after (.settleEnd 0) (two (.groupBy 5) .stopping none false)).group 1).state = .stopping ∧
      ended (two (.groupBy 5) .stopping (some .limit) true) = [.moveEnded .limit 7 .groupBy none []] ∧
      ended (two (.groupJog .up) .stopping (some .softLimit) true) = [.moveEnded .softLimit 7 .groupJog none []] ∧
      ended (two (.groupJog .up) .stopping none true) = [.moveEnded .jogStopped 7 .groupJog none []] ∧
      ended (two (.groupBy 5) .stopping none true) = [.moveHeld none 7 .groupBy none] ∧
      ((after (.settleEnd 0) (two (.groupJog .up) .running none false)).group 1).state = .running := by decide

/-- Member 0 of a RUNNING move settles with a pending energize whose wait ends at 1.05 s, and this staged copy. -/
def rejoining (k : Staged) : State :=
  (running (moving (.groupBy 900) .running [entryOf 0, entryOf 1]) pair).modPoint 0 fun q =>
    { q with
      channel :=
        { q.channel with
          state := .settle, lastDir := some .up, lastOff := 950000, settleDue := some 1000000, pending := some .up }
      staged := some k }

/-- A staged t_guard of 20 ms makes the pending energize due at the settle end; of 60 ms, or a copy without the two times,
leaves it pending; the evaluation has found the settled member. -/
theorem test_meets_SettleEndReachesOff_pending :
    let copy := fun n : Option Nat => (⟨none, none, n, none, none, some 90, none⟩ : Staged)
    let channel := fun n => let c := ((after (.settleEnd 0) (rejoining (copy n))).point 0).channel; (c.state, c.pending)
    ((rejoining (copy none)).point 0).channel.settleDue = some 1000000 ∧
      ((rejoining (copy none)).group 1).inRunList 0 = true ∧
      channel (some 20) = (.up, none) ∧ channel (some 60) = (.off, some .up) ∧ channel none = (.off, some .up) ∧
      ((rejoining (copy (some 20))).point 0).inOff.settings.tReverse = 300 ∧
      ((rejoining (copy (some 999))).point 0).inOff.settings.tReverse = 999 ∧
      (((after (.settleEnd 0) (rejoining (copy none))).group 1).entry 0).map (·.settled) = some true ∧
      ((after (.settleEnd 0) (rejoining (copy none))).point 0).settings.tSettle = 90 := by decide

/-! ## Encoder -/

/-- R21 and R22 over every edge. -/
theorem test_edges_and_modes :
    edgeStep .a true false = .up ∧ edgeStep .b true true = .up ∧ edgeStep .a false true = .up ∧
      edgeStep .b false false = .up ∧ edgeStep .a true true = .down ∧ edgeStep .b true false = .down ∧
      edgeStep .a false false = .down ∧ edgeStep .b false true = .down ∧ stepCounts .x2 .b true = false ∧
      stepCounts .x1 .a true = true ∧ stepCounts .x1 .a false = false ∧ stepCounts .off .a true = false := by decide

/-- Point 0 at a position, its wrong-way and creep counters at 3. -/
def counted (x : Int) (s : State) : State :=
  s.modPoint 0 fun q => { q with capture := { q.capture with position := x, wrongWay := 3, creep := 3 } }

theorem test_meets_EncoderEdgeCounts :
    let latched := fun s : State => ((after (.encoderEdge 0 .a true) s).point 0).latched
    let placed := fun s : State => ((after (.encoderEdge 0 .a true) s).point 0).capture.position
    pair.resetAsserted = false ∧ (pair.point 0).capture.phaseA = false ∧ placed pair = 1 ∧
      placed (counted 1999999 single) = 2000000 ∧ placed (counted 2000000 single) = 2000000 ∧
      latched (counted 2000000 single) = some .positionRange ∧ latched (counted 5 pair) = some .creep ∧
      latched (counted 5 (drive 0 .down single)) = some .reversed ∧
      latched (counted 5 (rehearsing 0 pair)) = some .creep ∧
      placed (settling (.pointJog 0 .up)) = 1 ∧
      (placed (pair.modPoint 0 fun q => { q with settings := { q.settings with encoderMode := .off } })) = 0 := by
  decide

/-! ## Synchronised motion -/

/-- Member 0 leads member 1 by n counts in a RUNNING GROUP_BY. -/
def leading (n : Int) (s : State) : State :=
  let far : RunEntry → RunEntry := fun e => { e with target := some 900 }
  drive 0 .up (drive 1 .up (running
    (moving (.groupBy 900) .running [far { entryOf 0 with progress := n }, far (entryOf 1)]) s))

theorem test_meets_CountsAreEvaluatedAndSkewTrips :
    let s := leading 301 pair
    (s.group 1).trip = none ∧ (s.group 1).headIs (· == .running) = true ∧ (s.group 1).synchronised = true ∧
      (s.group 1).runList.Pairwise (fun x y => x.point < y.point) ∧
      (∀ x ∈ (s.group 1).runList, 0 ≤ x.progress ∧ (x.progress = 0 → (1 : PointIdx) ≤ x.point)) ∧
      ((s.group 1).tripBand : Int) < 301 - 0 ∧ (((s.evaluate 1).group 1).trip) = some ⟨.skew, some 1⟩ ∧
      ((leading 300 pair).evaluate 1).group 1 ≠ ((leading 301 pair).evaluate 1).group 1 ∧
      (((leading 300 pair).evaluate 1).group 1).trip = none := by decide

/-- A count recomputes its member's progress; while the move is STOPPING it does no more. -/
theorem test_meets_CountsAreEvaluatedAndSkewTrips_counts :
    ((leading 0 pair).group 1).entry 0 = some { entryOf 0 with target := some 900 } ∧
      (((after (.encoderEdge 0 .a true) (leading 0 pair)).group 1).entry 0).map (·.progress) = some 1 ∧
      (((after (.encoderEdge 0 .a true) (settling (.pointJog 0 .up))).group 1).entry 0).map (·.progress) = some 1 := by
  decide

/-- A jog 20 counts from its soft limit, its coast estimate, stops with the mark; 21 counts away it goes on. -/
theorem test_meets_CountsAreEvaluatedAndSkewTrips_jog :
    let at' := fun x : Int => single.modPoint 0 fun q => { q with capture := { q.capture with position := x } }
    (at' 1999980).queuesLawful ∧ (at' 1999980).referencedOf 0 = true ∧
      (((at' 1999980).evaluate 1).group 1).head.map (·.endMark) = some (some .softLimit) ∧
      (((at' 1999980).evaluate 1).group 1).state = .stopping ∧ (at' 1999979).evaluate 1 = at' 1999979 :=
  ⟨queuesLawful_of (by decide), by decide⟩

/-- At a lead of 41 the leader is gated; the minimum run has ended at 1.05 s and not at 1 s. -/
theorem test_meets_LeaderIsGated :
    let s := leading 41 pair
    let t := { s with time := 1050000 }
    (∀ x ∈ (s.group 1).runList, 0 ≤ x.progress ∧ x.progress - 0 ≤ ((s.group 1).tripBand : Int) ∧ x.gated = false ∧
        x.released = false ∧ (x.point ≠ 0 → x.progress - 0 ≤ ((s.group 1).gateBand : Int)) ∧
        ((s.point x.point).coast : Int) < (s.group 1).direction.sign * (900 - s.positionOf x.point)) ∧
      ((s.group 1).gateBand : Int) < 41 - 0 ∧ (s.point 0).channel.state.energized = true ∧
      (s.point 0).channel.deferredDue = none ∧ s.rehearsing 0 = false ∧
      (s.point 0).channel.lastOn + 1000 * (s.point 0).settings.tMinrun = t.time ∧
      (((s.evaluate 1).point 0).channel.deferredDue) = some 1050000 ∧
      ((t.evaluate 1).point 0).channel.state = .settle ∧
      (((leading 40 pair).evaluate 1).point 0).channel.deferredDue = none := by decide

/-- Points 0, 1 and 2 in group 1, in a RUNNING move of this kind with these entries; 0 is driven. -/
def trio (b : MoveBody) (l : List RunEntry) : State :=
  drive 0 .up (running (moving b .running l) (pair.modPoint 2 fun q => { q with group := 1 }))

/-- Of a jog: point 0 leads by 41 and point 1 by 50, which waits with a pending energize. -/
def leaders : State :=
  (trio (.groupJog .up) [{ entryOf 0 with progress := 41 }, { entryOf 1 with progress := 50 }, entryOf 2]).modPoint 1
    fun q => { q with channel := { q.channel with pending := some .up } }

/-- Two leaders of a jog are gated together. -/
theorem test_meets_LeaderIsGated_two_leaders :
    (∃ m, (leaders.group 1).queue = [m] ∧ leaders.onlyGates 1 m (entryOf 2)) ∧
      ((leaders.evaluate 1).group 1).runList.map (·.gated) = [true, true, false] ∧
      ((leaders.evaluate 1).point 0).channel.deferredDue = some 1050000 ∧
      ((leaders.evaluate 1).point 1).channel.pending = none := by
  refine ⟨⟨_, rfl, by decide, by decide, by decide, by decide, by decide, by decide, fun x hx => ?_⟩, by decide⟩
  refine ⟨?_, ?_, fun _ => ?_, fun _ => ⟨fun h => absurd h (by decide), ?_⟩⟩ <;> revert x <;> decide

/-- With one member gated, 21 counts ahead and so beyond the rejoin band, and one released, the third is gated alone. -/
theorem test_meets_LeaderIsGated_others_stay :
    let far : RunEntry → RunEntry := fun e => { e with target := some 900 }
    let l := [far { entryOf 0 with progress := 41 }, far { entryOf 1 with progress := 21, gated := true },
      far { entryOf 2 with released := true }]
    let s := trio (.groupBy 900) l
    (∃ m, (s.group 1).queue = [m] ∧ s.onlyGates 1 m (far { entryOf 2 with released := true })) ∧
      ((s.evaluate 1).group 1).runList = [far { entryOf 0 with progress := 41, gated := true }] ++ l.drop 1 ∧
      (s.evaluate 1).point 1 = s.point 1 := by
  refine ⟨⟨_, rfl, by decide, by decide, by decide, by decide, by decide, by decide, fun x hx => ?_⟩, by decide⟩
  refine ⟨?_, ?_, fun h => absurd h (by decide), fun hr => ⟨fun _ v hv => ?_, ?_⟩⟩
  · revert x; decide
  · revert x; decide
  · have ht : x.target = some 900 := by clear hv; revert x; decide
    obtain rfl : 900 = v := by rw [ht] at hv; exact Option.some.inj hv
    revert x; decide
  · revert x; decide

/-- Member 0 leads by n at position x with its channel at rest, with these flags, waiting for `pending`. -/
def resting (n x : Int) (gated : Bool) (pending : Option Dir) : State :=
  let far : RunEntry → RunEntry := fun e => { e with target := some 900 }
  (drive 1 .up (running
    (moving (.groupBy 900) .running [far { entryOf 0 with progress := n, gated := gated, settled := true }, far (entryOf 1)])
    pair)).modPoint 0 fun q =>
      { q with
        channel := { q.channel with pending := pending, lastDir := some .up, lastOff := 900000 }
        capture := { q.capture with position := x } }

theorem test_meets_LeaderIsGated_levelBut :
    ∃ m low, ((resting 20 20 true none).group 1).queue = [m] ∧ (resting 20 20 true none).levelBut 1 m 0 low := by
  refine ⟨_, { entryOf 1 with target := some 900 }, rfl, by decide, by decide, by decide, by decide, by decide, ?_⟩
  intro x hx
  rcases List.mem_cons.mp hx with rfl | hx
  · exact ⟨by decide, by decide, fun h => absurd h (by decide), fun h => absurd rfl h⟩
  · obtain rfl := List.mem_singleton.mp hx
    refine ⟨by decide, by decide, fun h => absurd h (by decide), fun _ => ⟨rfl, rfl, by decide, fun _ v hv => ?_⟩⟩
    cases hv
    decide

/-- Marked released 20 counts from the target; gated again at a lead of 41; a rejoin at a lead of 20 that is taken,
held, tripped for an open switch, and put off for a passed permit; none at a lead of 21. -/
theorem test_meets_LeaderIsGated_others :
    let entry := fun s : State => ((s.evaluate 1).group 1).entry 0
    let channel := fun s : State => ((s.evaluate 1).point 0).channel
    (entry (resting 20 880 true none)).map (fun e => (e.released, e.arrivalError)) = some (true, some (-20)) ∧
      (channel (resting 0 880 false (some .up))).pending = none ∧
      (entry (resting 0 880 false (some .up))).map (·.released) = some true ∧
      (entry (resting 41 41 false (some .up))).map (·.gated) = some true ∧
      (channel (resting 41 41 false (some .up))).pending = none ∧
      (entry (resting 20 20 true none)).map (fun e => (e.gated, e.settled)) = some (false, false) ∧
      (channel (resting 20 20 true none)).state = .up ∧ (channel (reversed (resting 20 20 true none))).pending = some .up ∧
      (((opened (resting 20 20 true none)).evaluate 1).group 1).trip = some ⟨.limit, some 0⟩ ∧
      (entry { resting 20 20 true none with time := 1000001 }).map (·.gated) = some true ∧
      (entry (resting 21 21 true none)).map (·.gated) = some true := by decide

/-- Point 0 is driven to a target 20 counts away, its coast estimate. -/
def nearTarget (v : Int) : State :=
  drive 0 .up (running { moving (.pointTo 0 v) .running [{ entryOf 0 with target := some v }] with toDirection := some .up } pair)

theorem test_meets_PointMoveStopsAtItsCoastLead :
    (nearTarget 20).rehearsing 0 = false ∧ ((nearTarget 20).point 0).channel.state.energized = true ∧
      ((nearTarget 20).group 1).direction.sign * (20 - (nearTarget 20).positionOf 0) = (20 : Nat) ∧
      (((nearTarget 20).evaluate 1).group 1).state = .stopping ∧ (nearTarget 21).evaluate 1 = nearTarget 21 := by
  decide

/-- A GROUP_BY of 900 up: point 0 is driven at 880, 20 counts short; member 1 is as given. -/
def levelling (st : MoveState) (other : RunEntry) : State :=
  (drive 0 .up (running (moving (.groupBy 900) st [{ entryOf 0 with target := some 900 }, { other with target := some 900 }])
    pair)).modPoint 0 fun q => { q with capture := { q.capture with position := 880 } }

theorem test_meets_PointMoveStopsAtItsCoastLead_levelBut :
    ∃ m low, ((levelling .running (entryOf 1)).group 1).queue = [m] ∧ (levelling .running (entryOf 1)).levelBut 1 m 0 low := by
  refine ⟨_, { entryOf 1 with target := some 900 }, rfl, by decide, by decide, by decide, by decide, by decide, ?_⟩
  intro x hx
  rcases List.mem_cons.mp hx with rfl | hx
  · exact ⟨by decide, by decide, fun h => absurd h (by decide), fun h => absurd rfl h⟩
  · obtain rfl := List.mem_singleton.mp hx
    refine ⟨by decide, by decide, fun h => absurd h (by decide), fun _ => ⟨rfl, rfl, by decide, fun _ v hv => ?_⟩⟩
    cases hv
    decide

/-- The first of two to arrive leaves the move as it is, starting or running; the last takes it to STOPPING, and the last
that rests gated in OFF ends it ARRIVED. A GROUP_BY of one member stops. -/
theorem test_meets_PointMoveStopsAtItsCoastLead_of_group :
    let seen := fun s : State => ((((s.evaluate 1).group 1).state, (((s.evaluate 1).group 1).entry 0).map (·.releasePos)))
    let there := { entryOf 1 with released := true, settled := true, arrivalError := some 3 }
    let rest' := { entryOf 0 with target := some 900, gated := true, settled := true }
    let last := (running (moving (.groupBy 900) .running [rest', there]) pair).modPoint 0 fun q =>
      { q with capture := { q.capture with position := 880 } }
    seen (levelling .running (entryOf 1)) = (.running, some (some 880)) ∧
      seen (levelling .starting (entryOf 1)) = (.starting, some (some 880)) ∧
      seen (levelling .running there) = (.stopping, some (some 880)) ∧
      ((levelling .running there).point 1).channel.quiet = true ∧ last.queuesLawful ∧ (last.point 0).channel.state = .off ∧
      ((last.evaluate 1).port .l).queue.map (·.body) = [.moveEnded .arrived 7 .groupBy none [(0, -20), (1, 3)]] ∧
      (((queued [moving (.groupBy 900) .running [{ entryOf 0 with target := some 900 }]] (levelling .running there)).evaluate
        1).group 1).state = .stopping :=
  ⟨by decide, by decide, by decide, by decide, queuesLawful_of (by decide), by decide⟩

/-- Released at 480 for a target of 500, at rest at 503: 23 counts of coast and an arrival error of 3. -/
theorem test_meets_ArrivalIsLearnedAndReported :
    let m := moving (.pointTo 0 500) .stopping [{ entryOf 0 with target := some 500, released := true, releasePos := some 480 }]
    let s := (queued [{ m with toDirection := some .up }] pair).modPoint 0 fun q =>
      { q with
        channel := { q.channel with state := .settle, lastDir := some .up, settleDue := some 1000000 }
        capture := { q.capture with position := 503 } }
    s.resetAsserted = false ∧ (s.point 0).channel.pending = none ∧ (s.point 0).staged = none ∧
      (s.group 1).rehearsal = false ∧ m.body.kind.jog = false ∧ (s.group 1).direction = .up ∧
      ((after (.settleEnd 0) s).point 0).coast = 21 ∧ ((after (.settleEnd 0) s).group 1).queue = [] ∧
      (((after (.settleEnd 0) s).port .b).queue.map (·.body)) =
        [.moveEnded .arrived 7 .pointTo (some 0) [(0, 3)]] := by decide

/-- Of two released members: the coast is learned in a driven move, not in rehearsal; the last to settle ends the move
ARRIVED with both pairs, by its mark, or holds it while the other is not released. -/
theorem test_meets_ArrivalIsLearnedAndReported_of_two :
    let gone := { entryOf 0 with target := some 500, released := true, releasePos := some 480 }
    let done := { entryOf 1 with target := some 500, released := true, settled := true, arrivalError := some (-2) }
    let two := fun (st : MoveState) (mark : Option EndMark) (other : RunEntry) =>
      (queued [{ moving (.groupBy 500) st [gone, other] with endMark := mark }] pair).modPoint 0 fun q =>
        { q with
          channel := { q.channel with state := .settle, lastDir := some .up, settleDue := some 1000000 }
          capture := { q.capture with position := 503 } }
    let ended := fun s : State => ((after (.settleEnd 0) s).port .b).queue.map (·.body)
    let t := after (.settleEnd 0) (two .running none { entryOf 1 with progress := 500 })
    (t.point 0).coast = 21 ∧ ((t.group 1).entry 0).map (fun e => (e.settled, e.arrivalError)) = some (true, some 3) ∧
      (t.group 1).state = .running ∧
      ((after (.settleEnd 0) (rehearsing 503 (two .running none { entryOf 1 with progress := 500 }))).point 0).coast = 20 ∧
      ((after (.settleEnd 0) (two .stopping none { done with settled := false })).group 1).state = .stopping ∧
      ended (two .stopping none done) = [.moveEnded .arrived 7 .groupBy none [(0, 3), (1, -2)]] ∧
      ended (two .stopping (some .limit) done) = [.moveEnded .limit 7 .groupBy none []] ∧
      ended (two .stopping none { done with released := false }) = [.moveHeld none 7 .groupBy none] := by decide

/-- A released member with a staged copy: its coast is learned, and the copy is applied before the move ends. -/
theorem test_meets_ArrivalIsLearnedAndReported_staged :
    let gone := { entryOf 0 with target := some 500, released := true, releasePos := some 480 }
    let s := (queued [moving (.groupBy 500) .stopping [gone]] pair).modPoint 0 fun q =>
      { q with
        channel := { q.channel with state := .settle, lastDir := some .up, settleDue := some 1000000 }
        capture := { q.capture with position := 503 }
        staged := some ⟨none, none, some 400, none, none, none, none⟩ }
    let t := after (.settleEnd 0) s
    ((t.point 0).coast, (t.point 0).settings.tGuard, (t.point 0).settings.tReverse) = (21, 400, 400) ∧
      (t.point 0).staged = none ∧ (t.group 1).queue = [] := by decide

/-! ## Faults, trips and ESTOP -/

theorem test_meets_FaultIsLatchedAndTripsItsMove :
    jogging.resetAsserted = false ∧ jogging.queuesLawful ∧ (jogging.point 0).latched = none ∧
      jogging.inActiveMove 0 = true ∧ (jogging.point 0).capture.stallDue = some 1000000 ∧ 1000000 ≤ jogging.time ∧
      ((after (.stallExpiry 0) jogging).group 1).trip = some ⟨.point, some 0⟩ ∧
      (((faulted .creep pair).raiseFault 0 .sensor).point 0).further = true :=
  ⟨by decide, queuesLawful_of (by decide), by decide⟩

/-- The reports of a fault on a member, in order, and of one on a point at rest. -/
theorem test_meets_FaultIsLatchedAndTripsItsMove_reports :
    let s := queued [moving (.groupJog .up) .running [entryOf 0, entryOf 1], waiting (.groupBy 9)] jogging
    let seen := fun t : State => (t.port .l).queue.map (·.body)
    s.queuesLawful ∧ (∀ j ∈ s.runPoints 1, s.rehearsing j = false) ∧
      seen (s.raiseFault 0 .stall) = [.pointFault .stall 0, .groupTripped .point (some 0) (some (7, .groupJog)),
        .moveEnded .aborted 7 .groupJog none [], .moveEnded .flushed 7 .groupBy none []] ∧
      pair.inActiveMove 0 = false ∧ seen (pair.raiseFault 0 .creep) = [.pointFault .creep 0] :=
  ⟨queuesLawful_of (by decide), by decide⟩

/-- A trip with cause SKEW and with cause LIMIT; in a TRIPPED group nothing. -/
theorem test_meets_FaultIsLatchedAndTripsItsMove_trip :
    let s := queued [moving (.groupJog .up) .running [entryOf 0, entryOf 1], waiting (.groupBy 9)] jogging
    (s.group 1).trip = none ∧ (∀ i ∈ s.runPoints 1, s.rehearsing i = false) ∧
      ((s.trip 1 .skew (some 1)).group 1).trip = some ⟨.skew, some 1⟩ ∧ ((s.trip 1 .skew (some 1)).group 1).queue = [] ∧
      ((s.trip 1 .limit none).port .b).queue.map (·.body) = [.groupTripped .limit none (some (7, .groupJog)),
        .moveEnded .aborted 7 .groupJog none [], .moveEnded .flushed 7 .groupBy none []] ∧
      ((s.trip 1 .limit none).point 0).channel.state = .settle ∧
      (tripped jogging).trip 1 .limit (some 0) = tripped jogging := by decide

/-- In a rehearsing group the trip keeps its cause and point while the coast of the other member raises POSITION_RANGE. -/
theorem test_meets_FaultIsLatchedAndTripsItsMove_rehearsing :
    let s := (rehearsing 0 jogging).modPoint 1 fun q =>
      { q with shadow := some { position := 2000000, referenced := true, simDue := none } }
    s.queuesLawful ∧ s.inActiveMove 0 = true ∧ ((s.raiseFault 0 .creep).group 1).trip = some ⟨.point, some 0⟩ ∧
      ((s.raiseFault 0 .creep).point 1).latched = some .positionRange :=
  ⟨queuesLawful_of (by decide), by decide⟩

theorem test_meets_ClearFaultClearsThePoint :
    (framed .l (hdr 15 0 0 0) (faulted .stall pair)).delivers .l ⟨[], 0⟩ .clearFault (good (hdr 15 0 0 0) []) ∧
      ((after (.clearFault .l ⟨[], 0⟩) (framed .l (hdr 15 0 0 0) (faulted .stall pair))).point 0).latched = none ∧
      resultOf .clearFault .a (hdr 15 0 0 0) [] (faulted .stall (settling (.pointJog 0 .up))) = .busy ∧
      (resultOf .clearFault .a (hdr 15 0 0 0) []
        ((faulted .sensor pair).modPoint 0 fun q => { q with load := { q.load with sensor := true } })) = .persists ∧
      resultOf .clearFault .l (hdr 15 0 0 0) [] (pair.setLevel .l 1 .view) = .noRight :=
  ⟨delivers_of (by decide), by decide⟩

theorem test_meets_ClearTripClearsTheGroup :
    (framed .b (hdr 16 1 0 0) (tripped pair)).delivers .b ⟨[], 0⟩ .clearTrip (good (hdr 16 1 0 0) []) ∧
      ((after (.clearTrip .b ⟨[], 0⟩) (framed .b (hdr 16 1 0 0) (tripped pair))).group 1).trip = none ∧
      resultOf .clearTrip .b (hdr 16 1 0 0) [] pair = .nothing ∧
      resultOf .clearTrip .b (hdr 16 1 0 0) [] { tripped pair with estop := true } = .estop ∧
      resultOf .clearTrip .b (hdr 16 1 0 0) [] (faulted .stall (tripped pair)) = .faulted :=
  ⟨delivers_of (by decide), by decide⟩

theorem test_meets_EstopStopsEverything :
    jogging.resetAsserted = false ∧ jogging.estop = false ∧ jogging.queuesLawful ∧
      (jogging.group 1).headIs (· != .queued) = true ∧ (∀ i, jogging.rehearsing i = false) ∧
      (jogging.group 0).headIs (· != .queued) = false ∧ ((after .estopAsserted jogging).group 1).state = .tripped :=
  ⟨by decide +kernel, by decide +kernel, queuesLawful_of (by decide +kernel), by decide +kernel⟩

/-- The reports of ESTOP, in order: group 0's waiting move is flushed before group 1 trips. -/
theorem test_meets_EstopStopsEverything_reports :
    let s := single.modGroup 0 fun r => { r with queue := [waiting (.groupBy 9)] }
    ((after .estopAsserted s).port .b).queue.map (·.body) =
      [.estop true, .moveEnded .flushed 7 .groupBy none [], .groupTripped .estop none (some (7, .pointJog)),
        .moveEnded .aborted 7 .pointJog (some 0) []] := by decide +kernel

theorem test_meets_EstopReleaseIsQualified :
    let s := after .estopLoopClosed (after .estopAsserted base)
    (after .estopAsserted base).estop = true ∧ (after .estopAsserted base).loopClosed = false ∧
      s.estopDue = some 1050000 ∧ (after .estopReleased s).estop = true ∧
      (after .estopReleased { s with time := 1050000 }).estop = false := by decide +kernel

/-! ## Limit switches -/

/-- The upper input of point 0 has been open for 3 ms. -/
def opening (s : State) : State :=
  s.modPoint 0 fun q => { q with switches := { q.switches with upperInput := false, upperDue := some 1000000 } }

theorem test_meets_LimitSwitchesAreQualified :
    let s := opening jogging
    (jogging.point 0).switches.input .upper = !false ∧ s.resetAsserted = false ∧
      (s.point 0).switches.due .upper = some 1000000 ∧ 1000000 ≤ s.time ∧ (s.point 0).switches.input .upper = false ∧
      (s.groupOf 0).inRunList 0 = true ∧ (s.groupOf 0).headIs MoveState.driving = true ∧ s.rehearsing 0 = false ∧
      ((after (.switchEvent 0 .upper) s).group 1).trip = some ⟨.limit, some 0⟩ ∧
      ((after (.switchEvent 0 .upper) (opening single)).group 1).state = .stopping ∧
      (after (.switchEvent 0 .upper) (opening pair)).group 1 = (opening pair).group 1 := by decide

/-- A closing, and an opening that leaves both switches open. -/
theorem test_meets_LimitSwitchesAreQualified_others :
    let closing := (opened pair).modPoint 0 fun q => { q with switches := { q.switches with upperInput := true, upperDue := some 1000000 } }
    let both := (opening pair).modPoint 0 fun q => { q with switches := { q.switches with lowerClosed := false, lowerInput := false } }
    ((after (.switchEvent 0 .upper) closing).point 0).switches.upperClosed = true ∧
      ((after (.switchEvent 0 .upper) both).point 0).latched = some .limitWiring ∧
      ((after (.limitInputChange 0 .lower false) pair).point 0).switches.lowerDue = some 1003000 := by decide

/-! ## Load -/

/-- The spec's example record: point 6, 655 daN, checksum 104 (12.6). -/
theorem test_example_load_record : sample 6 2 143 = [6, 2, 143, 104] ∧
    ((after (.loadRecord [6, 2, 143, 104]) base).point 6).load.filtered = some 655 ∧
    ((after (.loadRecord [6, 2, 143, 104]) base).point 6).load.state = .valid := by decide

/-- Chapter 4, "Filling the ring": the ninth sample, 628, after 620, 624, 623, 622, 625, 621, 619 and 626. -/
theorem test_example_filling_the_ring :
    let v := ([624, 623, 622, 625, 621, 619, 626].zip [1, 2, 3, 4, 5, 6, 7]).foldl
      (fun r x => pushSample (some r) x.2 x.1) (pushSample none 0 620)
    filterRing v = 622 ∧ filterRing (pushSample (some v) 0 628) = 624 ∧ nextRingIndex (some v) 7 = 0 ∧
      nextRingIndex none 0 = 1 := by decide

/-- Chapter 4, "Shares of a four-point move", and chapter 6: a learned coast estimate (R74, R122). -/
theorem test_example_shares_and_coast :
    [622, 610, 655, 601].map (fun v => roundDiv (v * 1024) 2488) = [256, 251, 270, 247] ∧ learnedCoast 20 23 = 21 ∧
      learnedCoast 20 22 = 20 := by decide

theorem test_meets_LoadRecordIsAssembledAndChecked :
    base.resetAsserted = false ∧ base.linkChars.length < 3 ∧ base.linkChars = [] ∧
      ((6#8).toNat + (2#8).toNat + (143#8).toNat + (105#8).toNat) % 256 ≠ 255 ∧ 24 ≤ (24#8).toNat ∧
      (after (.loadRecord [6]) base).linkGapDue = some 1000500 ∧
      (after .loadLinkGap { after (.loadRecord [6]) base with time := 1000500 }).linkChars = [] := by decide

theorem test_meets_SampleIsAccepted :
    ((0#8).toNat + (2#8).toNat + (143#8).toNat + (110#8).toNat) % 256 = 255 ∧ (0#8).toNat = (0 : PointIdx).val ∧
      (2#8 ++ 143#8).toInt = 655 ∧ (pair.point 0).load.ring = none ∧
      ((after (.loadRecord (sample 0 0x80 0)) pair).point 0).latched = some .sensor ∧
      after (.loadRecord (sample 0 0x80 0)) (after (.loadRecord (sample 0 0x80 0)) pair) =
        after (.loadRecord (sample 0 0x80 0)) pair ∧
      ((after (.loadRecord (sample 0 0xFF 0xFF)) pair).point 0).load.filtered = some 0 ∧
      ((after (.loadRecord (sample 0 0x04 0xB0)) pair).point 0).latched = some .overload := by decide

/-- OVERLOAD at the threshold, after LOAD_STATUS, and not raised while its excursion lasts. -/
theorem test_meets_SampleIsAccepted_overload :
    let heavy := fun s : State => (((after (.loadRecord (sample 0 0x04 0xB0)) s).port .a).queue.map (·.body))
    heavy pair = [.loadStatus .valid 1200 0, .pointFault .overload 0] ∧ (pair.groupOf 0).inRunList 0 = false ∧
      heavy (pair.modPoint 0 fun q => { q with load := { q.load with overExcursion := true } }) =
        [.loadStatus .valid 1200 0] := by decide

/-- UNDERLOAD below the threshold on a channel that is not OFF. -/
theorem test_meets_SampleIsAccepted_underload :
    let light := after (.loadRecord (sample 0 0 9))
      (single.modPoint 0 fun q => { q with settings := { q.settings with underThreshold := 10 } })
    ((light.port .a).queue.map (·.body)).take 2 = [.loadStatus .valid 9 0, .pointFault .underload 0] ∧
      (jogging.groupOf 0).inRunList 0 = true := by decide

/-- 12 / 8 is 1.5 and goes to 2; 20 / 8 is 2.5 and goes to 2 as well (R66). -/
theorem test_meets_SharesAreRoundedAndChecked : roundDiv 12 8 = 2 ∧ roundDiv 20 8 = 2 ∧ roundDiv 21 8 = 3 ∧ roundDiv 19 8 = 2 ∧
    12 = 1 * 8 + 4 ∧ 4 < 8 := by decide

/-- Two loaded members of a running move have shares of 1024 (R74). -/
theorem test_meets_SharesAreRoundedAndChecked_shares :
    (after (.loadRecord (sample 1 0 100)) (after (.loadRecord (sample 0 1 44)) jogging)).shares 1 =
      some [(0, 768), (1, 256)] := by decide

/-- Shares need a group kind, two members, VALID loads and a total above 0; without them, a baseline or a driven move the
share check does nothing. -/
theorem test_meets_SharesAreRoundedAndChecked_defined :
    let load := fun (a b : Nat) (s : State) => after (.loadRecord (sample 1 0 b)) (after (.loadRecord (sample 0 0 a)) s)
    let half := after (.loadRecord (sample 0 0 9)) jogging
    (load 0 0 jogging).shares 1 = none ∧ half.shares 1 = none ∧ (load 1 1 single).shares 1 = none ∧
      (load 1 1 pair).shares 1 = none ∧ (load 1 0 jogging).shares 1 = some [(0, 1024), (1, 0)] ∧
      half.shareCheck 1 = half ∧ (load 9 1 jogging).shareCheck 1 = load 9 1 jogging ∧
      (load 1 1 (rehearsing 0 jogging)).shareCheck 1 = load 1 1 (rehearsing 0 jogging) := by decide

/-- Deviations of 64 from a baseline pass the reset share band of 64, and of 65 trip, naming the lower point. -/
theorem test_meets_SharesAreRoundedAndChecked_check :
    let loaded := (after (.loadRecord (sample 1 0 100)) (after (.loadRecord (sample 0 1 44)) jogging))
    let based := fun n : Nat => loaded.modGroup 1 fun r => { r with baseline := some [(0, 768 + n), (1, 256 - n)] }
    ((based 65).group 1).headIs MoveState.driving = true ∧ ((based 65).group 1).rehearsal = false ∧
      (based 65).shares 1 = some [(0, 768), (1, 256)] ∧ (based 64).shareCheck 1 = based 64 ∧
      ((((based 65).shareCheck 1).group 1).trip) = some ⟨.share, some 0⟩ := by decide

theorem test_meets_AgeExpiryMakesTheLoadStale :
    let loaded := fun s : State => { after (.loadRecord (sample 0 1 44)) s with time := 1250000 }
    ((loaded pair).point 0).load.ageDue = some 1250000 ∧ 1250000 ≤ (loaded pair).time ∧
      ((loaded pair).point 0).channel.state = .off ∧ ((loaded jogging).point 0).channel.state = .up ∧
      ((after (.ageExpiry 0) (loaded pair)).point 0).latched = none ∧
      ((after (.ageExpiry 0) (loaded jogging)).point 0).latched = some .loadStale := by decide

/-! ## Rehearsal -/

theorem test_meets_RehearsalIsEnteredAndLeft :
    (framed .a (hdr 17 1 0 1) pair).delivers .a ⟨[], 0⟩ .rehearsal (good (hdr 17 1 0 1) []) ∧
      (pair.group 1).holder = some .a ∧ headerMode (hdr 17 1 0 1) = some true ∧ headerMode (hdr 17 1 0 2) = none ∧
      (pair.group 1).rehearsal = false ∧ (pair.group 1).state = .idle ∧ (pair.group 1).queue = [] ∧
      (∀ i, (pair.point i).group = 1 → (pair.point i).channel.state = .off) ∧
      ((after (.rehearsal .a ⟨[], 0⟩) (framed .a (hdr 17 1 0 1) pair)).point 0).shadow =
        some { position := 0, referenced := true, simDue := none } ∧
      ((after (.rehearsal .a ⟨[], 0⟩) (framed .a (hdr 17 1 0 0) (rehearsing 5 pair))).point 0).shadow = none ∧
      resultOf .rehearsal .b (hdr 17 1 0 1) [] pair = .notHolder ∧
      resultOf .rehearsal .a (hdr 17 1 0 2) [] pair = .badValue ∧
      resultOf .rehearsal .a (hdr 17 1 0 1) [] jogging = .busy ∧
      resultOf .rehearsal .a (hdr 17 1 0 1) [] { pair with estop := true } = .busy ∧
      resultOf .rehearsal .a (hdr 17 1 0 0) [] (rehearsing 0 jogging) = .busy :=
  ⟨delivers_of (by decide), by decide⟩

theorem test_meets_SimulatedCountMovesTheShadow :
    let s := rehearsing 1999999 single
    s.resetAsserted = false ∧ s.rehearsing 0 = true ∧
      (s.point 0).shadow = some { position := 1999999, referenced := true, simDue := some 1000000 } ∧
      1000000 ≤ s.time ∧ (s.point 0).channel.state = Dir.up.channelState ∧
      ((after (.simulatedCount 0) s).point 0).shadow.map (·.position) = some 2000000 ∧
      ((after (.simulatedCount 0) (rehearsing 2000000 single)).point 0).latched = some .positionRange ∧
      s.upOutput 0 = false := by decide

/-! ## Laws -/

theorem test_meets_DriveLawIsKept :
    State.reset.queuesLawful ∧ step State.reset = .next { State.reset with time := 1 } :=
  ⟨queuesLawful_of (by decide), rfl⟩

/-- The laws hold in a driving state too, so the premises of the invariants do not speak of rest alone. -/
theorem test_meets_QueuesStayLawful : jogging.queuesLawful ∧ jogging.driveLawful :=
  ⟨queuesLawful_of (by decide), by unfold State.driveLawful; decide⟩

theorem test_meets_RecordsStayLegal :
    jogging.positionsBounded ∧ jogging.reportsBounded ∧ jogging.settingsLegal ∧ jogging.holdersEntitled := by
  refine ⟨fun i => ⟨?_, ?_⟩, fun p => ?_, fun i => ⟨?_, ?_, ?_⟩, fun g p h => ?_⟩
  · revert i; decide
  · have h : ∀ j : PointIdx, (jogging.point j).shadow = none := by decide
    intro sh hs
    rw [h i] at hs
    exact absurd hs (by simp)
  · cases p <;> decide
  · revert i; unfold Settings.legal; decide
  · have h : ∀ j : PointIdx, (jogging.point j).staged = none := by decide
    intro k hk
    rw [h i] at hk
    exact absurd hk (by simp)
  · revert i; decide
  · have key : ∀ g : GroupIdx, ((jogging.group g).holder.all fun q => jogging.allowed q g .operate) = true := by
      decide +kernel
    have := key g
    rw [h] at this
    simpa using this

theorem test_meets_RecordsStayLegal_groups : jogging.groupSettingsLegal := by
  unfold State.groupSettingsLegal
  decide

/-- A drive without its law: a driven channel outside every run list. -/
theorem test_driveLawful_excludes : ¬ (drive 0 .up pair).driveLawful := by
  intro h
  exact absurd (h 0 (by decide)).1 (by decide)

end Sys2Proof.Tests
end

section
/-! Encoder capture and position supervision: SET_POSITION (R36, R37). -/

namespace Sys2Proof.Machine

/-! ## Reading the checks -/

/-- The rights test for SETUP asks for the SETUP level itself, the highest one (R126). -/
theorem State.allowed_setup_eq_true_iff (s : State) (p : Port) (g : GroupIdx) :
    s.allowed p g .setup = true ↔ s.level p g = .setup := by
  unfold State.allowed
  rw [decide_eq_true_iff]
  exact allowed_setup_iff _

/-- A group holds a point in a started move exactly while its head move has left QUEUED with the point in its run
list. -/
theorem Group.not_started_with_iff (r : Group) (i : PointIdx) :
    (r.inRunList i && r.headIs (· != .queued)) = false ↔
      ∀ m rest, r.queue = m :: rest → m.state ≠ .queued → ∀ e ∈ m.runList, e.point ≠ i := by
  cases h : r.queue with
  | nil => simp [Group.headIs, h]
  | cons m rest =>
    have hlist : r.inRunList i = m.runList.any (·.point == i) := by simp only [Group.inRunList, Group.runList, h]
    have hhead : r.headIs (· != .queued) = (m.state != .queued) := by simp only [Group.headIs, h]
    rw [hlist, hhead]
    by_cases q : m.state = .queued <;> simp [q]

/-- The third check of R36, as R36 words it. -/
theorem State.atRest_iff (s : State) (i : PointIdx) :
    s.atRest i = true ↔ (s.point i).channel.state = .off ∧ (s.groupOf i).rehearsal = false ∧
      ∀ m rest, (s.groupOf i).queue = m :: rest → m.state ≠ .queued → ∀ e ∈ m.runList, e.point ≠ i := by
  rw [← Group.not_started_with_iff]
  simp only [State.atRest, State.rehearsing, State.inStartedMove, Bool.and_eq_true, beq_iff_eq, Bool.not_eq_true',
    and_assoc]

/-! ## What SET_POSITION decides -/

/-- The clamp of R37 with its bounds written out. -/
theorem clampPosition_eq (v : Int) :
    clampPosition v = if v < -2000000 then -2000000 else if 2000000 < v then 2000000 else v := rfl

section
variable {s : State} {p : Port} {i : PointIdx} {f : GoodFrame}

theorem setPositionOwner_of_noRight (l : s.level p (s.point i).group ≠ .setup) :
    setPositionOwner p s i f = (s, .noRight) := by
  have refused := Bool.eq_false_iff.mpr (mt (s.allowed_setup_eq_true_iff p _).mp l)
  simp [setPositionOwner, refused]

theorem setPositionOwner_of_noEncoder (l : s.level p (s.point i).group = .setup)
    (m : (s.point i).settings.encoderMode = .off) : setPositionOwner p s i f = (s, .noEncoder) := by
  rw [← State.allowed_setup_eq_true_iff] at l
  simp [setPositionOwner, l, m]

theorem setPositionOwner_of_busy (l : s.level p (s.point i).group = .setup)
    (m : (s.point i).settings.encoderMode ≠ .off) (r : s.atRest i = false) :
    setPositionOwner p s i f = (s, .busy) := by
  rw [← State.allowed_setup_eq_true_iff] at l
  simp [setPositionOwner, l, m, r]

theorem setPositionOwner_of_accepted (l : s.level p (s.point i).group = .setup)
    (m : (s.point i).settings.encoderMode ≠ .off) (r : s.atRest i = true) :
    setPositionOwner p s i f =
      (s.modPoint i fun q => { q with capture := q.capture.setPosition (f.payload.getD 0 0).toInt }, .ok) := by
  rw [← State.allowed_setup_eq_true_iff] at l
  simp [setPositionOwner, l, m, r]

end

/-- Settles O20: the frame end is the owner's decision on the state after the frame (`exec_setPosition`), which the
frame's end leaves as it was for every check. -/
theorem setPositionReferencesThePoint : Obligations.SetPositionReferencesThePoint := by
  intro s p tail f i v hd hi hv
  rw [exec_setPosition hd hi]
  refine ⟨fun l => ?noRight, fun l m => ?noEncoder, fun l m r => ?busy, fun l m r => ?accepted, s.atRest_iff i⟩
  case noRight => rw [setPositionOwner_of_noRight (by simpa using l)]; rfl
  case noEncoder => rw [setPositionOwner_of_noEncoder (by simpa using l) (by simpa using m)]; rfl
  case busy => rw [setPositionOwner_of_busy (by simpa using l) (by simpa using m) (by simpa using r)]; rfl
  case accepted =>
    rw [setPositionOwner_of_accepted (by simpa using l) (by simpa using m) (by simpa using r), ← hv]
    simp only [State.concluded, Capture.setPosition, clampPosition_eq]

end Sys2Proof.Machine
end

section
/-! Load measurement: the end of a load's age (R68). -/

namespace Sys2Proof.Machine

/-! ## Driven channels and channels at rest -/

theorem ChannelState.energized_eq_true_iff (c : ChannelState) : c.energized = true ↔ c = .up ∨ c = .down := by
  cases c <;> simp [ChannelState.energized, ChannelState.dir]

theorem ChannelState.energized_eq_false_iff (c : ChannelState) : c.energized = false ↔ c = .off ∨ c = .settle := by
  cases c <;> simp [ChannelState.energized, ChannelState.dir]

/-! ## The point at the end of its age -/

/-- The point record that R68 leaves: the load STALE with its age timer stopped. -/
def Point.aged (p : Point) : Point := { p with load := { p.load with state := .stale, ageDue := none } }

@[simp] theorem Point.aged_group (p : Point) : p.aged.group = p.group := rfl
@[simp] theorem Point.aged_filtered (p : Point) : p.aged.load.filtered = p.load.filtered := rfl

/-- R68, for an expired age timer: the channel state of the moment decides between the fault and the report. -/
theorem State.ageExpiry_of_due {s : State} {i : PointIdx} (due : s.isDue (s.point i).load.ageDue = true) :
    s.ageExpiry i =
      if (s.point i).channel.state.energized then (s.setPoint i (s.point i).aged).raiseFault i .loadStale
      else (s.setPoint i (s.point i).aged).reportLoad i .stale := by
  unfold State.ageExpiry
  rw [if_pos due]
  rfl

/-- The LOAD_STATUS report of an aged load carries the group and the filtered load from before the expiry (R68). -/
theorem State.reportLoad_aged (s : State) (i : PointIdx) (st : LoadState) :
    (s.setPoint i (s.point i).aged).reportLoad i st =
      (s.setPoint i (s.point i).aged).produce (some (s.point i).group)
        (.loadStatus st ((s.point i).load.filtered.getD 0) i) := by
  simp only [State.reportLoad, State.filteredOf, State.point_setPoint_self, Point.aged_group, Point.aged_filtered]

/-- Settles O54: the expiry is due, so the channel state alone decides what it does (`State.ageExpiry_of_due`). -/
theorem ageExpiryMakesTheLoadStale : Obligations.AgeExpiryMakesTheLoadStale := by
  rintro s i due q s1 running rfl hdue passed rfl
  rw [exec_ageExpiry running, State.ageExpiry_of_due (State.isDue_of_le hdue passed)]
  refine ⟨fun driven => ?fault, fun resting => ?report⟩
  case fault =>
    rw [if_pos ((ChannelState.energized_eq_true_iff _).mpr driven)]
    rfl
  case report =>
    rw [(ChannelState.energized_eq_false_iff _).mpr resting, if_neg Bool.false_ne_true, State.reportLoad_aged]
    rfl

end Sys2Proof.Machine
end

section
/-! Groups: GROUP_SETUP (R81) and ASSIGN (R83). -/

namespace Sys2Proof.Machine

/-- A change of a group's record is known by what it makes of the record that stands there. -/
theorem State.modGroup_congr {s : State} {g : GroupIdx} {f k : Group → Group}
    (h : f (s.group g) = k (s.group g)) : s.modGroup g f = s.modGroup g k := by
  unfold State.modGroup
  rw [h]

/-- An owner's decision to change a group's record, in the same terms. -/
theorem State.concluded_modGroup_congr {s : State} {g : GroupIdx} {f k : Group → Group} {p : Port} {r : Result}
    (h : f (s.group g) = k (s.group g)) :
    State.concluded (s.modGroup g f, r) p = (s.modGroup g k).setResult p r := by
  rw [State.concluded, State.modGroup_congr h]

/-! ## The ranges and the named desk (R79, R81) -/

/-- A clamp into a range of natural numbers, as a maximum of a minimum. -/
theorem clampNat_eq {lo hi : Nat} (h : lo ≤ hi) (v : Int) :
    clampNat lo hi v = (max (lo : Int) (min (hi : Int) v)).toNat := by
  rw [clampNat, clampInt_eq _ _ _ (Int.ofNat_le.mpr h)]

/-- Only the port codes 1 and 2 name a desk (12.3). -/
theorem deskOfInt_isNone_iff (v : Int) : (deskOfInt v).isNone = true ↔ v ≠ 1 ∧ v ≠ 2 := by
  unfold deskOfInt
  by_cases a : v = 1
  · simp [a]
  · by_cases b : v = 2 <;> simp [a, b]

/-- The preferred desk that a write leaves, desk by desk. -/
theorem preferred_written (w : Option Int) (d : Desk) :
    (w.bind deskOfInt).getD d = if w = some 1 then .a else if w = some 2 then .b else d := by
  cases w with
  | none => rfl
  | some v =>
    simp only [Option.bind_some, deskOfInt, Option.some.injEq]
    split
    · rfl
    · split <;> rfl

/-! ## The written record (R81) -/

/-- The repair of R81 is a maximum. -/
theorem Group.raiseTripBand_eq (r : Group) :
    r.raiseTripBand = { r with tripBand := max r.tripBand (2 * r.gateBand) } := by
  unfold Group.raiseTripBand
  split
  · rw [Nat.max_eq_right (by omega)]
  · rw [Nat.max_eq_left (by omega)]

/-- The record after an accepted write set, field by field. -/
theorem Group.applyWrites_eq (r : Group) (w : GroupWrites) {gate trip : Nat}
    (hg : gate = (w.gateBand.map clampGateBand).getD r.gateBand)
    (ht : trip = (w.tripBand.map clampTripBand).getD r.tripBand) :
    r.applyWrites w =
      { r with
        gateBand := gate
        tripBand := if w.gateBand.isSome || w.tripBand.isSome then max trip (2 * gate) else trip
        shareBand := (w.shareBand.map clampShareBand).getD r.shareBand
        stagger := (w.stagger.map clampStagger).getD r.stagger
        window := (w.window.map clampWindow).getD r.window
        preferred := if w.preferred = some 1 then .a else if w.preferred = some 2 then .b else r.preferred
        localPriority := w.localPriority.getD r.localPriority } := by
  subst hg ht
  unfold Group.applyWrites
  simp only [preferred_written, Group.raiseTripBand_eq]
  split <;> rfl

/-! ## What GROUP_SETUP decides -/

section
variable {s : State} {p : Port} {g : GroupIdx} {f : GoodFrame} {w : GroupWrites}

theorem groupSetupOwner_of_noRight (l : s.level p g ≠ .setup) : groupSetupOwner p s g f = (s, .noRight) := by
  have refused := Bool.eq_false_iff.mpr (mt (s.allowed_setup_eq_true_iff p g).mp l)
  simp [groupSetupOwner, refused]

theorem groupSetupOwner_of_badValue {v : Int} (hw : w = decodeGroupWrites f.header f.payload)
    (l : s.level p g = .setup) (hv : w.preferred = some v) (ha : v ≠ 1) (hb : v ≠ 2) :
    groupSetupOwner p s g f = (s, .badValue) := by
  rw [← State.allowed_setup_eq_true_iff] at l
  have unnamed := (deskOfInt_isNone_iff v).mpr ⟨ha, hb⟩
  simp [groupSetupOwner, ← hw, l, hv, unnamed]

theorem groupSetupOwner_of_accepted (hw : w = decodeGroupWrites f.header f.payload) (l : s.level p g = .setup)
    (hv : w.preferred = none ∨ w.preferred = some 1 ∨ w.preferred = some 2) :
    groupSetupOwner p s g f = (s.modGroup g fun r => r.applyWrites w, .ok) := by
  rw [← State.allowed_setup_eq_true_iff] at l
  have named : (w.preferred.any fun v => (deskOfInt v).isNone) = false := by
    rcases hv with e | e | e <;> rw [e] <;> rfl
  simp [groupSetupOwner, ← hw, l, named]

end

/-- Settles O21: the ranges are clamps, and the frame end is the owner's decision (`exec_groupSetup`), whose write is
`Group.applyWrites_eq`. -/
theorem groupSetupWritesTheGroup : Obligations.GroupSetupWritesTheGroup := by
  refine ⟨fun v => ?ranges, fun s p tail f g w gate trip hd hi hw hg ht => ?request⟩
  case ranges =>
    exact ⟨clampNat_eq (by decide) v, clampNat_eq (by decide) v, clampNat_eq (by decide) v,
      clampNat_eq (by decide) v, clampNat_eq (by decide) v⟩
  case request =>
    rw [exec_groupSetup hd hi]
    rw [← State.group_afterFrame s p g] at hg ht
    refine ⟨fun l => ?noRight, fun v l hv ha hb => ?badValue, fun l hv => ?accepted⟩
    case noRight => rw [groupSetupOwner_of_noRight (by simpa using l)]; rfl
    case badValue => rw [groupSetupOwner_of_badValue hw (by simpa using l) hv ha hb]; rfl
    case accepted =>
      rw [groupSetupOwner_of_accepted hw (by simpa using l) hv]
      exact congrArg Host.Outcome.next (State.concluded_modGroup_congr (Group.applyWrites_eq _ w hg ht))

/-! ## What ASSIGN decides -/

/-- The second check of R83, as R83 words it. -/
theorem Group.assignable_iff (r : Group) :
    r.assignable = true ↔ r.state = .idle ∧ r.queue = [] ∧ r.rehearsal = false := by
  simp only [Group.assignable, Bool.and_eq_true, beq_iff_eq, List.isEmpty_iff, Bool.not_eq_true', and_assoc]

section
variable {s : State} {p : Port} {i : PointIdx} {n : GroupIdx} {f : GoodFrame}

theorem assignOwner_of_noRight (l : s.level p (s.point i).group ≠ .setup ∨ s.level p n ≠ .setup) :
    assignOwner p s (i, n) f = (s, .noRight) := by
  have refused : (s.allowed p (s.point i).group .setup && s.allowed p n .setup) = false := by
    rw [Bool.and_eq_false_iff, Bool.eq_false_iff, Bool.eq_false_iff]
    exact l.imp (mt (s.allowed_setup_eq_true_iff p _).mp) (mt (s.allowed_setup_eq_true_iff p n).mp)
  simp only [assignOwner, refused, Bool.not_false, if_true]

theorem assignOwner_of_busy (lo : s.level p (s.point i).group = .setup) (ln : s.level p n = .setup)
    (b : (s.group (s.point i).group).assignable = false ∨ (s.group n).assignable = false) :
    assignOwner p s (i, n) f = (s, .busy) := by
  rw [← State.allowed_setup_eq_true_iff] at lo ln
  have refused := Bool.and_eq_false_iff.mpr b
  simp [assignOwner, lo, ln, refused]

theorem assignOwner_of_accepted (lo : s.level p (s.point i).group = .setup) (ln : s.level p n = .setup)
    (ao : (s.group (s.point i).group).assignable = true) (an : (s.group n).assignable = true) :
    assignOwner p s (i, n) f = (s.modPoint i fun q => { q with group := n }, .ok) := by
  rw [← State.allowed_setup_eq_true_iff] at lo ln
  simp [assignOwner, lo, ln, ao, an]

end

/-- Settles O22: the frame end is the owner's decision on the state after the frame (`exec_assign`), whose checks read
the levels, the groups and the point as they stood before it. -/
theorem assignMovesThePoint : Obligations.AssignMovesThePoint := by
  rintro s p tail f i o n hd hi hn rfl
  rw [exec_assign hd hi hn]
  refine ⟨fun l => ?noRight, fun lo ln b => ?busy, fun lo ln ao an => ?accepted, fun g => (s.group g).assignable_iff⟩
  case noRight => rw [assignOwner_of_noRight (by simpa using l)]; rfl
  case busy => rw [assignOwner_of_busy (by simpa using lo) (by simpa using ln) (by simpa using b)]; rfl
  case accepted =>
    rw [assignOwner_of_accepted (by simpa using lo) (by simpa using ln) (by simpa using ao) (by simpa using an)]
    rfl

end Sys2Proof.Machine
end

section
/-! Move queues: the ends of moves and CANCEL (R89, R102). -/

namespace Sys2Proof.Machine

/-! ## The end of one move (R89) -/

/-- A move ended without a named point has the report of its own point (R89). -/
theorem Move.endedBody_unnamed (m : Move) (o : Outcome) :
    m.endedBody o none [] = .moveEnded o m.tag m.body.kind m.body.point [] := by
  rw [Move.endedBody, Option.or_none]

/-- The end of the head move: its report, and the record without it. -/
theorem State.endHead_of_queue {s : State} {g : GroupIdx} {m : Move} {rest : List Move}
    (h : (s.group g).queue = m :: rest) (o : Outcome) :
    s.endHead g o = (State.reportEnd g o s m).modGroup g Group.dropHead := by
  have head : (s.group g).head = some m := by rw [Group.head, h]; rfl
  simp only [State.endHead, head, Move.endedBody_unnamed, State.reportEnd]

theorem Group.dropHead_of_queue {r : Group} {m : Move} {rest : List Move} (h : r.queue = m :: rest) :
    r.dropHead =
      { r with queue := rest, schedule := [], permit := none, stopReason := none, baseline := none } := by
  rw [Group.dropHead, h, List.tail_cons]

/-! ## The ends of a whole queue (R102, R144, R151) -/

/-- The record of a group whose every move has ended. -/
def Group.emptied (r : Group) : Group :=
  { r with queue := [], schedule := [], permit := none, stopReason := none, baseline := none }

@[simp] theorem Group.emptied_dropHead (r : Group) : r.dropHead.emptied = r.emptied := rfl

/-- The reports of a list of ended moves, the oldest first. -/
def State.reportEnds (s : State) (g : GroupIdx) (o : Move → Outcome) (q : List Move) : State :=
  q.foldl (fun u m => State.reportEnd g (o m) u m) s

@[simp] theorem State.reportEnds_nil (s : State) (g : GroupIdx) (o : Move → Outcome) : s.reportEnds g o [] = s := rfl

@[simp] theorem State.reportEnds_cons (s : State) (g : GroupIdx) (o : Move → Outcome) (m : Move) (q : List Move) :
    s.reportEnds g o (m :: q) = (State.reportEnd g (o m) s m).reportEnds g o q := rfl

/-- The reports of ended moves do not see that the queue grows shorter under them. -/
theorem State.reportEnds_dropHead (g : GroupIdx) (o : Move → Outcome) (q : List Move) (s : State) :
    (s.modGroup g Group.dropHead).reportEnds g o q = (s.reportEnds g o q).modGroup g Group.dropHead := by
  induction q generalizing s with
  | nil => rfl
  | cons m q ih =>
    have step : State.reportEnd g (o m) (s.modGroup g Group.dropHead) m =
        (State.reportEnd g (o m) s m).modGroup g Group.dropHead := State.produce_modGroup s g _ _ _ _ rfl
    rw [State.reportEnds_cons, State.reportEnds_cons, step, ih]

/-- Every move of a queue with a head ends: their reports, the head's first, and the record without them. -/
theorem State.endAll_of_queue {s : State} {g : GroupIdx} {m : Move} {rest : List Move}
    (h : (s.group g).queue = m :: rest) (o : Move → Outcome) :
    s.endAll g o = (s.reportEnds g o (m :: rest)).modGroup g Group.emptied := by
  induction rest generalizing s m with
  | nil =>
    have one : s.endAll g o = s.endHead g (o m) := by rw [State.endAll, h]; rfl
    rw [one, State.endHead_of_queue h]
    exact State.modGroup_congr (Group.dropHead_of_queue h)
  | cons m' rest ih =>
    have after : ((s.endHead g (o m)).group g).queue = m' :: rest := by rw [State.endHead_queue, h]; rfl
    calc s.endAll g o
        = (s.endHead g (o m)).endAll g o := by rw [State.endAll, State.endAll, h, after]; rfl
      _ = ((s.endHead g (o m)).reportEnds g o (m' :: rest)).modGroup g Group.emptied := ih after
      _ = ((s.reportEnds g o (m :: m' :: rest)).modGroup g Group.dropHead).modGroup g Group.emptied := by
          rw [State.endHead_of_queue h, State.reportEnds_dropHead, State.reportEnds_cons s]
      _ = (s.reportEnds g o (m :: m' :: rest)).modGroup g Group.emptied := by
          simp only [State.modGroup_modGroup, Group.emptied_dropHead]

/-! ## What CANCEL decides -/

/-- The states in which R102 accepts a CANCEL are those of a group that is not moving (R79). -/
theorem GroupState.not_moving_iff (x : GroupState) :
    x.moving = false ↔ (x = .idle ∨ x = .held ∨ x = .tripped) := by
  cases x <;> decide

section
variable {s : State} {p : Port} {g : GroupIdx} {f : GoodFrame}

theorem cancelOwner_of_notHolder (h : (s.group g).holder ≠ some p) : cancelOwner p s g f = (s, .notHolder) := by
  simp [cancelOwner, h]

theorem cancelOwner_of_busy (h : (s.group g).holder = some p) (m : (s.group g).state.moving = true) :
    cancelOwner p s g f = (s, .busy) := by
  simp [cancelOwner, h, m]

theorem cancelOwner_of_nothing (h : (s.group g).holder = some p) (m : (s.group g).state.moving = false)
    (q : (s.group g).queue = []) : cancelOwner p s g f = (s, .nothing) := by
  simp [cancelOwner, h, m, q]

theorem cancelOwner_of_head (h : (s.group g).holder = some p) (m : (s.group g).state.moving = false)
    (q : (s.group g).queue ≠ []) (scope : bitsOf f.header 0 0 = 0) :
    cancelOwner p s g f = (s.endHead g .cancelled, .ok) := by
  simp [cancelOwner, h, m, q, headerScopeAll, scope]

theorem cancelOwner_of_all (h : (s.group g).holder = some p) (m : (s.group g).state.moving = false)
    (q : (s.group g).queue ≠ []) (scope : bitsOf f.header 0 0 = 1) :
    cancelOwner p s g f = (s.endAll g fun _ => .cancelled, .ok) := by
  simp [cancelOwner, h, m, q, headerScopeAll, scope]

end

/-- Settles O32: the frame end is the owner's decision on the state after the frame (`exec_cancel`). HEAD is the end of
one move, ALL the ends of the whole queue (`State.endAll_of_queue`). -/
theorem cancelEndsTheMoves : Obligations.CancelEndsTheMoves := by
  rintro s p tail f g r report hd hi rfl hreport
  obtain rfl : report = State.reportEnd g .cancelled := funext fun u => funext (hreport u)
  rw [exec_cancel hd hi, ← State.group_afterFrame s p g, ← GroupState.moving_iff, ← GroupState.not_moving_iff]
  refine ⟨fun h => ?notHolder, fun h m => ?busy, fun h m => ⟨fun q => ?nothing, fun x rest q scope => ?head,
    fun q scope => ?all⟩⟩
  case notHolder => rw [cancelOwner_of_notHolder h]; rfl
  case busy => rw [cancelOwner_of_busy h m]; rfl
  case nothing => rw [cancelOwner_of_nothing h m q]; rfl
  case head =>
    rw [cancelOwner_of_head h m (q ▸ List.cons_ne_nil x rest) scope, State.endHead_of_queue q]
    exact congrArg Host.Outcome.next (State.concluded_modGroup_congr (Group.dropHead_of_queue q))
  case all =>
    obtain ⟨x, rest, e⟩ := List.exists_cons_of_ne_nil q
    rw [cancelOwner_of_all h m q scope, State.endAll_of_queue e, e]
    rfl

end Sys2Proof.Machine
end

section
/-! Authority: TAKE (R130 to R132) and RELEASE (R135). -/

namespace Sys2Proof.Machine

/-! ## Rights and rank (R126, R130) -/

/-- A port lacks OPERATE exactly at the two levels below it (R126). -/
theorem State.allowed_operate_eq_false_iff (s : State) (p : Port) (g : GroupIdx) :
    s.allowed p g .operate = false ↔ s.level p g = .none ∨ s.level p g = .view := by
  unfold State.allowed
  rw [decide_eq_false_iff_not, allowed_operate_iff, not_not]

/-- The three ports in the rank order of a group, the first first (R130). -/
def Group.rankOrder (r : Group) : List Port :=
  let desks := [deskPort r.preferred, deskPort (otherDesk r.preferred)]
  if r.localPriority then .l :: desks else desks ++ [.l]

/-- The rank of a port is its place in the rank order. -/
theorem Group.rank_eq_idxOf (r : Group) (q : Port) : r.rank q = r.rankOrder.idxOf q := by
  unfold Group.rank Group.rankOrder
  cases r.localPriority <;> cases r.preferred <;> cases q <;> rfl

theorem Group.outranks_eq (r : Group) (p q : Port) :
    r.outranks p q = decide (r.rankOrder.idxOf p < r.rankOrder.idxOf q) := by
  rw [Group.outranks, Group.rank_eq_idxOf, Group.rank_eq_idxOf]

/-! ## What TAKE decides (R131) -/

section
variable {s : State} {p q : Port} {g : GroupIdx} {f : GoodFrame}

theorem takeOwner_of_noRight (l : s.allowed p g .operate = false) : takeOwner p s g f = (s, .noRight) := by
  simp [takeOwner, l]

theorem takeOwner_of_holder (l : s.allowed p g .operate = true) (h : (s.group g).holder = some p) :
    takeOwner p s g f = (s, .ok) := by
  simp [takeOwner, l, h]

theorem takeOwner_of_free (l : s.allowed p g .operate = true) (h : (s.group g).holder = none) :
    takeOwner p s g f = (s.grant g p, .ok) := by
  simp [takeOwner, l, h]

theorem takeOwner_of_busy (l : s.allowed p g .operate = true) (h : (s.group g).holder = some q) (ne : q ≠ p)
    (m : (s.group g).state.moving = true) : takeOwner p s g f = (s, .busy) := by
  simp [takeOwner, l, h, ne, m]

theorem takeOwner_of_displaceable (l : s.allowed p g .operate = true) (h : (s.group g).holder = some q) (ne : q ≠ p)
    (m : (s.group g).state.moving = false) (d : (s.port q).silent = true ∨ (s.group g).outranks p q = true) :
    takeOwner p s g f = (s.grant g p, .ok) := by
  rcases d with silent | above
  · simp [takeOwner, l, h, ne, m, silent]
  · simp [takeOwner, l, h, ne, m, above]

theorem takeOwner_of_outranked (l : s.allowed p g .operate = true) (h : (s.group g).holder = some q) (ne : q ≠ p)
    (m : (s.group g).state.moving = false) (live : (s.port q).silent = false)
    (below : (s.group g).outranks p q = false) : takeOwner p s g f = (s, .outranked) := by
  simp [takeOwner, l, h, ne, m, live, below]

end

/-- The end of a frame tells nothing about the silence of another port (R172). -/
theorem State.silent_afterFrame_ne (s : State) {p q : Port} (h : q ≠ p) :
    ((s.afterFrame p).port q).silent = (s.port q).silent :=
  (s.port_afterFrame_ne h.symm).silent

/-- A grant at the end of a frame reports the holder and the state of before the frame (R132). -/
theorem State.grant_afterFrame (s : State) (p : Port) (g : GroupIdx) :
    (s.afterFrame p).grant g p = ((s.afterFrame p).modGroup g fun r => { r with holder := some p }).produce (some g)
      (.authority .take (some p) (s.group g).holder (s.group g).state) := by
  rw [State.grant, State.group_afterFrame]

/-- Settles O24: the frame end is the owner's decision on the state after the frame (`exec_take`), whose checks read the
rights, the group and the holder's silence as they stood before it; the rank is the place in the rank order
(`Group.rank_eq_idxOf`). -/
theorem takeFollowsItsTable : Obligations.TakeFollowsItsTable := by
  rintro s p tail f g r order granted hd hi rfl horder rfl
  obtain rfl : order = (s.group g).rankOrder := by
    rw [horder, Group.rankOrder]
    cases (s.group g).localPriority <;> cases (s.group g).preferred <;> rfl
  rw [exec_take hd hi, ← State.grant_afterFrame, ← State.group_afterFrame s p]
  simp only [← State.allowed_operate_eq_false_iff, ← State.allowed_afterFrame s p, ← GroupState.moving_iff]
  refine congrArg Host.Outcome.next ?_
  split_ifs with l held free m d
  · rw [takeOwner_of_noRight l]; rfl
  all_goals rw [Bool.not_eq_false] at l
  · rw [takeOwner_of_holder l held]; rfl
  · rw [takeOwner_of_free l free]; rfl
  all_goals
    obtain ⟨q, h⟩ := Option.ne_none_iff_exists'.mp free
    have other : q ≠ p := by rintro rfl; exact held h
  · rw [takeOwner_of_busy l h other m]; rfl
  all_goals
    rw [Bool.not_eq_true] at m
    rw [h, Option.any_some, ← Group.outranks_eq, ← s.silent_afterFrame_ne other] at d
  · rw [takeOwner_of_displaceable l h other m (Bool.or_eq_true_iff.mp d)]; rfl
  · obtain ⟨live, below⟩ := Bool.or_eq_false_iff.mp (Bool.eq_false_iff.mpr d)
    rw [takeOwner_of_outranked l h other m live below]
    rfl

/-! ## What RELEASE decides (R135) -/

/-- The removal of a holder whose group's head move does not drive stops nothing: the report carries the state as it
was (R135, R137). -/
theorem State.removeHolder_of_not_driving {s : State} {g : GroupIdx} (c : AuthorityCause)
    (h : (s.group g).headIs MoveState.driving = false) :
    s.removeHolder g c = (s.modGroup g fun r => { r with holder := none }).produce (some g)
      (.authority c none (s.group g).holder (s.group g).state) := by
  have idle : ((s.modGroup g fun r => { r with holder := none }).group g).headIs MoveState.driving = false := by
    rw [State.group_modGroup_self]; exact h
  have state : (s.modGroup g fun r => { r with holder := none }).stateAfterRemoval g = (s.group g).state := by
    rw [State.stateAfterRemoval, State.enterStopping_idle _ _ idle, State.group_modGroup_self]
    exact Group.state_congr rfl rfl
  rw [State.removeHolder, State.dropHolder, state]
  exact State.enterStopping_idle _ _ idle

section
variable {s : State} {p : Port} {g : GroupIdx} {f : GoodFrame}

theorem releaseOwner_of_noRight (l : s.allowed p g .operate = false) : releaseOwner p s g f = (s, .noRight) := by
  simp [releaseOwner, l]

theorem releaseOwner_of_notHolder (l : s.allowed p g .operate = true) (h : (s.group g).holder ≠ some p) :
    releaseOwner p s g f = (s, .notHolder) := by
  simp [releaseOwner, l, h]

theorem releaseOwner_of_busy (l : s.allowed p g .operate = true) (h : (s.group g).holder = some p)
    (m : (s.group g).state.moving = true) : releaseOwner p s g f = (s, .busy) := by
  simp [releaseOwner, l, h, m]

theorem releaseOwner_of_accepted (l : s.allowed p g .operate = true) (h : (s.group g).holder = some p)
    (m : (s.group g).state.moving = false) : releaseOwner p s g f = (s.removeHolder g .release, .ok) := by
  simp [releaseOwner, l, h, m]

end

/-- Settles O25: the frame end is the owner's decision on the state after the frame (`exec_release`). Under R85 a group
that is not moving has no driving head (`Group.not_driving_of_not_moving`), so the removal of its holder stops
nothing. -/
theorem releaseRemovesTheHolder : Obligations.ReleaseRemovesTheHolder := by
  rintro s p tail f g r hd hi rfl lawful
  rw [exec_release hd hi, ← State.group_afterFrame s p]
  simp only [← State.allowed_operate_eq_false_iff, ← State.allowed_afterFrame s p, ← GroupState.moving_iff]
  refine congrArg Host.Outcome.next ?_
  split_ifs with l h m
  · rw [releaseOwner_of_noRight l]; rfl
  all_goals rw [Bool.not_eq_false] at l
  · rw [releaseOwner_of_notHolder l h]; rfl
  all_goals rw [not_not] at h
  · rw [releaseOwner_of_busy l h m]; rfl
  · rw [Bool.not_eq_true] at m
    have rest : ((s.afterFrame p).group g).headIs MoveState.driving = false :=
      Group.not_driving_of_not_moving (by rw [State.group_afterFrame]; exact lawful g) m
    rw [releaseOwner_of_accepted l h m, State.removeHolder_of_not_driving _ rest, h]
    rfl

end Sys2Proof.Machine
end

section
/-! Clearing: CLEAR_FAULT (R147, R148, R72) and CLEAR_TRIP (R149). -/

namespace Sys2Proof.Machine

/-! ## When the latched fault persists (R148, R72) -/

theorem Point.overloaded_of_filtered {q : Point} {v : Nat} (h : q.load.filtered = some v) :
    q.overloaded = decide (q.settings.overThreshold ≤ v) := by
  rw [Point.overloaded, h, Option.any_some]

theorem Point.overloaded_of_unfiltered {q : Point} (h : q.load.filtered = none) : q.overloaded = false := by
  rw [Point.overloaded, h, Option.any_none]

theorem Point.persists_of_unlatched {q : Point} (h : q.latched = none) : q.persists = false := by
  simp only [Point.persists, h]

theorem Point.persists_of_limitWiring {q : Point} (h : q.latched = some .limitWiring) :
    q.persists = (!q.switches.upperClosed && !q.switches.lowerClosed) := by
  simp only [Point.persists, h]

theorem Point.persists_of_overload {q : Point} (h : q.latched = some .overload) : q.persists = q.overloaded := by
  simp only [Point.persists, h]

theorem Point.persists_of_loadStale {q : Point} (h : q.latched = some .loadStale) :
    q.persists = (q.load.state == .stale) := by
  simp only [Point.persists, h]

theorem Point.persists_of_sensor {q : Point} (h : q.latched = some .sensor) : q.persists = q.load.sensor := by
  simp only [Point.persists, h]

/-- The codes that describe an event and no standing condition never persist (R148). -/
theorem Point.persists_of_event {q : Point} {c : FaultCode} (h : q.latched = some c)
    (m : c = .stall ∨ c = .reversed ∨ c = .creep ∨ c = .positionRange ∨ c = .underload) : q.persists = false := by
  rcases m with rfl | rfl | rfl | rfl | rfl <;> simp only [Point.persists, h]

/-! ## What CLEAR_FAULT decides (R147) -/

section
variable {s : State} {p : Port} {i : PointIdx} {f : GoodFrame}

theorem clearFaultOwner_of_noRight (l : s.allowed p (s.point i).group .operate = false) :
    clearFaultOwner p s i f = (s, .noRight) := by
  simp [clearFaultOwner, l]

theorem clearFaultOwner_of_busy (l : s.allowed p (s.point i).group .operate = true)
    (c : (s.point i).channel.state ≠ .off) : clearFaultOwner p s i f = (s, .busy) := by
  simp [clearFaultOwner, l, c]

theorem clearFaultOwner_of_persists (l : s.allowed p (s.point i).group .operate = true)
    (c : (s.point i).channel.state = .off) (v : (s.point i).persists = true) :
    clearFaultOwner p s i f = (s, .persists) := by
  simp [clearFaultOwner, l, c, v]

theorem clearFaultOwner_of_accepted (l : s.allowed p (s.point i).group .operate = true)
    (c : (s.point i).channel.state = .off) (v : (s.point i).persists = false) :
    clearFaultOwner p s i f = (s.modPoint i Point.clear, .ok) := by
  simp [clearFaultOwner, l, c, v]

end

/-- Settles O46: the frame end is the owner's decision on the state after the frame (`exec_clearFault`), whose checks
read the rights and the point as they stood before it. The verdict on persistence is that of the latched code alone. -/
theorem clearFaultClearsThePoint : Obligations.ClearFaultClearsThePoint := by
  rintro s p tail f i q persists hd hi rfl hpersists
  obtain rfl : persists = (s.point i).persists := by
    rw [hpersists]
    cases h : (s.point i).latched with
    | none => rw [Point.persists_of_unlatched h]
    | some c =>
      cases c with
      | limitWiring => rw [Point.persists_of_limitWiring h]
      | overload =>
        rw [Point.persists_of_overload h]
        cases load : (s.point i).load.filtered with
        | none => rw [Point.overloaded_of_unfiltered load]
        | some v => rw [Point.overloaded_of_filtered load]
      | loadStale => rw [Point.persists_of_loadStale h]
      | sensor => rw [Point.persists_of_sensor h]
      | stall | reversed | creep | positionRange | underload => rw [Point.persists_of_event h (by decide)]
  rw [exec_clearFault hd hi, ← State.point_afterFrame s p]
  simp only [← State.allowed_operate_eq_false_iff, ← State.allowed_afterFrame s p]
  refine congrArg Host.Outcome.next ?_
  split_ifs with l c v
  · rw [clearFaultOwner_of_noRight l]; rfl
  all_goals rw [Bool.not_eq_false] at l
  · rw [clearFaultOwner_of_busy l c]; rfl
  all_goals rw [not_not] at c
  · rw [clearFaultOwner_of_persists l c v]; rfl
  · rw [Bool.not_eq_true] at v
    rw [clearFaultOwner_of_accepted l c v]
    rfl

/-! ## What CLEAR_TRIP decides (R149) -/

/-- A test over the members of a group is a test over all points that asks for the group first. -/
theorem State.members_any (s : State) (g : GroupIdx) (k : PointIdx → Bool) :
    (s.members g).any k = allPoints.any fun i => (s.point i).group == g && k i := by
  rw [State.members, List.any_filter]

section
variable {s : State} {p : Port} {g : GroupIdx} {f : GoodFrame}

theorem clearTripOwner_of_noRight (l : s.allowed p g .operate = false) : clearTripOwner p s g f = (s, .noRight) := by
  simp [clearTripOwner, l]

theorem clearTripOwner_of_nothing (l : s.allowed p g .operate = true) (t : (s.group g).trip = none) :
    clearTripOwner p s g f = (s, .nothing) := by
  have untripped : (s.group g).state ≠ .tripped := fun h => (Group.state_eq_tripped _).mp h t
  simp [clearTripOwner, l, untripped]

theorem clearTripOwner_of_estop (l : s.allowed p g .operate = true) (t : (s.group g).trip ≠ none)
    (e : s.estop = true) : clearTripOwner p s g f = (s, .estop) := by
  rw [← Group.state_eq_tripped] at t
  simp [clearTripOwner, l, t, e]

theorem clearTripOwner_of_faulted (l : s.allowed p g .operate = true) (t : (s.group g).trip ≠ none)
    (e : s.estop = false) (m : ((s.members g).any fun i => (s.point i).latched.isSome) = true) :
    clearTripOwner p s g f = (s, .faulted) := by
  rw [← Group.state_eq_tripped] at t
  simp only [clearTripOwner, l, t, e, m, bne_self_eq_false, Bool.not_true, Bool.false_eq_true, if_false, if_true]

theorem clearTripOwner_of_accepted (l : s.allowed p g .operate = true) (t : (s.group g).trip ≠ none)
    (e : s.estop = false) (m : ((s.members g).any fun i => (s.point i).latched.isSome) = false) :
    clearTripOwner p s g f =
      ((s.modGroup g fun r => { r with trip := none }).produce (some g) .tripCleared, .ok) := by
  rw [← Group.state_eq_tripped] at t
  simp only [clearTripOwner, l, t, e, m, bne_self_eq_false, Bool.not_true, Bool.false_eq_true, if_false]

end

/-- Settles O47: the frame end is the owner's decision on the state after the frame (`exec_clearTrip`), whose checks
read the rights, the group, the ESTOP state and the members' faults as they stood before it. A group is TRIPPED exactly
while it has a trip cause (`Group.state_eq_tripped`). -/
theorem clearTripClearsTheGroup : Obligations.ClearTripClearsTheGroup := by
  intro s p tail f g hd hi
  rw [exec_clearTrip hd hi, ← State.group_afterFrame s p, ← State.estop_afterFrame s p]
  simp only [← State.point_afterFrame s p, ← State.members_any, ← State.allowed_operate_eq_false_iff,
    ← State.allowed_afterFrame s p]
  refine congrArg Host.Outcome.next ?_
  split_ifs with l t e m
  · rw [clearTripOwner_of_noRight l]; rfl
  all_goals rw [Bool.not_eq_false] at l
  · rw [clearTripOwner_of_nothing l t]; rfl
  · rw [clearTripOwner_of_estop l t e]; rfl
  all_goals rw [Bool.not_eq_true] at e
  · rw [clearTripOwner_of_faulted l t e m]; rfl
  · rw [Bool.not_eq_true] at m
    rw [clearTripOwner_of_accepted l t e m]
    rfl

end Sys2Proof.Machine
end

section
/-! Rehearsal mode: REHEARSAL (R156), the entry (R157) and the leave (R158). -/

namespace Sys2Proof.Machine

/-! ## One change made to several point records -/

/-- The state with one change made to the record of each listed point. -/
def State.modPoints (s : State) (l : List PointIdx) (f : Point → Point) : State :=
  l.foldl (fun t i => t.modPoint i f) s

/-- Nothing but point records changes. -/
theorem State.modPoints_eq (s : State) (l : List PointIdx) (f : Point → Point) :
    s.modPoints l f = { s with points := (s.modPoints l f).points } := by
  induction l generalizing s with
  | nil => rfl
  | cons i l ih => exact ih (s.modPoint i f)

@[simp] theorem State.group_modPoints (s : State) (l : List PointIdx) (f : Point → Point) (h : GroupIdx) :
    (s.modPoints l f).group h = s.group h := by
  rw [s.modPoints_eq l f]; rfl

@[simp] theorem State.ports_modPoints (s : State) (l : List PointIdx) (f : Point → Point) :
    (s.modPoints l f).ports = s.ports := by
  rw [s.modPoints_eq l f]

@[simp] theorem State.rights_modPoints (s : State) (l : List PointIdx) (f : Point → Point) :
    (s.modPoints l f).rights = s.rights := by
  rw [s.modPoints_eq l f]

theorem State.point_modPoints_of_notMem {l : List PointIdx} {i : PointIdx} (h : i ∉ l) (s : State)
    (f : Point → Point) : (s.modPoints l f).point i = s.point i := by
  induction l generalizing s with
  | nil => rfl
  | cons j l ih =>
    obtain ⟨other, rest⟩ := List.ne_and_not_mem_of_not_mem_cons h
    calc (s.modPoints (j :: l) f).point i
        = (s.modPoint j f).point i := ih rest (s.modPoint j f)
      _ = s.point i := State.point_modPoint_ne s (Ne.symm other) f

/-- A point that is listed once is changed once. -/
theorem State.point_modPoints_of_mem {l : List PointIdx} {i : PointIdx} (once : l.Nodup) (h : i ∈ l) (s : State)
    (f : Point → Point) : (s.modPoints l f).point i = f (s.point i) := by
  induction l generalizing s with
  | nil => exact absurd h List.not_mem_nil
  | cons j l ih =>
    obtain ⟨fresh, once⟩ := List.nodup_cons.mp once
    rcases List.mem_cons.mp h with rfl | later
    · calc (s.modPoints (i :: l) f).point i
          = (s.modPoint i f).point i := State.point_modPoints_of_notMem fresh (s.modPoint i f) f
        _ = f (s.point i) := State.point_modPoint_self s i f
    · have other : j ≠ i := fun e => fresh (e ▸ later)
      calc (s.modPoints (j :: l) f).point i
          = f ((s.modPoint j f).point i) := ih once later (s.modPoint j f)
        _ = f (s.point i) := by rw [State.point_modPoint_ne s other f]

/-! ## The members of a group (R80) -/

theorem State.mem_members (s : State) (g : GroupIdx) (i : PointIdx) : i ∈ s.members g ↔ (s.point i).group = g := by
  simp [State.members, mem_allPoints]

theorem State.nodup_members (s : State) (g : GroupIdx) : (s.members g).Nodup :=
  List.Nodup.filter _ (by decide)

/-! ## The mode set on or off (R157, R158) -/

/-- Group g's rehearsal mode set, and one change made to the record of each of its members. -/
def State.setRehearsal (s : State) (g : GroupIdx) (on : Bool) (k : Point → Point) : State :=
  (s.modGroup g fun r => { r with rehearsal := on }).modPoints (s.members g) k

theorem State.enterRehearsal_eq (s : State) (g : GroupIdx) :
    s.enterRehearsal g = s.setRehearsal g true Point.enterRehearsal := rfl

theorem State.leaveRehearsal_eq (s : State) (g : GroupIdx) :
    s.leaveRehearsal g = s.setRehearsal g false fun q => { q with shadow := none } := rfl

section
variable (s : State) (g : GroupIdx) (on : Bool) (k : Point → Point)

@[simp] theorem State.ports_setRehearsal : (s.setRehearsal g on k).ports = s.ports :=
  State.ports_modPoints _ _ _

@[simp] theorem State.rights_setRehearsal : (s.setRehearsal g on k).rights = s.rights :=
  State.rights_modPoints _ _ _

@[simp] theorem State.group_setRehearsal_self :
    (s.setRehearsal g on k).group g = { s.group g with rehearsal := on } := by
  rw [State.setRehearsal, State.group_modPoints, State.group_modGroup_self]

theorem State.group_setRehearsal_ne {h : GroupIdx} (ne : h ≠ g) : (s.setRehearsal g on k).group h = s.group h := by
  rw [State.setRehearsal, State.group_modPoints, State.group_modGroup_ne s ne.symm]

theorem State.point_setRehearsal_member {i : PointIdx} (h : (s.point i).group = g) :
    (s.setRehearsal g on k).point i = k (s.point i) :=
  State.point_modPoints_of_mem (s.nodup_members g) ((s.mem_members g i).mpr h) _ k

theorem State.point_setRehearsal_other {i : PointIdx} (h : (s.point i).group ≠ g) :
    (s.setRehearsal g on k).point i = s.point i :=
  State.point_modPoints_of_notMem (mt (s.mem_members g i).mp h) _ k

end

/-! ## What REHEARSAL decides (R156) -/

/-- Case 5 of R156 does not apply, as R156 words it. -/
theorem State.mayEnterRehearsal_iff (s : State) (g : GroupIdx) :
    s.mayEnterRehearsal g = true ↔ (s.group g).state = .idle ∧ (s.group g).queue = [] ∧
      ∀ i, (s.point i).group = g → (s.point i).channel.state = .off := by
  simp only [State.mayEnterRehearsal, Bool.and_eq_true, beq_iff_eq, List.isEmpty_iff, List.all_eq_true,
    State.mem_members, and_assoc]

/-- Case 6 of R156 does not apply, as R156 words it. -/
theorem Group.mayLeaveRehearsal_iff (r : Group) :
    r.mayLeaveRehearsal = true ↔ r.state = .tripped ∨ (r.state = .idle ∧ r.queue = []) := by
  simp only [Group.mayLeaveRehearsal, Bool.or_eq_true, Bool.and_eq_true, beq_iff_eq, List.isEmpty_iff, or_comm]

section
variable {s : State} {p : Port} {g : GroupIdx} {f : GoodFrame} {on : Bool}

theorem rehearsalOwner_of_notHolder (h : (s.group g).holder ≠ some p) :
    rehearsalOwner p s g f = (s, .notHolder) := by
  simp [rehearsalOwner, h]

theorem rehearsalOwner_of_badValue (h : (s.group g).holder = some p) (m : headerMode f.header = none) :
    rehearsalOwner p s g f = (s, .badValue) := by
  simp [rehearsalOwner, h, m]

theorem rehearsalOwner_of_estop (h : (s.group g).holder = some p) (m : headerMode f.header = some on)
    (e : s.estop = true) : rehearsalOwner p s g f = (s, .busy) := by
  simp [rehearsalOwner, h, m, e]

theorem rehearsalOwner_of_same (h : (s.group g).holder = some p) (m : headerMode f.header = some on)
    (e : s.estop = false) (same : on = (s.group g).rehearsal) : rehearsalOwner p s g f = (s, .ok) := by
  simp [rehearsalOwner, h, m, e, same]

theorem rehearsalOwner_of_entry (h : (s.group g).holder = some p) (m : headerMode f.header = some true)
    (e : s.estop = false) (off : (s.group g).rehearsal = false) :
    rehearsalOwner p s g f = if s.mayEnterRehearsal g then (s.enterRehearsal g, .ok) else (s, .busy) := by
  simp [rehearsalOwner, h, m, e, off]

theorem rehearsalOwner_of_leave (h : (s.group g).holder = some p) (m : headerMode f.header = some false)
    (e : s.estop = false) (running : (s.group g).rehearsal = true) :
    rehearsalOwner p s g f =
      if (s.group g).mayLeaveRehearsal then (s.leaveRehearsal g, .ok) else (s, .busy) := by
  simp [rehearsalOwner, h, m, e, running]

end

/-- The results of a frame end on states with the same ports leave the same ports. -/
theorem State.ports_setResult_congr {s t : State} (h : s.ports = t.ports) (p : Port) (r : Result) :
    (s.setResult p r).ports = (t.setResult p r).ports := by
  simp only [State.setResult, State.modPort, State.port, h]

/-- The frame end at which the mode is set: the group's mode, its members' records and the port's result change, and no
other group, right or point. -/
theorem exec_rehearsal_of_setRehearsal {s : State} {p : Port} {tail : FrameTail} {f : GoodFrame} {g : GroupIdx} {on : Bool}
    {k : Point → Point} (hd : s.delivers p tail .rehearsal f) (hi : headerIndex f.header = g.val)
    (accepted : rehearsalOwner p (s.afterFrame p) g f = ((s.afterFrame p).setRehearsal g on k, .ok)) :
    ∃ t, exec (.rehearsal p tail) s = .next t ∧ t.group g = { s.group g with rehearsal := on } ∧
      (∀ h, h ≠ g → t.group h = s.group h) ∧ t.ports = (s.answered p .ok).ports ∧ t.rights = s.rights ∧
      (∀ i, (s.point i).group ≠ g → t.point i = s.point i) ∧
      ∀ i, (s.point i).group = g → t.point i = k (s.point i) := by
  refine ⟨((s.afterFrame p).setRehearsal g on k).setResult p .ok, ?_, ?_, fun h ne => ?_, ?_, ?_,
    fun i other => ?_, fun i member => ?_⟩
  · rw [exec_rehearsal hd hi, accepted]; rfl
  · simp
  · simp [State.group_setRehearsal_ne _ _ _ _ ne]
  · exact State.ports_setResult_congr (State.ports_setRehearsal _ _ _ _) p .ok
  · simp
  · simp [State.point_setRehearsal_other (s.afterFrame p) g on k (by simpa using other)]
  · simp [State.point_setRehearsal_member (s.afterFrame p) g on k (by simpa using member)]

/-- Settles O55: the frame end is the owner's decision on the state after the frame (`exec_rehearsal`), whose checks read
the group, the ESTOP state and the members as they stood before it; the entry and the leave are both a mode that is set
(`exec_rehearsal_of_setRehearsal`). -/
theorem rehearsalIsEnteredAndLeft : Obligations.RehearsalIsEnteredAndLeft := by
  rintro s p tail f g r hd hi rfl
  have decided := exec_rehearsal hd hi
  have enter := (s.afterFrame p).mayEnterRehearsal_iff g
  have leave := ((s.afterFrame p).group g).mayLeaveRehearsal_iff
  rw [← State.group_afterFrame s p g, ← State.estop_afterFrame s p]
  refine ⟨fun h => ?notHolder, fun h => ⟨fun m => ?badValue, fun on m => ⟨fun e => ?estop, fun e same => ?same,
    ?entryBusy, ?leaveBusy, ?entry, ?leave⟩⟩⟩
  case notHolder => rw [decided, rehearsalOwner_of_notHolder h]; rfl
  case badValue => rw [decided, rehearsalOwner_of_badValue h m]; rfl
  case estop => rw [decided, rehearsalOwner_of_estop h m e]; rfl
  case same => rw [decided, rehearsalOwner_of_same h m e same]; rfl
  case entryBusy =>
    rintro e rfl off unready
    have refused : ¬ (s.afterFrame p).mayEnterRehearsal g = true := by
      rw [enter]
      rintro ⟨idle, empty, rest⟩
      rcases unready with busy | queued | ⟨i, member, driven⟩
      · exact busy idle
      · exact queued empty
      · exact driven (by simpa using rest i (by simpa using member))
    rw [decided, rehearsalOwner_of_entry h m e off, if_neg refused]; rfl
  case leaveBusy =>
    rintro e rfl running untripped unready
    have refused : ¬ ((s.afterFrame p).group g).mayLeaveRehearsal = true := by
      rw [leave]
      rintro (tripped | ⟨idle, empty⟩)
      · exact untripped tripped
      · exact unready.elim (· idle) (· empty)
    rw [decided, rehearsalOwner_of_leave h m e running, if_neg refused]; rfl
  case entry =>
    rintro e rfl off idle empty rest
    have ready := enter.mpr ⟨idle, empty, by simpa using rest⟩
    have accepted := rehearsalOwner_of_entry h m e off
    rw [if_pos ready, State.enterRehearsal_eq] at accepted
    rw [State.group_afterFrame]
    exact exec_rehearsal_of_setRehearsal hd hi accepted
  case leave =>
    rintro e rfl running ready
    have accepted := rehearsalOwner_of_leave h m e running
    rw [if_pos (leave.mpr ready), State.leaveRehearsal_eq] at accepted
    rw [State.group_afterFrame]
    exact exec_rehearsal_of_setRehearsal hd hi accepted

end Sys2Proof.Machine
end

section
/-! Console ports and frames: the start of a frame (R165, R185) and the status word (12.2). -/

namespace Sys2Proof.Machine

/-! ## Bits hi..lo of a word put together from fields -/

theorem bitsOf_testBit (w : Word) (hi lo k : Nat) :
    (bitsOf w hi lo).testBit k = (decide (k < hi + 1 - lo) && w.getLsbD (lo + k)) := by
  rw [bitsOf, Nat.testBit_mod_two_pow, Nat.testBit_shiftRight]
  rfl

theorem bitsOf_zero (hi lo : Nat) : bitsOf 0 hi lo = 0 := by
  simp [bitsOf]

theorem bitsOf_or (a b : Word) (hi lo : Nat) : bitsOf (a ||| b) hi lo = bitsOf a hi lo ||| bitsOf b hi lo := by
  simp only [bitsOf, BitVec.toNat_or, Nat.shiftRight_or_distrib, Nat.or_mod_two_pow]

/-- A field is read back at its own place. -/
theorem bitsOf_field_self {width hi lo n : Nat} (h : lo + width ≤ 32) (place : hi + 1 = lo + width)
    (fits : n < 2 ^ width) : bitsOf (field width lo n) hi lo = n := by
  have whole : hi + 1 - lo = width := by omega
  have own : (BitVec.ofNat width n).toNat = n := Nat.mod_eq_of_lt fits
  rw [bitsOf, whole, field_toNat _ _ _ h, own, Nat.shiftLeft_shiftRight, Nat.mod_eq_of_lt fits]

/-- A field that lies wholly below or wholly above the bits read adds nothing to them. -/
theorem bitsOf_field_apart {width place n hi lo : Nat} (h : place + width ≤ 32)
    (apart : place + width ≤ lo ∨ hi < place) : bitsOf (field width place n) hi lo = 0 := by
  refine Nat.eq_of_testBit_eq fun k => ?_
  have outside : ¬ (k < hi + 1 - lo ∧ place ≤ lo + k ∧ lo + k < place + width) := by omega
  rw [bitsOf_testBit, field_getLsbD _ _ _ _ h, Nat.zero_testBit, ← Bool.and_assoc, ← Bool.decide_and,
    decide_eq_false outside, Bool.false_and]

/-! ## The status word -/

theorem State.anyTripped_iff (s : State) : s.anyTripped = true ↔ ∃ g, (s.group g).state = .tripped := by
  simp [State.anyTripped, mem_allGroups]

theorem State.anyMoving_iff (s : State) : s.anyMoving = true ↔ ∃ g,
    (s.group g).state = .starting ∨ (s.group g).state = .running ∨ (s.group g).state = .stopping := by
  simp [State.anyMoving, mem_allGroups, GroupState.moving_iff]

theorem State.anyRehearsing_iff (s : State) : s.anyRehearsing = true ↔ ∃ g, (s.group g).rehearsal = true := by
  simp [State.anyRehearsing, mem_allGroups]

theorem resultCode_lt (r : Result) : resultCode r < 2 ^ 5 := by
  cases r <;> decide

theorem portCode_lt (p : Option Port) : portCode p < 2 ^ 2 := by
  rcases p with _ | _ | _ | _ <;> decide

/-- A bit of the status word from 27 up is the flag that stands there: the fields end at bit 26 (12.2). -/
theorem State.statusWord_getLsbD (s : State) (p : Port) (k : Nat) (h : 27 ≤ k) :
    (s.statusWord p).getLsbD k =
      (decide (k = 31) && s.estop || decide (k = 30) && s.anyTripped || decide (k = 29) && s.anyMoving ||
        decide (k = 28) && s.anyRehearsing || decide (k = 27) && (s.port p).lost) := by
  have past (width lo n : Nat) (fits : lo + width ≤ 27) : (field width lo n).getLsbD k = false := by
    rw [field_getLsbD _ _ _ _ (by omega), decide_eq_false (by omega), Bool.false_and]
  rw [State.statusWord, pack_getLsbD]
  simp (discharger := decide) only [List.any_cons, List.any_nil, flag_getLsbD, past, Bool.or_false, Bool.or_assoc]

/-- Bits of the status word from 26 down are read from its three fields: the flags stand above them (12.2). -/
theorem State.bitsOf_statusWord (s : State) (p : Port) (hi lo : Nat) (h : hi ≤ 26) :
    bitsOf (s.statusWord p) hi lo = bitsOf (field 6 21 (s.port p).queue.length) hi lo |||
      bitsOf (field 5 16 (resultCode (s.port p).lastResult)) hi lo ||| bitsOf (field 2 14 (portCode (some p))) hi lo := by
  have above (place : Nat) (b : Bool) (fits : 27 ≤ place ∧ place ≤ 31) : bitsOf (flag place b) hi lo = 0 :=
    bitsOf_field_apart (by omega) (.inr (by omega))
  simp (discharger := decide) only [State.statusWord, pack, List.foldl_cons, List.foldl_nil, bitsOf_or, bitsOf_zero,
    above, Nat.zero_or]

section
variable (s : State) (p : Port)

/-- The 6-bit queue count does not wrap: a port queues at most 32 records (R179). -/
theorem State.statusWord_queue (short : (s.port p).queue.length ≤ 32) :
    bitsOf (s.statusWord p) 26 21 = (s.port p).queue.length := by
  have fits : (s.port p).queue.length < 2 ^ 6 := by omega
  rw [s.bitsOf_statusWord p _ _ (by decide), bitsOf_field_self (by decide) (by decide) fits,
    bitsOf_field_apart (by decide) (by decide), bitsOf_field_apart (by decide) (by decide), Nat.or_zero, Nat.or_zero]

theorem State.statusWord_result : bitsOf (s.statusWord p) 20 16 = resultCode (s.port p).lastResult := by
  rw [s.bitsOf_statusWord p _ _ (by decide), bitsOf_field_apart (by decide) (by decide),
    bitsOf_field_self (by decide) (by decide) (resultCode_lt _), bitsOf_field_apart (by decide) (by decide),
    Nat.zero_or, Nat.or_zero]

theorem State.statusWord_port : bitsOf (s.statusWord p) 15 14 = portCode (some p) := by
  rw [s.bitsOf_statusWord p _ _ (by decide), bitsOf_field_apart (by decide) (by decide),
    bitsOf_field_apart (by decide) (by decide), bitsOf_field_self (by decide) (by decide) (portCode_lt _),
    Nat.zero_or, Nat.zero_or]

theorem State.statusWord_reserved : bitsOf (s.statusWord p) 13 0 = 0 := by
  rw [s.bitsOf_statusWord p _ _ (by decide), bitsOf_field_apart (by decide) (by decide),
    bitsOf_field_apart (by decide) (by decide), bitsOf_field_apart (by decide) (by decide), Nat.or_zero, Nat.or_zero]

end

/-! ## The start of a frame -/

/-- At a port with no frame in progress the start of one captures the status word and the CRC settings (R165). -/
theorem State.startFrame_of_noFrame {s : State} {p : Port} (idle : (s.port p).frame = none) :
    s.startFrame p = s.modPort p fun ps =>
      { ps with
        frame := some
          { status := s.statusWord p, crcOn := ps.crcOn, seed := ps.seed, words := [], reply := [], popCount := 0
            popEmpty := true } } := by
  rw [State.startFrame, idle]
  rfl

/-- Word 0 of a frame is the captured status word (R165). -/
@[simp] theorem Frame.driven_zero (f : Frame) : f.driven 0 = f.status := rfl

/-- Settles O6: the flags of the status word are read bit by bit (`State.statusWord_getLsbD`), its fields at their places
(`State.bitsOf_statusWord`). -/
theorem frameStartCapturesTheStatusWord : Obligations.FrameStartCapturesTheStatusWord := by
  refine ⟨fun s p running idle => ?start, Frame.driven_zero, ?word⟩
  case start => rw [exec_frameStart running, State.startFrame_of_noFrame idle]
  case word =>
    rintro s p _ rfl short
    have bit := s.statusWord_getLsbD p
    refine ⟨?estop, ?tripped, ?moving, ?rehearsing, ?lost, s.statusWord_queue p short, s.statusWord_result p, ?port,
      s.statusWord_reserved p⟩
    case estop => rw [bit 31 (by decide)]; simp
    case tripped => rw [bit 30 (by decide), ← s.anyTripped_iff]; simp
    case moving => rw [bit 29 (by decide), ← s.anyMoving_iff]; simp
    case rehearsing => rw [bit 28 (by decide), ← s.anyRehearsing_iff]; simp
    case lost => rw [bit 27 (by decide)]; simp
    case port => rw [s.statusWord_port p]; cases p <;> rfl

end Sys2Proof.Machine
end

section
/-! Report queues: the records that the header of a POP_REPORT chooses (R180). -/

namespace Sys2Proof.Machine

/-! ## Whole records from the head while they fit (R180) -/

theorem chooseRecords_cons (n : Nat) (r : Report) (rest : List Report) :
    chooseRecords n (r :: rest) = if r.length ≤ n then r :: chooseRecords (n - r.length) rest else [] := rfl

theorem chooseRecords_prefix (n : Nat) (queue : List Report) : chooseRecords n queue <+: queue := by
  induction queue generalizing n with
  | nil => exact List.nil_prefix
  | cons r rest ih =>
    rw [chooseRecords_cons]
    split
    case isTrue => exact (List.prefix_cons_inj r).mpr (ih _)
    case isFalse => exact List.nil_prefix

/-- As many records are taken from the head as are chosen. -/
theorem take_length_chooseRecords (n : Nat) (queue : List Report) :
    queue.take (chooseRecords n queue).length = chooseRecords n queue :=
  (List.prefix_iff_eq_take.mp (chooseRecords_prefix n queue)).symm

theorem chooseRecords_sum_le (n : Nat) (queue : List Report) :
    ((chooseRecords n queue).map Report.length).sum ≤ n := by
  induction queue generalizing n with
  | nil => exact Nat.zero_le n
  | cons r rest ih =>
    rw [chooseRecords_cons]
    split
    case isTrue fits =>
      have restFits := ih (n - r.length)
      rw [List.map_cons, List.sum_cons]
      omega
    case isFalse => exact Nat.zero_le n

/-- The choice stops at the first record that does not fit: with the record after the chosen ones the words are more
than n. -/
theorem lt_sum_take_succ_chooseRecords {n : Nat} {queue : List Report}
    (more : (chooseRecords n queue).length < queue.length) :
    n < ((queue.take ((chooseRecords n queue).length + 1)).map Report.length).sum := by
  induction queue generalizing n with
  | nil => exact absurd more (Nat.not_lt_zero _)
  | cons r rest ih =>
    rw [chooseRecords_cons] at more ⊢
    split at more
    case isTrue fits =>
      have beyond := ih (Nat.lt_of_succ_lt_succ more)
      rw [if_pos fits, List.length_cons, List.take_succ_cons, List.map_cons, List.sum_cons]
      omega
    case isFalse tooLong =>
      rw [if_neg tooLong]
      simpa using Nat.lt_of_not_le tooLong

/-! ## The header is complete (R171, R180) -/

/-- The first header of a frame in progress becomes its first word, and the frame takes its snapshot. -/
theorem State.completeHeader_of_noWords {s : State} {p : Port} {f : Frame} (inProgress : (s.port p).frame = some f)
    (noWords : f.words = []) (h : Word) :
    s.completeHeader p h = s.modPort p fun ps =>
      { ps with
        frame := some
          { f with
            words := [h]
            reply := s.replyWords p h
            popCount := (chooseRecords (headerLength h) ps.queue).length
            popEmpty := ps.queue.isEmpty } } := by
  rw [State.completeHeader, inProgress]
  exact if_pos (List.isEmpty_iff.mpr noWords)

theorem State.replyWords_of_popReport (s : State) (p : Port) {h : Word} (pops : headerRequest h = some .popReport) :
    s.replyWords p h = (chooseRecords (headerLength h) (s.port p).queue).flatMap Report.words := by
  rw [State.replyWords, pops]

/-- The `length` words after the status word are the reply's, then zero words (R166). -/
theorem Frame.driven_succ_of_lt {f : Frame} {h : Word} {rest : List Word} (headed : f.words = h :: rest) {j : Nat}
    (within : j < headerLength h) : f.driven (j + 1) = f.reply.getD j 0 := by
  rw [Frame.driven, if_neg (Nat.succ_ne_zero j), headed]
  exact if_pos within

/-- Settles O8: the chosen records are a prefix of the queue (`chooseRecords_prefix`) that fits
(`chooseRecords_sum_le`) and stops where the next record does not (`lt_sum_take_succ_chooseRecords`). -/
theorem headerChoosesWholeRecords : Obligations.HeaderChoosesWholeRecords := by
  intro s p f h running inProgress noWords pops
  have step := exec_headerComplete running p h
  rw [State.completeHeader_of_noWords inProgress noWords] at step
  refine ⟨_, _, step, by rw [State.port_modPort_self], by rw [State.port_modPort_self],
    (chooseRecords_prefix _ _).length_le, rfl, ?reply, fun j within => Frame.driven_succ_of_lt rfl within, ?fits,
    lt_sum_take_succ_chooseRecords⟩
  case reply => rw [take_length_chooseRecords, State.replyWords_of_popReport s p pops]
  case fits =>
    rw [take_length_chooseRecords]
    exact chooseRecords_sum_le _ _

end Sys2Proof.Machine
end

section
/-! What one command does to the state, and the laws that every command keeps (R24, R41, R79, R81, R85, R129, R161,
R179): the relation `KeepsLaws` passes through each operation once, and the invariants are read off it. -/

namespace Sys2Proof.Machine

/-! ## The effect of a command -/

/-- The state that a command leads to while RESET is not asserted. -/
def effect (c : Instr) (s : State) : State :=
  match c with
  | .deviceReset levels => s.deviceReset levels
  | .resetAsserted => s.assertReset
  | .frameStart p => s.startFrame p
  | .headerComplete p h => s.completeHeader p h
  | .badFrame p tail => s.endBadFrame p tail
  | .unknownRequest p tail => s.refuseUnknown p tail
  | .nop p tail => s.takeRequest p tail .nop anyIndex fun s _ _ => (s, .ok)
  | .readTable p tail => s.takeRequest p tail .readTable tableIndex readTableOwner
  | .pointSetup p tail => s.takeRequest p tail .pointSetup pointIndex (pointSetupOwner p)
  | .groupSetup p tail => s.takeRequest p tail .groupSetup groupIndex (groupSetupOwner p)
  | .portSetup p tail => s.takeRequest p tail .portSetup anyIndex (portSetupOwner p)
  | .setRights p tail => s.takeRequest p tail .setRights groupIndex (setRightsOwner p)
  | .assign p tail => s.takeRequest p tail .assign assignIndex (assignOwner p)
  | .setPosition p tail => s.takeRequest p tail .setPosition pointIndex (setPositionOwner p)
  | .take p tail => s.takeRequest p tail .take groupIndex (takeOwner p)
  | .release p tail => s.takeRequest p tail .release groupIndex (releaseOwner p)
  | .submitMove p tail => s.takeRequest p tail .submitMove groupIndex (submitMoveOwner p)
  | .go p tail => s.takeRequest p tail .go groupIndex (goOwner p)
  | .stop p tail => s.takeRequest p tail .stop groupIndex fun s g _ => (s.stopGroup g, .ok)
  | .stopAll p tail => s.takeRequest p tail .stopAll anyIndex fun s _ _ => (allGroups.foldl State.stopGroup s, .ok)
  | .cancel p tail => s.takeRequest p tail .cancel groupIndex (cancelOwner p)
  | .clearFault p tail => s.takeRequest p tail .clearFault pointIndex (clearFaultOwner p)
  | .clearTrip p tail => s.takeRequest p tail .clearTrip groupIndex (clearTripOwner p)
  | .rehearsal p tail => s.takeRequest p tail .rehearsal groupIndex (rehearsalOwner p)
  | .popReport p tail => s.takeRequest p tail .popReport anyIndex (popReportOwner p)
  | .portRestart p tail => s.takeRequest p tail .portRestart anyIndex (portRestartOwner p)
  | .silenceExpiry p => s.silenceExpiry p
  | .encoderEdge i ph high => s.encoderEdge i ph high
  | .startSlot g => s.startSlot g
  | .permitExpiry g => s.permitExpiry g
  | .pendingEnergizeDue i => s.pendingEnergizeDue i
  | .minimumRunDue i => s.minimumRunDue i
  | .settleEnd i => s.settleEnd i
  | .stallExpiry i => s.stallExpiry i
  | .limitInputChange i k level => s.limitInputChange i k level
  | .switchEvent i k => s.switchEvent i k
  | .estopAsserted => s.estopOpened
  | .estopLoopClosed => s.estopLoopClosed
  | .estopReleased => s.estopReleased
  | .loadRecord chars => chars.foldl State.receiveChar s
  | .loadFramingError => s.discardRecord
  | .loadLinkGap => s.linkGap
  | .ageExpiry i => s.ageExpiry i
  | .simulatedCount i => s.simulatedCount i

/-- The command acts whether RESET is asserted or not. -/
def actsInReset : Instr → Bool
  | .deviceReset _ | .resetAsserted => true
  | _ => false

/-- Every command answers a next state: its effect, or the present state where RESET holds the part (R58, log
entries 18 and 33). -/
theorem exec_eq_effect (c : Instr) (s : State) :
    exec c s = .next (if s.resetAsserted && !actsInReset c then s else effect c s) := by
  cases s with
  | mk _ _ _ _ _ _ _ _ _ _ reset _ => cases reset <;> cases c <;> rfl

theorem exec_of_running {s : State} (running : s.resetAsserted = false) (c : Instr) :
    exec c s = .next (effect c s) := by
  rw [exec_eq_effect, running]; rfl

/-! ## What every command but DEVICE_RESET keeps -/

/-- The clock and the queue of commands are as they were, and each law that held still holds; the law of the coil outputs
under R85. -/
structure KeepsLaws (s t : State) : Prop where
  pending : t.pending = s.pending
  time : t.time = s.time
  queues : s.queuesLawful → t.queuesLawful
  drive : s.queuesLawful → s.driveLawful → t.driveLawful
  positions : s.positionsBounded → t.positionsBounded
  reports : s.reportsBounded → t.reportsBounded
  settings : s.settingsLegal → t.settingsLegal
  groupSettings : s.groupSettingsLegal → t.groupSettingsLegal
  holders : s.holdersEntitled → t.holdersEntitled

theorem KeepsLaws.refl (s : State) : KeepsLaws s s := ⟨rfl, rfl, id, fun _ => id, id, id, id, id, id⟩

theorem KeepsLaws.trans {s t u : State} (h : KeepsLaws s t) (k : KeepsLaws t u) : KeepsLaws s u where
  pending := k.pending.trans h.pending
  time := k.time.trans h.time
  queues := k.queues ∘ h.queues
  drive q d := k.drive (h.queues q) (h.drive q d)
  positions := k.positions ∘ h.positions
  reports := k.reports ∘ h.reports
  settings := k.settings ∘ h.settings
  groupSettings := k.groupSettings ∘ h.groupSettings
  holders := k.holders ∘ h.holders

theorem KeepsLaws.foldl {α : Type} {f : State → α → State} (h : ∀ s a, KeepsLaws s (f s a)) (l : List α) (s : State) :
    KeepsLaws s (l.foldl f s) := by
  induction l generalizing s with
  | nil => exact .refl s
  | cons a l ih => exact (h s a).trans (ih _)

/-- What a `Moved` operation keeps is every law but R41, which each operation keeps by its own lemma. -/
theorem KeepsLaws.of_moved {s t : State} (m : Moved s t) (d : s.queuesLawful → s.driveLawful → t.driveLawful) :
    KeepsLaws s t where
  pending := m.pending
  time := m.time
  queues q g := by
    obtain ⟨short, waiting, tripped⟩ := q g
    refine ⟨(m.groups g).short short, (m.groups g).waiting waiting, fun trip => ?_⟩
    rcases m.tripped g with same | empty
    · exact (m.groups g).emptied (tripped (same ▸ trip))
    · exact empty
  drive := d
  positions b i := ⟨by rw [(m.points i).position]; exact (b i).1, (m.points i).shadowRange (b i).2⟩
  reports b p := (m.ports p).bounded (b p)
  settings b i := by
    obtain ⟨settings, staged, coast⟩ := b i
    rw [Point.stagedLegal, (m.points i).settings, (m.points i).staged]
    refine ⟨settings, fun k hk => ⟨fun off => (staged k hk).1 ((m.points i).off off), (staged k hk).2⟩,
      (m.points i).coast coast⟩
  groupSettings b g := by
    rw [(m.groups g).gateBand, (m.groups g).tripBand, (m.groups g).shareBand, (m.groups g).stagger,
      (m.groups g).window]
    exact b g
  holders b g p hp := by
    rw [State.allowed, State.level, m.rights]
    exact b g p ((m.groups g).holder ▸ hp)

/-- The points, the groups, the rights, the ESTOP state, the clock and the queue of commands stay. -/
theorem KeepsLaws.of_records {s t : State} (hp : t.points = s.points) (hg : t.groups = s.groups)
    (hr : t.rights = s.rights) (he : t.estop = s.estop) (ht : t.time = s.time) (hc : t.pending = s.pending)
    (r : s.reportsBounded → t.reportsBounded) : KeepsLaws s t := by
  have point : ∀ i, t.point i = s.point i := fun i => by rw [State.point, hp]; rfl
  have group : ∀ g, t.group g = s.group g := fun g => by rw [State.group, hg]; rfl
  refine ⟨hc, ht, fun b g => ?_, fun _ d => State.driveLawful_congr d hp hg he, fun b i => ?_, r, fun b i => ?_,
    fun b g => ?_, fun b g p => ?_⟩
  · rw [group]; exact b g
  · rw [point]; exact b i
  · rw [point]; exact b i
  · rw [group]; exact b g
  · rw [group, State.allowed, State.level, hr]; exact b g p

theorem State.reportsBounded_modPort {s : State} (p : Port) {f : PortState → PortState}
    (h : (f (s.port p)).queue.length ≤ (s.port p).queue.length) : s.reportsBounded → (s.modPort p f).reportsBounded := by
  intro b q
  rw [State.port_modPort]
  split
  · exact h.trans (b p)
  · exact b q

theorem KeepsLaws.modPort (s : State) (p : Port) {f : PortState → PortState}
    (h : (f (s.port p)).queue.length ≤ (s.port p).queue.length) : KeepsLaws s (s.modPort p f) :=
  .of_records rfl rfl rfl rfl rfl rfl (State.reportsBounded_modPort p h)

theorem State.setResult_keepsLaws (s : State) (p : Port) (r : Result) : KeepsLaws s (s.setResult p r) :=
  .modPort s p le_rfl

theorem State.produce_keepsLaws (s : State) (g : Option GroupIdx) (b : ReportBody) (x : Bool) :
    KeepsLaws s (s.produce g b x) :=
  .of_moved (s.produce_moved g b x) fun _ => State.produce_lawful g b x

theorem State.heard_keepsLaws (s : State) (p : Port) : KeepsLaws s (s.heard p) := by
  unfold State.heard
  split
  · exact ((KeepsLaws.modPort s p le_rfl).trans (State.produce_keepsLaws _ _ _ _)).trans (.modPort _ p le_rfl)
  · exact .modPort s p le_rfl

theorem State.afterFrame_keepsLaws (s : State) (p : Port) : KeepsLaws s (s.afterFrame p) :=
  (KeepsLaws.modPort s p le_rfl).trans ((s.endFrame p).heard_keepsLaws p)

/-- A frame end keeps the laws where its owner does. -/
theorem State.takeRequest_keepsLaws (s : State) (p : Port) (tail : FrameTail) (req : Request) {α : Type}
    (index : Word → Option α) {owner : State → α → GoodFrame → State × Result}
    (h : ∀ t a f, KeepsLaws t (owner t a f).1) : KeepsLaws s (s.takeRequest p tail req index owner) :=
  s.takeRequest_keeps (P := KeepsLaws s) p tail req index owner (.refl s) (s.afterFrame_keepsLaws p)
    (fun t r k => k.trans (t.setResult_keepsLaws p r)) fun a f => (s.afterFrame_keepsLaws p).trans (h _ a f)

/-- The two records of a point agree in what the laws of the coil outputs and of the settings speak of. -/
structure SameDrive (p q : Point) : Prop where
  group : q.group = p.group := by rfl
  channel : q.channel = p.channel := by rfl
  latched : q.latched = p.latched := by rfl
  settings : q.settings = p.settings := by rfl
  staged : q.staged = p.staged := by rfl
  coast : q.coast = p.coast := by rfl

/-- A change of a point's capture, switches, load or shadow. -/
theorem KeepsLaws.modPoint (s : State) (i : PointIdx) {f : Point → Point} (h : SameDrive (s.point i) (f (s.point i)))
    (range : inPositionRange (s.point i).capture.position = true →
      inPositionRange (f (s.point i)).capture.position = true)
    (shadow : inPositionRange (s.point i).capture.position = true →
      (∀ y, (s.point i).shadow = some y → inPositionRange y.position = true) →
      ∀ y, (f (s.point i)).shadow = some y → inPositionRange y.position = true) : KeepsLaws s (s.modPoint i f) where
  pending := rfl
  time := rfl
  queues := id
  drive _ d := State.modPoint_lawful i f d h.group (by rw [h.channel]; exact id) (by rw [h.latched]; exact id)
  positions b j := by
    rw [State.point_modPoint]
    split
    · exact ⟨range (b i).1, shadow (b i).1 (b i).2⟩
    · exact b j
  reports := id
  settings b j := by
    rw [State.point_modPoint]
    split
    · rw [Point.stagedLegal, h.settings, h.staged, h.channel, h.coast]; exact b i
    · exact b j
  groupSettings := id
  holders := id

/-- The point's position and its shadow stay. -/
theorem KeepsLaws.modPoint_still (s : State) (i : PointIdx) {f : Point → Point}
    (h : SameDrive (s.point i) (f (s.point i)) := by exact {})
    (position : (f (s.point i)).capture.position = (s.point i).capture.position := by rfl)
    (shadow : (f (s.point i)).shadow = (s.point i).shadow := by rfl) : KeepsLaws s (s.modPoint i f) :=
  .modPoint s i h (by rw [position]; exact id) (by rw [shadow]; exact fun _ => id)

/-! ## Operations that the events share -/

theorem State.raiseFault_keepsLaws (s : State) (i : PointIdx) (c : FaultCode) : KeepsLaws s (s.raiseFault i c) :=
  .of_moved (s.raiseFault_moved i c) fun _ => State.raiseFault_lawful i c

theorem State.release_keepsLaws (s : State) (i : PointIdx) : KeepsLaws s (s.release i) :=
  .of_moved (s.release_moved i) fun _ => State.release_lawful i

theorem State.trip_keepsLaws (s : State) (g : GroupIdx) (c : TripCause) (p : Option PointIdx) :
    KeepsLaws s (s.trip g c p) :=
  .of_moved (s.trip_moved g c p) fun _ => State.trip_lawful g c p

theorem State.enterStopping_keepsLaws (s : State) (g : GroupIdx) (a : Option StopReason) (b : Option EndMark) :
    KeepsLaws s (s.enterStopping g a b) :=
  .of_moved (s.enterStopping_moved g a b) fun _ => State.enterStopping_lawful g a b

theorem State.evaluate_keepsLaws (s : State) (g : GroupIdx) : KeepsLaws s (s.evaluate g) :=
  .of_moved (s.evaluate_moved g) fun _ => State.evaluate_lawful g

theorem State.countArrival_keepsLaws (s : State) (i : PointIdx) : KeepsLaws s (s.countArrival i) :=
  .of_moved (s.countArrival_moved i) fun _ => State.countArrival_lawful i

theorem State.pendingDue_keepsLaws (s : State) (i : PointIdx) : KeepsLaws s (s.pendingDue i) :=
  .of_moved (s.pendingDue_moved i) fun _ => State.pendingDue_lawful i

theorem State.pendingMoved_keepsLaws (s : State) (i : PointIdx) (c : Settings) : KeepsLaws s (s.pendingMoved i c) :=
  .of_moved (s.pendingMoved_moved i c) fun _ => State.pendingMoved_lawful i c

/-! ## Encoder, simulation and timers -/

theorem State.creepCount_keepsLaws (s : State) (i : PointIdx) : KeepsLaws s (s.creepCount i) := by
  unfold State.creepCount
  split
  · exact (KeepsLaws.modPoint_still s i).trans (State.raiseFault_keepsLaws _ _ _)
  · exact .modPoint_still s i

theorem State.wrongWayCount_keepsLaws (s : State) (i : PointIdx) : KeepsLaws s (s.wrongWayCount i) := by
  unfold State.wrongWayCount
  split
  · exact (KeepsLaws.modPoint_still s i).trans (State.raiseFault_keepsLaws _ _ _)
  · exact .modPoint_still s i

theorem State.countByState_keepsLaws (s : State) (i : PointIdx) (d : Dir) : KeepsLaws s (s.countByState i d) := by
  have travel : KeepsLaws s (s.modPoint i fun p => p.travel s.time) := .modPoint_still s i
  unfold State.countByState
  split
  · exact s.creepCount_keepsLaws i
  · split
    · exact s.creepCount_keepsLaws i
    · exact .refl s
    all_goals
      split
      · exact travel
      · exact s.wrongWayCount_keepsLaws i

theorem State.raiseRange_keepsLaws (s : State) (i : PointIdx) : KeepsLaws s (s.raiseRange i) := by
  unfold State.raiseRange
  split
  · exact .refl s
  · exact s.raiseFault_keepsLaws _ _

theorem State.takeCount_keepsLaws (s : State) (i : PointIdx) (d : Dir) : KeepsLaws s (s.takeCount i d) := by
  unfold State.takeCount
  dsimp only
  split
  case isTrue within =>
    have counted : KeepsLaws s (s.modPoint i fun p =>
        { p with capture := { p.capture with position := (s.point i).capture.position + d.sign, lastCount := some d } }) :=
      .modPoint s i {} (fun _ => within) fun _ => id
    refine counted.trans ((State.countByState_keepsLaws _ i d).trans ?_)
    split
    · exact .refl _
    · exact State.countArrival_keepsLaws _ i
  case isFalse => exact s.raiseRange_keepsLaws i

theorem State.encoderEdge_keepsLaws (s : State) (i : PointIdx) (ph : Phase) (high : Bool) :
    KeepsLaws s (s.encoderEdge i ph high) := by
  have level : KeepsLaws s (s.modPoint i fun p => { p with capture := p.capture.setLevel ph high }) :=
    .modPoint_still s i (position := by cases ph <;> rfl)
  unfold State.encoderEdge
  dsimp only
  split
  · exact .refl s
  · split
    · exact level.trans (State.takeCount_keepsLaws _ _ _)
    · exact level

theorem State.simulatedCount_keepsLaws (s : State) (i : PointIdx) : KeepsLaws s (s.simulatedCount i) := by
  unfold State.simulatedCount
  split
  case h_2 => exact .refl s
  case h_1 sh d shadow _ =>
    split
    case isFalse => exact .refl s
    case isTrue =>
      unfold State.moveShadow
      dsimp only
      split
      case isTrue within =>
        refine (KeepsLaws.modPoint s i {} id fun _ _ y hy => ?_).trans (State.countArrival_keepsLaws _ i)
        rw [← Option.some.inj hy]; exact within
      case isFalse =>
        refine (KeepsLaws.modPoint s i {} id fun _ b y hy => ?_).trans (State.raiseRange_keepsLaws _ i)
        rw [← Option.some.inj hy]; exact b sh (State.shadowOf_some shadow)

theorem State.pendingEnergizeDue_keepsLaws (s : State) (i : PointIdx) : KeepsLaws s (s.pendingEnergizeDue i) := by
  unfold State.pendingEnergizeDue
  split
  · exact s.pendingDue_keepsLaws i
  · exact .refl s

/-- The withdrawal of a deferred release leaves the channel's state and its pending energize (R49). -/
theorem State.withdraw_keepsLaws (s : State) (i : PointIdx) :
    KeepsLaws s (s.modPoint i fun p => { p with channel := { p.channel with deferredDue := none } }) :=
  .of_moved (s.modChannel_moved i _ rfl) fun _ d => State.modPoint_lawful i _ d rfl id id

theorem State.minimumRunDue_keepsLaws (s : State) (i : PointIdx) : KeepsLaws s (s.minimumRunDue i) := by
  unfold State.minimumRunDue
  split
  case isFalse => exact .refl s
  case isTrue =>
    refine (s.evaluate_keepsLaws (s.point i).group).trans ?_
    unfold State.redecide
    split
    · exact .refl _
    · split
      · exact State.release_keepsLaws _ i
      · exact State.withdraw_keepsLaws _ i

theorem Point.legal_toOff {p : Point} (c : p.settings.legal) (k : p.stagedLegal) : p.toOff.settings.legal := by
  unfold Point.toOff
  dsimp only
  split
  case h_1 copy staged => exact (k copy staged).2
  case h_2 => exact c

/-- The entry to OFF (R53, R8): a legal staged copy gives legal settings. -/
theorem State.toOff_keepsLaws (s : State) (i : PointIdx) : KeepsLaws s (s.modPoint i Point.toOff) where
  pending := rfl
  time := rfl
  queues := id
  drive _ d := State.modPoint_lawful i _ d rfl
    (fun q => by
      obtain ⟨-, idle⟩ := Bool.and_eq_true_iff.mp q
      exact Bool.and_eq_true_iff.mpr ⟨rfl, idle⟩) id
  positions b j := by
    rw [State.point_modPoint]
    split
    · exact b i
    · exact b j
  reports := id
  settings b j := by
    rw [State.point_modPoint]
    split
    · obtain ⟨settings, staged, coast⟩ := b i
      exact ⟨Point.legal_toOff settings staged, fun k h => absurd h (Option.some_ne_none k).symm, coast⟩
    · exact b j
  groupSettings := id
  holders := id

theorem State.settleEnd_keepsLaws (s : State) (i : PointIdx) : KeepsLaws s (s.settleEnd i) := by
  unfold State.settleEnd
  split
  · exact ((s.toOff_keepsLaws i).trans
      (.of_moved (State.settledEvent_moved _ i) fun _ => State.settledEvent_lawful i)).trans
      (State.pendingMoved_keepsLaws _ i _)
  · exact .refl s

theorem State.stallExpiry_keepsLaws (s : State) (i : PointIdx) : KeepsLaws s (s.stallExpiry i) := by
  unfold State.stallExpiry
  split
  · exact (KeepsLaws.modPoint_still s i).trans (State.raiseFault_keepsLaws _ _ _)
  · exact .refl s

/-! ## Limit switches -/

theorem State.limitInputChange_keepsLaws (s : State) (i : PointIdx) (k : Switch) (level : Bool) :
    KeepsLaws s (s.limitInputChange i k level) := by
  unfold State.limitInputChange
  split
  · exact .refl s
  · exact .modPoint_still s i

theorem State.limitStop_keepsLaws (s : State) (i : PointIdx) : KeepsLaws s (s.limitStop i) := by
  refine (s.release_keepsLaws i).trans ?_
  unfold State.limitStop
  dsimp only
  split
  · split
    · exact State.trip_keepsLaws _ _ _ _
    · exact State.enterStopping_keepsLaws _ _ _ _
  · exact .refl _

theorem State.switchOpened_keepsLaws (s : State) (i : PointIdx) (k : Switch) : KeepsLaws s (s.switchOpened i k) := by
  have ahead : KeepsLaws s (if (s.point i).channel.state.dir = some (switchDir k) then s.limitStop i else s) := by
    split
    · exact s.limitStop_keepsLaws i
    · exact .refl s
  refine ahead.trans ?_
  unfold State.switchOpened
  dsimp only
  generalize (if (s.point i).channel.state.dir = some (switchDir k) then s.limitStop i else s) = u
  split
  · exact u.raiseFault_keepsLaws _ _
  · exact .refl u

theorem State.switchEvent_keepsLaws (s : State) (i : PointIdx) (k : Switch) : KeepsLaws s (s.switchEvent i k) := by
  unfold State.switchEvent
  dsimp only
  split
  case isFalse => exact .refl s
  case isTrue =>
    have stored : KeepsLaws s (s.modPoint i fun p =>
        { p with switches := (p.switches.setClosed k ((s.point i).switches.input k)).setDue k none }) :=
      .modPoint_still s i
    refine stored.trans ((State.produce_keepsLaws _ (some (s.point i).group) (.limit k ((s.point i).switches.input k) i) false).trans ?_)
    split
    · exact .refl _
    · exact State.switchOpened_keepsLaws _ i k

/-! ## ESTOP -/

/-- With every channel quiet, R41 holds whatever the ESTOP state. -/
theorem State.driveLawful_of_still {s : State} (h : s.still) : s.driveLawful :=
  s.driveLawful_iff.mpr ⟨fun i driven => absurd (h i) (by rw [driven]; exact Bool.false_ne_true), fun _ => h⟩

theorem State.estopGroup_moved (s : State) (g : GroupIdx) : Moved s (s.estopGroup g) := by
  unfold State.estopGroup
  dsimp only
  split
  · exact .refl s
  · split
    · exact s.trip_moved _ _ _
    · exact s.endAll_moved _ _

theorem State.estopGroup_calm (s : State) (g : GroupIdx) : Calm s (s.estopGroup g) := by
  unfold State.estopGroup
  dsimp only
  split
  · exact .refl s
  · split
    · exact s.trip_calm _ _ _
    · exact .of_points (s.endAll_points _ _)

theorem Calm.foldl {α : Type} {f : State → α → State} (h : ∀ s a, Calm s (f s a)) (l : List α) (s : State) :
    Calm s (l.foldl f s) := by
  induction l generalizing s with
  | nil => exact .refl s
  | cons a l ih => exact (h s a).trans (ih _)

theorem State.assertEstop_moved (s : State) : Moved { s with estop := true } s.assertEstop := by
  unfold State.assertEstop
  generalize allPoints = l, allGroups = k
  exact ((State.releaseAll_moved _ l).trans (State.produce_moved _ _ _ _)).trans
    (Moved.foldl State.estopGroup State.estopGroup_moved k _)

/-- Step 1 of R151 makes every channel quiet, and nothing after it drives one. -/
theorem State.assertEstop_still (s : State) : s.assertEstop.still := by
  intro i
  have mem := mem_allPoints i
  unfold State.assertEstop
  generalize allPoints = l, allGroups = k at mem ⊢
  exact Calm.foldl State.estopGroup_calm k _ i
    (Calm.of_points (State.points_produce _ _ _ _) i (State.releaseAll_quiet _ l i mem))

theorem State.assertEstop_keepsLaws (s : State) : KeepsLaws s s.assertEstop :=
  have k : KeepsLaws { s with estop := true } s.assertEstop :=
    .of_moved s.assertEstop_moved fun _ _ => State.driveLawful_of_still s.assertEstop_still
  { k with drive := fun _ _ => State.driveLawful_of_still s.assertEstop_still }

theorem State.estopOpened_keepsLaws (s : State) : KeepsLaws s s.estopOpened := by
  have loop : KeepsLaws s { s with loopClosed := false, estopDue := none } := .of_records rfl rfl rfl rfl rfl rfl id
  unfold State.estopOpened
  dsimp only
  split
  · exact loop
  · exact loop.trans (State.assertEstop_keepsLaws _)

theorem State.estopLoopClosed_keepsLaws (s : State) : KeepsLaws s s.estopLoopClosed := by
  unfold State.estopLoopClosed
  split
  · exact .refl s
  · exact .of_records rfl rfl rfl rfl rfl rfl id

theorem State.estopReleased_keepsLaws (s : State) : KeepsLaws s s.estopReleased := by
  have released : KeepsLaws s { s with estop := false, estopDue := none } :=
    { pending := rfl, time := rfl, queues := id, positions := id, reports := id, settings := id, groupSettings := id
      holders := id
      drive := fun _ d => State.driveLawful_iff _ |>.mpr ⟨d.law, fun asserted => nomatch asserted⟩ }
  unfold State.estopReleased
  split
  · exact released.trans (State.produce_keepsLaws _ _ _ _)
  · exact .refl s

/-! ## Load -/

theorem State.reportLoad_keepsLaws (s : State) (i : PointIdx) (st : LoadState) : KeepsLaws s (s.reportLoad i st) :=
  s.produce_keepsLaws _ _ _

theorem State.overloadCheck_keepsLaws (s : State) (i : PointIdx) : KeepsLaws s (s.overloadCheck i) := by
  have noted : KeepsLaws s (s.modPoint i fun p => { p with load := { p.load with overExcursion := p.overloaded } }) :=
    .modPoint_still s i
  refine noted.trans ?_
  unfold State.overloadCheck
  dsimp only
  split
  · exact State.raiseFault_keepsLaws _ _ _
  · exact .refl _

theorem State.underloadCheck_keepsLaws (s : State) (i : PointIdx) : KeepsLaws s (s.underloadCheck i) := by
  have noted : KeepsLaws s
      (s.modPoint i fun p => { p with load := { p.load with underExcursion := s.underloaded i } }) :=
    .modPoint_still s i
  refine noted.trans ?_
  unfold State.underloadCheck
  dsimp only
  split
  · exact State.raiseFault_keepsLaws _ _ _
  · exact .refl _

theorem State.shareCheck_keepsLaws (s : State) (g : GroupIdx) : KeepsLaws s (s.shareCheck g) := by
  unfold State.shareCheck
  dsimp only
  split
  · split
    · split
      · split
        · exact s.trip_keepsLaws _ _ _
        · exact .refl s
      · exact .refl s
    · exact .refl s
  · exact .refl s

theorem State.takeSample_keepsLaws (s : State) (i : PointIdx) (v : Int) : KeepsLaws s (s.takeSample i v) := by
  unfold State.takeSample
  split
  · unfold State.sensorMarker
    split
    · exact .refl s
    · exact (KeepsLaws.modPoint_still s i).trans (State.raiseFault_keepsLaws _ _ _)
  · have accepted : KeepsLaws s (s.modPoint i fun p => { p with load := p.load.accept v.toNat s.time }) :=
      .modPoint_still s i
    unfold State.acceptSample
    dsimp only
    have reported : ∀ (b : Bool) (u : State), KeepsLaws u (if b then u else u.reportLoad i .valid) := fun b u => by
      split
      · exact .refl u
      · exact u.reportLoad_keepsLaws i _
    have shared : ∀ u : State, KeepsLaws u (if (u.groupOf i).inRunList i then u.shareCheck (u.point i).group else u) :=
      fun u => by
        split
        · exact u.shareCheck_keepsLaws _
        · exact .refl u
    exact (((accepted.trans (reported _ _)).trans (State.overloadCheck_keepsLaws _ i)).trans
      (State.underloadCheck_keepsLaws _ i)).trans (shared _)

theorem State.takeRecord_keepsLaws (s : State) (cs : List Byte) : KeepsLaws s (s.takeRecord cs) := by
  unfold State.takeRecord
  split
  · split
    · split
      · exact s.takeSample_keepsLaws _ _
      · exact .refl s
    · exact .refl s
  · exact .refl s

theorem State.receiveChar_keepsLaws (s : State) (c : Byte) : KeepsLaws s (s.receiveChar c) := by
  unfold State.receiveChar
  dsimp only
  split
  · refine KeepsLaws.trans ?_ (State.takeRecord_keepsLaws _ _)
    exact .of_records rfl rfl rfl rfl rfl rfl id
  · exact .of_records rfl rfl rfl rfl rfl rfl id

theorem State.ageExpiry_keepsLaws (s : State) (i : PointIdx) : KeepsLaws s (s.ageExpiry i) := by
  unfold State.ageExpiry
  split
  case isFalse => exact .refl s
  case isTrue =>
    have stale : KeepsLaws s
        (s.modPoint i fun p => { p with load := { p.load with state := .stale, ageDue := none } }) :=
      .modPoint_still s i
    refine stale.trans ?_
    split
    · exact State.raiseFault_keepsLaws _ _ _
    · exact State.reportLoad_keepsLaws _ _ _

/-! ## Group records and rights -/

/-- R79, R81 for one group. -/
def Group.bandsLegal (r : Group) : Prop :=
  (5 ≤ r.gateBand ∧ r.gateBand ≤ 2000) ∧ (10 ≤ r.tripBand ∧ r.tripBand ≤ 5000) ∧ 2 * r.gateBand ≤ r.tripBand ∧
    r.shareBand ≤ 512 ∧ r.stagger ≤ 100 ∧ (50 ≤ r.window ∧ r.window ≤ 1000)

/-- A change of one group's record. -/
theorem KeepsLaws.modGroup (s : State) (g : GroupIdx) {f : Group → Group}
    (queue : (s.group g).queueLawful → (f (s.group g)).queueLawful) (drives : GroupDrives (s.group g) (f (s.group g)))
    (bands : (s.group g).bandsLegal → (f (s.group g)).bandsLegal)
    (holder : ∀ p, (f (s.group g)).holder = some p → (s.group g).holder = some p ∨ s.allowed p g .operate = true) :
    KeepsLaws s (s.modGroup g f) where
  pending := rfl
  time := rfl
  queues b h := by
    rw [State.group_modGroup]
    split
    · exact queue (b g)
    · exact b h
  drive _ d := State.modGroup_lawful g f d drives
  positions := id
  reports := id
  settings := id
  groupSettings b h := by
    rw [State.group_modGroup]
    split
    · exact bands (b g)
    · exact b h
  holders b h p held := by
    rw [State.group_modGroup] at held
    split at held
    case isTrue same =>
      subst same
      exact (holder p held).elim (b g p) id
    case isFalse => exact b h p held

/-- The queue, the permit, the trip cause and the bands stay, and the holder is entitled. -/
theorem KeepsLaws.modGroup_still (s : State) (g : GroupIdx) {f : Group → Group}
    (queue : (f (s.group g)).queue = (s.group g).queue) (permit : (f (s.group g)).permit = (s.group g).permit)
    (trip : (f (s.group g)).trip = (s.group g).trip) (bands : (s.group g).bandsLegal → (f (s.group g)).bandsLegal)
    (holder : ∀ p, (f (s.group g)).holder = some p → (s.group g).holder = some p ∨ s.allowed p g .operate = true) :
    KeepsLaws s (s.modGroup g f) :=
  .modGroup s g (fun h => by rw [Group.queueLawful, queue, trip]; exact h)
    ⟨fun _ h => by rw [Group.inRunList, Group.runList, queue]; exact h,
      fun h => by rw [Group.headIs, queue]; exact h, fun h => by rw [permit]; exact h⟩ bands holder

/-- The holder of a group becomes none (R128, R135). -/
theorem State.clearHolder_keepsLaws (s : State) (g : GroupIdx) :
    KeepsLaws s (s.modGroup g fun r => { r with holder := none }) :=
  .modGroup_still s g rfl rfl rfl id fun _ h => absurd h (Option.some_ne_none _).symm

theorem State.removeHolder_keepsLaws (s : State) (g : GroupIdx) (c : AuthorityCause) :
    KeepsLaws s (s.removeHolder g c) :=
  (s.clearHolder_keepsLaws g).trans
    ((State.produce_keepsLaws _ _ _ _).trans (State.enterStopping_keepsLaws _ g (some .authority) none))

/-- A written and clamped value lies in its range, as the unwritten one does. -/
theorem written_range {α : Type} {lo hi old : α} [LE α] {clamp : Int → α} (o : Option Int)
    (new : ∀ v, lo ≤ clamp v ∧ clamp v ≤ hi) (was : lo ≤ old ∧ old ≤ hi) :
    lo ≤ (o.map clamp).getD old ∧ (o.map clamp).getD old ≤ hi := by
  cases o with
  | none => exact was
  | some v => exact new v

theorem Group.bandsLegal_applyWrites {r : Group} (w : GroupWrites) (b : r.bandsLegal) :
    (r.applyWrites w).bandsLegal := by
  obtain ⟨gate, trip, apart, share, stagger, window⟩ := b
  have gateW : ∀ v, 5 ≤ clampGateBand v ∧ clampGateBand v ≤ 2000 := fun v => clampNat_range (by decide) v
  have tripW : ∀ v, 10 ≤ clampTripBand v ∧ clampTripBand v ≤ 5000 := fun v => clampNat_range (by decide) v
  have shareW : ∀ v, 0 ≤ clampShareBand v ∧ clampShareBand v ≤ 512 := fun v => clampNat_range (by decide) v
  have staggerW : ∀ v, 0 ≤ clampStagger v ∧ clampStagger v ≤ 100 := fun v => clampNat_range (by decide) v
  have windowW : ∀ v, 50 ≤ clampWindow v ∧ clampWindow v ≤ 1000 := fun v => clampNat_range (by decide) v
  have gate' := written_range w.gateBand gateW gate
  have trip' := written_range w.tripBand tripW trip
  have unwritten : (w.gateBand.isSome || w.tripBand.isSome) = false →
      2 * (w.gateBand.map clampGateBand).getD r.gateBand ≤ (w.tripBand.map clampTripBand).getD r.tripBand := by
    intro h
    obtain ⟨hg, ht⟩ := Bool.or_eq_false_iff.mp h
    rw [Option.isSome_eq_false_iff, Option.isNone_iff_eq_none] at hg ht
    rw [hg, ht]
    exact apart
  rw [Group.applyWrites_eq r w rfl rfl]
  refine ⟨gate', ?_, ?_, (written_range w.shareBand shareW ⟨Nat.zero_le _, share⟩).2,
    (written_range w.stagger staggerW ⟨Nat.zero_le _, stagger⟩).2, written_range w.window windowW window⟩
  all_goals
    dsimp only
    split
    next => omega
    next h => have := unwritten (by simpa using h); omega

/-! ## Written settings (R3 to R8) -/

theorem clampPosition_bounds (v : Int) : -2000000 ≤ clampPosition v ∧ clampPosition v ≤ 2000000 :=
  (inPositionRange_iff _).mp (clampPosition_range v)

theorem Settings.legal_applyImmediate {c : Settings} (w : PointWrites) (h : c.legal) : (c.applyImmediate w).legal := by
  obtain ⟨soft, speed, guard, reverse, order, minrun, settle, stall, heavy, light⟩ := h
  exact ⟨soft, written_range _ (clampNat_range (by decide)) speed, guard, reverse, order, minrun, settle, stall,
    written_range _ (clampNat_range (by decide)) heavy,
    (written_range _ (clampNat_range (by decide)) ⟨Nat.zero_le _, light⟩).2⟩

/-- R8 with R5: the fields of the staged copy replace the active values, and t_reverse is raised to t_guard. -/
theorem Settings.applyStaged_eq (c : Settings) (k : Staged) :
    c.applyStaged k =
      { c with
        softUpper := k.softUpper.getD c.softUpper
        softLower := k.softLower.getD c.softLower
        tGuard := k.tGuard.getD c.tGuard
        tReverse := max (k.tReverse.getD c.tReverse) (k.tGuard.getD c.tGuard)
        tMinrun := k.tMinrun.getD c.tMinrun
        tSettle := k.tSettle.getD c.tSettle
        tStall := k.tStall.getD c.tStall } := by
  unfold Settings.applyStaged Settings.raiseReverse
  split
  case isTrue below => rw [max_eq_right (Nat.le_of_lt below)]
  case isFalse above => rw [max_eq_left (Nat.le_of_not_lt above)]

/-- A staged copy with its soft limits in order and its values in their ranges gives legal settings. -/
theorem Settings.legal_applyStaged {c : Settings} {k : Staged} (h : c.legal)
    (soft : -2000000 ≤ k.softLower.getD c.softLower ∧ k.softLower.getD c.softLower < k.softUpper.getD c.softUpper ∧
      k.softUpper.getD c.softUpper ≤ 2000000)
    (guard : 20 ≤ k.tGuard.getD c.tGuard ∧ k.tGuard.getD c.tGuard ≤ 1000)
    (reverse : 100 ≤ k.tReverse.getD c.tReverse ∧ k.tReverse.getD c.tReverse ≤ 2000)
    (minrun : 50 ≤ k.tMinrun.getD c.tMinrun ∧ k.tMinrun.getD c.tMinrun ≤ 2000)
    (settle : 50 ≤ k.tSettle.getD c.tSettle ∧ k.tSettle.getD c.tSettle ≤ 2000)
    (stall : 100 ≤ k.tStall.getD c.tStall ∧ k.tStall.getD c.tStall ≤ 5000) : (c.applyStaged k).legal := by
  obtain ⟨-, speed, -, -, -, -, -, -, heavy, light⟩ := h
  rw [Settings.applyStaged_eq]
  exact ⟨soft, speed, guard, ⟨reverse.1.trans (le_max_left _ _), max_le reverse.2 (guard.2.trans (by decide))⟩,
    le_max_right _ _, minrun, settle, stall, heavy, light⟩

/-- The staged-class fields of a write set whose soft limits pass R6 give legal settings. -/
theorem Settings.legal_applyStaged_writes {c : Settings} {w : PointWrites} (h : c.legal) (pair : softPairOk c w = true) :
    (c.applyStaged (stagedOfWrites w)).legal := by
  obtain ⟨⟨lower, _, upper⟩, speed, guard, reverse, order, minrun, settle, stall, heavy, light⟩ := id h
  have lowerUpper : c.softLower < c.softUpper := h.1.2.1
  exact Settings.legal_applyStaged h
    ⟨(written_range (hi := 2000000) _ clampPosition_bounds ⟨lower, by omega⟩).1, of_decide_eq_true pair,
      (written_range (lo := -2000000) _ clampPosition_bounds ⟨by omega, upper⟩).2⟩
    (written_range _ (clampNat_range (by decide)) guard) (written_range _ (clampNat_range (by decide)) reverse)
    (written_range _ (clampNat_range (by decide)) minrun) (written_range _ (clampNat_range (by decide)) settle)
    (written_range _ (clampNat_range (by decide)) stall)

/-- The settings and the staged copy of a point are legal (R1 to R8). -/
def Point.setupLegal (p : Point) : Prop := p.settings.legal ∧ p.stagedLegal ∧ p.coast ≤ 2000

theorem Settings.applyImmediate_applyStaged (c : Settings) (w : PointWrites) (k : Staged) :
    (c.applyImmediate w).applyStaged k = (c.applyStaged k).applyImmediate w := by
  rw [Settings.applyStaged_eq, Settings.applyStaged_eq]; rfl

theorem Settings.encoderMode_applyStaged (c : Settings) (m : EncoderMode) (k : Staged) :
    ({ c with encoderMode := m } : Settings).applyStaged k = { c.applyStaged k with encoderMode := m } := by
  rw [Settings.applyStaged_eq, Settings.applyStaged_eq]

theorem Point.setupLegal_applyImmediate {p : Point} (w : PointWrites) (h : p.setupLegal) :
    ({ p with settings := p.settings.applyImmediate w } : Point).setupLegal := by
  obtain ⟨settings, staged, coast⟩ := h
  refine ⟨Settings.legal_applyImmediate w settings, fun k hk => ⟨(staged k hk).1, ?_⟩, coast⟩
  rw [Settings.applyImmediate_applyStaged]
  exact Settings.legal_applyImmediate w (staged k hk).2

theorem Point.setupLegal_applyMode {p : Point} (m : Option EncoderMode) (h : p.setupLegal) :
    (p.applyMode m).setupLegal := by
  obtain ⟨settings, staged, coast⟩ := id h
  unfold Point.applyMode
  split
  · exact h
  · split
    · exact h
    · refine ⟨settings, fun k hk => ⟨(staged k hk).1, ?_⟩, coast⟩
      dsimp only
      rw [Settings.encoderMode_applyStaged]
      exact (staged k hk).2

theorem Point.setupLegal_applyStagedClass {p : Point} {k : Staged} (h : p.setupLegal)
    (legal : (p.settings.applyStaged k).legal) : (p.applyStagedClass k).setupLegal := by
  obtain ⟨-, staged, coast⟩ := id h
  unfold Point.applyStagedClass
  split
  · exact h
  · split
    case isTrue off => exact ⟨legal, fun k hk => absurd off (staged k hk).1, coast⟩
    case isFalse busy =>
      refine ⟨h.1, fun l hl => ?_, coast⟩
      rw [← Option.some.inj hl]
      exact ⟨busy, legal⟩

/-- R6 holds of a write set that writes no soft limit. -/
theorem softPairOk_of_unwritten {c : Settings} {w : PointWrites} (h : c.legal)
    (none : (w.softUpper.isSome || w.softLower.isSome) = false) : softPairOk c w = true := by
  obtain ⟨upper, lower⟩ := Bool.or_eq_false_iff.mp none
  rw [Option.isSome_eq_false_iff, Option.isNone_iff_eq_none] at upper lower
  rw [softPairOk, upper, lower]
  exact decide_eq_true h.1.2.1

theorem Point.settings_applyMode (p : Point) (m : Option EncoderMode) :
    (p.applyMode m).settings = { p.settings with encoderMode := m.getD p.settings.encoderMode } := by
  cases m with
  | none => rfl
  | some m =>
    unfold Point.applyMode
    dsimp only
    split
    case isTrue same => rw [← same]; rfl
    case isFalse => rfl

/-- An accepted POINT_SETUP leaves a legal record (R3 to R8). -/
theorem Point.setupLegal_applyWrites {p : Point} {w : PointWrites} (h : p.setupLegal)
    (pair : (w.softUpper.isSome || w.softLower.isSome) = true → softPairOk p.settings w = true) :
    (p.applyWrites w).setupLegal := by
  have ok : softPairOk p.settings w = true := by
    by_cases written : (w.softUpper.isSome || w.softLower.isSome) = true
    · exact pair written
    · exact softPairOk_of_unwritten h.1 (by rwa [Bool.not_eq_true] at written)
  have before := Point.setupLegal_applyMode w.encoderMode (Point.setupLegal_applyImmediate w h)
  refine Point.setupLegal_applyStagedClass before (Settings.legal_applyStaged_writes before.1 ?_)
  rw [Point.settings_applyMode]
  exact ok

theorem Point.applyWrites_drive (p : Point) (w : PointWrites) :
    (p.applyWrites w).group = p.group ∧ (p.applyWrites w).channel = p.channel ∧
      (p.applyWrites w).latched = p.latched ∧ (p.applyWrites w).shadow = p.shadow ∧
      (p.applyWrites w).capture.position = p.capture.position := by
  unfold Point.applyWrites Point.applyStagedClass Point.applyMode
  split_ifs <;> split <;> (try split_ifs) <;> exact ⟨rfl, rfl, rfl, rfl, rfl⟩

theorem State.applyWrites_keepsLaws (s : State) (i : PointIdx) {w : PointWrites}
    (pair : (w.softUpper.isSome || w.softLower.isSome) = true → softPairOk (s.point i).settings w = true) :
    KeepsLaws s (s.modPoint i fun r => r.applyWrites w) := by
  obtain ⟨group, channel, latched, shadow, position⟩ := (s.point i).applyWrites_drive w
  exact
    { pending := rfl, time := rfl, queues := id, reports := id, groupSettings := id, holders := id
      drive := fun _ d => State.modPoint_lawful i _ d group (by rw [channel]; exact id) (by rw [latched]; exact id)
      positions := fun b j => by
        rw [State.point_modPoint]
        split
        · rw [position, shadow]; exact b i
        · exact b j
      settings := fun b j => by
        rw [State.point_modPoint]
        split
        · exact Point.setupLegal_applyWrites (b i) pair
        · exact b j }

/-! ## The owners of the requests -/

theorem pointSetupOwner_keepsLaws (p : Port) (s : State) (i : PointIdx) (f : GoodFrame) :
    KeepsLaws s (pointSetupOwner p s i f).1 := by
  unfold pointSetupOwner
  dsimp only
  split_ifs with _ _ refused
  · exact .refl s
  · exact .refl s
  · exact .refl s
  · refine (s.applyWrites_keepsLaws i fun written => ?_).trans (State.pendingMoved_keepsLaws _ i _)
    simpa [written] using refused

theorem groupSetupOwner_keepsLaws (p : Port) (s : State) (g : GroupIdx) (f : GoodFrame) :
    KeepsLaws s (groupSetupOwner p s g f).1 := by
  unfold groupSetupOwner
  dsimp only
  split_ifs
  · exact .refl s
  · exact .refl s
  · have e := (s.group g).applyWrites_eq (decodeGroupWrites f.header f.payload) rfl rfl
    have written : KeepsLaws s (s.modGroup g fun r => r.applyWrites (decodeGroupWrites f.header f.payload)) :=
      .modGroup_still s g (by rw [e]) (by rw [e]) (by rw [e]) (Group.bandsLegal_applyWrites _)
        fun q hq => .inl (by rw [e] at hq; exact hq)
    exact written

theorem portSetupOwner_keepsLaws (p : Port) (s : State) (u : Unit) (f : GoodFrame) :
    KeepsLaws s (portSetupOwner p s u f).1 := by
  have written : ∀ b w, KeepsLaws s (s.modPort p fun ps => ps.applyWrites b w) := fun b w => .modPort s p le_rfl
  unfold portSetupOwner
  dsimp only
  split
  · exact written _ _
  · split
    · exact written _ _
    · exact .refl s

theorem readTableOwner_keepsLaws (s : State) (t : Option Table) (f : GoodFrame) :
    KeepsLaws s (readTableOwner s t f).1 := by
  cases t <;> exact .refl s

/-- A written level keeps the laws unless it takes the group's holder below OPERATE (R128, R129). -/
theorem State.setLevel_keepsLaws (s : State) (q : Port) (g : GroupIdx) (v : Level)
    (h : (s.group g).holder = some q → levelNumber .operate ≤ levelNumber v) : KeepsLaws s (s.setLevel q g v) where
  pending := rfl
  time := rfl
  queues := id
  drive _ := id
  positions := id
  reports := id
  settings := id
  groupSettings := id
  holders b k r held := by
    unfold State.allowed
    by_cases port : q = r
    · subst port
      by_cases group : g = k
      · subst group
        rw [State.level_setLevel_self]
        exact decide_eq_true (h held)
      · rw [State.level_setLevel_ne_group s q q group]
        exact b k q held
    · rw [State.level_setLevel_ne_port s port]
      exact b k r held

theorem State.setLevel_modGroup (s : State) (q : Port) (g : GroupIdx) (v : Level) (k : GroupIdx) (f : Group → Group) :
    (s.setLevel q g v).modGroup k f = (s.modGroup k f).setLevel q g v := rfl

theorem setRightsOwner_keepsLaws (p : Port) (s : State) (g : GroupIdx) (f : GoodFrame) :
    KeepsLaws s (setRightsOwner p s g f).1 := by
  unfold setRightsOwner
  split
  · exact .refl s
  · split
    · exact .refl s
    case h_2 named _ =>
      dsimp only
      unfold State.rightsWritten
      split
      case isTrue removed =>
        refine KeepsLaws.trans (t := (s.setLevel named g (headerLevel f.header)).modGroup g fun r =>
          { r with holder := none }) ?_ ((State.produce_keepsLaws _ _ _ _).trans
            (State.enterStopping_keepsLaws _ g (some .authority) none))
        rw [State.setLevel_modGroup]
        refine (s.clearHolder_keepsLaws g).trans (State.setLevel_keepsLaws _ named g _ fun held => ?_)
        rw [State.group_modGroup_self] at held
        exact absurd held (Option.some_ne_none _).symm
      case isFalse kept =>
        exact s.setLevel_keepsLaws named g _ fun held => Nat.le_of_not_lt fun below =>
          kept (Bool.and_eq_true_iff.mpr ⟨decide_eq_true held, decide_eq_true below⟩)

theorem State.grant_keepsLaws (s : State) (g : GroupIdx) (p : Port) (allowed : s.allowed p g .operate = true) :
    KeepsLaws s (s.grant g p) := by
  have held : KeepsLaws s (s.modGroup g fun r => { r with holder := some p }) :=
    .modGroup_still s g rfl rfl rfl id fun q hq => .inr (Option.some.inj hq ▸ allowed)
  exact held.trans (State.produce_keepsLaws _ _ _ _)

theorem takeOwner_keepsLaws (p : Port) (s : State) (g : GroupIdx) (f : GoodFrame) :
    KeepsLaws s (takeOwner p s g f).1 := by
  unfold takeOwner
  dsimp only
  split
  case isTrue => exact .refl s
  case isFalse allowed =>
    have granted := s.grant_keepsLaws g p (by simpa using allowed)
    split
    · exact granted
    · split_ifs
      · exact .refl s
      · exact .refl s
      · exact granted
      · exact granted
      · exact .refl s

theorem releaseOwner_keepsLaws (p : Port) (s : State) (g : GroupIdx) (f : GoodFrame) :
    KeepsLaws s (releaseOwner p s g f).1 := by
  unfold releaseOwner
  split_ifs
  · exact .refl s
  · exact .refl s
  · exact .refl s
  · exact s.removeHolder_keepsLaws g _

/-- ASSIGN moves a point between groups with empty queues, so the point is quiet (R83, R41). -/
theorem assignOwner_keepsLaws (p : Port) (s : State) (x : PointIdx × GroupIdx) (f : GoodFrame) :
    KeepsLaws s (assignOwner p s x f).1 := by
  unfold assignOwner
  dsimp only
  split_ifs with _ busy
  · exact .refl s
  · exact .refl s
  · have empty : (s.group (s.point x.1).group).queue = [] := by
      simp only [Bool.not_eq_true', Bool.not_eq_false, Bool.and_eq_true, Group.assignable] at busy
      exact List.isEmpty_iff.mp busy.1.1.2
    exact
      { pending := rfl, time := rfl, queues := id, reports := id, groupSettings := id, holders := id
        drive := fun _ d => by
          have quiet : (s.point x.1).channel.quiet = true :=
            State.groupStill_of_empty d.law empty x.1 rfl
          refine State.driveLawful_of_calm d (State.setPoint_law x.1 _ (fun j _ => d.law j) fun driven => ?_)
            (State.modPoint_calm s x.1 _ id) rfl
          exact absurd quiet (by rw [driven]; exact Bool.false_ne_true)
        positions := fun b j => by
          rw [State.point_modPoint]
          split
          · exact b x.1
          · exact b j
        settings := fun b j => by
          rw [State.point_modPoint]
          split
          · exact b x.1
          · exact b j }

theorem setPositionOwner_keepsLaws (p : Port) (s : State) (i : PointIdx) (f : GoodFrame) :
    KeepsLaws s (setPositionOwner p s i f).1 := by
  unfold setPositionOwner
  split_ifs
  · exact .refl s
  · exact .refl s
  · exact .refl s
  · have written : KeepsLaws s
        (s.modPoint i fun r => { r with capture := r.capture.setPosition (f.payload.getD 0 0).toInt }) :=
      .modPoint s i {} (fun _ => clampPosition_range _) fun _ => id
    exact written

/-- A move appended behind a queue drives what the queue drove. -/
theorem GroupDrives.append (r : Group) (m : Move) : GroupDrives r { r with queue := r.queue ++ [m] } where
  inRunList i h := by
    unfold Group.inRunList Group.runList at h ⊢
    cases q : r.queue with
    | nil => rw [q] at h; exact nomatch h
    | cons head rest => rw [q] at h; exact h
  driving h := by
    unfold Group.headIs at h ⊢
    cases q : r.queue with
    | nil => rw [q] at h; exact nomatch h
    | cons head rest => rw [q] at h; exact h
  permit := id

theorem Group.queueLawful_append {r : Group} {m : Move} (room : r.queue.length < 4) (live : r.trip = none)
    (queued : m.state = .queued) (h : r.queueLawful) :
    ({ r with queue := r.queue ++ [m] } : Group).queueLawful := by
  obtain ⟨-, waiting, -⟩ := h
  refine ⟨by rw [List.length_append, List.length_singleton]; exact room, fun x hx => ?_,
    fun trip => absurd trip (by rw [live]; exact Bool.false_ne_true)⟩
  cases q : r.queue with
  | nil => rw [q] at hx; exact nomatch hx
  | cons head rest =>
    rw [q] at hx waiting
    rcases List.mem_append.mp hx with old | new
    · exact waiting x old
    · rw [List.mem_singleton.mp new]; exact queued

theorem submitMoveOwner_keepsLaws (p : Port) (s : State) (g : GroupIdx) (f : GoodFrame) :
    KeepsLaws s (submitMoveOwner p s g f).1 := by
  unfold submitMoveOwner
  dsimp only
  split_ifs with _ _ tripped full
  · exact .refl s
  · exact .refl s
  · exact .refl s
  · exact .refl s
  · split
    · exact .refl s
    · split
      · exact .refl s
      case h_2 body _ _ _ =>
        have appended : KeepsLaws s (s.modGroup g fun r =>
            { r with queue := r.queue ++ [newMove p (headerTag f.header) body] }) :=
          .modGroup s g
            (Group.queueLawful_append (Nat.lt_of_not_le full)
              (by rw [Group.state_eq_tripped, not_not] at tripped; exact tripped) rfl)
            (GroupDrives.append _ _) id fun _ => .inl
        exact appended

/-- A QUEUED head does not drive, so its first start is made from rest. -/
theorem State.goFirst_keepsLaws {s : State} {g : GroupIdx} {m : Move}
    (rest : (s.group g).headIs MoveState.driving = false) : KeepsLaws s (s.goFirst g m).1 := by
  unfold State.goFirst
  split_ifs
  · exact .refl s
  · exact .refl s
  · exact .refl s
  · exact .of_moved (s.firstStart_moved g m) fun _ d => State.firstStart_lawful g m d (d.groupStill rest)

theorem State.goResume_keepsLaws (s : State) (g : GroupIdx) (m : Move) : KeepsLaws s (s.goResume g m).1 := by
  unfold State.goResume
  split
  · exact .refl s
  · exact .of_moved (s.resume_moved g m) fun _ => State.resume_lawful g m

theorem goOwner_keepsLaws (p : Port) (s : State) (g : GroupIdx) (f : GoodFrame) : KeepsLaws s (goOwner p s g f).1 := by
  have extended : KeepsLaws s
      (s.modGroup g fun r => { r with permit := some (s.time + msToUs (s.group g).window) }) :=
    .modGroup s g id ⟨fun _ => id, id, fun _ => rfl⟩ id fun _ => .inl
  unfold goOwner
  dsimp only
  split_ifs
  · exact .refl s
  · exact .refl s
  · exact .refl s
  · split
    · exact .refl s
    case h_2 m head =>
      split
      · exact .refl s
      · exact extended
      · exact extended
      case h_4 queued =>
        refine State.goFirst_keepsLaws ?_
        obtain ⟨rest, q⟩ := List.head?_eq_some_iff.mp head
        rw [Group.headIs, q]
        dsimp only
        rw [queued]
        rfl
      · exact s.goResume_keepsLaws g m

theorem State.stopGroup_keepsLaws (s : State) (g : GroupIdx) : KeepsLaws s (s.stopGroup g) :=
  s.enterStopping_keepsLaws g _ _

/-- CANCEL ends moves of a group that is not moving, whose channels are quiet under R85 and R41. -/
theorem cancelOwner_keepsLaws (p : Port) (s : State) (g : GroupIdx) (f : GoodFrame) :
    KeepsLaws s (cancelOwner p s g f).1 := by
  unfold cancelOwner
  dsimp only
  split_ifs with _ moving
  · exact .refl s
  · exact .refl s
  · exact .refl s
  all_goals
    have still : s.queuesLawful → s.driveLawful → s.groupStill g := fun q d =>
      d.groupStill (Group.not_driving_of_not_moving (q g) (by rwa [Bool.not_eq_true] at moving))
  · exact .of_moved (s.endAll_moved g _) fun q d => State.endAll_lawful g _ d (still q d)
  · exact .of_moved (s.endHead_moved g _ _ _) fun q d => State.endHead_lawful g _ _ _ d (still q d)

theorem clearFaultOwner_keepsLaws (p : Port) (s : State) (i : PointIdx) (f : GoodFrame) :
    KeepsLaws s (clearFaultOwner p s i f).1 := by
  unfold clearFaultOwner
  split_ifs
  · exact .refl s
  · exact .refl s
  · exact .refl s
  · exact
      { pending := rfl, time := rfl, queues := id, reports := id, groupSettings := id, holders := id
        drive := fun _ d => State.modPoint_lawful i _ d rfl id fun _ => rfl
        positions := fun b j => by
          rw [State.point_modPoint]
          split
          · exact b i
          · exact b j
        settings := fun b j => by
          rw [State.point_modPoint]
          split
          · exact b i
          · exact b j }

theorem clearTripOwner_keepsLaws (p : Port) (s : State) (g : GroupIdx) (f : GoodFrame) :
    KeepsLaws s (clearTripOwner p s g f).1 := by
  have cleared : KeepsLaws s (s.modGroup g fun r => { r with trip := none }) :=
    .modGroup s g (fun h => ⟨h.1, h.2.1, fun t => nomatch t⟩) ⟨fun _ => id, id, id⟩ id fun _ => .inl
  unfold clearTripOwner
  split_ifs
  · exact .refl s
  · exact .refl s
  · exact .refl s
  · exact .refl s
  · exact cleared.trans (State.produce_keepsLaws _ _ _ _)

/-- A rehearsal entered or left changes one flag and the shadows of the members, which start at real positions
(R157, R158). -/
theorem State.setRehearsal_keepsLaws (s : State) (g : GroupIdx) (on : Bool) {k : Point → Point}
    (same : ∀ q, SameDrive q (k q)) (position : ∀ q, (k q).capture.position = q.capture.position)
    (shadow : ∀ q sh, (k q).shadow = some sh → sh.position = q.capture.position) :
    KeepsLaws s (s.setRehearsal g on k) := by
  have flag : KeepsLaws s (s.modGroup g fun r => { r with rehearsal := on }) :=
    .modGroup_still s g rfl rfl rfl id fun _ => .inl
  refine flag.trans (KeepsLaws.foldl (fun t i => ?_) _ _)
  exact .modPoint t i (same _) (by rw [position]; exact id) fun range _ sh hsh => by rw [shadow _ sh hsh]; exact range

theorem rehearsalOwner_keepsLaws (p : Port) (s : State) (g : GroupIdx) (f : GoodFrame) :
    KeepsLaws s (rehearsalOwner p s g f).1 := by
  have enter : KeepsLaws s (s.enterRehearsal g) := by
    rw [State.enterRehearsal_eq]
    exact s.setRehearsal_keepsLaws g true (fun _ => {}) (fun _ => rfl) fun q sh h => (Option.some.inj h) ▸ rfl
  have leave : KeepsLaws s (s.leaveRehearsal g) := by
    rw [State.leaveRehearsal_eq]
    exact s.setRehearsal_keepsLaws g false (fun _ => {}) (fun _ => rfl) fun q sh h => nomatch h
  unfold rehearsalOwner
  split
  · exact .refl s
  · split
    · exact .refl s
    · split_ifs
      · exact .refl s
      · exact .refl s
      · exact enter
      · exact .refl s
      · exact leave
      · exact .refl s

theorem popReportOwner_keepsLaws (p : Port) (s : State) (u : Unit) (f : GoodFrame) :
    KeepsLaws s (popReportOwner p s u f).1 := by
  have popped : KeepsLaws s (s.modPort p fun ps => { ps with queue := ps.queue.drop f.popCount }) :=
    .modPort s p (by rw [List.length_drop]; exact Nat.sub_le _ _)
  unfold popReportOwner
  split
  · exact .refl s
  · exact popped

theorem portRestartOwner_keepsLaws (p : Port) (s : State) (u : Unit) (f : GoodFrame) :
    KeepsLaws s (portRestartOwner p s u f).1 := by
  have flushed : KeepsLaws s (s.modPort p fun ps => { ps with queue := [], lost := false }) :=
    .modPort s p (Nat.zero_le _)
  exact flushed.trans ((KeepsLaws.foldl (fun t g => (t.clearHolder_keepsLaws g).trans (State.produce_keepsLaws _ _ _ _))
    _ _).trans (KeepsLaws.foldl (fun t g => t.enterStopping_keepsLaws g _ _) _ _))

/-! ## The laws after a device reset (R1, R79, R103, R154, R183) -/

theorem Settings.legal_reset : Settings.reset.legal := by unfold Settings.legal; decide

/-- Every record at its reset value obeys every law, whatever commands wait. -/
structure ObeysLaws (s : State) : Prop where
  queues : s.queuesLawful
  drive : s.driveLawful
  positions : s.positionsBounded
  reports : s.reportsBounded
  settings : s.settingsLegal
  groupSettings : s.groupSettingsLegal
  holders : s.holdersEntitled

theorem ObeysLaws.keeps {s t : State} (h : ObeysLaws s) (k : KeepsLaws s t) : ObeysLaws t :=
  ⟨k.queues h.queues, k.drive h.queues h.drive, k.positions h.positions, k.reports h.reports, k.settings h.settings,
    k.groupSettings h.groupSettings, k.holders h.holders⟩

theorem State.atReset_obeysLaws (levels : ResetLevels) : ObeysLaws (State.atReset levels) where
  queues g := by
    rw [State.group_atReset]
    exact ⟨Nat.zero_le _, fun m hm => (List.not_mem_nil hm).elim, fun _ => rfl⟩
  drive := State.driveLawful_of_still fun i => by rw [State.point_atReset]; rfl
  positions i := by
    rw [State.point_atReset]
    exact ⟨rfl, fun sh hsh => absurd hsh (Option.some_ne_none sh).symm⟩
  reports p := by cases p <;> exact Nat.zero_le _
  settings i := by
    rw [State.point_atReset]
    exact ⟨Settings.legal_reset, fun k hk => absurd hk (Option.some_ne_none k).symm, (by decide : 20 ≤ 2000)⟩
  groupSettings g := by
    rw [State.group_atReset]
    decide
  holders g p held := by
    rw [State.group_atReset] at held
    exact absurd held (Option.some_ne_none p).symm

theorem State.checkWiring_keepsLaws (s : State) (i : PointIdx) : KeepsLaws s (s.checkWiring i) := by
  unfold State.checkWiring
  split
  · exact s.raiseFault_keepsLaws i _
  · exact .refl s

theorem State.deviceReset_keepsLaws (s : State) (levels : ResetLevels) :
    KeepsLaws { State.atReset levels with pending := s.pending } (s.deviceReset levels) := by
  unfold State.deviceReset
  generalize allPoints = l
  exact KeepsLaws.foldl State.checkWiring_keepsLaws l _

theorem State.deviceReset_obeysLaws (s : State) (levels : ResetLevels) : ObeysLaws (s.deviceReset levels) := by
  have h := State.atReset_obeysLaws levels
  have records : ObeysLaws { State.atReset levels with pending := s.pending } :=
    ⟨h.queues, h.drive, h.positions, h.reports, h.settings, h.groupSettings, h.holders⟩
  exact records.keeps (s.deviceReset_keepsLaws levels)

/-! ## Every command -/

theorem State.assertReset_keepsLaws (s : State) : KeepsLaws s s.assertReset :=
  .of_records rfl rfl rfl rfl rfl rfl fun b p => by
    cases p with
    | a => exact b .a
    | b => exact b .b
    | l => exact b .l

theorem State.startFrame_keepsLaws (s : State) (p : Port) : KeepsLaws s (s.startFrame p) := by
  unfold State.startFrame
  split
  · exact .refl s
  · exact .modPort s p le_rfl

theorem State.completeHeader_keepsLaws (s : State) (p : Port) (h : Word) : KeepsLaws s (s.completeHeader p h) := by
  unfold State.completeHeader
  split
  · split
    · exact .modPort s p le_rfl
    · exact .refl s
  · exact .refl s

theorem State.endBadFrame_keepsLaws (s : State) (p : Port) (tail : FrameTail) : KeepsLaws s (s.endBadFrame p tail) := by
  unfold State.endBadFrame
  split
  · split
    · exact (KeepsLaws.modPort s p le_rfl).trans (State.setResult_keepsLaws _ p _)
    · exact .refl s
  · exact .refl s

theorem State.refuseUnknown_keepsLaws (s : State) (p : Port) (tail : FrameTail) :
    KeepsLaws s (s.refuseUnknown p tail) := by
  unfold State.refuseUnknown
  split
  · split
    · exact (s.afterFrame_keepsLaws p).trans (State.setResult_keepsLaws _ p _)
    · exact .refl s
  · exact .refl s

theorem State.silenceExpiry_keepsLaws (s : State) (p : Port) : KeepsLaws s (s.silenceExpiry p) := by
  unfold State.silenceExpiry
  split
  · exact (KeepsLaws.modPort s p le_rfl).trans (State.produce_keepsLaws _ _ _ _)
  · exact .refl s

/-- The effect of every command but DEVICE_RESET keeps the laws. -/
theorem effect_keepsLaws {c : Instr} (running : ∀ levels, c ≠ .deviceReset levels) (s : State) :
    KeepsLaws s (effect c s) := by
  cases c with
  | deviceReset levels => exact absurd rfl (running levels)
  | resetAsserted => exact s.assertReset_keepsLaws
  | frameStart p => exact s.startFrame_keepsLaws p
  | headerComplete p h => exact s.completeHeader_keepsLaws p h
  | badFrame p tail => exact s.endBadFrame_keepsLaws p tail
  | unknownRequest p tail => exact s.refuseUnknown_keepsLaws p tail
  | nop p tail => exact s.takeRequest_keepsLaws p tail _ _ fun t _ _ => .refl t
  | readTable p tail => exact s.takeRequest_keepsLaws p tail _ _ readTableOwner_keepsLaws
  | pointSetup p tail => exact s.takeRequest_keepsLaws p tail _ _ (pointSetupOwner_keepsLaws p)
  | groupSetup p tail => exact s.takeRequest_keepsLaws p tail _ _ (groupSetupOwner_keepsLaws p)
  | portSetup p tail => exact s.takeRequest_keepsLaws p tail _ _ (portSetupOwner_keepsLaws p)
  | setRights p tail => exact s.takeRequest_keepsLaws p tail _ _ (setRightsOwner_keepsLaws p)
  | assign p tail => exact s.takeRequest_keepsLaws p tail _ _ (assignOwner_keepsLaws p)
  | setPosition p tail => exact s.takeRequest_keepsLaws p tail _ _ (setPositionOwner_keepsLaws p)
  | take p tail => exact s.takeRequest_keepsLaws p tail _ _ (takeOwner_keepsLaws p)
  | release p tail => exact s.takeRequest_keepsLaws p tail _ _ (releaseOwner_keepsLaws p)
  | submitMove p tail => exact s.takeRequest_keepsLaws p tail _ _ (submitMoveOwner_keepsLaws p)
  | go p tail => exact s.takeRequest_keepsLaws p tail _ _ (goOwner_keepsLaws p)
  | stop p tail => exact s.takeRequest_keepsLaws p tail _ _ fun t g _ => t.stopGroup_keepsLaws g
  | stopAll p tail =>
    have all : ∀ t : State, KeepsLaws t (allGroups.foldl State.stopGroup t) :=
      fun t => KeepsLaws.foldl State.stopGroup_keepsLaws allGroups t
    unfold effect
    generalize allGroups = l at all ⊢
    exact s.takeRequest_keepsLaws p tail _ _ fun t _ _ => all t
  | cancel p tail => exact s.takeRequest_keepsLaws p tail _ _ (cancelOwner_keepsLaws p)
  | clearFault p tail => exact s.takeRequest_keepsLaws p tail _ _ (clearFaultOwner_keepsLaws p)
  | clearTrip p tail => exact s.takeRequest_keepsLaws p tail _ _ (clearTripOwner_keepsLaws p)
  | rehearsal p tail => exact s.takeRequest_keepsLaws p tail _ _ (rehearsalOwner_keepsLaws p)
  | popReport p tail => exact s.takeRequest_keepsLaws p tail _ _ (popReportOwner_keepsLaws p)
  | portRestart p tail => exact s.takeRequest_keepsLaws p tail _ _ (portRestartOwner_keepsLaws p)
  | silenceExpiry p => exact s.silenceExpiry_keepsLaws p
  | encoderEdge i ph high => exact s.encoderEdge_keepsLaws i ph high
  | startSlot g => exact .of_moved (s.startSlot_moved g) fun _ => State.startSlot_lawful g
  | permitExpiry g =>
    show KeepsLaws s (if _ then _ else _)
    split
    · exact s.enterStopping_keepsLaws g _ _
    · exact .refl s
  | pendingEnergizeDue i => exact s.pendingEnergizeDue_keepsLaws i
  | minimumRunDue i => exact s.minimumRunDue_keepsLaws i
  | settleEnd i => exact s.settleEnd_keepsLaws i
  | stallExpiry i => exact s.stallExpiry_keepsLaws i
  | limitInputChange i k level => exact s.limitInputChange_keepsLaws i k level
  | switchEvent i k => exact s.switchEvent_keepsLaws i k
  | estopAsserted => exact s.estopOpened_keepsLaws
  | estopLoopClosed => exact s.estopLoopClosed_keepsLaws
  | estopReleased => exact s.estopReleased_keepsLaws
  | loadRecord chars => exact KeepsLaws.foldl State.receiveChar_keepsLaws chars s
  | loadFramingError => exact .of_records rfl rfl rfl rfl rfl rfl id
  | loadLinkGap =>
    show KeepsLaws s (if _ then _ else _)
    split
    · exact .of_records rfl rfl rfl rfl rfl rfl id
    · exact .refl s
  | ageExpiry i => exact s.ageExpiry_keepsLaws i
  | simulatedCount i => exact s.simulatedCount_keepsLaws i

/-- A command other than DEVICE_RESET keeps the laws, while RESET is asserted too. -/
theorem exec_keepsLaws {c : Instr} {s t : State} (running : ∀ levels, c ≠ .deviceReset levels)
    (h : exec c s = .next t) : KeepsLaws s t := by
  rw [exec_eq_effect] at h
  rw [← Host.Outcome.next.inj h]
  split
  · exact .refl s
  · exact effect_keepsLaws running s

/-- A step is DEVICE_RESET, or it keeps the laws (the clock apart, on an empty queue). -/
theorem step_obeys {P : State → Prop} (tick : ∀ s n, P s → P { s with time := n })
    (take : ∀ s l, P s → P { s with pending := l }) (kept : ∀ s t, KeepsLaws s t → P s → P t)
    (reset : ∀ s, ObeysLaws s → P s) {s t : State} (h : step s = .next t) (hs : P s) : P t := by
  unfold step at h
  split at h
  case h_2 => rw [← Host.Outcome.next.inj h]; exact tick s _ hs
  case h_1 c rest _ =>
    by_cases running : ∀ levels, c ≠ .deviceReset levels
    · exact kept _ _ (exec_keepsLaws running h) (take s rest hs)
    · obtain ⟨levels, device⟩ := not_forall.mp running
      rw [not_not.mp device] at h
      rw [← Host.Outcome.next.inj h]
      exact reset _ (State.deviceReset_obeysLaws _ levels)

/-! ## The settled statements -/

/-- Settles O59: `step_obeys` on R85. -/
theorem queuesStayLawful : Obligations.QueuesStayLawful := fun _ _ lawful h =>
  step_obeys (fun _ _ => id) (fun _ _ => id) (fun _ _ k => k.queues) (fun _ o => o.queues) h lawful

/-- Settles O58: `step_obeys` on R41 together with R85, which a CANCEL and a first start need. -/
theorem driveLawIsKept : Obligations.DriveLawIsKept := fun _ _ drive lawful h =>
  (step_obeys (P := fun s => s.queuesLawful ∧ s.driveLawful) (fun _ _ => id) (fun _ _ => id)
    (fun _ _ k b => ⟨k.queues b.1, k.drive b.1 b.2⟩) (fun _ o => ⟨o.queues, o.drive⟩) h ⟨lawful, drive⟩).2

/-- Settles O60: `step_obeys` on each of the five laws. -/
theorem recordsStayLegal : Obligations.RecordsStayLegal := fun _ _ h =>
  ⟨step_obeys (fun _ _ => id) (fun _ _ => id) (fun _ _ k => k.positions) (fun _ o => o.positions) h,
    step_obeys (fun _ _ => id) (fun _ _ => id) (fun _ _ k => k.reports) (fun _ o => o.reports) h,
    step_obeys (fun _ _ => id) (fun _ _ => id) (fun _ _ k => k.settings) (fun _ o => o.settings) h,
    step_obeys (fun _ _ => id) (fun _ _ => id) (fun _ _ k => k.groupSettings) (fun _ o => o.groupSettings) h,
    step_obeys (fun _ _ => id) (fun _ _ => id) (fun _ _ k => k.holders) (fun _ o => o.holders) h⟩

/-- Settles O57: the records at their reset values obey every law (`State.atReset_obeysLaws`). -/
theorem lawsHoldAtReset : Obligations.LawsHoldAtReset :=
  have h := State.atReset_obeysLaws quietLevels
  ⟨h.drive, h.queues, h.positions, h.reports, h.settings, h.groupSettings, h.holders⟩

/-- Settles O1. -/
theorem stepRunsFrontCommand : Obligations.StepRunsFrontCommand := by
  intro s c rest front
  rw [step, front]

/-- Settles O2: every command answers its effect (`exec_eq_effect`), which keeps queue and clock (`exec_keepsLaws`);
DEVICE_RESET starts from the records at reset, with the clock at 0 (`State.deviceReset_keepsLaws`). -/
theorem stepsGoOnAndKeepTheClock : Obligations.StepsGoOnAndKeepTheClock := by
  refine ⟨fun c s => ?_, fun s empty => by rw [step, empty]⟩
  by_cases running : ∀ levels, c ≠ .deviceReset levels
  · have kept := exec_keepsLaws running (exec_eq_effect c s)
    exact ⟨_, exec_eq_effect c s, kept.pending, fun _ => kept.time, fun levels device => absurd device (running levels)⟩
  · obtain ⟨levels, device⟩ := not_forall.mp running
    obtain rfl := not_not.mp device
    have kept := s.deviceReset_keepsLaws levels
    exact ⟨_, rfl, kept.pending, fun other => absurd rfl (other levels), fun _ _ => kept.time⟩

end Sys2Proof.Machine
end

section
/-! The reset (R1, R18, R38, R58, R79, R103, R154, R175, R183) and the coil outputs (R40, R58). -/

namespace Sys2Proof.Machine

/-! ## A fault at a point that nothing drives -/

theorem Group.inRunList_of_empty {r : Group} (h : r.queue = []) (i : PointIdx) : r.inRunList i = false := by
  rw [Group.inRunList, Group.runList, h]; rfl

theorem State.tripMember_of_empty {s : State} {i : PointIdx} (h : (s.groupOf i).queue = []) : s.tripMember i = s := by
  unfold State.tripMember
  dsimp only
  rw [show (s.group (s.point i).group).inRunList i = false from Group.inRunList_of_empty h i]
  rfl

theorem State.latchFault_of_fresh {s : State} {i : PointIdx} (c : FaultCode) (h : (s.point i).latched = none) :
    s.latchFault i c = (s.modPoint i fun p => { p with latched := some c }).produce (some (s.point i).group)
      (.pointFault c i) := by
  unfold State.latchFault
  dsimp only
  rw [h]
  rfl

/-- The first fault of a quiet point outside every move is latched and reported, and does nothing else (R140, R141). -/
theorem State.raiseFault_of_idle {s : State} {i : PointIdx} (c : FaultCode) (fresh : (s.point i).latched = none)
    (quiet : (s.point i).channel.quiet = true) (empty : (s.groupOf i).queue = []) :
    s.raiseFault i c = (s.modPoint i fun p => { p with latched := some c }).produce (some (s.point i).group)
      (.pointFault c i) := by
  have latched := State.latchFault_of_fresh c fresh
  have released : (s.latchFault i c).release i = s.latchFault i c :=
    State.release_of_quiet (s.latchFault_calm i c i quiet)
  unfold State.raiseFault
  dsimp only
  rw [fresh, Option.isNone_none, if_pos rfl, released, latched]
  refine State.tripMember_of_empty ?_
  rw [State.groupOf, State.group, State.groups_produce, State.point, State.points_produce]
  show ((s.modPoint i _).group ((s.modPoint i _).point i).group).queue = []
  rw [State.point_modPoint_self, State.group_modPoint]
  exact empty

/-! ## The wiring check of every point (R18) -/

/-- The record of point i once its wiring is checked. -/
def Point.wired (levels : ResetLevels) (i : PointIdx) : Point :=
  { Point.reset levels i with
    latched := if (Point.reset levels i).switches.bothOpen then some .limitWiring else none }

/-- The part after a reset, when the wiring of the points in `done` has been checked. -/
structure Wiring (levels : ResetLevels) (done : List PointIdx) (s : State) : Prop where
  groups : s.groups = (State.atReset levels).groups
  time : s.time = 0
  checked : ∀ i ∈ done, s.point i = Point.wired levels i
  unchecked : ∀ i, i ∉ done → s.point i = Point.reset levels i
  lost : ∀ p, (s.port p).lost = false
  few : ∀ p, (s.port p).queue.length ≤ done.length
  reports : ∀ p, ∀ r ∈ (s.port p).queue, ∃ i : PointIdx, r.body = .pointFault .limitWiring i ∧ r.time = 0 ∧
    r.group = some 0
  silent : (∀ i, (Point.reset levels i).switches.bothOpen = false) → ∀ p, (s.port p).queue = []

theorem Wiring.group {levels : ResetLevels} {done : List PointIdx} {s : State} (h : Wiring levels done s)
    (g : GroupIdx) : s.group g = Group.reset := by
  rw [State.group, h.groups]; exact State.group_atReset levels g

theorem Point.wired_of_closed {levels : ResetLevels} {i : PointIdx}
    (h : (Point.reset levels i).switches.bothOpen = false) : Point.wired levels i = Point.reset levels i := by
  rw [Point.wired, h]; rfl

/-- A record that finds room joins the queue of an entitled port, and the lost marker stays clear (R178, R179). -/
theorem State.port_distribute_of_room {s : State} {p : Port} (r : Report) (clear : (s.port p).lost = false)
    (room : (s.port p).queue.length < 32) : (s.distribute r).port p =
      { s.port p with
        queue := (s.port p).queue ++ if s.entitled p r then [{ r with lostBefore := false }] else []
        lost := false } := by
  rw [State.port_distribute, State.offer]
  split
  · unfold PortState.append
    rw [if_pos (show (s.port p).queue.length < reportCapacity from room), clear]
  · rw [List.append_nil, ← clear]

theorem State.checkWiring_of_closed {s : State} {i : PointIdx} (h : (s.point i).switches.bothOpen = false) :
    s.checkWiring i = s := by
  rw [State.checkWiring, h]; rfl

theorem Wiring.checkWiring {levels : ResetLevels} {done : List PointIdx} {s : State} (h : Wiring levels done s)
    {i : PointIdx} (new : i ∉ done) (room : done.length < 32) : Wiring levels (i :: done) (s.checkWiring i) := by
  have point := h.unchecked i new
  cases wiring : (Point.reset levels i).switches.bothOpen with
  | false =>
    rw [State.checkWiring_of_closed (by rw [point]; exact wiring)]
    refine { h with checked := fun j hj => ?_, unchecked := fun j hj => h.unchecked j fun old => ?_, few := fun p => ?_ }
    · rcases List.mem_cons.mp hj with rfl | old
      · rw [Point.wired_of_closed wiring]; exact point
      · exact h.checked j old
    · exact hj (List.mem_cons_of_mem i old)
    · exact (h.few p).trans (Nat.le_succ _)
  | true =>
    have raised : s.checkWiring i = (s.modPoint i fun p => { p with latched := some .limitWiring }).produce (some 0)
        (.pointFault .limitWiring i) := by
      rw [State.checkWiring, point, if_pos wiring,
        State.raiseFault_of_idle .limitWiring (by rw [point]; rfl) (by rw [point]; rfl)
          (by rw [State.groupOf, h.group]; rfl), point]
      rfl
    have queue : ∀ p, ∃ new : List Report, ((s.checkWiring i).port p).queue = (s.port p).queue ++ new ∧
        ((s.checkWiring i).port p).lost = false ∧ new.length ≤ 1 ∧
        ∀ r ∈ new, r.body = .pointFault .limitWiring i ∧ r.time = 0 ∧ r.group = some 0 := by
      intro p
      rw [raised, State.produce]
      generalize hr : ({ time := _, group := _, rehearsal := _, lostBefore := _, additional := _, body := _ } : Report) = r
      rw [State.port_distribute_of_room (s := s.modPoint i _) r (h.lost p) ((h.few p).trans_lt room)]
      refine ⟨_, rfl, rfl, ?_, fun r' hr' => ?_⟩
      · split
        · exact le_rfl
        · exact Nat.zero_le _
      · split at hr'
        · rw [List.mem_singleton.mp hr', ← hr]
          exact ⟨rfl, by rw [State.reportTime, State.time_modPoint, h.time]; rfl, rfl⟩
        · exact (List.not_mem_nil hr').elim
    have here : (s.checkWiring i).point i = Point.wired levels i := by
      rw [raised, State.point, State.points_produce]
      show (s.modPoint i _).point i = _
      rw [State.point_modPoint_self, point, Point.wired, wiring]
      rfl
    have there : ∀ j, j ≠ i → (s.checkWiring i).point j = s.point j := fun j ne => by
      rw [raised, State.point, State.points_produce]
      exact State.point_modPoint_ne s (Ne.symm ne) _
    refine ⟨by rw [raised]; exact h.groups, by rw [raised]; exact h.time, fun j hj => ?_, fun j hj => ?_, fun p => ?_,
      fun p => ?_, fun p r hr => ?_, fun none => absurd (none i) (by rw [wiring]; exact Bool.true_eq_false_eq_False)⟩
    · by_cases e : j = i
      · rw [e]; exact here
      · rw [there j e]
        exact h.checked j ((List.mem_cons.mp hj).resolve_left e)
    · obtain ⟨e, old⟩ := not_or.mp fun x => hj (List.mem_cons.mpr x)
      rw [there j e]
      exact h.unchecked j old
    · exact (queue p).choose_spec.2.1
    · obtain ⟨l, q, -, one, -⟩ := queue p
      rw [q, List.length_append, List.length_cons]
      exact Nat.add_le_add (h.few p) one
    · obtain ⟨l, q, -, -, new⟩ := queue p
      rw [q] at hr
      rcases List.mem_append.mp hr with old | hr
      · exact h.reports p r old
      · exact ⟨i, new r hr⟩

theorem Wiring.foldl {levels : ResetLevels} {l done : List PointIdx} {s : State} (h : Wiring levels done s)
    (once : l.Nodup) (new : ∀ i ∈ l, i ∉ done) (room : done.length + l.length ≤ 32) :
    Wiring levels (l.reverse ++ done) (l.foldl State.checkWiring s) := by
  induction l generalizing done s with
  | nil => exact h
  | cons i l ih =>
    obtain ⟨apart, once⟩ := List.nodup_cons.mp once
    rw [List.length_cons] at room
    rw [List.reverse_cons, List.append_assoc, List.singleton_append]
    refine ih (h.checkWiring (new i List.mem_cons_self) (by omega)) once (fun j hj => ?_)
      (by rw [List.length_cons]; omega)
    rw [List.mem_cons, not_or]
    exact ⟨fun e => apart (e ▸ hj), new j (List.mem_cons_of_mem i hj)⟩

theorem State.atReset_wiring (levels : ResetLevels) (pending : List Instr) :
    Wiring levels [] { State.atReset levels with pending := pending } where
  groups := rfl
  time := rfl
  checked _ h := (List.not_mem_nil h).elim
  unchecked i _ := State.point_atReset levels i
  lost p := by cases p <;> rfl
  few p := by cases p <;> exact Nat.zero_le _
  reports p := by cases p <;> exact fun _ hr => (List.not_mem_nil hr).elim
  silent _ p := by cases p <;> rfl

theorem State.deviceReset_wiring (s : State) (levels : ResetLevels) :
    Wiring levels allPoints.reverse (s.deviceReset levels) := by
  have h := (State.atReset_wiring levels s.pending).foldl (l := allPoints) (by decide)
    (fun _ _ => List.not_mem_nil) (by decide)
  rw [List.append_nil] at h
  exact h

theorem State.checkWiring_moved (s : State) (i : PointIdx) : Moved s (s.checkWiring i) := by
  unfold State.checkWiring
  split
  · exact s.raiseFault_moved i _
  · exact .refl s

theorem State.deviceReset_moved (s : State) (levels : ResetLevels) :
    Moved { State.atReset levels with pending := s.pending } (s.deviceReset levels) := by
  unfold State.deviceReset
  generalize allPoints = l
  exact Moved.foldl State.checkWiring State.checkWiring_moved l _

theorem Switches.bothOpen_reset (levels : ResetLevels) (i : PointIdx) :
    (Point.reset levels i).switches.bothOpen = true ↔
      levels.upperClosed.getLsbD i = false ∧ levels.lowerClosed.getLsbD i = false := by
  simp [Switches.bothOpen, Point.reset]

/-- Settles O3: every point's record is the one of R1 with its wiring checked (`State.deviceReset_wiring`). -/
theorem deviceResetSetsEveryPoint : Obligations.DeviceResetSetsEveryPoint := by
  intro levels s
  refine ⟨_, rfl, fun i => ?_⟩
  rw [(s.deviceReset_wiring levels).checked i (List.mem_reverse.mpr (mem_allPoints i))]
  refine ⟨rfl, rfl, rfl, rfl, rfl, rfl, rfl, rfl, rfl, rfl, rfl, ?_⟩
  rw [Point.wired]
  simp only [Switches.bothOpen_reset]

/-- Settles O4: the wiring checks move no group and no port setting (`State.deviceReset_moved`), and their reports are
those of `State.deviceReset_wiring`. -/
theorem deviceResetSetsGroupsAndPorts : Obligations.DeviceResetSetsGroupsAndPorts := by
  intro levels s
  have moved := s.deviceReset_moved levels
  have wiring := s.deviceReset_wiring levels
  have rights : (s.deviceReset levels).rights = (State.atReset levels).rights := moved.rights
  refine ⟨_, rfl, wiring.group, fun g => ?_, moved.estop, moved.estopDue, moved.linkChars, moved.resetAsserted,
    fun p => ?_⟩
  · have full : (State.atReset levels).level .a g = .setup ∧ (State.atReset levels).level .b g = .setup ∧
        (State.atReset levels).level .l g = .operate := by
      simp [State.level, State.atReset, PerPort.get]
    simp only [State.level, rights]
    exact full
  · have port := moved.ports p
    have reset : ({ State.atReset levels with pending := s.pending } : State).port p = PortState.reset := by
      cases p <;> rfl
    rw [reset] at port
    refine ⟨port.crcOn, port.seed, port.attention, port.lastResult, port.silent, port.silenceDue, port.frame,
      wiring.lost p, wiring.reports p, fun closed => wiring.silent (fun i => ?_) p⟩
    rw [← Bool.not_eq_true, Switches.bothOpen_reset]
    rintro ⟨upper, lower⟩
    rcases closed i with u | l
    · rw [upper] at u; exact Bool.false_ne_true u
    · rw [lower] at l; exact Bool.false_ne_true l

/-! ## RESET asserted, and the coil outputs -/

/-- Settles O5: the assertion clears the frames and the Load Link record alone, and while RESET is asserted a command's
effect does not come about (`exec_eq_effect`). -/
theorem resetAssertedHoldsThePart : Obligations.ResetAssertedHoldsThePart := by
  refine ⟨fun s => ⟨s.assertReset, rfl, fun i => ?_, fun p => by cases p <;> rfl, rfl, rfl, rfl, rfl, rfl, rfl⟩,
    fun c s asserted notAssert notRelease => ?_⟩
  · exact ⟨Bool.and_false _, Bool.and_false _⟩
  · have held : actsInReset c = false := by
      cases c with
      | deviceReset levels => exact absurd rfl (notRelease levels)
      | resetAsserted => exact absurd rfl notAssert
      | _ => rfl
    rw [exec_eq_effect, asserted, held]
    rfl

/-- Settles O39. -/
theorem outputsFollowTheChannel : Obligations.OutputsFollowTheChannel := by
  intro s i
  refine ⟨by simp [State.upOutput, State.rehearsing, and_assoc], by simp [State.downOutput, State.rehearsing, and_assoc],
    ?_⟩
  rw [State.upOutput, State.downOutput]
  cases (s.point i).channel.state <;> simp

end Sys2Proof.Machine
end

section
/-! Requests of a port itself (R171, R173, R175, R181), the silence timer (R172), and the Report Unit (R178, R179,
R182). -/

namespace Sys2Proof.Machine

/-! ## NOP and READ_TABLE -/

theorem tableIndex_of_known {h : Word} {k : Table} (known : headerTable h = some k)
    (range : indexInRange .readTable h = true) : tableIndex h = some (some k) := by
  unfold tableIndex
  rw [indexInRange, known] at range
  rw [known]
  cases k with
  | point => simp [pointOfNat, of_decide_eq_true range]
  | group => simp [groupOfNat, of_decide_eq_true range]
  | queue => simp [groupOfNat, of_decide_eq_true range]
  | rights => rfl
  | ports => rfl

theorem tableIndex_of_unknown {h : Word} (unknown : headerTable h = none) : tableIndex h = some none := by
  unfold tableIndex
  rw [unknown]

/-- Settles O11. -/
theorem nopAndReadTableChangeNothing : Obligations.NopAndReadTableChangeNothing := by
  intro s p tail f
  refine ⟨fun h => exec_nop h, fun h k known range => ?_, fun h unknown => ?_⟩
  · rw [exec_readTable h (tableIndex_of_known known range)]; rfl
  · rw [exec_readTable h (tableIndex_of_unknown unknown)]; rfl

/-! ## Write sets (R184, 12.3) -/

/-- The mask bits of a write set are the header's lowest bits. -/
theorem maskedWord_eq_selectedWord (h : Word) (payload : List Word) {k : Nat} (narrow : k < 16) :
    maskedWord h payload k = selectedWord h payload k := by
  have bit : (headerSub h / 2 ^ k % 2 = 1) ↔ h.getLsbD k = true := by
    have := bitsOf_testBit h 15 0 k
    rw [Nat.testBit_eq_decide_div_mod_eq, Nat.zero_add, decide_eq_true (show k < 15 + 1 - 0 from narrow),
      Bool.true_and] at this
    rw [← this, decide_eq_true_iff, headerSub]
  unfold maskedWord selectedWord
  simp only [bit]

theorem maskedInt_eq (h : Word) (payload : List Word) {k : Nat} (narrow : k < 16) :
    maskedInt h payload k = (selectedWord h payload k).map BitVec.toInt := by
  rw [maskedInt, maskedWord_eq_selectedWord h payload narrow]

theorem decodePortWrites_eq (h : Word) (payload : List Word) :
    decodePortWrites h payload =
      { crc := (selectedWord h payload 0).map BitVec.toInt
        seed := (selectedWord h payload 1).map fun w => BitVec.ofNat 16 (bitsOf w 15 0)
        attention := (selectedWord h payload 2).map fun w => BitVec.ofNat 12 (bitsOf w 11 0) } := by
  simp only [decodePortWrites, maskedInt_eq, maskedWord_eq_selectedWord, Nat.reduceLT]

theorem decodeGroupWrites_eq (h : Word) (payload : List Word) :
    decodeGroupWrites h payload =
      { gateBand := (selectedWord h payload 0).map BitVec.toInt
        tripBand := (selectedWord h payload 1).map BitVec.toInt
        shareBand := (selectedWord h payload 2).map BitVec.toInt
        stagger := (selectedWord h payload 3).map BitVec.toInt
        window := (selectedWord h payload 4).map BitVec.toInt
        preferred := (selectedWord h payload 5).map BitVec.toInt
        localPriority := (selectedWord h payload 6).map fun w => decide (bitsOf w 0 0 = 1) } := by
  simp only [decodeGroupWrites, maskedInt_eq, maskedWord_eq_selectedWord, Nat.reduceLT]
  rfl

/-! ## What PORT_SETUP and POP_REPORT decide -/

section
variable {s : State} {p : Port} {f : GoodFrame} {w : PortWrites}

theorem portSetupOwner_of_unwritten (hw : w = decodePortWrites f.header f.payload) (crc : w.crc = none) :
    portSetupOwner p s () f = (s.modPort p fun ps => ps.applyWrites none w, .ok) := by
  rw [portSetupOwner, ← hw]
  simp only [crc]

theorem portSetupOwner_of_written {v : Int} {b : Bool} (hw : w = decodePortWrites f.header f.payload)
    (crc : w.crc = some v) (named : crcEnableOfInt v = some b) :
    portSetupOwner p s () f = (s.modPort p fun ps => ps.applyWrites (some b) w, .ok) := by
  rw [portSetupOwner, ← hw]
  simp only [crc, named]

theorem portSetupOwner_of_badValue {v : Int} (hw : w = decodePortWrites f.header f.payload) (crc : w.crc = some v)
    (off : v ≠ 0) (on : v ≠ 1) : portSetupOwner p s () f = (s, .badValue) := by
  rw [portSetupOwner, ← hw]
  simp only [crc, crcEnableOfInt, if_neg off, if_neg on]

theorem popReportOwner_of_driven (drove : 1 ≤ f.popCount) :
    popReportOwner p s () f = (s.modPort p fun ps => { ps with queue := ps.queue.drop f.popCount }, .ok) :=
  if_neg (Nat.one_le_iff_ne_zero.mp drove)

theorem popReportOwner_of_none (drove : f.popCount = 0) :
    popReportOwner p s () f = (s, if f.popEmpty then .ok else .shortRead) :=
  if_pos drove

end

/-- Settles O12: the write sets by `decodePortWrites_eq` and `decodeGroupWrites_eq`, and the owner's decision by what the
CRC enable names. -/
theorem portSetupWritesItsPort : Obligations.PortSetupWritesItsPort := by
  refine ⟨fun h payload => ⟨decodePortWrites_eq h payload, decodeGroupWrites_eq h payload⟩,
    fun s p tail f w delivered hw => ⟨fun named => ?_, fun v crc off on => ?_⟩⟩
  · rw [exec_portSetup delivered]
    rcases named with crc | crc | crc
    · rw [portSetupOwner_of_unwritten hw crc]; simp only [crc]; rfl
    · rw [portSetupOwner_of_written hw crc rfl]; simp only [crc]; rfl
    · rw [portSetupOwner_of_written hw crc rfl]; simp only [crc]; rfl
  · rw [exec_portSetup delivered, portSetupOwner_of_badValue hw crc off on]; rfl

/-- Settles O13. -/
theorem popReportRemovesWhatItDrove : Obligations.PopReportRemovesWhatItDrove := by
  intro s p tail f delivered
  refine ⟨fun drove => ?_, fun none empty => ?_, fun none left => ?_⟩
  · rw [exec_popReport delivered, popReportOwner_of_driven drove]; rfl
  · rw [exec_popReport delivered, popReportOwner_of_none none, empty]; rfl
  · rw [exec_popReport delivered, popReportOwner_of_none none, left]; rfl

/-! ## Who takes a report (R178) -/

theorem State.allowed_view_iff (s : State) (p : Port) (g : GroupIdx) : s.allowed p g .view = (s.level p g != .none) := by
  rw [State.allowed]
  cases s.level p g <;> rfl

section
variable {s : State} {q : Port} {r : Report}

theorem State.port_distribute_of_denied (h : s.entitled q r = false) : (s.distribute r).port q = s.port q := by
  rw [State.port_distribute, State.offer, h]; rfl

theorem State.port_distribute_of_entitled (h : s.entitled q r = true) :
    (s.distribute r).port q = (s.port q).append r := by
  rw [State.port_distribute, State.offer, h]; rfl

end

theorem PortState.append_of_room {ps : PortState} (r : Report) (room : ps.queue.length < 32) :
    ps.append r = { ps with queue := ps.queue ++ [{ r with lostBefore := ps.lost }], lost := false } :=
  if_pos room

theorem PortState.append_of_full {ps : PortState} (r : Report) (full : 32 ≤ ps.queue.length) :
    ps.append r = { ps with lost := true } :=
  if_neg (Nat.not_lt.mpr full)

/-! ## The ATTN lines (R182) -/

theorem kindNumber_pred (k : ReportKind) : kindNumber k - 1 = attentionBit k := by cases k <;> rfl

theorem PortState.attnAsserted_eq (ps : PortState) :
    ps.attnAsserted = ps.queue.any fun r => ps.attention.getLsbD (attentionBit r.body.kind) := by
  simp only [PortState.attnAsserted, kindNumber_pred]

/-- Settles O16: who takes a report by its kind and the level on its group (`State.allowed_view_iff`), and what an append does by the room it finds. -/
theorem reportsGoToEntitledPorts : Obligations.ReportsGoToEntitledPorts := by
  refine ⟨fun s g body additional => ⟨rfl, by cases g <;> rfl⟩, fun ps => ⟨?_, fun empty => ?_, fun none => ?_⟩, ?_⟩
  · rw [PortState.attnAsserted_eq, List.any_eq_true]
  · rw [PortState.attnAsserted_eq, empty]; rfl
  · rw [PortState.attnAsserted_eq, none]; simp
  · rintro s r q takes ps rfl entitled
    replace entitled : s.entitled q r = takes := by
      rw [entitled]
      unfold State.entitled
      cases r.body <;> cases r.group <;> simp only [Option.any_some, Option.any_none, State.allowed_view_iff]
    refine ⟨fun h => ?_, fun h room => ?_, fun h full => ?_, fun h room => ?_, fun h => ?_, rfl, rfl, rfl⟩
    · exact State.port_distribute_of_denied (entitled.trans h)
    · rw [State.port_distribute_of_entitled (entitled.trans h), PortState.append_of_room r room]
    · rw [State.port_distribute_of_entitled (entitled.trans h), PortState.append_of_full r full]
    · rw [State.port_distribute_of_entitled (entitled.trans h), PortState.append_of_room r room]
      simp [PortState.attnAsserted_eq]
    · cases h' : takes with
      | false => rw [State.port_distribute_of_denied (entitled.trans h')]
      | true =>
        have full := h.resolve_left (by rw [h']; exact Bool.noConfusion)
        rw [State.port_distribute_of_entitled (entitled.trans h'), PortState.append_of_full r full]
        rfl

/-! ## The silence timer (R172) -/

/-- A PORT_SILENT or PORT_BACK of a port leaves that port's record and is appended at every other (R178). -/
theorem State.port_produce_about {s : State} {p : Port} {b : ReportBody} (h : b = .portSilent p ∨ b = .portBack p)
    (q : Port) : (s.produce none b).port q = if q = p then s.port q else (s.port q).append
      { time := s.reportTime, group := none, rehearsal := false, lostBefore := false, additional := false, body := b } := by
  have entitled : ∀ r : Report, r.body = b → s.entitled q r = (q != p) := by
    rintro r hr
    rw [State.entitled, hr]
    rcases h with rfl | rfl <;> rfl
  unfold State.produce
  split
  case isTrue same => exact State.port_distribute_of_denied (by rw [entitled _ rfl, same, bne_self_eq_false])
  case isFalse other => exact State.port_distribute_of_entitled (by rw [entitled _ rfl]; exact bne_iff_ne.mpr other)

theorem State.heard_of_silent {s : State} {p : Port} (h : (s.port p).silent = true) :
    s.heard p = ((s.modPort p fun ps => { ps with silent := false }).produce none (.portBack p)).modPort p fun ps =>
      { ps with silenceDue := some (s.time + silenceTime) } := by
  rw [State.heard, h]; rfl

theorem State.heard_of_loud {s : State} {p : Port} (h : (s.port p).silent = false) :
    s.heard p = s.modPort p fun ps => { ps with silenceDue := some (s.time + silenceTime) } := by
  rw [State.heard, h]; rfl

theorem State.port_endFrame (s : State) (p q : Port) :
    (s.endFrame p).port q = if p = q then { s.port p with frame := none } else s.port q :=
  State.port_modPort s p q _

/-- The record of the port that is heard (R170 step 1). -/
theorem State.port_afterFrame_self_eq (s : State) (p : Port) :
    (s.afterFrame p).port p =
      { s.port p with frame := none, silent := false, silenceDue := some (s.time + 500000) } := by
  have ended : (s.endFrame p).port p = { s.port p with frame := none } := State.port_modPort_self s p _
  unfold State.afterFrame
  cases h : (s.port p).silent with
  | true =>
    rw [State.heard_of_silent (by rw [ended]; exact h), State.port_modPort_self, State.port_produce_about (.inr rfl),
      if_pos rfl, State.port_modPort_self, ended]
    rfl
  | false =>
    rw [State.heard_of_loud (by rw [ended]; exact h), State.port_modPort_self, ended, ← h]
    rfl

/-- The records of the other ports when a port is heard (R170 step 1, R172). -/
theorem State.port_afterFrame_other (s : State) {p q : Port} (other : q ≠ p) :
    (s.afterFrame p).port q =
      if (s.port p).silent then
        (s.port q).append
          { time := s.reportTime, group := none, rehearsal := false, lostBefore := false, additional := false
            body := .portBack p }
      else s.port q := by
  have ended : (s.endFrame p).port p = { s.port p with frame := none } := State.port_modPort_self s p _
  have apart : (s.endFrame p).port q = s.port q := State.port_modPort_ne s other.symm _
  unfold State.afterFrame
  cases h : (s.port p).silent with
  | true =>
    rw [State.heard_of_silent (by rw [ended]; exact h), State.port_modPort_ne _ other.symm,
      State.port_produce_about (.inr rfl), if_neg other, State.port_modPort_ne _ other.symm, apart]
    rfl
  | false =>
    rw [State.heard_of_loud (by rw [ended]; exact h), State.port_modPort_ne _ other.symm, apart]
    rfl

/-- Settles O15: the expiry by what its report does to each port (`State.port_produce_about`), the good frame end by
`State.port_afterFrame_self_eq` and `State.port_afterFrame_other`. -/
theorem silenceIsTimedAndReported : Obligations.SilenceIsTimedAndReported := by
  refine ⟨fun s p due running hdue passed => ?_, fun s p => ?_⟩
  · have expired : s.silenceExpiry p =
        (s.modPort p fun ps => { ps with silent := true, silenceDue := none }).produce none (.portSilent p) :=
      if_pos (State.isDue_of_le hdue passed)
    refine ⟨_, exec_silenceExpiry running p, ?_, fun q other => ?_, ?_⟩ <;> rw [expired]
    · rw [State.port_produce_about (.inl rfl), if_pos rfl, State.port_modPort_self]
    · rw [State.port_produce_about (.inl rfl), if_neg other, State.port_modPort_ne _ other.symm]
      rfl
    · exact ⟨rfl, rfl, rfl, rfl⟩
  · exact ⟨s.port_afterFrame_self_eq p, fun q other => s.port_afterFrame_other other, s.points_afterFrame p,
      s.groups_afterFrame p, s.rights_afterFrame p, s.estop_afterFrame p, s.time_afterFrame p⟩

end Sys2Proof.Machine
end

section
/-! The end of a frame: bad and good frames (R166 to R168), the CRC, the fields of a header (12.1, 12.2) and the refusals
of R170 steps 2 to 4. -/

namespace Sys2Proof.Machine

/-! ## The CRC (R168) -/

/-- One bit into the CRC register, by the register's highest bit. -/
theorem crcBit_eq (reg : BitVec 16) (bit : Bool) :
    crcBit reg bit = if (reg.getLsbD 15 != bit) = true then (reg <<< 1) ^^^ 0x1021#16 else reg <<< 1 := by
  rw [crcBit, BitVec.msb_eq_getLsbD_last, Bool.bne_eq_xor]

theorem crcBits_eq_foldl (n : Nat) (w : Word) (reg : BitVec 16) :
    crcBits n w reg = ((List.range n).map fun k => w.getLsbD (n - 1 - k)).foldl crcBit reg := by
  induction n generalizing reg with
  | zero => rfl
  | succ n ih =>
    rw [crcBits, ih, List.range_succ_eq_map, List.map_cons, List.foldl_cons, List.map_map]
    have shifted : ((fun k => w.getLsbD (n + 1 - 1 - k)) ∘ Nat.succ) = fun k => w.getLsbD (n - 1 - k) := by
      funext k
      show w.getLsbD (n + 1 - 1 - (k + 1)) = _
      congr 1
      omega
    rw [shifted]
    rfl

theorem crcOf_eq_foldl (seed : BitVec 16) (words : List Word) :
    crcOf seed words = (words.flatMap fun w => (List.range 32).map fun k => w.getLsbD (31 - k)).foldl crcBit seed := by
  unfold crcOf
  induction words generalizing seed with
  | nil => rfl
  | cons w words ih =>
    rw [List.foldl_cons, ih, List.flatMap_cons, List.foldl_append, crcBits_eq_foldl]

/-! ## Bits of a word -/

theorem bitsOf_eq (w : Word) (hi lo : Nat) : bitsOf w hi lo = w.toNat / 2 ^ lo % 2 ^ (hi + 1 - lo) := by
  rw [bitsOf, Nat.shiftRight_eq_div_pow]

theorem bitsOf_upper (w : Word) : bitsOf w 31 16 = w.toNat / 65536 := by
  have := w.isLt
  rw [bitsOf_eq]
  exact Nat.mod_eq_of_lt (by omega)

/-- The upper half of the received CRC word is the CRC of the words before it (R168). -/
theorem crcMatches_iff (seed : BitVec 16) (words : List Word) (n : Nat) :
    crcMatches seed words n = true ↔ (words.getD n 0).toNat / 65536 = (crcOf seed (words.take n)).toNat := by
  have := (words.getD n 0).isLt
  rw [crcMatches, beq_iff_eq, bitsOf_upper, ← BitVec.toNat_inj, BitVec.toNat_ofNat, Nat.mod_eq_of_lt (by omega)]

theorem expectedWords_eq (crcOn : Bool) (h : Word) :
    expectedWords crcOn h = 1 + headerLength h + (if crcOn then 1 else 0) := by
  cases crcOn <;> rfl

/-! ## Judging a frame (R166, R167) -/

section
variable {f : Frame} {tail : FrameTail} {h : Word} {rest : List Word}

theorem Frame.judge_of_noHeader (none : f.words = []) : f.judge tail = .bad .frame := by
  rw [Frame.judge, none]

/-- The frame is no whole number of words, names a length above 32, or has another number of words than expected. -/
def Frame.misfits (f : Frame) (tail : FrameTail) (h : Word) : Prop :=
  tail.stray ≠ 0 ∨ 32 < headerLength h ∨
    f.words.length + tail.words.length ≠ 1 + headerLength h + (if f.crcOn then 1 else 0)

theorem Frame.judge_of_header (headed : f.words = h :: rest) :
    f.judge tail =
      if tail.stray != 0 || 32 < headerLength h || (f.words ++ tail.words).length != expectedWords f.crcOn h then
        .bad .frame
      else if f.crcOn && !crcMatches f.seed (f.words ++ tail.words) (headerLength h + 1) then .bad .crc
      else .good h (((f.words ++ tail.words).drop 1).take (headerLength h)) := by
  rw [Frame.judge, headed]

theorem Frame.judge_of_misfit (headed : f.words = h :: rest) (misfit : f.misfits tail h) :
    f.judge tail = .bad .frame := by
  rw [Frame.judge_of_header headed, if_pos]
  rw [Frame.misfits, or_assoc.symm] at misfit
  simpa [expectedWords_eq] using misfit

theorem Frame.judge_of_fit (headed : f.words = h :: rest) (fit : ¬ f.misfits tail h) :
    f.judge tail =
      if f.crcOn && !crcMatches f.seed (f.words ++ tail.words) (headerLength h + 1) then .bad .crc
      else .good h (((f.words ++ tail.words).drop 1).take (headerLength h)) := by
  rw [Frame.judge_of_header headed, if_neg]
  rw [Frame.misfits, or_assoc.symm] at fit
  simpa [expectedWords_eq] using fit

/-- A frame is good exactly when it has its header, fits, and has a CRC word that matches where CRC is on. -/
theorem Frame.judge_good_iff {payload : List Word} :
    f.judge tail = .good h payload ↔ ∃ rest, f.words = h :: rest ∧ ¬ f.misfits tail h ∧
      (f.crcOn = true → crcMatches f.seed (f.words ++ tail.words) (headerLength h + 1) = true) ∧
      payload = ((f.words ++ tail.words).drop 1).take (headerLength h) := by
  cases headed : f.words with
  | nil => rw [Frame.judge_of_noHeader headed]; simp
  | cons h' rest =>
    by_cases misfit : f.misfits tail h'
    · rw [Frame.judge_of_misfit headed misfit]
      refine ⟨fun bad => (nomatch bad), fun ⟨_, same, fit, _⟩ => ?_⟩
      rw [List.cons.injEq] at same
      exact absurd (same.1 ▸ misfit) fit
    · rw [Frame.judge_of_fit headed misfit, ← headed]
      split
      case isTrue differs =>
        refine ⟨fun bad => (nomatch bad), fun ⟨_, same, _, good, _⟩ => ?_⟩
        rw [headed, List.cons.injEq] at same
        rw [same.1] at differs
        rw [Bool.and_eq_true_iff] at differs
        rw [good differs.1] at differs
        exact absurd differs.2 Bool.false_ne_true
      case isFalse agrees =>
        rw [Judgement.good.injEq]
        constructor
        · rintro ⟨rfl, rfl⟩
          refine ⟨rest, headed, misfit, fun on => ?_, rfl⟩
          rw [on] at agrees
          simpa using agrees
        · rintro ⟨_, same, -, -, rfl⟩
          rw [headed, List.cons.injEq] at same
          rw [same.1]
          exact ⟨rfl, rfl⟩

end

theorem State.modPort_modPort (s : State) (p : Port) (f k : PortState → PortState) :
    (s.modPort p f).modPort p k = s.modPort p fun ps => k (f ps) := by
  cases p <;> rfl

theorem State.endBadFrame_of_bad {s : State} {p : Port} {f : Frame} {tail : FrameTail} {r : Result}
    (inProgress : (s.port p).frame = some f) (bad : f.judge tail = .bad r) :
    s.endBadFrame p tail = s.modPort p fun ps => { ps with frame := none, lastResult := r } := by
  rw [State.endBadFrame, inProgress]
  dsimp only
  rw [bad]
  dsimp only [State.refuseFrame, State.setResult, State.endFrame]
  exact State.modPort_modPort s p _ _

/-- The end of a frame is good when its frame in progress is judged good. -/
theorem State.goodEnd_iff {s : State} {p : Port} {tail : FrameTail} {x : GoodFrame} :
    s.goodEnd p tail = some x ↔ ∃ f, (s.port p).frame = some f ∧ f.judge tail = .good x.header x.payload ∧
      x.popCount = f.popCount ∧ x.popEmpty = f.popEmpty := by
  unfold State.goodEnd
  cases (s.port p).frame with
  | none => simp
  | some f =>
    dsimp only
    simp only [Option.some.injEq, exists_eq_left']
    cases f.judge tail with
    | bad r => simp
    | good h payload =>
      obtain ⟨header, words, count, empty⟩ := x
      simp only [Option.some.injEq, GoodFrame.mk.injEq, Judgement.good.injEq, and_assoc, eq_comm]

/-- Settles O9: what is bad by `Frame.judge_of_noHeader`, `Frame.judge_of_misfit` and `Frame.judge_of_fit`, the CRC by
`crcOf_eq_foldl`, and what is good by `State.goodEnd_iff` and `Frame.judge_good_iff`. -/
theorem badFrameIsNotApplied : Obligations.BadFrameIsNotApplied := by
  refine ⟨fun s p f tail running inProgress => ⟨fun misfit => ?_, fun h whole headed short on count differs => ?_⟩,
    fun seed words => ?_, fun s p tail x => ?_⟩
  · rw [exec_badFrame running]
    refine congrArg _ (State.endBadFrame_of_bad inProgress ?_)
    cases headed : f.words with
    | nil => exact Frame.judge_of_noHeader headed
    | cons h rest =>
      refine Frame.judge_of_misfit headed ?_
      rcases misfit with stray | none | ⟨h', rest', same, wrong⟩
      · exact .inl stray
      · rw [headed] at none; exact nomatch none
      · rw [headed, List.cons.injEq] at same
        rw [← same.1] at wrong
        exact .inr wrong
  · rw [exec_badFrame running]
    refine congrArg _ (State.endBadFrame_of_bad inProgress ?_)
    have fit : ¬ f.misfits tail h := by
      rw [Frame.misfits, headed, on, count]
      simp [whole, short]
      omega
    have mismatch : crcMatches f.seed (h :: tail.words) (headerLength h + 1) = false := by
      rw [← Bool.not_eq_true, crcMatches_iff]
      exact differs
    rw [Frame.judge_of_fit headed fit, headed, on]
    exact if_pos (by rw [List.singleton_append, mismatch]; rfl)
  · rw [crcOf_eq_foldl, funext fun reg => funext (crcBit_eq reg)]
  · rw [State.goodEnd_iff]
    constructor
    · rintro ⟨f, inProgress, good, count, empty⟩
      obtain ⟨rest, headed, fit, crc, payload⟩ := Frame.judge_good_iff.mp good
      simp only [Frame.misfits, not_or, not_not, Nat.not_lt] at fit
      obtain ⟨whole, short, number⟩ := fit
      refine ⟨f, x.header, rest, _, _, inProgress, headed, rfl, rfl, whole, short, ?_, fun on => ?_, ?_⟩
      · rw [List.length_append]; exact number
      · exact (crcMatches_iff _ _ _).mp (crc on)
      · rw [← payload, ← count, ← empty]
    · rintro ⟨f, h, rest, words, n, inProgress, headed, rfl, rfl, whole, short, number, crc, rfl⟩
      refine ⟨f, inProgress, Frame.judge_good_iff.mpr ⟨rest, headed, ?_, fun on => ?_, rfl⟩, rfl, rfl⟩
      · rw [List.length_append] at number
        simp only [Frame.misfits, not_or, not_not, Nat.not_lt]
        exact ⟨whole, short, number⟩
      · exact (crcMatches_iff _ _ _).mpr (crc on)

/-! ## The refusals of R170 -/

theorem pointOfNat_isSome (n : Nat) : (pointOfNat n).isSome = decide (n < 24) := by
  unfold pointOfNat
  split <;> simp [*]

theorem groupOfNat_isSome (n : Nat) : (groupOfNat n).isSome = decide (n < 8) := by
  unfold groupOfNat
  split <;> simp [*]

theorem assignIndex_isSome (h : Word) :
    (assignIndex h).isSome = (decide (headerIndex h < 24) && decide (headerNewGroup h < 8)) := by
  rw [← pointOfNat_isSome, ← groupOfNat_isSome, assignIndex]
  cases pointOfNat (headerIndex h) <;> cases groupOfNat (headerNewGroup h) <;> rfl

theorem tableIndex_isSome (h : Word) : (tableIndex h).isSome = indexInRange .readTable h := by
  rw [indexInRange, tableIndex]
  cases headerTable h with
  | none => rfl
  | some k => cases k <;> simp [pointOfNat_isSome, groupOfNat_isSome]

/-- The end of a frame that names a request goes through an index that is there exactly in the range of 10.6. -/
theorem effect_frameEndOf (req : Request) (p : Port) (tail : FrameTail) :
    ∃ (α : Type) (index : Word → Option α) (owner : State → α → GoodFrame → State × Result),
      (∀ s, effect (frameEndOf req p tail) s = s.takeRequest p tail req index owner) ∧
        ∀ h, (index h).isSome = indexInRange req h := by
  cases req
  case readTable => exact ⟨_, _, _, fun _ => rfl, tableIndex_isSome⟩
  case assign => exact ⟨_, _, _, fun _ => rfl, assignIndex_isSome⟩
  case pointSetup | setPosition | clearFault => exact ⟨_, _, _, fun _ => rfl, fun h => pointOfNat_isSome (headerIndex h)⟩
  case nop | portSetup | stopAll | popReport | portRestart => exact ⟨_, _, _, fun _ => rfl, fun _ => rfl⟩
  all_goals exact ⟨_, _, _, fun _ => rfl, fun h => groupOfNat_isSome (headerIndex h)⟩

theorem lengthOk_iff (req : Request) (h : Word) : lengthOk req (headerLength h) = true ↔ lengthAccepted req h := by
  cases req <;> simp [lengthOk, lengthAccepted, acceptedLength]

theorem State.decideRequest_of_badIndex {s : State} {f : GoodFrame} {req : Request} {α : Type} {index : Word → Option α}
    (owner : State → α → GoodFrame → State × Result) (out : (index f.header).isSome = false) :
    s.decideRequest f req index owner = (s, .badIndex) := by
  rw [Option.isSome_eq_false_iff, Option.isNone_iff_eq_none] at out
  rw [State.decideRequest, out]

theorem State.decideRequest_of_badLength {s : State} {f : GoodFrame} {req : Request} {α : Type}
    {index : Word → Option α} (owner : State → α → GoodFrame → State × Result) (range : (index f.header).isSome = true)
    (length : ¬ lengthAccepted req f.header) : s.decideRequest f req index owner = (s, .badValue) := by
  obtain ⟨a, named⟩ := Option.isSome_iff_exists.mp range
  rw [State.decideRequest, named]
  exact if_neg fun ok => length ((lengthOk_iff req f.header).mp ok)

theorem requestOfCode_of_large {n : Nat} (large : 20 ≤ n) : requestOfCode n = none := by
  obtain ⟨k, rfl⟩ := Nat.exists_eq_add_of_le' large
  rfl

theorem exec_unknownRequest_of_goodEnd {s : State} {p : Port} {tail : FrameTail} {f : GoodFrame}
    (running : s.resetAsserted = false) (good : s.goodEnd p tail = some f) (unnamed : headerRequest f.header = none) :
    exec (.unknownRequest p tail) s = .next (s.answered p .unknown) := by
  rw [exec_of_running running]
  show Host.Outcome.next (s.refuseUnknown p tail) = _
  rw [State.refuseUnknown, good]
  exact congrArg _ (if_pos unnamed)

/-- Settles O10: the fields are the definitions of the header's parts, and a refusal is what `State.decideRequest` answers
for an index out of range or a length not accepted (`effect_frameEndOf`). -/
theorem badRequestIsRefused : Obligations.BadRequestIsRefused := by
  refine ⟨bitsOf_eq, fun h => ⟨rfl, rfl, rfl, rfl, rfl, rfl, rfl, rfl, beq_iff_eq, rfl, rfl, rfl, rfl⟩, rfl,
    fun n large => requestOfCode_of_large large,
    fun s p tail f running good large => exec_unknownRequest_of_goodEnd running good (requestOfCode_of_large large),
    fun req s p tail f brings => ?_⟩
  obtain ⟨α, index, owner, ends, range⟩ := effect_frameEndOf req p tail
  obtain ⟨running, -, -⟩ := id brings
  rw [exec_of_running running, ends, State.takeRequest_of_brings brings, ← range]
  refine ⟨fun out => ?_, fun named length => ?_⟩
  · rw [State.decideRequest_of_badIndex owner out]; rfl
  · rw [State.decideRequest_of_badLength owner named length]; rfl

end Sys2Proof.Machine
end

section
/-! The layouts of the report records (12.5) and of the five table images (12.4), and the image that a READ_TABLE takes
(R166, R169, R171). -/

namespace Sys2Proof.Machine

/-! ## Words put together from fields -/

theorem field_zero (width lo : Nat) : field width lo 0 = 0 := by
  rw [field, Nat.zero_mod, Nat.zero_shiftLeft]; rfl

theorem pack_append_zero (l : List Word) : pack (l ++ [0]) = pack l := by
  rw [pack, List.foldl_append, List.foldl_cons, List.foldl_nil]
  exact BitVec.or_zero

/-- One number in the upper half of a word. -/
theorem field_upper (x : Nat) : field 16 16 x = BitVec.ofNat 16 x ++ BitVec.ofNat 16 0 := by
  rw [← pack_pair, field_zero]
  exact (BitVec.zero_or (x := field 16 16 x)).symm.trans (pack_append_zero [field 16 16 x]).symm

/-- Numbers two to a word, the earlier in the upper half, 0 after the last (12.4). -/
theorem pairUp_eq (l : List Nat) :
    pairUp l = (List.range ((l.length + 1) / 2)).map fun k =>
      BitVec.ofNat 16 (l.getD (2 * k) 0) ++ BitVec.ofNat 16 (l.getD (2 * k + 1) 0) := by
  induction l using pairUp.induct with
  | case1 => rfl
  | case2 x => simp [pairUp, field_upper]
  | case3 x y rest ih =>
    rw [pairUp, pack_pair, ih, List.length_cons, List.length_cons,
      show (rest.length + 1 + 1 + 1) / 2 = (rest.length + 1) / 2 + 1 by omega, List.range_succ_eq_map, List.map_cons,
      List.map_map]
    rfl

/-! ## Report records -/

theorem Report.bitsOf_kind (r : Report) : bitsOf r.word0 31 28 = kindNumber r.body.kind := by
  have fits : kindNumber r.body.kind < 2 ^ 4 := by cases r.body.kind <;> decide
  have body : bitsOf (shortBody r.body) 31 28 = 0 := by
    have := (shortHalf r.body).isLt
    rw [bitsOf_eq, shortBody_eq, Nat.div_eq_of_lt (by omega)]
    rfl
  have apart : ∀ {width lo n : Nat}, lo + width ≤ 28 → bitsOf (field width lo n) 31 28 = 0 := fun h =>
    bitsOf_field_apart (by omega) (.inl h)
  simp (discharger := decide) only [Report.word0, pack, List.foldl_cons, List.foldl_nil, bitsOf_or, flag, bitsOf_zero,
    body, apart, bitsOf_field_self (width := 4) (hi := 31) (lo := 28) (by decide) rfl fits, Nat.zero_or, Nat.or_zero]

theorem Report.word0_ne_zero (r : Report) : r.word0 ≠ 0 := by
  intro zero
  have kind := r.bitsOf_kind
  rw [zero, bitsOf_zero] at kind
  cases h : r.body.kind <;> rw [h] at kind <;> exact absurd kind (by decide)

theorem bodyWords_length_le (b : ReportBody)
    (pairs : ∀ o tag k p l, b = .moveEnded o tag k p l → l.length ≤ 24) : (bodyWords b).length ≤ 24 := by
  cases b with
  | moveEnded o tag k p l =>
    cases o with
    | arrived => rw [bodyWords, List.length_map]; exact pairs _ _ _ _ _ rfl
    | _ => exact Nat.le_of_ble_eq_true rfl
  | _ => exact Nat.le_of_ble_eq_true rfl

theorem tripHead_eq (tag : BitVec 16) (kind : MoveKind) :
    pack [flag 31 true, field 2 29 (moveKindCode kind), tag.setWidth 32] =
      1#1 ++ BitVec.ofNat 2 (moveKindCode kind) ++ 0#13 ++ tag := by
  apply BitVec.eq_of_toNat_eq
  refine Eq.trans ?_ (BitVec.toNat_append _ _).symm
  simp only [BitVec.toNat_append]
  simp (discharger := decide) [pack, field_toNat, flag_toNat, Nat.shiftLeft_or_distrib, ← Nat.shiftLeft_add,
    half_toNat, -BitVec.toNat_ofNat, -BitVec.toNat_setWidth]

theorem filteredWord_eq (v : Nat) : field 15 0 v = 0#17 ++ BitVec.ofNat 15 v := by
  apply BitVec.eq_of_toNat_eq
  refine Eq.trans ?_ (BitVec.toNat_append _ _).symm
  rw [field_toNat 15 0 v (by decide), BitVec.toNat_zero, Nat.zero_shiftLeft, Nat.zero_or, Nat.shiftLeft_zero]

theorem holdersWord_eq (x y : Nat) :
    pack [field 2 30 x, field 2 28 y] = BitVec.ofNat 2 x ++ BitVec.ofNat 2 y ++ 0#28 := by
  apply BitVec.eq_of_toNat_eq
  refine Eq.trans ?_ (BitVec.toNat_append _ _).symm
  simp only [BitVec.toNat_append]
  simp (discharger := decide) [pack, field_toNat, Nat.shiftLeft_or_distrib, ← Nat.shiftLeft_add, -BitVec.toNat_ofNat]

theorem groupStateWord_eq (x : Nat) : field 3 29 x = BitVec.ofNat 3 x ++ 0#29 := by
  apply BitVec.eq_of_toNat_eq
  refine Eq.trans ?_ (BitVec.toNat_append _ _).symm
  rw [field_toNat 3 29 x (by decide), BitVec.toNat_zero, Nat.or_zero]

/-- Settles O17: word 0 by `Report.word0_eq` and `Report.bitsOf_kind`, the words after word 1 one kind at a time. -/
theorem recordsHaveTheirLength : Obligations.RecordsHaveTheirLength := by
  refine ⟨fun r => ⟨Nat.add_comm (bodyWords r.body).length 2, Nat.le_add_right 2 _, r.word0_ne_zero, r.bitsOf_kind, fun pairs => ?_⟩,
    fun r short hs => ?_, fun r move hm => ?_, rfl, rfl, rfl, rfl⟩
  · exact Nat.add_le_add_left (bodyWords_length_le r.body pairs) 2
  · have half : short = shortHalf r.body := by rw [hs]; cases r.body <;> rfl
    rw [half, ← Report.word0_eq]
    rfl
  · obtain rfl : move = moveHalf := funext fun code => funext fun kind => funext fun p => hm code kind p
    show bodyWords r.body = _
    cases r.body with
    | moveStarted resume tag kind p => exact congrArg (fun w => [w]) (moveWord_eq _ _ _)
    | moveEnded o tag kind p l =>
      cases o with
      | arrived => exact List.map_congr_left fun x _ => arrivalWord_eq kind x
      | _ => exact congrArg (fun w => [w]) (moveWord_eq _ _ _)
    | moveHeld reason tag kind p => exact congrArg (fun w => [w]) (moveWord_eq _ _ _)
    | groupTripped cause p head =>
      cases head with
      | none => rfl
      | some x => exact congrArg (fun w => [w]) (tripHead_eq x.1 x.2)
    | loadStatus st v i => exact congrArg (fun w => [w]) (filteredWord_eq v)
    | authority c new previous st =>
      exact congrArg₂ (fun v w => [v, w]) (holdersWord_eq _ _) (groupStateWord_eq _)
    | _ => rfl

/-! ## The words of a reply (R166, R169, R171) -/

theorem imageSlice_getD (image : List Word) (first n j : Nat) :
    (imageSlice image first n).getD j 0 = if j < n then image.getD (first + j) 0 else 0 := by
  unfold imageSlice
  split
  case isTrue within => simp [List.getD_eq_getElem?_getD, within]
  case isFalse beyond => simp [List.getD_eq_getElem?_getD, beyond]

theorem State.replyWords_of_image {s : State} {p : Port} {h : Word} {k : Table} {image : List Word}
    (reads : headerRequest h = some .readTable) (table : headerTable h = some k)
    (taken : s.tableImage k (headerIndex h) = some image) :
    s.replyWords p h = imageSlice image (headerFirstWord h) (headerLength h) := by
  rw [State.replyWords, reads]
  dsimp only
  rw [table, Option.bind_some, taken]

theorem State.replyWords_of_noImage {s : State} {p : Port} {h : Word} (reads : headerRequest h = some .readTable)
    (none : ∀ k, headerTable h = some k → s.tableImage k (headerIndex h) = none) : s.replyWords p h = [] := by
  rw [State.replyWords, reads]
  dsimp only
  cases table : headerTable h with
  | none => rfl
  | some k => rw [Option.bind_some, none k table]

theorem State.replyWords_of_noRead {s : State} {p : Port} {h : Word} (reads : headerRequest h ≠ some .readTable)
    (pops : headerRequest h ≠ some .popReport) : s.replyWords p h = [] := by
  unfold State.replyWords
  split
  · exact absurd ‹_› reads
  · exact absurd ‹_› pops
  · rfl

theorem Frame.driven_after {f : Frame} {h : Word} {rest : List Word} (headed : f.words = h :: rest) {k : Nat}
    (beyond : headerLength h + 1 < k) : f.driven k = 0 := by
  rw [Frame.driven, if_neg (by omega), headed]
  dsimp only
  rw [if_neg (by omega), if_neg (by simp; omega)]

/-- The words a CRC word covers are the ones driven before it (R169). -/
theorem Frame.driven_covered {f : Frame} {h : Word} {rest : List Word} (headed : f.words = h :: rest) :
    (List.range (headerLength h + 1)).map f.driven =
      f.status :: (List.range (headerLength h)).map fun j => f.replyAt (j + 1) := by
  rw [List.range_succ_eq_map, List.map_cons, List.map_map]
  refine congrArg₂ List.cons rfl (List.map_congr_left fun j hj => ?_)
  exact Frame.driven_succ_of_lt headed (List.mem_range.mp hj)

theorem crcWord_eq (crc : BitVec 16) : crcWord crc = crc ++ 0#16 := by
  apply BitVec.eq_of_toNat_eq
  have := crc.isLt
  rw [crcWord, BitVec.toNat_append, BitVec.toNat_shiftLeft, half_toNat, BitVec.toNat_zero, Nat.or_zero,
    Nat.shiftLeft_eq]
  exact Nat.mod_eq_of_lt (by omega)

theorem Frame.driven_crc {f : Frame} {h : Word} {rest : List Word} (headed : f.words = h :: rest) :
    f.driven (headerLength h + 1) =
      if f.crcOn then crcOf f.seed ((List.range (headerLength h + 1)).map f.driven) ++ 0#16 else 0 := by
  rw [Frame.driven_covered headed, ← crcWord_eq, Frame.driven, if_neg (Nat.succ_ne_zero _), headed]
  dsimp only
  rw [if_neg (by omega)]
  simp

/-! ## The images (12.4) -/

theorem ringWords_eq (ring : Option (Vector Nat 8)) :
    ringWords ring = [0, 1, 2, 3].map fun k =>
      BitVec.ofNat 16 ((ring.map fun r => r.toList.getD (2 * k) 0).getD 0) ++
        BitVec.ofNat 16 ((ring.map fun r => r.toList.getD (2 * k + 1) 0).getD 0) := by
  cases ring with
  | none => rfl
  | some r =>
    show pairUp r.toList = _
    rw [pairUp_eq, Vector.length_toList]
    rfl

theorem Point.image_length (q : Point) : q.image.length = 27 := by
  rw [Point.image, ringWords_eq]
  cases q.staged <;> rfl

theorem Point.image_take (q : Point) : q.image.take 2 = [q.word0, q.word1] := rfl

/-- The words of a POINT image after its two words of fields. -/
theorem Point.image_drop (q : Point) : q.image.drop 2 =
    [BitVec.ofInt 32 q.capture.position, BitVec.ofInt 32 q.settings.softUpper, BitVec.ofInt 32 q.settings.softLower,
      BitVec.ofNat 32 q.settings.nominalSpeed, BitVec.ofNat 32 q.coast, BitVec.ofNat 32 q.settings.tGuard,
      BitVec.ofNat 32 q.settings.tReverse, BitVec.ofNat 32 q.settings.tMinrun, BitVec.ofNat 32 q.settings.tSettle,
      BitVec.ofNat 32 q.settings.tStall, BitVec.ofNat 32 q.settings.overThreshold,
      BitVec.ofNat 32 q.settings.underThreshold] ++
    ([0, 1, 2, 3].map fun k => BitVec.ofNat 16 ((q.load.ring.map fun r => r.toList.getD (2 * k) 0).getD 0) ++
      BitVec.ofNat 16 ((q.load.ring.map fun r => r.toList.getD (2 * k + 1) 0).getD 0)) ++
    [BitVec.ofInt 32 ((q.staged.bind (·.softUpper)).getD 0), BitVec.ofInt 32 ((q.staged.bind (·.softLower)).getD 0),
      BitVec.ofNat 32 ((q.staged.bind (·.tGuard)).getD 0), BitVec.ofNat 32 ((q.staged.bind (·.tReverse)).getD 0),
      BitVec.ofNat 32 ((q.staged.bind (·.tMinrun)).getD 0), BitVec.ofNat 32 ((q.staged.bind (·.tSettle)).getD 0),
      BitVec.ofNat 32 ((q.staged.bind (·.tStall)).getD 0), BitVec.ofNat 32 q.channel.lastOn,
      BitVec.ofNat 32 q.channel.lastOff] := by
  cases h : q.staged <;> simp only [Point.image, ringWords_eq, h] <;> rfl

theorem pointSet_getLsbD (l : List PointIdx) (k : Nat) : (pointSet l).getLsbD k = l.any fun i => i.val == k := by
  rw [pointSet, pack_getLsbD, List.any_map]
  congr 1
  funext i
  show (flag i.val true).getLsbD k = _
  rw [flag_getLsbD _ _ _ (by omega), Bool.and_true, Bool.eq_iff_iff, decide_eq_true_iff, beq_iff_eq, eq_comm]

theorem Group.queueWord_eq (x y : Nat) (b : Bool) :
    pack [field 3 29 x, field 5 24 y, flag 23 b] =
      BitVec.ofNat 3 x ++ BitVec.ofNat 5 y ++ BitVec.ofBool b ++ 0#23 := by
  apply BitVec.eq_of_toNat_eq
  refine Eq.trans ?_ (BitVec.toNat_append _ _).symm
  simp only [BitVec.toNat_append]
  simp (discharger := decide) [pack, field_toNat, flag_toNat, Nat.shiftLeft_or_distrib, ← Nat.shiftLeft_add,
    -BitVec.toNat_ofNat, -BitVec.toNat_ofBool]

theorem Group.queueImage_of_baseline (r : Group) (b : List (PointIdx × Nat)) (h : r.baseline.getD [] = b) :
    r.queueImage =
      pack [field 3 29 r.queue.length, field 5 24 r.runList.length, flag 23 r.baseline.isSome] ::
        (r.queue.flatMap Move.words ++ r.runList.flatMap RunEntry.words ++ pairUp (b.map (·.2))) := by
  subst h
  unfold Group.queueImage
  cases r.baseline <;> rfl

theorem State.groupImage_head (s : State) (g : GroupIdx) :
    (s.groupImage g).take 7 =
      [(s.group g).word0, natWord (s.group g).gateBand, natWord (s.group g).tripBand, natWord (s.group g).shareBand,
        natWord (s.group g).stagger, natWord (s.group g).window, natWord ((s.group g).permit.getD 0)] := rfl

theorem State.groupImage_referenced (s : State) (g : GroupIdx) (k : Nat) :
    ((s.groupImage g).getD 8 0).getLsbD k =
      ((s.group g).rehearsal && (s.members g).any fun i => i.val == k && s.referencedOf i) := by
  show (if (s.group g).rehearsal then pointSet ((s.members g).filter s.referencedOf) else 0).getLsbD k = _
  cases (s.group g).rehearsal with
  | false => exact BitVec.getLsbD_zero
  | true =>
    rw [if_pos rfl, pointSet_getLsbD, List.any_filter, Bool.true_and]
    simp only [Bool.and_comm]

theorem tableImage_point (s : State) (i : PointIdx) : s.tableImage .point i = some (s.point i).image := by
  simp [State.tableImage, pointOfNat]

theorem tableImage_group (s : State) (g : GroupIdx) : s.tableImage .group g = some (s.groupImage g) := by
  simp [State.tableImage, groupOfNat]

theorem tableImage_queue (s : State) (g : GroupIdx) : s.tableImage .queue g = some (s.group g).queueImage := by
  simp [State.tableImage, groupOfNat]

/-- Settles O7: the reply by what the header names, the CRC word by `Frame.driven_crc`, and the images word by word. -/
theorem headerTakesTheReadImage : Obligations.HeaderTakesTheReadImage := by
  refine ⟨fun s p f h running inProgress noWords pops => ?_, fun f h rest headed => ⟨fun on => ?_, fun off => ?_,
    fun k => Frame.driven_after headed⟩, fun s => ⟨fun g => ⟨tableImage_group s g, tableImage_queue s g⟩,
    fun n => ⟨rfl, rfl⟩⟩, fun q => ⟨?_, q.image_drop⟩, fun s g r members hr hm => ?_, fun r => ?_, fun s => ⟨?_, ?_⟩,
    rfl, rfl, rfl, rfl, rfl, rfl, rfl, rfl, rfl, rfl, rfl, rfl, rfl, rfl, rfl⟩
  · have step := exec_headerComplete running p h
    rw [State.completeHeader_of_noWords inProgress noWords] at step
    refine ⟨_, { f with words := [h], reply := s.replyWords p h, popCount := _, popEmpty := _ }, step,
      by rw [State.port_modPort_self], rfl, rfl, rfl, rfl, fun k image reads table taken j within => ?_,
      fun none j within => ?_, fun i => ⟨tableImage_point s i, Point.image_length _⟩, rfl, rfl, rfl,
      fun q other => State.port_modPort_ne s other.symm _⟩
    all_goals rw [Frame.driven_succ_of_lt rfl within]
    · dsimp only
      rw [State.replyWords_of_image reads table taken, imageSlice_getD, if_pos within]
    · have empty : s.replyWords p h = [] := by
        by_cases reads : headerRequest h = some .readTable
        · exact State.replyWords_of_noImage reads (none.resolve_left (not_not.mpr reads))
        · exact State.replyWords_of_noRead reads pops
      dsimp only
      rw [empty]
      rfl
  · rw [Frame.driven_crc headed, if_pos on]
  · rw [Frame.driven_crc headed, off]; rfl
  · rw [Point.image_take, Point.word0_eq, Point.word1_eq]
  · subst hr hm
    refine ⟨?_, fun k => pointSet_getLsbD _ k, fun k => s.groupImage_referenced g k, rfl⟩
    rw [State.groupImage_head, Group.word0_eq]
    rfl
  · rw [Group.queueImage_of_baseline r _ rfl, Group.queueWord_eq, pairUp_eq, List.length_map,
      funext Move.words_eq, funext RunEntry.words_eq]
    rfl
  · show [rightsWord s.rights.a, rightsWord s.rights.b, rightsWord s.rights.l] = _
    rw [rightsWord_eq, rightsWord_eq, rightsWord_eq]
    rfl
  · show (s.port .a).words ++ (s.port .b).words ++ (s.port .l).words = _
    rw [PortState.words_eq, PortState.words_eq, PortState.words_eq]
    rfl

end Sys2Proof.Machine
end

section
/-! POINT_SETUP (R2 to R12, R35, R46). -/

namespace Sys2Proof.Machine

/-! ## The write set (R3, R184, 12.3) -/

theorem decodePointWrites_eq (h : Word) (payload : List Word) :
    decodePointWrites h payload =
      { encoderMode := (selectedWord h payload 0).map encoderModeOfWord
        softUpper := (selectedWord h payload 1).map BitVec.toInt, softLower := (selectedWord h payload 2).map BitVec.toInt
        nominalSpeed := (selectedWord h payload 3).map BitVec.toInt
        tGuard := (selectedWord h payload 4).map BitVec.toInt, tReverse := (selectedWord h payload 5).map BitVec.toInt
        tMinrun := (selectedWord h payload 6).map BitVec.toInt, tSettle := (selectedWord h payload 7).map BitVec.toInt
        tStall := (selectedWord h payload 8).map BitVec.toInt
        overThreshold := (selectedWord h payload 9).map BitVec.toInt
        underThreshold := (selectedWord h payload 10).map BitVec.toInt } := by
  simp only [decodePointWrites, maskedInt_eq, maskedWord_eq_selectedWord, Nat.reduceLT]

theorem Staged.isEmpty_iff (k : Staged) :
    k.isEmpty = true ↔ k.softUpper = none ∧ k.softLower = none ∧ k.tGuard = none ∧ k.tReverse = none ∧
      k.tMinrun = none ∧ k.tSettle = none ∧ k.tStall = none := by
  simp only [Staged.isEmpty, Bool.and_eq_true, Option.isNone_iff_eq_none, and_assoc]

/-! ## The written record -/

/-- An accepted mode other than the one in force clears what was captured under the old one (R12, R35). -/
theorem Point.applyMode_eq (p : Point) (m : Option EncoderMode) :
    p.applyMode m =
      { p with
        settings := { p.settings with encoderMode := m.getD p.settings.encoderMode }
        capture :=
          if m.getD p.settings.encoderMode = p.settings.encoderMode then p.capture
          else { p.capture with referenced := false, lastCount := none, wrongWay := 0, creep := 0 } } := by
  cases m with
  | none => rw [Option.getD_none, if_pos rfl]; rfl
  | some m =>
    rw [Option.getD_some, Point.applyMode]
    dsimp only
    by_cases same : m = p.settings.encoderMode
    · rw [if_pos same.symm, if_pos same, same]
    · rw [if_neg (Ne.symm same), if_neg same]

/-- A copy without fields changes no settings whose t_reverse is not below t_guard (R5). -/
theorem Settings.applyStaged_of_empty {c : Settings} {k : Staged} (order : c.tGuard ≤ c.tReverse)
    (empty : k.isEmpty = true) : c.applyStaged k = c := by
  obtain ⟨upper, lower, guard, reverse, minrun, settle, stall⟩ := (Staged.isEmpty_iff k).mp empty
  rw [Settings.applyStaged_eq, upper, lower, guard, reverse, minrun, settle, stall]
  simp only [Option.getD_none, max_eq_left order]

theorem Point.applyStagedClass_of_off {p : Point} {k : Staged} (off : p.channel.state = .off)
    (order : p.settings.tGuard ≤ p.settings.tReverse) :
    p.applyStagedClass k = { p with settings := p.settings.applyStaged k } := by
  unfold Point.applyStagedClass
  split
  case isTrue empty => rw [Settings.applyStaged_of_empty order empty]
  case isFalse => rfl

theorem Point.applyStagedClass_of_busy {p : Point} {k : Staged} (busy : p.channel.state ≠ .off) :
    p.applyStagedClass k = { p with staged := if k.isEmpty then p.staged else some k } := by
  unfold Point.applyStagedClass
  split
  · rfl
  · rfl

/-- With the channel not OFF the immediate fields are written and the others staged (R4, R7). -/
theorem Point.applyWrites_of_busy {p : Point} {w : PointWrites} (busy : p.channel.state ≠ .off)
    (mode : w.encoderMode = none) :
    p.applyWrites w =
      { p with
        settings := p.settings.applyImmediate w
        staged := if (stagedOfWrites w).isEmpty then p.staged else some (stagedOfWrites w) } := by
  rw [Point.applyWrites, mode]
  exact Point.applyStagedClass_of_busy busy

/-- With the channel OFF every written field is active at once (R4, R5, R12). -/
theorem Point.applyWrites_of_off {p : Point} {w : PointWrites} (off : p.channel.state = .off)
    (order : p.settings.tGuard ≤ p.settings.tReverse) :
    p.applyWrites w =
      { p with
        settings :=
          ({ p.settings.applyImmediate w with
            encoderMode := w.encoderMode.getD p.settings.encoderMode } : Settings).applyStaged (stagedOfWrites w)
        capture :=
          if w.encoderMode.getD p.settings.encoderMode = p.settings.encoderMode then p.capture
          else { p.capture with referenced := false, lastCount := none, wrongWay := 0, creep := 0 } } := by
  rw [Point.applyWrites, Point.applyMode_eq]
  exact Point.applyStagedClass_of_off off order

/-! ## A pending energize under new times (R46) -/

section
variable {s : State} {i : PointIdx} {c : Settings}

theorem State.pendingMoved_of_sameTimes (guard : (s.point i).settings.tGuard = c.tGuard)
    (reverse : (s.point i).settings.tReverse = c.tReverse) : s.pendingMoved i c = s := by
  simp [State.pendingMoved, guard, reverse]

theorem State.pendingMoved_of_waiting
    (wait : ∀ d, (s.point i).channel.pending = some d → s.time < (s.point i).energizeDue d) :
    s.pendingMoved i c = s := by
  have held : (s.point i).channel.pending.any (s.waitElapsed i) = false := by
    cases h : (s.point i).channel.pending with
    | none => rfl
    | some d => exact decide_eq_false (Nat.not_le.mpr (wait d h))
  rw [State.pendingMoved, held, Bool.and_false]
  rfl

theorem State.pendingMoved_of_due {d : Dir} (pending : (s.point i).channel.pending = some d)
    (due : (s.point i).energizeDue d ≤ s.time)
    (moved : (s.point i).settings.tGuard ≠ c.tGuard ∨ (s.point i).settings.tReverse ≠ c.tReverse) :
    s.pendingMoved i c = s.pendingDue i := by
  have elapsed : (s.point i).channel.pending.any (s.waitElapsed i) = true := by
    rw [pending]; exact decide_eq_true due
  rw [State.pendingMoved, elapsed, Bool.and_true]
  refine if_pos ?_
  rcases moved with h | h <;> simp [h]

end

/-! ## What POINT_SETUP decides -/

section
variable {s : State} {p : Port} {i : PointIdx} {f : GoodFrame} {w : PointWrites}

theorem pointSetupOwner_of_noRight (l : s.level p (s.point i).group ≠ .setup) :
    pointSetupOwner p s i f = (s, .noRight) := by
  rw [Ne, ← State.allowed_setup_eq_true_iff, Bool.not_eq_true] at l
  simp [pointSetupOwner, l]

theorem pointSetupOwner_of_busy (hw : w = decodePointWrites f.header f.payload)
    (l : s.level p (s.point i).group = .setup) (mode : w.encoderMode.isSome = true) (r : s.atRest i = false) :
    pointSetupOwner p s i f = (s, .busy) := by
  rw [← State.allowed_setup_eq_true_iff] at l
  simp [pointSetupOwner, ← hw, l, mode, r]

theorem pointSetupOwner_of_badValue (hw : w = decodePointWrites f.header f.payload)
    (l : s.level p (s.point i).group = .setup) (mode : w.encoderMode.isSome = true → s.atRest i = true)
    (written : w.softLower.isSome = true ∨ w.softUpper.isSome = true)
    (pair : softPairOk (s.point i).settings w = false) : pointSetupOwner p s i f = (s, .badValue) := by
  rw [← State.allowed_setup_eq_true_iff] at l
  simp only [pointSetupOwner, ← hw, l, pair]
  rw [if_neg (by simp), if_neg (by simpa using mode), if_pos (by simpa using written.symm)]

theorem pointSetupOwner_of_accepted (hw : w = decodePointWrites f.header f.payload)
    (l : s.level p (s.point i).group = .setup) (mode : w.encoderMode.isSome = true → s.atRest i = true)
    (pair : (w.softLower.isSome = true ∨ w.softUpper.isSome = true) → softPairOk (s.point i).settings w = true) :
    pointSetupOwner p s i f =
      ((s.setPoint i ((s.point i).applyWrites w)).pendingMoved i (s.point i).settings, .ok) := by
  rw [← State.allowed_setup_eq_true_iff] at l
  simp only [pointSetupOwner, ← hw, l]
  rw [if_neg (by simp), if_neg (by simpa using mode), if_neg]
  · rfl
  · simpa [or_comm] using pair

end

/-- Settles O18: the owner's checks in their order. -/
theorem pointSetupIsChecked : Obligations.PointSetupIsChecked := by
  rintro s p tail f i w lower upper hd hi hw rfl rfl
  rw [exec_pointSetup hd hi, ← State.point_afterFrame s p i, ← State.level_afterFrame s p p,
    ← State.atRest_afterFrame s p i]
  refine ⟨fun l => ?_, fun l mode rest => ?_, fun l mode written crossed => ?_, ?_⟩
  · rw [pointSetupOwner_of_noRight l]; rfl
  · rw [pointSetupOwner_of_busy hw l mode rest]; rfl
  · rw [pointSetupOwner_of_badValue hw l mode written (decide_eq_false (Int.not_lt.mpr crossed))]; rfl
  · rw [State.atRest_afterFrame, State.point_afterFrame]
    exact s.atRest_iff i

/-- Settles O19: the ranges by `clampNat_eq`, the write set by `decodePointWrites_eq`, and the written record by
`Point.applyWrites_of_busy` and `Point.applyWrites_of_off`, with what R46 makes of a pending energize. -/
theorem pointSetupTakesEffect : Obligations.PointSetupTakesEffect := by
  refine ⟨fun v => ⟨clampInt_eq _ _ v (by decide), clampNat_eq (by decide) v, clampNat_eq (by decide) v,
    clampNat_eq (by decide) v, clampNat_eq (by decide) v, clampNat_eq (by decide) v, clampNat_eq (by decide) v,
    clampNat_eq (by decide) v, clampNat_eq (by decide) v⟩, fun h payload number hn => ?_,
    fun w => ⟨rfl, by simp [Staged.isEmpty_iff, stagedOfWrites]⟩, ?_⟩
  · rw [decodePointWrites_eq]
    simp only [hn]
    rfl
  rintro s p tail f i w q c lower upper speed overload underload hd hi hw rfl rfl rfl rfl rfl rfl rfl l mode pair
  have accepted := pointSetupOwner_of_accepted (s := s.afterFrame p) (i := i) hw
    (by rw [State.point_afterFrame, State.level_afterFrame]; exact l)
    (by rw [State.atRest_afterFrame]; exact mode)
    (by rw [State.point_afterFrame]; exact fun written => decide_eq_true (pair written))
  rw [exec_pointSetup hd hi, accepted, State.point_afterFrame, State.concluded]
  refine ⟨fun busy => ?_, fun off legal guard reverse q' hguard hreverse hq' => ?_⟩
  · have unmoded : w.encoderMode = none := by
      cases h : w.encoderMode with
      | none => rfl
      | some m => exact absurd ((s.atRest_iff i).mp (mode (by rw [h]; rfl))).1 busy
    rw [Point.applyWrites_of_busy busy unmoded,
      State.pendingMoved_of_sameTimes (by rw [State.point_setPoint_self]; rfl) (by rw [State.point_setPoint_self]; rfl)]
    rfl
  · obtain ⟨-, -, -, -, order, -⟩ := legal
    have written : (s.point i).applyWrites w = q' := by
      rw [Point.applyWrites_of_off off order, Settings.applyStaged_eq, hq', hguard, hreverse, hguard, max_comm]
      rfl
    have channel : q'.channel = (s.point i).channel := by rw [hq']
    have guard' : q'.settings.tGuard = guard := by rw [hq']
    have reverse' : q'.settings.tReverse = reverse := by rw [hq']
    rw [written]
    refine ⟨fun wait => ?_, fun d pending due moved => ?_⟩
    · by_cases same : guard = (s.point i).settings.tGuard ∧ reverse = (s.point i).settings.tReverse
      · rw [State.pendingMoved_of_sameTimes] <;> rw [State.point_setPoint_self]
        · rw [guard', same.1]
        · rw [reverse', same.2]
      · rw [State.pendingMoved_of_waiting]
        rw [State.point_setPoint_self, channel, State.time_setPoint, State.time_afterFrame]
        exact fun d pending => (wait d pending).resolve_right same
    · rw [State.pendingMoved_of_due (d := d)] <;> rw [State.point_setPoint_self]
      · rw [channel, pending]
      · rw [State.time_setPoint, State.time_afterFrame]; exact due
      · rw [guard', reverse']; exact moved

end Sys2Proof.Machine
end

section
/-! ESTOP release, Load Link records, simulated counts (R60, R61, R150, R153, R159, R161). -/

namespace Sys2Proof.Machine

/-- Settles O49. -/
theorem estopReleaseIsQualified : Obligations.EstopReleaseIsQualified := by
  refine fun s running => ⟨fun asserted => ?_, fun asserted opened => ?_, fun due started elapsed => ?_⟩
  · rw [exec_estopAsserted running, State.estopOpened, if_pos asserted]
  · rw [exec_estopLoopClosed running, State.estopLoopClosed, opened, asserted]
    rfl
  · rw [exec_estopReleased running, State.estopReleased, if_pos (State.isDue_of_le started elapsed)]

/-! ## Load Link records (R60, R61) -/

theorem State.receiveChar_of_short {s : State} (short : s.linkChars.length < 3) (c : Byte) :
    s.receiveChar c = { s with linkChars := s.linkChars ++ [c], linkGapDue := some (s.time + 500) } := by
  refine if_neg ?_
  rw [List.length_append, List.length_singleton]
  omega

theorem State.receiveChar_of_full {s : State} (full : s.linkChars.length = 3) (c : Byte) :
    s.receiveChar c = ({ s with linkChars := [], linkGapDue := none } : State).takeRecord (s.linkChars ++ [c]) := by
  refine if_pos ?_
  rw [List.length_append, List.length_singleton, full]

/-- Four characters from a fresh assembly are one record, and leave a fresh assembly (R60). -/
theorem State.receive_record {s : State} (fresh : s.linkChars = []) (c1 c2 c3 c4 : Byte) :
    [c1, c2, c3, c4].foldl State.receiveChar s =
      ({ s with linkGapDue := none } : State).takeRecord [c1, c2, c3, c4] := by
  have same : ({ s with linkChars := [], linkGapDue := none } : State) = { s with linkGapDue := none } := by
    rw [← fresh]
  rw [← same]
  simp only [List.foldl_cons, List.foldl_nil]
  rw [State.receiveChar_of_short (by simp [fresh]) c1, State.receiveChar_of_short (by simp [fresh]) c2,
    State.receiveChar_of_short (by simp [fresh]) c3, State.receiveChar_of_full (by simp [fresh]) c4]
  simp only [fresh, List.nil_append, List.cons_append]

theorem recordSum_eq (c1 c2 c3 c4 : Byte) :
    recordSum [c1, c2, c3, c4] = (c1.toNat + c2.toNat + c3.toNat + c4.toNat) % 256 := by
  simp only [recordSum, List.map_cons, List.map_nil, List.sum_cons, List.sum_nil, Nat.add_zero, Nat.add_assoc]

theorem State.takeRecord_of_bad (s : State) {c1 c2 c3 c4 : Byte}
    (bad : recordSum [c1, c2, c3, c4] ≠ 255 ∨ 24 ≤ c1.toNat) : s.takeRecord [c1, c2, c3, c4] = s := by
  unfold State.takeRecord
  dsimp only
  split
  next i point =>
    refine if_neg fun sum => ?_
    have known := pointOfNat_isSome c1.toNat
    rw [point] at known
    rcases bad with bad | bad
    · exact bad sum
    · exact absurd (of_decide_eq_true known.symm) (Nat.not_lt.mpr bad)
  next => rfl

theorem pointOfNat_val (i : PointIdx) : pointOfNat i.val = some i := dif_pos i.isLt

theorem State.takeRecord_of_good (s : State) {c1 c2 c3 c4 : Byte} {i : PointIdx} (point : c1.toNat = i.val)
    (sum : recordSum [c1, c2, c3, c4] = 255) :
    s.takeRecord [c1, c2, c3, c4] = s.takeSample i (c2 ++ c3).toInt := by
  rw [State.takeRecord, point, pointOfNat_val]
  exact if_pos sum

/-- Settles O51. -/
theorem loadRecordIsAssembledAndChecked : Obligations.LoadRecordIsAssembledAndChecked := by
  refine fun s running => ⟨fun c short => ?_, fun c1 c2 c3 c4 fresh bad => ?_, ?_, fun due started elapsed => ?_⟩
  · rw [exec_loadRecord running, List.foldl_cons, List.foldl_nil, State.receiveChar_of_short short]
  · rw [exec_loadRecord running, State.receive_record fresh, State.takeRecord_of_bad _ (by rwa [recordSum_eq])]
  · rw [exec_loadFramingError running]; rfl
  · rw [exec_loadLinkGap running, State.linkGap, if_pos (State.isDue_of_le started elapsed)]; rfl

/-! ## Simulated counts (R159, R161) -/

theorem Dir.dir_channelState (d : Dir) : d.channelState.dir = some d := by cases d <;> rfl

theorem State.shadowOf_rehearsing {s : State} {i : PointIdx} (rehearsing : s.rehearsing i = true) :
    s.shadowOf i = (s.point i).shadow := if_pos rehearsing

theorem inPositionRange_eq_false_iff (v : Int) : inPositionRange v = false ↔ (v < -2000000 ∨ 2000000 < v) := by
  rw [← Bool.not_eq_true, inPositionRange_iff]
  omega

theorem State.raiseRange_of_latched {s : State} {i : PointIdx} (latched : (s.point i).latched = some .positionRange) :
    s.raiseRange i = s := if_pos latched

theorem State.raiseRange_of_other {s : State} {i : PointIdx} (other : (s.point i).latched ≠ some .positionRange) :
    s.raiseRange i = s.raiseFault i .positionRange := if_neg other

theorem State.simulatedCount_of_due {s : State} {i : PointIdx} {sh : Shadow} {d : Dir}
    (shadow : s.shadowOf i = some sh) (driven : (s.point i).channel.state.dir = some d)
    (due : s.isDue sh.simDue = true) : s.simulatedCount i = s.moveShadow i sh d := by
  simp only [State.simulatedCount, shadow, driven, due, if_true]

theorem Shadow.retime_of_due {sh : Shadow} {due : Nat} (running : sh.simDue = some due) (speed : Nat) :
    sh.retime speed = { sh with simDue := some (due + 1000000 / speed) } := by
  rw [Shadow.retime, running]; rfl

/-- Settles O56. -/
theorem simulatedCountMovesTheShadow : Obligations.SimulatedCountMovesTheShadow := by
  rintro s i sh due d next running rehearsing shadow started elapsed driven rfl
  rw [exec_simulatedCount running,
    State.simulatedCount_of_due ((State.shadowOf_rehearsing rehearsing).trans shadow) (d := d)
      (by rw [driven, Dir.dir_channelState]) (State.isDue_of_le started elapsed),
    State.moveShadow, Shadow.retime_of_due started]
  refine ⟨fun lower upper => ?_, fun outside s1 hs1 => ⟨fun latched => ?_, fun other => ?_⟩⟩
  · simp only [(inPositionRange_iff _).mpr ⟨lower, upper⟩, if_true]
  all_goals
    subst hs1
    simp only [(inPositionRange_eq_false_iff _).mpr outside, Bool.false_eq_true, if_false]
  · rw [State.raiseRange_of_latched (by rw [State.point_modPoint_self]; exact latched)]
  · rw [State.raiseRange_of_other (by rw [State.point_modPoint_self]; exact other)]

end Sys2Proof.Machine
end

section
/-! Energizing and releasing a channel (R31, R44, R50, R51, R69, R160, R161). -/

namespace Sys2Proof.Machine

/-! ## Energizing (R44) -/

@[simp] theorem Point.load_energize (p : Point) (r : Bool) (d : Dir) (now : Nat) : (p.energize r d now).load = p.load := by
  cases r <;> rfl

theorem State.energize_of_fresh {s : State} {i : PointIdx} (d : Dir) (fresh : (s.point i).load.state ≠ .stale) :
    s.energize i d = s.setPoint i ((s.point i).energize (s.rehearsing i) d s.time) := by
  refine if_neg ?_
  rwa [State.point_modPoint_self, Point.load_energize]

theorem State.energize_of_stale {s : State} {i : PointIdx} (d : Dir) (stale : (s.point i).load.state = .stale) :
    s.energize i d = (s.setPoint i ((s.point i).energize (s.rehearsing i) d s.time)).raiseFault i .loadStale := by
  refine if_pos ?_
  rwa [State.point_modPoint_self, Point.load_energize]

theorem Dir.channelState_eq (d : Dir) : d.channelState = if d = .up then .up else .down := by cases d <;> rfl

theorem Point.energize_rehearsing (p : Point) (d : Dir) (now : Nat) :
    p.energize true d now =
      { p with
        channel := p.channel.energize d now
        shadow := p.shadow.map fun sh => sh.energize p.settings now } := rfl

theorem Point.energize_live (p : Point) (d : Dir) (now : Nat) :
    p.energize false d now =
      { p with channel := p.channel.energize d now, capture := p.capture.energize p.settings now } := rfl

/-- Settles O33. -/
theorem energizeSetsTheChannel : Obligations.EnergizeSetsTheChannel := by
  rintro s i d q run rfl hrun
  have energized : run = (s.point i).energize (s.rehearsing i) d s.time := by
    rw [hrun, ← Dir.channelState_eq]
    cases s.rehearsing i <;> rfl
  rw [energized]
  exact ⟨s.energize_of_fresh d, s.energize_of_stale d⟩

/-! ## The progress of a member (R104) -/

theorem Group.headIs_of_queue {r : Group} {m : Move} {rest : List Move} (queue : r.queue = m :: rest)
    (test : MoveState → Bool) : r.headIs test = test m.state := by
  rw [Group.headIs, queue]

theorem Group.head_of_queue {r : Group} {m : Move} {rest : List Move} (queue : r.queue = m :: rest) :
    r.head = some m := by
  rw [Group.head, queue]; rfl

theorem Group.runList_of_queue {r : Group} {m : Move} {rest : List Move} (queue : r.queue = m :: rest) :
    r.runList = m.runList := by
  rw [Group.runList, queue]

theorem State.updateProgress_of_active {s : State} {i : PointIdx} (active : (s.groupOf i).headIs MoveState.active = true) :
    s.updateProgress i = s.modEntry (s.point i).group i fun e =>
      { e with progress := (s.groupOf i).direction.sign * (s.positionOf i - e.start) } := by
  unfold State.updateProgress
  cases queue : (s.group (s.point i).group).queue with
  | nil => rw [State.groupOf, Group.headIs, queue] at active; exact absurd active (by decide)
  | cons m rest =>
    have state : m.state.active = true := by rwa [State.groupOf, Group.headIs_of_queue queue] at active
    rw [State.groupOf, Group.direction_of_queue queue]
    simp only [Group.head_of_queue queue, state, if_true]
    rfl

theorem State.updateProgress_of_inactive {s : State} {i : PointIdx}
    (inactive : (s.groupOf i).headIs MoveState.active = false) : s.updateProgress i = s := by
  unfold State.updateProgress
  cases queue : (s.group (s.point i).group).queue with
  | nil => simp only [Group.head, queue, List.head?_nil]
  | cons m rest =>
    have state : m.state.active = false := by rwa [State.groupOf, Group.headIs_of_queue queue] at inactive
    simp only [Group.head_of_queue queue, state, Bool.false_eq_true, if_false]

theorem Group.headIs_modEntry (s : State) (g h : GroupIdx) (i : PointIdx) (f : RunEntry → RunEntry)
    (test : MoveState → Bool) : ((s.modEntry g i f).group h).headIs test = (s.group h).headIs test := by
  rw [State.modEntry, State.group_modGroup]
  split
  next same =>
    subst same
    cases queue : (s.group g).queue with
    | nil => rw [Group.modHead, queue]
    | cons m rest => rw [Group.modHead, queue]; simp only [Group.headIs, queue]; rfl
  next => rfl

theorem Group.inRunList_modEntry (s : State) (g h : GroupIdx) (i j : PointIdx) {f : RunEntry → RunEntry}
    (point : ∀ e, (f e).point = e.point) : ((s.modEntry g i f).group h).inRunList j = (s.group h).inRunList j := by
  rw [State.modEntry, State.group_modGroup]
  split
  next same =>
    subst same
    cases queue : (s.group g).queue with
    | nil => rw [Group.modHead, queue]
    | cons m rest =>
      have entries : ∀ l : List RunEntry, (l.map fun e => if e.point = i then f e else e).any (·.point == j) =
          l.any (·.point == j) := by
        intro l
        rw [List.any_map]
        congr 1
        funext e
        rw [Function.comp_apply]
        split
        · rw [point]
        · rfl
      rw [Group.modHead, queue]
      simp only [Group.inRunList, Group.runList, queue]
      exact entries m.runList
  next => rfl

/-! ## The simulated coast (R160, R161) -/

theorem State.setPoint_setPoint (s : State) (i : PointIdx) (p q : Point) : (s.setPoint i p).setPoint i q = s.setPoint i q := by
  simp only [State.setPoint, Vector.set_set]

theorem State.modPoint_modPoint (s : State) (i : PointIdx) (f k : Point → Point) :
    (s.modPoint i f).modPoint i k = s.modPoint i fun p => k (f p) := by
  rw [State.modPoint, State.point_modPoint_self, State.modPoint, State.setPoint_setPoint, State.modPoint]

theorem State.simulateCoast_point_ne (s : State) {i j : PointIdx} (ne : j ≠ i) (b : Bool) :
    (s.simulateCoast i b).point j = s.point j := by
  have step : ∀ f : Point → Point, ((s.modPoint i f).updateProgress i).point j = s.point j := fun f => by
    rw [State.point, State.updateProgress_points]
    exact State.point_modPoint_ne s ne.symm f
  unfold State.simulateCoast
  split
  · dsimp only
    split
    · rw [State.latchFault, State.point_produce, State.point_setPoint_ne _ ne.symm, step]
    · exact step _
  · rfl

theorem State.point_latchFault_self (s : State) (i : PointIdx) (c : FaultCode) :
    (s.latchFault i c).point i =
      if (s.point i).latched.isNone then { s.point i with latched := some c } else { s.point i with further := true } := by
  rw [State.latchFault, State.point_produce, State.point_setPoint_self]

theorem State.simulateCoast_point_self (s : State) (i : PointIdx) (b : Bool) :
    ((s.simulateCoast i b).point i).channel = (s.point i).channel ∧
      ((s.simulateCoast i b).point i).capture = (s.point i).capture := by
  have step : ∀ f : Point → Point, ((s.modPoint i f).updateProgress i).point i = f (s.point i) := fun f => by
    rw [State.point, State.updateProgress_points]
    exact State.point_modPoint_self s i f
  unfold State.simulateCoast
  split
  · dsimp only
    split
    · rw [State.point_latchFault_self, step]
      split <;> exact ⟨rfl, rfl⟩
    · rw [step]; exact ⟨rfl, rfl⟩
  · exact ⟨rfl, rfl⟩

theorem State.hardRelease_of_energized {s : State} {i : PointIdx} (energized : (s.point i).channel.state.energized = true) :
    s.hardRelease i = (s.modPoint i fun p => p.toSettle s.time).simulateCoast i (s.coastRaises i) := if_pos energized

theorem State.hardRelease_of_resting {s : State} {i : PointIdx} (resting : (s.point i).channel.state.energized = false) :
    s.hardRelease i = s.dropPending i := if_neg (by rw [resting]; decide)

theorem State.hardRelease_point_ne (s : State) {i j : PointIdx} (ne : j ≠ i) : (s.hardRelease i).point j = s.point j := by
  cases state : (s.point i).channel.state.energized with
  | false => rw [State.hardRelease_of_resting state]; exact State.point_modPoint_ne s ne.symm _
  | true =>
    rw [State.hardRelease_of_energized state, State.simulateCoast_point_ne _ ne]
    exact State.point_modPoint_ne s ne.symm _

section
variable {s : State} {i : PointIdx} {sh : Shadow} {d : Dir}

/-- The state after the release of a rehearsing channel: the channel settles, and the shadow is where its simulated coast
ends (R51, R160). -/
def State.settledAt (s : State) (i : PointIdx) (sh : Shadow) (y : Int) : State :=
  s.setPoint i { (s.point i).toSettle s.time with shadow := some { sh with position := y, simDue := none } }

theorem State.coastTarget_eq (last : (s.point i).channel.lastDir = some d) :
    s.coastTarget i sh = sh.position + d.sign * ((s.point i).coast : Int) := by
  simp only [State.coastTarget, last]

theorem State.coastRaises_of_shadow (energized : (s.point i).channel.state.energized = true)
    (shadow : s.shadowOf i = some sh) :
    s.coastRaises i = (!inPositionRange (s.coastTarget i sh) && (s.point i).latched != some .positionRange) := by
  simp only [State.coastRaises, energized, shadow, Bool.true_and]

/-- R50, R51, R160: the whole effect of the release of a rehearsing channel. -/
theorem State.hardRelease_of_rehearsing (energized : (s.point i).channel.state.energized = true)
    (rehearsing : s.rehearsing i = true) (shadow : (s.point i).shadow = some sh) :
    s.hardRelease i =
      let u := (s.settledAt i sh (clampPosition (s.coastTarget i sh))).updateProgress i
      if s.coastRaises i then u.latchFault i .positionRange else u := by
  have shadow1 : (s.modPoint i fun p => p.toSettle s.time).shadowOf i = some sh := by
    rw [State.shadowOf_rehearsing, State.point_modPoint_self]
    · exact shadow
    · rw [State.rehearsing_modPoint i i _ rfl]; exact rehearsing
  have coast : (s.modPoint i fun p => p.toSettle s.time).coastTarget i sh = s.coastTarget i sh := by
    simp only [State.coastTarget, State.point_modPoint_self]; rfl
  have points : (s.modPoint i fun p => p.toSettle s.time).modPoint i
      (fun p => { p with shadow := some { sh with position := clampPosition (s.coastTarget i sh), simDue := none } }) =
      s.settledAt i sh (clampPosition (s.coastTarget i sh)) := by
    rw [State.modPoint_modPoint]; rfl
  rw [State.hardRelease_of_energized energized, State.simulateCoast]
  simp only [shadow1, coast, points]

end

theorem clampPosition_eq_clamp (v : Int) : clampPosition v = max (-2000000) (min 2000000 v) :=
  clampInt_eq _ _ v (by decide)

/-- R141: what the trip test of a fault does. -/
theorem State.tripMember_of_active {s : State} {i : PointIdx} (active : s.inActiveMove i = true) :
    s.tripMember i = s.trip (s.point i).group .point (some i) := if_pos active

theorem State.tripMember_of_inactive {s : State} {i : PointIdx} (inactive : s.inActiveMove i = false) :
    s.tripMember i = s := if_neg (by rw [State.inActiveMove, State.groupOf] at inactive; rw [inactive]; decide)

theorem State.inActiveMove_congr {s t : State} {i : PointIdx} (point : (t.point i).group = (s.point i).group)
    (group : t.group (s.point i).group = s.group (s.point i).group) : t.inActiveMove i = s.inActiveMove i := by
  simp only [State.inActiveMove, State.groupOf, point, group]

theorem State.inActiveMove_updateProgress (s : State) (i j : PointIdx) :
    (s.updateProgress i).inActiveMove j = s.inActiveMove j := by
  cases active : (s.groupOf i).headIs MoveState.active with
  | false => rw [State.updateProgress_of_inactive active]
  | true =>
    rw [State.updateProgress_of_active active]
    simp only [State.inActiveMove, State.groupOf, State.point_modEntry, Group.headIs_modEntry]
    rw [Group.inRunList_modEntry]
    exact fun _ => rfl

theorem State.inActiveMove_latchFault (s : State) (i : PointIdx) (c : FaultCode) :
    (s.latchFault i c).inActiveMove i = s.inActiveMove i := by
  refine State.inActiveMove_congr ?_ rfl
  rw [State.point_latchFault_self]
  split <;> rfl

/-- Settles O36: `simulateCoast` keeps the channel that `Point.toSettle` gives, and `hardRelease_of_rehearsing` is the whole
effect on a rehearsing member. -/
theorem hardReleaseFollowsTheChannelState : Obligations.HardReleaseFollowsTheChannelState := by
  rintro s i c rfl
  refine ⟨fun driven => ?_, fun resting => ?_, fun j ne => s.hardRelease_point_ne ne, ?_⟩
  · have energized := (ChannelState.energized_eq_true_iff _).mpr driven
    obtain ⟨channel, capture⟩ := (s.modPoint i fun p => p.toSettle s.time).simulateCoast_point_self i (s.coastRaises i)
    rw [← State.hardRelease_of_energized energized, State.point_modPoint_self] at channel capture
    refine ⟨channel, capture, ?_, ?_⟩
    · rw [State.upOutput, channel]; rfl
    · rw [State.downOutput, channel]; rfl
  · exact State.hardRelease_of_resting ((ChannelState.energized_eq_false_iff _).mpr resting.symm)
  · rintro q sh d x y settled u rfl rehearsing shadow last driven rfl rfl hsettled hu
    have energized := (ChannelState.energized_eq_true_iff _).mpr driven
    have target : s.coastTarget i sh = sh.position + d.sign * ((s.point i).coast : Int) := State.coastTarget_eq last
    have released := State.hardRelease_of_rehearsing energized rehearsing shadow
    have raises := State.coastRaises_of_shadow energized ((State.shadowOf_rehearsing rehearsing).trans shadow)
    rw [target] at raises
    have settledAt : s.settledAt i sh (clampPosition (s.coastTarget i sh)) = settled := by
      rw [hsettled, target, clampPosition_eq_clamp]; rfl
    have here : settled.point i = { (s.point i).toSettle s.time with
        shadow := some { sh with position := max (-2000000) (min 2000000 (sh.position + d.sign * ((s.point i).coast : Int))), simDue := none } } := by
      rw [hsettled, State.point_setPoint_self]; rfl
    have group : settled.groupOf i = s.group (s.point i).group := by
      rw [State.groupOf, here, hsettled]; rfl
    have position : settled.positionOf i = max (-2000000) (min 2000000 (sh.position + d.sign * ((s.point i).coast : Int))) := by
      rw [State.positionOf, State.shadowOf_rehearsing, here]
      rw [State.rehearsing, group]; exact rehearsing
    have progress : settled.updateProgress i = u := by
      rw [hu]
      split
      next active =>
        rw [State.updateProgress_of_active (by rw [group]; exact active), group, position, here]
        rfl
      next inactive => exact State.updateProgress_of_inactive (by rw [group]; exact Bool.not_eq_true _ ▸ inactive)
    have pointU : u.point i = settled.point i := by
      rw [← progress, State.point, State.updateProgress_points]; rfl
    have active : u.inActiveMove i = s.inActiveMove i := by
      rw [← progress, State.inActiveMove_updateProgress]
      refine State.inActiveMove_congr (by rw [here]; rfl) ?_
      rw [hsettled]; rfl
    dsimp only at released
    rw [settledAt, progress] at released
    refine ⟨?_, fun range => ?_, fun v outside unlatched hv => ?_⟩
    · rw [released]
      split
      · rw [State.point_latchFault_self, pointU, here]
        split <;> rfl
      · rw [pointU, here]
    · have calm : s.coastRaises i = false := by
        rw [raises, Bool.and_eq_false_iff, Bool.not_eq_false', inPositionRange_iff, bne_eq_false_iff_eq]
        exact range
      rw [calm] at released
      refine ⟨released, ?_⟩
      rw [State.release, calm]; exact released
    · have raised : s.coastRaises i = true := by
        rw [raises, (inPositionRange_eq_false_iff _).mpr outside, bne_iff_ne.mpr unlatched]; rfl
      have latched : u.latchFault i .positionRange = v := by
        rw [hv, State.latchFault, State.modPoint, pointU, here]
        cases h : (s.point i).latched <;> simp [Point.toSettle, h]
      rw [raised, if_pos rfl, latched] at released
      have vActive : v.inActiveMove i = s.inActiveMove i := by
        rw [← latched, State.inActiveMove_latchFault, active]
      have vGroup : (v.point i).group = (s.point i).group := by
        rw [← latched, State.point_latchFault_self, pointU, here]
        split <;> rfl
      refine ⟨fun moving => ?_, fun still => ?_⟩
      · rw [State.release, raised, released, if_pos rfl, State.tripMember_of_active (vActive.trans moving), vGroup]
      · rw [State.release, raised, released, if_pos rfl, State.tripMember_of_inactive (vActive.trans still)]

end Sys2Proof.Machine
end

section
/-! The minimum run and the encoder (R21 to R31, R49, R118). -/

namespace Sys2Proof.Machine

section
variable {s : State} {i : PointIdx} {e : RunEntry}

theorem State.redecide_of_done (done : (s.point i).channel.deferredDue = none) : s.redecide i = s :=
  if_pos (by rw [done]; rfl)

theorem State.redecide_of_gated (deferred : (s.point i).channel.deferredDue ≠ none)
    (entry : (s.groupOf i).entry i = some e) (gated : e.gated = true) (unreleased : e.released = false) :
    s.redecide i = s.release i := by
  rw [State.redecide, if_neg (by rwa [Option.isNone_iff_eq_none]), if_pos]
  rw [entry, Option.any_some, gated, unreleased]
  rfl

theorem State.redecide_of_driven (deferred : (s.point i).channel.deferredDue ≠ none)
    (entry : (s.groupOf i).entry i = some e) (driven : e.gated = false ∨ e.released = true) :
    s.redecide i = s.modPoint i fun q => { q with channel := { q.channel with deferredDue := none } } := by
  rw [State.redecide, if_neg (by rwa [Option.isNone_iff_eq_none]), if_neg]
  rw [entry, Option.any_some]
  rcases driven with h | h <;> simp [h]

end

/-- Settles O37. -/
theorem minimumRunIsDecidedAgain : Obligations.MinimumRunIsDecidedAgain := by
  rintro s i due t running started elapsed rfl
  rw [exec_minimumRunDue running, State.minimumRunDue, if_pos (State.isDue_of_le started elapsed)]
  refine ⟨fun done => ?_, fun e deferred entry gated unreleased => ⟨?_, State.release_quiet _ i⟩,
    fun e deferred entry driven => ?_⟩
  · rw [State.redecide_of_done done]
  · rw [State.redecide_of_gated deferred entry gated unreleased]
  · rw [State.redecide_of_driven deferred entry driven]

/-! ## Counts (R23 to R31) -/

theorem State.rehearsing_setCapture (s : State) (i : PointIdx) (f : Capture → Capture) :
    (s.modPoint i fun p => { p with capture := f p.capture }).rehearsing i = s.rehearsing i :=
  State.rehearsing_modPoint i i _ rfl

theorem State.rehearsing_creepCount (s : State) (i : PointIdx) : (s.creepCount i).rehearsing i = s.rehearsing i := by
  unfold State.creepCount
  split
  · rw [(State.raiseFault_moved _ i .creep).rehearsing, State.rehearsing_modPoint i i _ rfl]
  · rw [State.rehearsing_modPoint i i _ rfl]

theorem State.rehearsing_wrongWayCount (s : State) (i : PointIdx) :
    (s.wrongWayCount i).rehearsing i = s.rehearsing i := by
  unfold State.wrongWayCount
  split
  · rw [(State.raiseFault_moved _ i .reversed).rehearsing, State.rehearsing_modPoint i i _ rfl]
  · rw [State.rehearsing_modPoint i i _ rfl]

/-- How a count is handled, by the channel state and its direction (R26 to R31). -/
theorem State.countByState_eq (s : State) (i : PointIdx) (d : Dir) :
    s.countByState i d =
      if s.rehearsing i = true ∨ (s.point i).channel.state = .off then s.creepCount i
      else if (s.point i).channel.state = .settle then s
      else if (s.point i).channel.state = d.channelState then s.modPoint i fun p => p.travel s.time
      else s.wrongWayCount i := by
  unfold State.countByState
  cases s.rehearsing i with
  | true => rfl
  | false => cases (s.point i).channel.state <;> cases d <;> rfl

theorem State.rehearsing_countByState (s : State) (i : PointIdx) (d : Dir) :
    (s.countByState i d).rehearsing i = s.rehearsing i := by
  rw [State.countByState_eq]
  split
  · exact s.rehearsing_creepCount i
  split
  · rfl
  split
  · exact State.rehearsing_modPoint i i _ rfl
  · exact s.rehearsing_wrongWayCount i

theorem Dir.channelState_ne_settle (d : Dir) : d.channelState ≠ .settle := by cases d <;> decide

theorem ChannelState.of_energized {c : ChannelState} (energized : c.energized = true) : c ≠ .off ∧ c ≠ .settle := by
  rcases (ChannelState.energized_eq_true_iff c).mp energized with rfl | rfl <;> exact ⟨by decide, by decide⟩

theorem Point.travel_eq (p : Point) (now : Nat) :
    p.travel now = { p with capture := { p.capture with
      wrongWay := 0
      stallDue := if p.capture.stallDue = none then none else some (now + 1000 * p.settings.tStall) } } := by
  unfold Point.travel
  cases p.capture.stallDue <;> rfl

theorem State.modPoint_setPoint (s : State) (i : PointIdx) (p : Point) (f : Point → Point) :
    (s.setPoint i p).modPoint i f = s.setPoint i (f p) := by
  rw [State.modPoint, State.point_setPoint_self, State.setPoint_setPoint]

section
variable {s : State} {i : PointIdx} {q : Point} {k : Capture} {d : Dir}

/-- A count outside the position range (R24). -/
theorem State.takeCount_of_outside (outside : inPositionRange (q.capture.position + d.sign) = false) :
    (s.setPoint i q).takeCount i d = (s.setPoint i q).raiseRange i := by
  simp only [State.takeCount, State.point_setPoint_self, outside, Bool.false_eq_true, if_false]

/-- A count within it: handled by the channel state, and outside a rehearsal handed on (R23, R25). -/
theorem State.takeCount_of_range (same : q.group = (s.point i).group)
    (range : inPositionRange (q.capture.position + d.sign) = true)
    (hk : k = { q.capture with position := q.capture.position + d.sign, lastCount := some d }) :
    (s.setPoint i q).takeCount i d =
      let t := (s.setPoint i { q with capture := k }).countByState i d
      if s.rehearsing i then t else t.countArrival i := by
  have rehearsing : (s.setPoint i { q with capture := k }).rehearsing i = s.rehearsing i :=
    State.rehearsing_modPoint i i (fun _ => { q with capture := k }) same
  rw [hk] at rehearsing
  simp only [State.takeCount, State.point_setPoint_self, range, if_true, State.modPoint_setPoint, hk,
    State.rehearsing_countByState, rehearsing]

theorem State.creepCount_of_few (few : k.creep < 3) :
    (s.setPoint i { q with capture := k }).creepCount i =
      s.setPoint i { q with capture := { k with creep := k.creep + 1 } } := by
  rw [State.creepCount, State.point_setPoint_self, if_neg (Nat.not_le.mpr few), State.modPoint_setPoint]

theorem State.creepCount_of_fourth (fourth : 3 ≤ k.creep) :
    (s.setPoint i { q with capture := k }).creepCount i =
      (s.setPoint i { q with capture := { k with creep := 0 } }).raiseFault i .creep := by
  rw [State.creepCount, State.point_setPoint_self, if_pos fourth, State.modPoint_setPoint]

theorem State.wrongWayCount_of_few (few : k.wrongWay < 3) :
    (s.setPoint i { q with capture := k }).wrongWayCount i =
      s.setPoint i { q with capture := { k with wrongWay := k.wrongWay + 1 } } := by
  rw [State.wrongWayCount, State.point_setPoint_self, if_neg (Nat.not_le.mpr few), State.modPoint_setPoint]

theorem State.wrongWayCount_of_fourth (fourth : 3 ≤ k.wrongWay) :
    (s.setPoint i { q with capture := k }).wrongWayCount i =
      (s.setPoint i { q with capture := { k with wrongWay := 0 } }).raiseFault i .reversed := by
  rw [State.wrongWayCount, State.point_setPoint_self, if_pos fourth, State.modPoint_setPoint]

end

/-! ## Edges (R21, R22) -/

theorem State.encoderEdge_of_change {s : State} {i : PointIdx} {ph other : Phase} {high : Bool} (apart : other ≠ ph)
    (change : (s.point i).capture.level ph = !high) :
    s.encoderEdge i ph high =
      if stepCounts (s.point i).settings.encoderMode ph high then
        (s.setPoint i { s.point i with capture := (s.point i).capture.setLevel ph high }).takeCount i
          (edgeStep ph high ((s.point i).capture.level other))
      else s.setPoint i { s.point i with capture := (s.point i).capture.setLevel ph high } := by
  have changed : (s.point i).capture.level ph ≠ high := by rw [change]; cases high <;> decide
  unfold State.encoderEdge
  dsimp only
  rw [if_neg changed]
  cases ph <;> cases other
  case a.a | b.b => exact absurd rfl apart
  all_goals rfl

theorem Capture.setLevel_eq (c : Capture) (ph : Phase) (high : Bool) :
    c.setLevel ph high = if ph = .a then { c with phaseA := high } else { c with phaseB := high } := by
  cases ph <;> rfl

/-- Settles O40: the edge by its phase, then the count by the channel state (`State.countByState_eq`). -/
theorem encoderEdgeCounts : Obligations.EncoderEdgeCounts := by
  rintro s i ph high other counts d q c running rfl phA phB hd hcounts hc
  have edge : s.encoderEdge i ph high =
      if counts then (s.setPoint i { s.point i with capture := c }).takeCount i d
      else s.setPoint i { s.point i with capture := c } := by
    rw [hc, hd, hcounts, ← Capture.setLevel_eq]
    cases ph with
    | a =>
      obtain ⟨change, rfl⟩ := phA rfl
      rw [State.encoderEdge_of_change (ph := .a) (other := .b) (by decide) change]
      dsimp only [Capture.level]
      cases (s.point i).settings.encoderMode <;> cases high <;> cases (s.point i).capture.phaseB <;> rfl
    | b =>
      obtain ⟨change, rfl⟩ := phB rfl
      rw [State.encoderEdge_of_change (ph := .b) (other := .a) (by decide) change]
      dsimp only [Capture.level]
      cases (s.point i).settings.encoderMode <;> cases high <;> cases (s.point i).capture.phaseA <;> rfl
  have keeps : c.position = (s.point i).capture.position ∧ c.creep = (s.point i).capture.creep ∧
      c.wrongWay = (s.point i).capture.wrongWay := by
    rw [hc]; split <;> exact ⟨rfl, rfl, rfl⟩
  obtain ⟨position, creep, wrongWay⟩ := keeps
  rw [exec_encoderEdge running, edge]
  refine ⟨fun uncounted => ?_, fun counted lower upper put k hput hk => ?_, fun counted outside => ?_⟩
  · rw [uncounted]; rfl
  · have taken := State.takeCount_of_range (s := s) (i := i) (q := { s.point i with capture := c }) (d := d) (k := k) rfl
      (by rw [position, inPositionRange_iff]; exact ⟨lower, upper⟩) (by rw [hk, position])
    have kCreep : k.creep = (s.point i).capture.creep := by rw [hk]; exact creep
    have kWrongWay : k.wrongWay = (s.point i).capture.wrongWay := by rw [hk]; exact wrongWay
    rw [← kCreep, ← kWrongWay]
    have placed : (s.setPoint i { s.point i with capture := k }).point i = { s.point i with capture := k } := by
      rw [State.point_setPoint_self]
    have mode : (s.setPoint i { s.point i with capture := k }).rehearsing i = s.rehearsing i :=
      State.rehearsing_modPoint i i (fun _ => { s.point i with capture := k }) rfl
    rw [counted, if_pos rfl, taken, State.countByState_eq, mode, placed]
    dsimp only
    refine ⟨fun r few => ?_, fun r fourth => ?_, fun r settle => ?_, fun r off few => ?_, fun r off fourth => ?_,
      fun r along => ?_, fun r driven against few => ?_, fun r driven against fourth => ?_⟩
    all_goals simp only [r, Bool.false_eq_true, if_false, if_true, true_or, false_or, hput]
    · rw [State.creepCount_of_few few]
    · rw [State.creepCount_of_fourth fourth]
    · rw [if_neg (by rw [settle]; decide), if_pos settle]
    · rw [if_pos off, State.creepCount_of_few few]
    · rw [if_pos off, State.creepCount_of_fourth fourth]
    · rw [if_neg (by rw [along]; exact Dir.channelState_ne_off d), if_neg (by rw [along]; exact Dir.channelState_ne_settle d),
        if_pos along, State.modPoint_setPoint, Point.travel_eq]
      rfl
    · obtain ⟨off, settle⟩ := ChannelState.of_energized driven
      rw [if_neg off, if_neg settle, if_neg against, State.wrongWayCount_of_few few]
    · obtain ⟨off, settle⟩ := ChannelState.of_energized driven
      rw [if_neg off, if_neg settle, if_neg against, State.wrongWayCount_of_fourth fourth]
  · have same : (s.setPoint i { s.point i with capture := c }).takeCount i d =
        (s.setPoint i { s.point i with capture := c }).raiseRange i :=
      State.takeCount_of_outside ((inPositionRange_eq_false_iff _).mpr (by rw [position]; exact outside))
    rw [counted, if_pos rfl, same]
    refine ⟨fun latched => ?_, fun other => ?_⟩
    · rw [State.raiseRange_of_latched (by rw [State.point_setPoint_self]; exact latched)]
    · rw [State.raiseRange_of_other (by rw [State.point_setPoint_self]; exact other)]

end Sys2Proof.Machine
end

section
/-! Faults and trips (R33, R140, R141, R144, R145). -/

namespace Sys2Proof.Machine

/-! ## A trip as a whole (R144, R145) -/

theorem State.trip_of_tripped {s : State} {g : GroupIdx} {c : TripCause} {p : Option PointIdx}
    (tripped : (s.group g).trip ≠ none) : s.trip g c p = s := if_pos ((Group.state_eq_tripped _).mpr tripped)

/-- The state of a trip when its members are released and its cause is recorded (R144 steps 1 to 4). -/
def State.tripRecorded (s : State) (g : GroupIdx) (c : TripCause) (p : Option PointIdx) : State :=
  (s.hardReleaseAll (s.runPoints g)).modGroup g fun r => { r with schedule := [], trip := some ⟨c, p⟩ }

theorem State.trip_of_untripped {s : State} {g : GroupIdx} {c : TripCause} {p : Option PointIdx}
    (untripped : (s.group g).trip = none) :
    s.trip g c p = ((s.tripRecorded g c p).reportTrip g c p).endAll g tripOutcome :=
  if_neg (by rw [Group.state_eq_tripped, untripped]; exact fun h => h rfl)

@[simp] theorem State.group_reportEnds (s : State) (g h : GroupIdx) (o : Move → Outcome) (q : List Move) :
    (s.reportEnds g o q).group h = s.group h := by
  induction q generalizing s with
  | nil => rfl
  | cons m q ih => rw [State.reportEnds_cons, ih]; rfl

theorem State.endAll_of_empty {s : State} {g : GroupIdx} (empty : (s.group g).queue = []) (o : Move → Outcome) :
    s.endAll g o = s := by
  rw [State.endAll, empty]; rfl

/-- The end of every move keeps the trip cause and an empty schedule (R89). -/
theorem State.endAll_record (s : State) (g : GroupIdx) (o : Move → Outcome) :
    ((s.endAll g o).group g).trip = (s.group g).trip ∧
      ((s.group g).schedule = [] → ((s.endAll g o).group g).schedule = []) := by
  cases queue : (s.group g).queue with
  | nil => rw [State.endAll_of_empty queue]; exact ⟨rfl, id⟩
  | cons m rest =>
    rw [State.endAll_of_queue queue, State.group_modGroup_self, State.group_reportEnds]
    exact ⟨rfl, fun _ => rfl⟩

section
variable {s : State} {g : GroupIdx} {c : TripCause} {p : Option PointIdx}

theorem State.trip_record (untripped : (s.group g).trip = none) :
    ((s.trip g c p).group g).trip = some ⟨c, p⟩ ∧ ((s.trip g c p).group g).schedule = [] := by
  rw [State.trip_of_untripped untripped]
  obtain ⟨trip, schedule⟩ := ((s.tripRecorded g c p).reportTrip g c p).endAll_record g tripOutcome
  have recorded : ((s.tripRecorded g c p).reportTrip g c p).group g =
      { (s.hardReleaseAll (s.runPoints g)).group g with schedule := [], trip := some ⟨c, p⟩ } := by
    rw [State.reportTrip, State.group_produce, State.tripRecorded, State.group_modGroup_self]
  rw [recorded] at trip schedule
  exact ⟨trip, schedule rfl⟩

theorem State.trip_points (untripped : (s.group g).trip = none) :
    (s.trip g c p).points = (s.hardReleaseAll (s.runPoints g)).points := by
  rw [State.trip_of_untripped untripped, State.endAll_points]
  rfl

theorem State.trip_quiet (untripped : (s.group g).trip = none) {i : PointIdx} (member : i ∈ s.runPoints g) :
    ((s.trip g c p).point i).channel.quiet = true := by
  rw [State.point, State.trip_points untripped]
  exact s.hardReleaseAll_quiet _ i member

/-- The group's record after a trip outside a rehearsal. -/
theorem State.trip_group_live {m : Move} {rest : List Move} (untripped : (s.group g).trip = none)
    (queue : (s.group g).queue = m :: rest) (live : ∀ i ∈ s.runPoints g, s.rehearsing i = false) :
    (s.trip g c p).group g =
      { s.group g with
        queue := [], schedule := [], permit := none, stopReason := none, trip := some ⟨c, p⟩, baseline := none } := by
  have recorded : ((s.tripRecorded g c p).reportTrip g c p).group g =
      { s.group g with schedule := [], trip := some ⟨c, p⟩ } := by
    rw [State.reportTrip, State.group_produce, State.tripRecorded, State.group_modGroup_self,
      (State.hardReleaseAll_live live).same]
    rfl
  rw [State.trip_of_untripped untripped, State.endAll_of_queue (m := m) (rest := rest) (by rw [recorded]; exact queue),
    State.group_modGroup_self, State.group_reportEnds, recorded]
  rfl

theorem State.trip_point_live (untripped : (s.group g).trip = none)
    (live : ∀ i ∈ s.runPoints g, s.rehearsing i = false) (i : PointIdx) :
    (s.trip g c p).point i = if i ∈ s.runPoints g then (s.hardRelease i).point i else s.point i := by
  rw [State.point, State.trip_points untripped]
  refine ((State.hardReleaseAll_live live).point i).trans ?_
  split
  next member => rw [State.hardRelease_live (live i member), State.point_modPoint_self]
  next => rfl

end

/-! ## What a release leaves of the moves -/

/-- The groups of t are those of s but for the progress of their run lists' entries. -/
structure SameHeads (s t : State) : Prop where
  frame : ∀ g, { t.group g with queue := [] } = { s.group g with queue := [] }
  headIs : ∀ g test, (t.group g).headIs test = (s.group g).headIs test
  runPoints : ∀ g, t.runPoints g = s.runPoints g

theorem SameHeads.trip {s t : State} (h : SameHeads s t) (g : GroupIdx) : (t.group g).trip = (s.group g).trip := by
  have frame := congrArg Group.trip (h.frame g)
  exact frame

theorem SameHeads.of_groups {s t : State} (same : t.groups = s.groups) : SameHeads s t := by
  have group : ∀ g, t.group g = s.group g := fun g => by rw [State.group, same]; rfl
  exact ⟨fun g => by rw [group], fun g test => by rw [group], fun g => by rw [State.runPoints, group]; rfl⟩

theorem SameHeads.trans {s t u : State} (h : SameHeads s t) (k : SameHeads t u) : SameHeads s u :=
  ⟨fun g => (k.frame g).trans (h.frame g), fun g test => (k.headIs g test).trans (h.headIs g test),
    fun g => (k.runPoints g).trans (h.runPoints g)⟩

theorem SameHeads.modEntry (s : State) (g : GroupIdx) (i : PointIdx) {f : RunEntry → RunEntry}
    (point : ∀ e, (f e).point = e.point) : SameHeads s (s.modEntry g i f) where
  frame h := by
    rw [State.modEntry, State.group_modGroup]
    split
    next same =>
      subst same
      rw [Group.modHead]
      cases (s.group g).queue <;> rfl
    next => rfl
  headIs h test := Group.headIs_modEntry s g h i f test
  runPoints h := by
    rw [State.runPoints, State.modEntry, State.group_modGroup]
    split
    next same =>
      subst same
      cases queue : (s.group g).queue with
      | nil => rw [Group.modHead, queue]; rfl
      | cons m rest =>
        rw [Group.modHead, queue, State.runPoints, Group.runList_of_queue queue]
        exact m.modEntry_points i f point
    next => rfl

theorem State.updateProgress_sameHeads (s : State) (i : PointIdx) : SameHeads s (s.updateProgress i) := by
  cases active : (s.groupOf i).headIs MoveState.active with
  | false => rw [State.updateProgress_of_inactive active]; exact .of_groups rfl
  | true => rw [State.updateProgress_of_active active]; exact .modEntry s _ i fun _ => rfl

theorem State.simulateCoast_sameHeads (s : State) (i : PointIdx) (b : Bool) : SameHeads s (s.simulateCoast i b) := by
  unfold State.simulateCoast
  split
  next sh _ =>
    have step : SameHeads s ((s.modPoint i fun p =>
        { p with shadow := some { sh with position := clampPosition (s.coastTarget i sh), simDue := none } }).updateProgress i) :=
      (SameHeads.of_groups (s.groups_modPoint i _)).trans (State.updateProgress_sameHeads _ i)
    dsimp only
    split
    · exact step.trans (.of_groups rfl)
    · exact step
  · exact .of_groups rfl

theorem State.hardRelease_sameHeads (s : State) (i : PointIdx) : SameHeads s (s.hardRelease i) := by
  cases state : (s.point i).channel.state.energized with
  | false => rw [State.hardRelease_of_resting state]; exact .of_groups rfl
  | true =>
    rw [State.hardRelease_of_energized state]
    exact (SameHeads.of_groups (s.groups_modPoint i _)).trans (State.simulateCoast_sameHeads _ i _)

theorem Group.inRunList_iff_mem (s : State) (g : GroupIdx) (i : PointIdx) :
    (s.group g).inRunList i = true ↔ i ∈ s.runPoints g := by
  simp [Group.inRunList, State.runPoints]

theorem State.inActiveMove_iff (s : State) (i : PointIdx) :
    s.inActiveMove i = true ↔
      i ∈ s.runPoints (s.point i).group ∧ (s.group (s.point i).group).headIs MoveState.active = true := by
  rw [State.inActiveMove, State.groupOf, Bool.and_eq_true, Group.inRunList_iff_mem]

theorem SameHeads.inActiveMove {s t : State} (h : SameHeads s t) {i : PointIdx}
    (group : (t.point i).group = (s.point i).group) : t.inActiveMove i = s.inActiveMove i := by
  rw [Bool.eq_iff_iff, State.inActiveMove_iff, State.inActiveMove_iff, group, h.headIs, h.runPoints]

/-! ## A fault on a member of an active move (R140, R141) -/

theorem Group.queue_of_active {r : Group} (active : r.headIs MoveState.active = true) :
    ∃ m rest, r.queue = m :: rest ∧ m.state.active = true := by
  cases queue : r.queue with
  | nil => rw [Group.headIs, queue] at active; exact absurd active (by decide)
  | cons m rest => exact ⟨m, rest, rfl, by rwa [Group.headIs_of_queue queue] at active⟩

theorem Group.trip_of_active {r : Group} (lawful : r.queueLawful) (active : r.headIs MoveState.active = true) :
    r.trip = none := by
  obtain ⟨m, rest, queue, -⟩ := Group.queue_of_active active
  obtain ⟨-, -, tripped⟩ := lawful
  cases trip : r.trip with
  | none => rfl
  | some x => rw [trip, queue] at tripped; exact absurd (tripped rfl) (List.cons_ne_nil _ _)

section
variable {s : State} {i : PointIdx} {c : FaultCode}

theorem State.latchFault_sameHeads (s : State) (i : PointIdx) (c : FaultCode) : SameHeads s (s.latchFault i c) :=
  .of_groups rfl

theorem State.release_of_untroubled (calm : s.coastRaises i = false) : s.release i = s.hardRelease i := by
  rw [State.release, calm]; rfl

theorem State.release_of_raising (raises : s.coastRaises i = true) : s.release i = (s.hardRelease i).tripMember i := by
  rw [State.release, raises]; rfl

theorem State.raiseFault_of_fresh (fresh : (s.point i).latched = none) :
    s.raiseFault i c = ((s.latchFault i c).release i).tripMember i := by
  rw [State.raiseFault, fresh]; rfl

theorem State.raiseFault_of_latched {c' : FaultCode} (latched : (s.point i).latched = some c') :
    s.raiseFault i c = (s.latchFault i c).tripMember i := by
  rw [State.raiseFault, latched]; rfl

/-- A release and the trip test after it are one hard release and one trip, whether or not the simulated coast has tripped
the group already. -/
theorem State.tripMember_release (active : s.inActiveMove i = true) (untripped : (s.group (s.point i).group).trip = none) :
    (s.release i).tripMember i = (s.hardRelease i).trip (s.point i).group .point (some i) := by
  have kept := (s.hardRelease_moved i).points i
  have heads := s.hardRelease_sameHeads i
  have still := (heads.inActiveMove kept.group).trans active
  cases raises : s.coastRaises i with
  | false => rw [State.release_of_untroubled raises, State.tripMember_of_active still, kept.group]
  | true =>
    rw [State.release_of_raising raises, State.tripMember_of_active still, kept.group]
    refine State.tripMember_of_inactive ?_
    rw [State.inActiveMove, State.groupOf, ((State.trip_moved _ _ _ _).points i).group, kept.group, Group.headIs,
      State.trip_queue _ _ _ _ ((heads.trip _).trans untripped), Bool.and_false]

theorem State.group_latchFault (s : State) (i : PointIdx) (c : FaultCode) :
    ((s.latchFault i c).point i).group = (s.point i).group := ((s.latchFault_moved i c).points i).group

/-- The state in which a fault's trip begins: the fault is latched and, when it is the first, the channel released. -/
def State.faulted (s : State) (i : PointIdx) (c : FaultCode) : State :=
  if (s.point i).latched.isNone then (s.latchFault i c).hardRelease i else s.latchFault i c

theorem State.faulted_moved (s : State) (i : PointIdx) (c : FaultCode) : Moved s (s.faulted i c) := by
  unfold State.faulted
  split
  · exact (s.latchFault_moved i c).trans (State.hardRelease_moved _ i)
  · exact s.latchFault_moved i c

theorem State.faulted_sameHeads (s : State) (i : PointIdx) (c : FaultCode) : SameHeads s (s.faulted i c) := by
  unfold State.faulted
  split
  · exact (s.latchFault_sameHeads i c).trans (State.hardRelease_sameHeads _ i)
  · exact s.latchFault_sameHeads i c

theorem State.raiseFault_of_active (active : s.inActiveMove i = true)
    (untripped : (s.group (s.point i).group).trip = none) :
    s.raiseFault i c = (s.faulted i c).trip (s.point i).group .point (some i) := by
  have still : (s.latchFault i c).inActiveMove i = true := (s.inActiveMove_latchFault i c).trans active
  unfold State.faulted
  cases latched : (s.point i).latched with
  | none =>
    rw [State.raiseFault_of_fresh latched, State.tripMember_release still, State.group_latchFault]
    · rfl
    · rw [State.group_latchFault]; exact untripped
  | some c' => rw [State.raiseFault_of_latched latched, State.tripMember_of_active still, State.group_latchFault]; rfl

/-! ## Outside a rehearsal -/

theorem State.faulted_reports (live : s.rehearsing i = false) :
    SameReports (s.produce (some (s.point i).group) (.pointFault c i) (s.point i).latched.isSome) (s.faulted i c) ∧
      (s.faulted i c).groups = s.groups := by
  have latched : SameReports (s.produce (some (s.point i).group) (.pointFault c i) (s.point i).latched.isSome)
      (s.latchFault i c) := ⟨rfl, rfl, rfl, fun _ => rfl⟩
  unfold State.faulted
  split
  · rw [State.hardRelease_live (by rw [(s.latchFault_moved i c).rehearsing]; exact live)]
    exact ⟨latched.trans ⟨rfl, rfl, rfl, fun _ => rfl⟩, rfl⟩
  · exact ⟨latched, rfl⟩

theorem State.raiseFault_of_inactive (inactive : s.inActiveMove i = false) (live : s.rehearsing i = false) :
    s.raiseFault i c = s.faulted i c := by
  have still : (s.latchFault i c).inActiveMove i = false := (s.inActiveMove_latchFault i c).trans inactive
  have live' : (s.latchFault i c).rehearsing i = false := ((s.latchFault_moved i c).rehearsing i).trans live
  unfold State.faulted
  cases latched : (s.point i).latched with
  | none =>
    rw [State.raiseFault_of_fresh latched, State.release_of_untroubled (State.coastRaises_live live')]
    refine State.tripMember_of_inactive ?_
    rwa [(State.hardRelease_sameHeads _ i).inActiveMove ((State.hardRelease_moved _ i).points i).group]
  | some c' => rw [State.raiseFault_of_latched latched, State.tripMember_of_inactive still]; rfl

end

/-! ## What a release leaves of a point -/

/-- Nothing that a release or a trip writes in a point's record takes P from it. -/
structure Point.Unreleased (P : Point → Prop) : Prop where
  settle : ∀ p now, p.channel.state.energized = true → P p → P (p.toSettle now)
  drop : ∀ p, P p → P { p with channel := { p.channel with pending := none } }
  shadow : ∀ p sh, P p → P { p with shadow := sh }
  latch : ∀ p c, P p → P { p with latched := some c }
  mark : ∀ p, P p → P { p with further := true }

/-- Every point for which P holds in s has it in t. -/
def Stays (P : Point → Prop) (s t : State) : Prop := ∀ i, P (s.point i) → P (t.point i)

section
variable {P : Point → Prop}

theorem Stays.trans {s t u : State} (h : Stays P s t) (k : Stays P t u) : Stays P s u := fun i x => k i (h i x)

theorem Stays.of_points {s t : State} (same : t.points = s.points) : Stays P s t := fun i x => by
  rw [State.point, same]; exact x

theorem Stays.modPoint (s : State) (i : PointIdx) {f : Point → Point} (kept : P (s.point i) → P (f (s.point i))) :
    Stays P s (s.modPoint i f) := fun j x => by
  rw [State.point_modPoint]
  split
  next same => subst same; exact kept x
  next => exact x

theorem State.latchFault_stays (hP : Point.Unreleased P) (s : State) (i : PointIdx) (c : FaultCode) :
    Stays P s (s.latchFault i c) := by
  refine Stays.trans (t := s.setPoint i _) (Stays.modPoint s i (f := fun _ => _) ?_) (.of_points rfl)
  split
  · exact hP.latch _ c
  · exact hP.mark _

theorem State.hardRelease_stays (hP : Point.Unreleased P) (s : State) (i : PointIdx) : Stays P s (s.hardRelease i) := by
  cases state : (s.point i).channel.state.energized with
  | false => rw [State.hardRelease_of_resting state]; exact .modPoint s i (hP.drop _)
  | true =>
    have settled : Stays P s (s.modPoint i fun p => p.toSettle s.time) := .modPoint s i (hP.settle _ _ state)
    rw [State.hardRelease_of_energized state]
    refine settled.trans ?_
    generalize s.modPoint i (fun p => p.toSettle s.time) = t
    unfold State.simulateCoast
    split
    next sh _ =>
      have step : Stays P t ((t.modPoint i fun p =>
          { p with shadow := some { sh with position := clampPosition (t.coastTarget i sh), simDue := none } }).updateProgress i) :=
        .trans (.modPoint t i (hP.shadow _ _)) (.of_points (State.updateProgress_points _ i))
      dsimp only
      split
      · exact step.trans (State.latchFault_stays hP _ i _)
      · exact step
    · exact .of_points rfl

theorem State.hardReleaseAll_stays (hP : Point.Unreleased P) (s : State) (l : List PointIdx) :
    Stays P s (s.hardReleaseAll l) := by
  induction l generalizing s with
  | nil => exact .of_points rfl
  | cons i l ih => exact (s.hardRelease_stays hP i).trans (ih _)

theorem State.trip_stays (hP : Point.Unreleased P) (s : State) (g : GroupIdx) (c : TripCause) (p : Option PointIdx) :
    Stays P s (s.trip g c p) := by
  cases trip : (s.group g).trip with
  | none => exact (s.hardReleaseAll_stays hP _).trans (.of_points (State.trip_points trip))
  | some x => rw [State.trip_of_tripped (by rw [trip]; exact Option.some_ne_none x)]; exact .of_points rfl

theorem State.tripMember_stays (hP : Point.Unreleased P) (s : State) (i : PointIdx) : Stays P s (s.tripMember i) := by
  cases active : s.inActiveMove i with
  | false => rw [State.tripMember_of_inactive active]; exact .of_points rfl
  | true => rw [State.tripMember_of_active active]; exact s.trip_stays hP _ _ _

theorem State.release_stays (hP : Point.Unreleased P) (s : State) (i : PointIdx) : Stays P s (s.release i) := by
  cases raises : s.coastRaises i with
  | false => rw [State.release_of_untroubled raises]; exact s.hardRelease_stays hP i
  | true => rw [State.release_of_raising raises]; exact (s.hardRelease_stays hP i).trans (State.tripMember_stays hP _ i)

theorem State.raiseFault_stays (hP : Point.Unreleased P) (s : State) (i : PointIdx) (c : FaultCode) :
    Stays P s (s.raiseFault i c) := by
  have latched := s.latchFault_stays hP i c
  cases old : (s.point i).latched with
  | none =>
    rw [State.raiseFault_of_fresh old]
    exact latched.trans ((State.release_stays hP _ i).trans (State.tripMember_stays hP _ i))
  | some c' => rw [State.raiseFault_of_latched old]; exact latched.trans (State.tripMember_stays hP _ i)

end

/-- The further-fault marker stays (R140). -/
theorem Point.unreleased_further : Point.Unreleased fun p => p.further = true :=
  ⟨fun _ _ _ => id, fun _ => id, fun _ _ => id, fun _ _ => id, fun _ _ => rfl⟩

/-- A channel in OFF stays there (R50). -/
theorem Point.unreleased_off : Point.Unreleased fun p => p.channel.state = .off :=
  ⟨fun _ _ energized off => absurd off (ChannelState.of_energized energized).1, fun _ => id, fun _ _ => id, fun _ _ => id,
    fun _ => id⟩

/-! ## The obligation -/

theorem State.latched_latchFault {s : State} {i : PointIdx} {c : FaultCode} (fresh : (s.point i).latched = none) :
    ((s.latchFault i c).point i).latched = some c := by
  rw [State.point_latchFault_self, fresh]; rfl

theorem State.further_latchFault {s : State} {i : PointIdx} {c c' : FaultCode} (latched : (s.point i).latched = some c') :
    ((s.latchFault i c).point i).further = true := by
  rw [State.point_latchFault_self, latched]; rfl

theorem State.raiseFault_latches {s : State} {i : PointIdx} {c : FaultCode} (fresh : (s.point i).latched = none) :
    ((s.raiseFault i c).point i).latched = some c ∧ ((s.raiseFault i c).point i).channel.quiet = true := by
  have latched := State.latched_latchFault (c := c) fresh
  have later := ((State.release_moved (s.latchFault i c) i).trans (State.tripMember_moved _ i)).points i
  rw [State.raiseFault_of_fresh fresh]
  exact ⟨(later.latched (by rw [latched]; rfl)).trans latched, State.tripMember_calm _ i i (State.release_quiet _ i)⟩

theorem State.raiseFault_marks {s : State} {i : PointIdx} {c c' : FaultCode} (latched : (s.point i).latched = some c') :
    ((s.raiseFault i c).point i).latched = some c' ∧ ((s.raiseFault i c).point i).further = true := by
  refine ⟨(((s.raiseFault_moved i c).points i).latched (by rw [latched]; rfl)).trans latched, ?_⟩
  rw [State.raiseFault_of_latched latched]
  exact State.tripMember_stays Point.unreleased_further _ i i (State.further_latchFault latched)

theorem Move.started_of_active {m : Move} (active : m.state.active = true) : m.state ≠ .queued := by
  intro queued; rw [queued] at active; exact absurd active (by decide)

/-- Settles O45: the trip by `State.trip_of_untripped`, and a fault on a member of an active move as one trip after
`State.faulted`. -/
theorem faultIsLatchedAndTripsItsMove : Obligations.FaultIsLatchedAndTripsItsMove := by
  refine ⟨?_, fun s i running lawful => ⟨?_, fun due started elapsed => ?_⟩⟩
  · rintro s t g cause pt rfl
    refine ⟨State.trip_of_tripped, fun untripped => ?_⟩
    obtain ⟨trip, schedule⟩ := State.trip_record (c := cause) (p := pt) untripped
    have moved := s.trip_moved g cause pt
    refine ⟨trip, s.trip_queue g cause pt untripped, schedule, fun i => State.trip_quiet untripped, moved.rights,
      moved.estop, moved.time, fun m rest queue started waiting live => ?_⟩
    obtain ⟨reports, others⟩ := State.trip_live (c := cause) (p := pt) untripped queue started waiting live (.refl s)
    have points := State.trip_point_live (c := cause) (p := pt) untripped live
    exact ⟨State.trip_group_live untripped queue live, others, reports.ports,
      fun i member => (points i).trans (if_pos member), fun i outside => (points i).trans (if_neg outside)⟩
  · rintro c t rfl
    have moved := s.raiseFault_moved i c
    have heads := s.faulted_sameHeads i c
    refine ⟨State.raiseFault_latches, fun c' => State.raiseFault_marks, fun active => ?_, moved.rights, moved.estop,
      moved.time, ?_⟩
    · have untripped := Group.trip_of_active (lawful _) ((s.inActiveMove_iff i).mp active).2
      rw [State.groupOf, (moved.points i).group, State.raiseFault_of_active active untripped]
      have untripped' := (heads.trip (s.point i).group).trans untripped
      refine ⟨(State.trip_record untripped').1, State.trip_queue _ _ _ _ untripped', fun j member => ?_⟩
      exact State.trip_quiet untripped' (by rw [heads.runPoints]; exact member)
    · rintro g u rfl rfl
      refine ⟨fun inactive live => ?_, fun m rest active live queue => ?_⟩
      · obtain ⟨reports, groups⟩ := State.faulted_reports (c := c) live
        rw [State.raiseFault_of_inactive inactive live]
        exact ⟨reports.ports, groups⟩
      · obtain ⟨member, state⟩ := (s.inActiveMove_iff i).mp active
        have untripped := Group.trip_of_active (lawful _) state
        obtain ⟨reports, groups⟩ := State.faulted_reports (c := c) (live i member)
        have group : ∀ h, (s.faulted i c).group h = s.group h := fun h => by rw [State.group, groups]; rfl
        obtain ⟨-, waiting, -⟩ := lawful (s.point i).group
        rw [queue] at waiting
        rw [Group.headIs_of_queue queue] at state
        obtain ⟨tripReports, others⟩ := State.trip_live (c := .point) (p := some i) (by rw [group]; exact untripped)
          (by rw [group]; exact queue) (Move.started_of_active state) waiting
          (fun j inList => by
            rw [(s.faulted_moved i c).rehearsing]
            exact live j (by rwa [heads.runPoints] at inList)) reports
        rw [State.raiseFault_of_active active untripped]
        exact ⟨tripReports.ports, fun h ne => (others h ne).trans (group h)⟩
  · rw [exec_stallExpiry running, State.stallExpiry, if_pos (State.isDue_of_le started elapsed)]

end Sys2Proof.Machine
end

section
/-! The assertion of ESTOP (R52, R145, R151). -/

namespace Sys2Proof.Machine

theorem Moved.queuesLawful {s t : State} (m : Moved s t) (lawful : s.queuesLawful) : t.queuesLawful := fun g => by
  obtain ⟨short, waiting, tripped⟩ := lawful g
  refine ⟨(m.groups g).short short, (m.groups g).waiting waiting, fun trip => ?_⟩
  rcases m.tripped g with same | empty
  · exact (m.groups g).emptied (tripped (same ▸ trip))
  · exact empty

/-! ## What an event does to a group that it may trip -/

/-- The head move has left QUEUED. -/
def Group.underway (r : Group) : Bool := r.headIs (· != .queued)

/-- Between a and b the group's trip cause and the start of its head move stay, or b is TRIPPED and a was under way. -/
def Group.Struck (a b : Group) : Prop :=
  (b.trip = a.trip ∧ b.underway = a.underway) ∨ (a.underway = true ∧ b.trip ≠ none)

theorem Group.Struck.trans {a b c : Group} (h : a.Struck b) (k : b.Struck c) : a.Struck c := by
  rcases h with ⟨trip, underway⟩ | ⟨started, tripped⟩
  · rcases k with ⟨trip', underway'⟩ | ⟨started', tripped'⟩
    · exact .inl ⟨trip'.trans trip, underway'.trans underway⟩
    · exact .inr ⟨underway ▸ started', tripped'⟩
  · refine .inr ⟨started, ?_⟩
    rcases k with ⟨trip', -⟩ | ⟨-, tripped'⟩
    · rw [trip']; exact tripped
    · exact tripped'

/-- Every group is struck, or stays. -/
def Struck (s t : State) : Prop := ∀ g, (s.group g).Struck (t.group g)

theorem Struck.trans {s t u : State} (h : Struck s t) (k : Struck t u) : Struck s u := fun g => (h g).trans (k g)

theorem Struck.of_sameHeads {s t : State} (h : SameHeads s t) : Struck s t := fun g => .inl ⟨h.trip g, h.headIs g _⟩

theorem Struck.refl (s : State) : Struck s s := .of_sameHeads (.of_groups rfl)

theorem Struck.foldl {α : Type} {f : State → α → State} (h : ∀ s a, Struck s (f s a)) (l : List α) (s : State) :
    Struck s (l.foldl f s) := by
  induction l generalizing s with
  | nil => exact .refl s
  | cons a l ih => exact (h s a).trans (ih _)

theorem Group.underway_of_active {r : Group} (active : r.headIs MoveState.active = true) : r.underway = true := by
  obtain ⟨m, rest, queue, state⟩ := Group.queue_of_active active
  rw [Group.underway, Group.headIs_of_queue queue]
  exact bne_iff_ne.mpr (Move.started_of_active state)

theorem State.hardReleaseAll_sameHeads (s : State) (l : List PointIdx) : SameHeads s (s.hardReleaseAll l) := by
  induction l generalizing s with
  | nil => exact .of_groups rfl
  | cons i l ih => exact (s.hardRelease_sameHeads i).trans (ih _)

theorem State.trip_struck {s : State} {g : GroupIdx} (c : TripCause) (p : Option PointIdx)
    (underway : (s.group g).underway = true) : Struck s (s.trip g c p) := by
  cases trip : (s.group g).trip with
  | some x => rw [State.trip_of_tripped (by rw [trip]; exact Option.some_ne_none x)]; exact .refl s
  | none =>
    intro k
    by_cases same : k = g
    · subst same
      exact .inr ⟨underway, by rw [(State.trip_record trip).1]; exact Option.some_ne_none _⟩
    · have heads := s.hardReleaseAll_sameHeads (s.runPoints g)
      have group : (s.trip g c p).group k = (s.hardReleaseAll (s.runPoints g)).group k := by
        rw [State.trip_of_untripped trip, State.endAll_group_ne _ same, State.reportTrip, State.group_produce,
          State.tripRecorded, State.group_modGroup_ne _ (Ne.symm same)]
      rw [group]
      exact .inl ⟨heads.trip k, heads.headIs k _⟩

theorem State.tripMember_struck (s : State) (i : PointIdx) : Struck s (s.tripMember i) := by
  cases active : s.inActiveMove i with
  | false => rw [State.tripMember_of_inactive active]; exact .refl s
  | true =>
    rw [State.tripMember_of_active active]
    exact State.trip_struck _ _ (Group.underway_of_active ((s.inActiveMove_iff i).mp active).2)

theorem State.release_struck (s : State) (i : PointIdx) : Struck s (s.release i) := by
  have released := Struck.of_sameHeads (s.hardRelease_sameHeads i)
  cases raises : s.coastRaises i with
  | false => rw [State.release_of_untroubled raises]; exact released
  | true => rw [State.release_of_raising raises]; exact released.trans (State.tripMember_struck _ i)

/-! ## ESTOP at one group (R151 step 3) -/

section
variable {s : State} {g : GroupIdx}

theorem State.estopGroup_of_tripped (tripped : (s.group g).trip ≠ none) : s.estopGroup g = s :=
  if_pos ((Group.state_eq_tripped _).mpr tripped)

theorem State.estopGroup_of_underway (untripped : (s.group g).trip = none) (underway : (s.group g).underway = true) :
    s.estopGroup g = s.trip g .estop none := by
  refine (if_neg ?_).trans (if_pos underway)
  rw [Group.state_eq_tripped, untripped]
  exact fun h => h rfl

theorem State.estopGroup_of_idle (untripped : (s.group g).trip = none) (idle : (s.group g).underway = false) :
    s.estopGroup g = s.endAll g fun _ => .flushed := by
  refine (if_neg ?_).trans (if_neg (Bool.not_eq_true _ ▸ idle))
  rw [Group.state_eq_tripped, untripped]
  exact fun h => h rfl

theorem Group.underway_of_empty {r : Group} (empty : r.queue = []) : r.underway = false := by
  rw [Group.underway, Group.headIs, empty]

theorem State.estopGroup_struck (s : State) (g : GroupIdx) : Struck s (s.estopGroup g) := by
  cases trip : (s.group g).trip with
  | some x => rw [State.estopGroup_of_tripped (by rw [trip]; exact Option.some_ne_none x)]; exact .refl s
  | none =>
    cases underway : (s.group g).underway with
    | true => rw [State.estopGroup_of_underway trip underway]; exact State.trip_struck _ _ underway
    | false =>
      rw [State.estopGroup_of_idle trip underway]
      intro k
      by_cases same : k = g
      · subst same
        exact .inl ⟨(s.endAll_record k _).1, (Group.underway_of_empty (s.endAll_queue k _)).trans underway.symm⟩
      · rw [State.endAll_group_ne _ same]; exact .inl ⟨rfl, rfl⟩

theorem State.estopGroup_queue (lawful : s.queuesLawful) (g : GroupIdx) : ((s.estopGroup g).group g).queue = [] := by
  cases trip : (s.group g).trip with
  | some x =>
    obtain ⟨-, -, tripped⟩ := lawful g
    rw [State.estopGroup_of_tripped (by rw [trip]; exact Option.some_ne_none x)]
    exact tripped (by rw [trip]; rfl)
  | none =>
    cases underway : (s.group g).underway with
    | true => rw [State.estopGroup_of_underway trip underway]; exact s.trip_queue g _ _ trip
    | false => rw [State.estopGroup_of_idle trip underway]; exact s.endAll_queue g _

theorem State.foldl_estopGroup_queue (l : List GroupIdx) {s : State} (lawful : s.queuesLawful) (g : GroupIdx) (mem : g ∈ l) :
    ((l.foldl State.estopGroup s).group g).queue = [] := by
  induction l generalizing s with
  | nil => exact absurd mem List.not_mem_nil
  | cons k l ih =>
    rcases List.mem_cons.mp mem with rfl | later
    · exact ((Moved.foldl State.estopGroup State.estopGroup_moved l _).groups g).emptied (State.estopGroup_queue lawful g)
    · exact ih ((s.estopGroup_moved k).queuesLawful lawful) later

end

/-! ## Outside a rehearsal -/

/-- The reports of ESTOP at a group with this queue (R145). -/
def State.reportEstop (u : State) (g : GroupIdx) : List Move → State
  | [] => u
  | m :: rest =>
    if m.state = .queued then (m :: rest).foldl (State.reportEnd g .flushed) u else u.reportTripOf g .estop none m rest

section
variable {s u : State} {g : GroupIdx}

theorem State.estopGroup_reports (lawful : (s.group g).queueLawful) (live : ∀ i, s.rehearsing i = false)
    (same : SameReports u s) :
    SameReports (u.reportEstop g (s.group g).queue) (s.estopGroup g) ∧
      (∀ k, k ≠ g → (s.estopGroup g).group k = s.group k) ∧
      ((s.group g).underway = true → ((s.estopGroup g).group g).trip = some ⟨.estop, none⟩) := by
  obtain ⟨-, waiting, tripped⟩ := lawful
  cases trip : (s.group g).trip with
  | some x =>
    have empty := tripped (by rw [trip]; rfl)
    rw [State.estopGroup_of_tripped (by rw [trip]; exact Option.some_ne_none x), empty]
    exact ⟨same, fun _ _ => rfl, fun underway => absurd underway (by rw [Group.underway_of_empty empty]; decide)⟩
  | none =>
    cases queue : (s.group g).queue with
    | nil =>
      have idle := Group.underway_of_empty queue
      rw [State.estopGroup_of_idle trip idle, State.endAll_of_empty queue]
      exact ⟨same, fun _ _ => rfl, fun underway => absurd underway (by rw [idle]; decide)⟩
    | cons m rest =>
      have state : (s.group g).underway = (m.state != .queued) := Group.headIs_of_queue queue _
      rw [queue] at waiting
      by_cases queued : m.state = .queued
      · have idle : (s.group g).underway = false := by rw [state, queued]; rfl
        have ended := State.endAll_reports (g := g) (fun _ => .flushed) same
        rw [queue] at ended
        rw [State.estopGroup_of_idle trip idle, State.reportEstop, if_pos queued]
        exact ⟨ended, fun k ne => State.endAll_group_ne _ ne,
          fun underway => absurd underway (by rw [idle]; decide)⟩
      · have underway : (s.group g).underway = true := by rw [state]; exact bne_iff_ne.mpr queued
        obtain ⟨reports, others⟩ := State.trip_live (c := .estop) (p := none) trip queue queued waiting
          (fun i _ => live i) same
        rw [State.estopGroup_of_underway trip underway, State.reportEstop, if_neg queued]
        exact ⟨reports, others, fun _ => (State.trip_record trip).1⟩

/-- Outside a rehearsal the groups are taken one by one, and the step at one leaves the records of the others. -/
theorem State.foldl_estopGroup_reports (v : State) (lawful : v.queuesLawful) (l : List GroupIdx) (once : l.Nodup)
    (live : ∀ i, s.rehearsing i = false) (ahead : ∀ g ∈ l, s.group g = v.group g) (same : SameReports u s) :
    SameReports (l.foldl (fun u g => u.reportEstop g (v.group g).queue) u) (l.foldl State.estopGroup s) ∧
      (∀ k, k ∉ l → (l.foldl State.estopGroup s).group k = s.group k) ∧
      ∀ g ∈ l, (v.group g).underway = true → ((l.foldl State.estopGroup s).group g).trip = some ⟨.estop, none⟩ := by
  induction l generalizing s u with
  | nil => exact ⟨same, fun _ _ => rfl, fun g mem => absurd mem List.not_mem_nil⟩
  | cons h l ih =>
    obtain ⟨apart, once'⟩ := List.nodup_cons.mp once
    have here := ahead h List.mem_cons_self
    obtain ⟨reports, others, tripped⟩ := State.estopGroup_reports (here ▸ lawful h) live same
    rw [here] at reports tripped
    obtain ⟨reports', others', tripped'⟩ := ih once' (s := s.estopGroup h)
      (fun i => by rw [(s.estopGroup_moved h).rehearsing]; exact live i)
      (fun g mem => by
        rw [others g fun same => apart (same ▸ mem)]
        exact ahead g (List.mem_cons_of_mem h mem)) reports
    refine ⟨reports', fun k out => ?_, fun g mem underway => ?_⟩
    · exact (others' k (List.not_mem_of_not_mem_cons out)).trans (others k (List.ne_of_not_mem_cons out))
    · rcases List.mem_cons.mp mem with rfl | later
      · exact (congrArg Group.trip (others' g apart)).trans (tripped underway)
      · exact tripped' g later underway

end

/-- The loop has opened and the assertion is still to come (R150). -/
def State.loopOpened (s : State) : State := { s with loopClosed := false, estopDue := none }

theorem State.assertEstop_queue {s : State} (lawful : s.queuesLawful) (g : GroupIdx) :
    (s.assertEstop.group g).queue = [] := by
  have lawful' : State.queuesLawful { s with estop := true } := lawful
  have mem := mem_allGroups g
  unfold State.assertEstop
  generalize allPoints = l, allGroups = k at mem ⊢
  exact State.foldl_estopGroup_queue k
    (((State.releaseAll_moved _ l).trans (State.produce_moved _ _ _ _)).queuesLawful lawful') g mem

theorem State.assertEstop_struck (s : State) : Struck s s.assertEstop := by
  have asserted : Struck s { s with estop := true } := .refl s
  unfold State.assertEstop
  generalize allPoints = l, allGroups = k
  exact asserted.trans ((Struck.foldl State.release_struck l _).trans (Struck.foldl State.estopGroup_struck k _))

theorem State.assertEstop_reports {s u : State} (lawful : s.queuesLawful) (live : ∀ i, s.rehearsing i = false)
    (same : SameReports u s) :
    SameReports (allGroups.foldl (fun u g => u.reportEstop g (s.group g).queue) (u.produce none (.estop true)))
        s.assertEstop ∧
      ∀ g, (s.group g).underway = true → (s.assertEstop.group g).trip = some ⟨.estop, none⟩ := by
  have once : allGroups.Nodup := by decide
  have mem := mem_allGroups
  unfold State.assertEstop
  generalize allPoints = l, allGroups = k at mem once ⊢
  have live' : ∀ i, State.rehearsing { s with estop := true } i = false := live
  have rests := State.releaseAll_live fun i (_ : i ∈ l) => live' i
  have asserted : SameReports s { s with estop := true } := ⟨rfl, rfl, rfl, fun _ => rfl⟩
  have group : ∀ g, (State.releaseAll { s with estop := true } l).group g = s.group g := fun g => by
    rw [rests.same]; rfl
  obtain ⟨reports, -, tripped⟩ := State.foldl_estopGroup_reports s lawful k once
    (s := (State.releaseAll { s with estop := true } l).produce none (.estop true))
    (fun i => (rests.rehearsing i).trans (live' i)) (fun g _ => group g)
    (((same.trans asserted).trans rests.sameReports).produce none (.estop true) false)
  exact ⟨reports, fun g => tripped g (mem g)⟩

/-- Settles O48: what every step of the assertion keeps, by `Moved` and `Struck`; the reports group by group. -/
theorem estopStopsEverything : Obligations.EstopStopsEverything := by
  intro s running released lawful
  have opened : s.estopOpened = s.loopOpened.assertEstop := if_neg (by rw [released]; decide)
  have moved := s.loopOpened.assertEstop_moved
  have struck := s.loopOpened.assertEstop_struck
  have queue := State.assertEstop_queue (s := s.loopOpened) lawful
  have estop : s.loopOpened.assertEstop.estop = true := moved.estop
  have reports := fun live => State.assertEstop_reports (s := s.loopOpened) (u := s) lawful live
    ⟨rfl, rfl, rfl, fun _ => rfl⟩
  rw [exec_estopAsserted running, opened]
  refine ⟨_, rfl, estop, moved.loopClosed, moved.estopDue, fun i => ⟨s.loopOpened.assertEstop_still i, ?_, ?_⟩,
    fun g => ⟨queue g, (moved.groups g).holder⟩, fun g underway => ?_, fun g underway live => ?_, fun g idle => ?_,
    fun live => ?_, moved.rights, moved.time⟩
  · rw [State.upOutput, estop, Bool.not_true, Bool.and_false, Bool.false_and]
  · rw [State.downOutput, estop, Bool.not_true, Bool.and_false, Bool.false_and]
  · rw [Group.state_eq_tripped]
    rcases struck g with ⟨-, same⟩ | ⟨-, tripped⟩
    · rw [Group.underway_of_empty (queue g)] at same
      exact absurd (same.trans underway) (by decide)
    · exact tripped
  · exact (reports live).2 g underway
  · rcases struck g with ⟨trip, -⟩ | ⟨underway, -⟩
    · exact trip
    · exact absurd (underway.symm.trans idle) (by decide)
  · refine (reports live).1.ports.trans (congrArg (fun f => (allGroups.foldl f (s.produce none (.estop true))).ports) ?_)
    funext u g
    change u.reportEstop g (s.group g).queue = _
    cases (s.group g).queue <;> rfl

end Sys2Proof.Machine
end

section
/-! Samples and shares (R61 to R67, R70 to R76). -/

namespace Sys2Proof.Machine

/-! ## An accepted sample (R64) -/

theorem State.modPoint_congr {s : State} {i : PointIdx} {f k : Point → Point} (h : f (s.point i) = k (s.point i)) :
    s.modPoint i f = s.modPoint i k := by
  rw [State.modPoint, State.modPoint, h]

theorem State.overloadCheck_of_filtered {s : State} {i : PointIdx} {v : Nat}
    (filtered : (s.point i).load.filtered = some v) :
    s.overloadCheck i =
      if decide ((s.point i).settings.overThreshold ≤ v) = true ∧ (s.point i).load.overExcursion = false then
        (s.modPoint i fun p => { p with load := { p.load with overExcursion := decide ((s.point i).settings.overThreshold ≤ v) } }).raiseFault i .overload
      else s.modPoint i fun p => { p with load := { p.load with overExcursion := decide ((s.point i).settings.overThreshold ≤ v) } } := by
  have overloaded := Point.overloaded_of_filtered filtered
  have written : (s.modPoint i fun p => { p with load := { p.load with overExcursion := p.overloaded } }) =
      s.modPoint i fun p => { p with load := { p.load with overExcursion := decide ((s.point i).settings.overThreshold ≤ v) } } :=
    State.modPoint_congr (by rw [overloaded])
  rw [State.overloadCheck, written]
  dsimp only
  rw [overloaded]
  cases (s.point i).load.overExcursion <;> simp

theorem State.underloadCheck_eq {s : State} {i : PointIdx} {under : Bool} (h : s.underloaded i = under) :
    s.underloadCheck i =
      if under = true ∧ (s.point i).load.underExcursion = false then
        (s.modPoint i fun p => { p with load := { p.load with underExcursion := under } }).raiseFault i .underload
      else s.modPoint i fun p => { p with load := { p.load with underExcursion := under } } := by
  subst h
  rw [State.underloadCheck]
  cases (s.point i).load.underExcursion <;> simp

theorem State.underloaded_of_filtered {s : State} {i : PointIdx} {v : Nat}
    (filtered : (s.point i).load.filtered = some v) :
    s.underloaded i = ((s.point i).settings.underThreshold != 0 && (s.point i).channel.state != .off && !s.rehearsing i &&
      decide (v < (s.point i).settings.underThreshold)) := by
  simp only [State.underloaded, filtered, Option.any_some]

/-- A fault leaves what an underload check reads (R71). -/
theorem State.underloaded_raiseFault (s : State) (i : PointIdx) (c : FaultCode) :
    (s.raiseFault i c).underloaded i = s.underloaded i := by
  have moved := s.raiseFault_moved i c
  have kept := moved.points i
  have off : ((s.raiseFault i c).point i).channel.state = .off ↔ (s.point i).channel.state = .off :=
    ⟨kept.off, s.raiseFault_stays Point.unreleased_off i c i⟩
  have driven : (((s.raiseFault i c).point i).channel.state != .off) = ((s.point i).channel.state != .off) := by
    rw [Bool.eq_iff_iff, bne_iff_ne, bne_iff_ne, Ne, off]
  simp only [State.underloaded, kept.settings, kept.load, moved.rehearsing, driven]

theorem pushSample_eq {ring : Option (Vector Nat 8)} {idx : Fin 8} {n : Nat} {r : Vector Nat 8}
    (unprimed : ring = none → r = Vector.replicate 8 n) (primed : ∀ x, ring = some x → r = x.set idx n) :
    pushSample ring idx n = r := by
  cases ring with
  | none => exact (unprimed rfl).symm
  | some x => exact (primed x rfl).symm

theorem nextRingIndex_eq (ring : Option (Vector Nat 8)) (idx : Fin 8) :
    nextRingIndex ring idx = if ring = none then 1 else idx + 1 := by
  cases ring <;> rfl

section
variable {s s1 s2 s3 s4 u : State} {i : PointIdx} {q : Point} {n : Nat} {ring : Vector Nat 8} {overload underload : Bool}

/-- The six steps of R64, with the record and the conditions that each reads. -/
theorem State.acceptSample_eq (hq : q = s.point i) (unprimed : q.load.ring = none → ring = Vector.replicate 8 n)
    (primed : ∀ r, q.load.ring = some r → ring = r.set q.load.ringIndex n)
    (hover : overload = decide (q.settings.overThreshold ≤ filterRing ring))
    (hunder : underload = (q.settings.underThreshold != 0 && q.channel.state != .off && !s.rehearsing i &&
      decide (filterRing ring < q.settings.underThreshold)))
    (h1 : s1 = s.setPoint i
      { q with
        load :=
          { ring := some ring, ringIndex := if q.load.ring = none then 1 else q.load.ringIndex + 1
            filtered := some (filterRing ring), state := .valid, ageDue := some (s.time + 250000), sensor := false
            overExcursion := q.load.overExcursion, underExcursion := q.load.underExcursion } })
    (h2 : s2 = if q.load.state = .valid then s1 else s1.produce (some q.group) (.loadStatus .valid (filterRing ring) i))
    (h3 : s3 = s2.modPoint i fun x => { x with load := { x.load with overExcursion := overload } })
    (h4 : s4 = (if overload = true ∧ q.load.overExcursion = false then s3.raiseFault i .overload else s3).modPoint i
      fun x => { x with load := { x.load with underExcursion := underload } })
    (hu : u = if underload = true ∧ q.load.underExcursion = false then s4.raiseFault i .underload else s4) :
    s.acceptSample i n = (if (u.groupOf i).inRunList i then u.shareCheck q.group else u) ∧
      (u.point i).load =
        { ring := some ring, ringIndex := if q.load.ring = none then 1 else q.load.ringIndex + 1
          filtered := some (filterRing ring), state := .valid, ageDue := some (s.time + 250000), sensor := false
          overExcursion := overload, underExcursion := underload } ∧
      (u.point i).capture.position = q.capture.position ∧ (u.point i).settings = q.settings ∧ u.rights = s.rights ∧
      u.time = s.time ∧ u.estop = s.estop := by
  have accepted : s.modPoint i (fun p => { p with load := p.load.accept n s.time }) = s1 := by
    rw [h1, State.modPoint, ← hq, Load.accept, pushSample_eq unprimed primed, nextRingIndex_eq]; rfl
  have reported : (if (s.point i).load.state == .valid then s1 else s1.reportLoad i .valid) = s2 := by
    have filtered : s1.reportLoad i .valid = s1.produce (some q.group) (.loadStatus .valid (filterRing ring) i) := by
      rw [State.reportLoad, State.filteredOf, h1, State.point_setPoint_self]; rfl
    rw [h2, ← hq, filtered]
    cases q.load.state <;> rfl
  have point2 : s2.point i = s1.point i := by rw [h2]; split <;> rfl
  have rehearsing2 : s2.rehearsing i = s.rehearsing i := by
    have rehearsing1 : s1.rehearsing i = s.rehearsing i := by
      rw [← accepted]; exact State.rehearsing_modPoint i i _ rfl
    rw [← rehearsing1, h2]; split <;> rfl
  obtain ⟨rights2, time2, estop2⟩ : s2.rights = s.rights ∧ s2.time = s.time ∧ s2.estop = s.estop := by
    rw [h2, h1]; split <;> exact ⟨rfl, rfl, rfl⟩
  rw [h1, State.point_setPoint_self] at point2
  have point3 : s3.point i = { s2.point i with load := { (s2.point i).load with overExcursion := overload } } := by
    rw [h3, State.point_modPoint_self]
  have overChecked : s2.overloadCheck i = if overload = true ∧ q.load.overExcursion = false then s3.raiseFault i .overload else s3 := by
    rw [State.overloadCheck_of_filtered (v := filterRing ring) (by rw [point2]), point2, ← hover, ← h3]
  generalize hw : (if overload = true ∧ q.load.overExcursion = false then s3.raiseFault i .overload else s3) = w at overChecked h4
  have moved3 : Moved s3 w := by
    rw [← hw]; split
    · exact s3.raiseFault_moved i .overload
    · exact .refl s3
  have under3 : s3.underloaded i = underload := by
    have rehearsing3 : s3.rehearsing i = s.rehearsing i := by
      rw [← rehearsing2, h3]; exact State.rehearsing_modPoint i i _ rfl
    rw [State.underloaded_of_filtered (v := filterRing ring) (by rw [point3, point2]), point3, point2, rehearsing3, hunder]
  have under : w.underloaded i = underload := by
    rw [← hw, ← under3]; split
    · exact s3.underloaded_raiseFault i .overload
    · rfl
  have load3 := (moved3.points i).load
  have checked : w.underloadCheck i = u := by
    rw [State.underloadCheck_eq under, hu, ← h4, load3, point3, point2]
  have point4 : s4.point i = { w.point i with load := { (w.point i).load with underExcursion := underload } } := by
    rw [h4, State.point_modPoint_self]
  have moved4 : Moved s4 u := by
    rw [hu]; split
    · exact s4.raiseFault_moved i .underload
    · exact .refl s4
  have kept3 := moved3.points i
  have kept4 := moved4.points i
  have group : (u.point i).group = q.group := by rw [kept4.group, point4, kept3.group, point3, point2]
  refine ⟨?_, ?_, ?_, ?_, ?_, ?_, ?_⟩
  · simp only [State.acceptSample, accepted, reported, overChecked, checked, group]
  · rw [kept4.load, point4, load3, point3, point2]
  · rw [kept4.position, point4]; exact kept3.position.trans (by rw [point3, point2])
  · rw [kept4.settings, point4]; exact kept3.settings.trans (by rw [point3, point2])
  · rw [moved4.rights, h4]; exact moved3.rights.trans (by rw [h3]; exact rights2)
  · rw [moved4.time, h4]; exact moved3.time.trans (by rw [h3]; exact time2)
  · rw [moved4.estop, h4]; exact moved3.estop.trans (by rw [h3]; exact estop2)

end

theorem State.takeSample_of_marker (s : State) (i : PointIdx) : s.takeSample i (-32768) = s.sensorMarker i := if_pos rfl

theorem State.takeSample_of_value {s : State} {i : PointIdx} {v : Int} (value : v ≠ -32768) :
    s.takeSample i v = s.acceptSample i (max v 0).toNat := by
  have clamped : v.toNat = (max v 0).toNat := by omega
  rw [State.takeSample, if_neg value, clamped]

/-- The share check trips the group, or does nothing (R76). -/
theorem State.shareCheck_moved (s : State) (g : GroupIdx) : Moved s (s.shareCheck g) := by
  unfold State.shareCheck
  dsimp only
  repeat' split
  case h_1.isTrue => exact s.trip_moved g _ _
  all_goals exact .refl s

theorem State.shareCheck_moved_of_member (s : State) (g : GroupIdx) (member : Bool) :
    Moved s (if member then s.shareCheck g else s) := by
  cases member
  · exact .refl s
  · exact s.shareCheck_moved g

/-- Settles O52: the record by `State.takeRecord_of_good`, the sample by `State.acceptSample_eq`. -/
theorem sampleIsAccepted : Obligations.SampleIsAccepted := by
  intro s c1 c2 c3 c4 i v q running fresh sum point hv hq
  have taken : exec (.loadRecord [c1, c2, c3, c4]) s = .next (({ s with linkGapDue := none } : State).takeSample i v) := by
    rw [exec_loadRecord running, State.receive_record fresh,
      State.takeRecord_of_good _ point (by rw [recordSum_eq]; exact sum), hv]
  have here : ({ s with linkGapDue := none } : State).point i = q := hq.symm
  rw [taken]
  refine ⟨fun marker flagged => ?_, fun marker clear => ?_, fun value ring unprimed primed => ?_, ?_⟩
  · rw [marker, State.takeSample_of_marker, State.sensorMarker, here, flagged]; rfl
  · rw [marker, State.takeSample_of_marker, State.sensorMarker, here, clear, State.modPoint, here]; rfl
  · obtain ⟨accepted, load, position, settings, rights, time, estop⟩ := State.acceptSample_eq here.symm unprimed primed rfl rfl rfl rfl
      rfl rfl rfl
    rw [State.takeSample_of_value value, accepted]
    refine ⟨_, rfl, ((State.shareCheck_moved_of_member _ _ _).points i).load.trans load,
      ((State.shareCheck_moved_of_member _ _ _).points i).position.trans position,
      ((State.shareCheck_moved_of_member _ _ _).points i).settings.trans settings,
      (State.shareCheck_moved_of_member _ _ _).rights.trans rights,
      (State.shareCheck_moved_of_member _ _ _).time.trans time, (State.shareCheck_moved_of_member _ _ _).estop.trans estop⟩
  · rintro value ring overload underload s1 s2 s3 s4 unprimed primed hover hunder h1 h2 h3 h4 u hu
    obtain ⟨accepted, -⟩ := State.acceptSample_eq here.symm unprimed primed hover hunder h1 h2 h3 h4 hu
    rw [State.takeSample_of_value value, accepted]
    exact ⟨fun inList => by rw [inList]; rfl, fun out => by rw [out]; rfl⟩

/-! ## Shares (R66, R73, R74, R76) -/

theorem roundDiv_eq {n d q r : Nat} (split : n = q * d + r) (lt : r < d) :
    roundDiv n d = if 2 * r < d then q else if d < 2 * r then q + 1 else if q % 2 = 0 then q else q + 1 := by
  have pos : 0 < d := Nat.lt_of_le_of_lt (Nat.zero_le r) lt
  have quotient : n / d = q := by
    rw [split, Nat.mul_comm, Nat.mul_add_div pos, Nat.div_eq_of_lt lt, Nat.add_zero]
  have rest : n % d = r := by rw [split, Nat.mul_comm, Nat.mul_add_mod, Nat.mod_eq_of_lt lt]
  simp only [roundDiv, quotient, rest]
  split_ifs <;> omega

theorem ringSum_eq : ∀ v : Vector Nat 8, ringSum v = v.toList.sum
  | ⟨⟨[a, b, c, d, e, f, g, h]⟩, _⟩ => by
    change a + b + c + d + e + f + g + h = a + (b + (c + (d + (e + (f + (g + (h + 0)))))))
    omega

theorem MoveKind.ofGroup_iff (k : MoveKind) : k.ofGroup = true ↔ k = .groupBy ∨ k = .groupJog := by
  cases k <;> decide

theorem Move.synchronised_iff (m : Move) :
    m.synchronised = true ↔ (m.body.kind = .groupBy ∨ m.body.kind = .groupJog) ∧ 2 ≤ m.runList.length := by
  rw [Move.synchronised, Bool.and_eq_true, MoveKind.ofGroup_iff, decide_eq_true_eq]

/-- The head move has shares (R73). -/
def State.shared (s : State) (m : Move) : Prop :=
  m.synchronised = true ∧ (∀ e ∈ m.runList, (s.point e.point).load.state = .valid) ∧
    0 < s.totalLoad (m.runList.map (·.point))

section
variable {s : State} {g : GroupIdx}

theorem State.shares_of_empty (queue : (s.group g).queue = []) : s.shares g = none := by
  rw [State.shares, queue]

theorem State.shares_of_queue {m : Move} {rest : List Move} (queue : (s.group g).queue = m :: rest) (b : List (PointIdx × Nat)) :
    s.shares g = some b ↔ s.shared m ∧
      b = (s.runPoints g).map fun i => (i, roundDiv (s.filteredOf i * 1024) (s.totalLoad (s.runPoints g))) := by
  rw [State.runPoints, Group.runList_of_queue queue, State.shares, queue]
  have condition : (m.synchronised && (m.runList.map (·.point)).all (fun i => (s.point i).load.state == .valid) &&
      decide (0 < s.totalLoad (m.runList.map (·.point)))) = true ↔ s.shared m := by
    simp only [State.shared, Bool.and_eq_true, List.all_map, List.all_eq_true, Function.comp_apply, beq_iff_eq,
      decide_eq_true_eq, and_assoc]
  dsimp only
  rw [← condition]
  split
  next sharing => simp only [sharing, true_and, Option.some.injEq, eq_comm]
  next unshared => simp only [unshared, false_and, reduceCtorEq]

theorem distance_eq (a b : Nat) : distance a b = ((a : Int) - (b : Int)).natAbs := by
  rw [distance]
  split <;> omega

theorem largestDeviation_mem {l : List (PointIdx × Nat)} {y : PointIdx × Nat} (largest : largestDeviation l = some y) :
    y ∈ l := by
  induction l generalizing y with
  | nil => exact absurd largest (Option.some_ne_none y).symm
  | cons x rest ih =>
    rw [largestDeviation] at largest
    split at largest
    next => exact Option.some.inj largest ▸ List.mem_cons_self
    next z found =>
      split at largest
      · exact Option.some.inj largest ▸ List.mem_cons_of_mem x (ih found)
      · exact Option.some.inj largest ▸ List.mem_cons_self

theorem largestDeviation_eq {l : List (PointIdx × Nat)} {x : PointIdx × Nat} (sorted : l.Pairwise fun a b => a.1 < b.1)
    (mem : x ∈ l) (largest : ∀ y ∈ l, y.2 ≤ x.2 ∧ (y.2 = x.2 → x.1 ≤ y.1)) : largestDeviation l = some x := by
  induction l with
  | nil => exact absurd mem List.not_mem_nil
  | cons a rest ih =>
    obtain ⟨first, sorted'⟩ := List.pairwise_cons.mp sorted
    rw [largestDeviation]
    rcases List.mem_cons.mp mem with rfl | later
    · split
      next => rfl
      next y found =>
        exact if_neg (Nat.not_lt.mpr (largest y (List.mem_cons_of_mem x (largestDeviation_mem found))).1)
    · rw [ih sorted' later fun y inRest => largest y (List.mem_cons_of_mem a inRest)]
      obtain ⟨le, tie⟩ := largest a List.mem_cons_self
      refine if_pos (Nat.lt_of_le_of_ne le fun same => ?_)
      exact absurd (tie same) (not_le.mpr (first x later))

theorem State.shareCheck_of_unchecked (unchecked : (s.group g).headIs MoveState.driving = false ∨
    (s.group g).rehearsal = true ∨ (s.group g).baseline = none ∨ s.shares g = none ∨ (s.group g).shareBand = 0) :
    s.shareCheck g = s := by
  unfold State.shareCheck
  dsimp only
  rcases unchecked with h | h | h | h | h
  · rw [h]; rfl
  · rw [h, Bool.not_true, Bool.and_false]; rfl
  · rw [h]; exact ite_self s
  · rw [h]
    cases (s.group g).baseline <;> exact ite_self s
  · rw [h]
    cases (s.group g).headIs MoveState.driving <;> rfl

variable {base present : List (PointIdx × Nat)}

theorem State.shareCheck_within (hb : (s.group g).baseline = some base) (hp : s.shares g = some present)
    (within : ∀ x ∈ deviations present base, x.2 ≤ (s.group g).shareBand) : s.shareCheck g = s := by
  unfold State.shareCheck
  dsimp only
  rw [hb, hp]
  dsimp only
  split
  · split
    next x found => exact if_neg (Nat.not_lt.mpr (within x (largestDeviation_mem found)))
    next => rfl
  · rfl

theorem State.shareCheck_beyond (driving : (s.group g).headIs MoveState.driving = true)
    (live : (s.group g).rehearsal = false) (hb : (s.group g).baseline = some base) (hp : s.shares g = some present)
    (on : (s.group g).shareBand ≠ 0) {x : PointIdx × Nat} (largest : largestDeviation (deviations present base) = some x)
    (beyond : (s.group g).shareBand < x.2) : s.shareCheck g = s.trip g .share (some x.1) := by
  unfold State.shareCheck
  dsimp only
  rw [hb, hp, driving, live, bne_iff_ne.mpr on]
  dsimp only
  rw [largest]
  exact (if_pos rfl).trans (if_pos beyond)

theorem deviations_eq {dev : PointIdx × Nat → Nat}
    (hdev : ∀ x, dev x = ((x.2 : Int) - ((base.lookup x.1).getD 0 : Nat)).natAbs) :
    deviations present base = present.map fun x => (x.1, dev x) := by
  simp only [deviations, distance_eq, hdev]

end

/-- Settles O53. -/
theorem sharesAreRoundedAndChecked : Obligations.SharesAreRoundedAndChecked := by
  refine ⟨fun n d q r _ split lt => roundDiv_eq split lt, fun v => by rw [filterRing, ringSum_eq],
    fun s l => ⟨rfl, fun i => rfl⟩, fun s g => ⟨?_, fun unchecked => State.shareCheck_of_unchecked ?_⟩, fun s g b hb => ?_, ?_⟩
  · cases queue : (s.group g).queue with
    | nil =>
      rw [State.shares_of_empty queue]
      exact ⟨fun h => absurd rfl h, fun ⟨m, rest, cons, _⟩ => absurd cons (List.cons_ne_nil m rest).symm⟩
    | cons m rest =>
      rw [Option.ne_none_iff_exists']
      constructor
      · rintro ⟨b, hb⟩
        obtain ⟨⟨sync, valid, loaded⟩, -⟩ := (State.shares_of_queue queue b).mp hb
        obtain ⟨kind, two⟩ := (Move.synchronised_iff m).mp sync
        exact ⟨m, rest, rfl, kind, two, valid, loaded⟩
      · rintro ⟨m', rest', cons, kind, two, valid, loaded⟩
        obtain ⟨rfl, rfl⟩ := List.cons.inj cons
        exact ⟨_, (State.shares_of_queue queue _).mpr ⟨⟨(Move.synchronised_iff m).mpr ⟨kind, two⟩, valid, loaded⟩, rfl⟩⟩
  · rcases unchecked with h | h | h | h
    exacts [.inl h, .inr (.inl h), .inr (.inr (.inl h)), .inr (.inr (.inr (.inl h)))]
  · cases queue : (s.group g).queue with
    | nil => rw [State.shares_of_empty queue] at hb; exact absurd hb (Option.some_ne_none b).symm
    | cons m rest =>
      obtain ⟨⟨-, -, loaded⟩, hb⟩ := (State.shares_of_queue queue b).mp hb
      refine ⟨?_, hb⟩
      rw [State.runPoints, Group.runList_of_queue queue]
      exact loaded
  · rintro s g base present r dev rfl driving live hb hp sorted hdev
    have listed := deviations_eq (present := present) hdev
    refine ⟨fun within => ?_, fun x mem on beyond largest => ?_⟩
    · rcases within with off | within
      · exact State.shareCheck_of_unchecked (.inr (.inr (.inr (.inr off))))
      · refine State.shareCheck_within hb hp fun y inList => ?_
        rw [listed, List.mem_map] at inList
        obtain ⟨x, mem, rfl⟩ := inList
        exact within x mem
    · refine State.shareCheck_beyond driving live hb hp on (x := (x.1, dev x)) ?_ beyond
      rw [listed]
      refine largestDeviation_eq (List.pairwise_map.mpr sorted) (List.mem_map.mpr ⟨x, mem, rfl⟩) fun y inList => ?_
      obtain ⟨z, inPresent, rfl⟩ := List.mem_map.mp inList
      exact largest z inPresent

end Sys2Proof.Machine
end

section
/-! Limit switches (R15 to R18). -/

namespace Sys2Proof.Machine

section
variable (w : Switches) (k : Switch) (level : Bool) (now : Nat)

theorem Switches.input_change : (w.change k level now).input k = level := by
  cases k <;> rfl

theorem Switches.closed_change (k' : Switch) : (w.change k level now).closed k' = w.closed k' := by
  cases k <;> cases k' <;> rfl

theorem Switches.due_change :
    (w.change k level now).due k = if w.closed k = level then none else some (now + 3000) := by
  cases k <;> rfl

end

theorem State.limitInputChange_of_change {s : State} {i : PointIdx} {k : Switch} {level : Bool}
    (change : (s.point i).switches.input k = !level) :
    s.limitInputChange i k level = s.modPoint i fun p => { p with switches := p.switches.change k level s.time } := by
  refine if_neg ?_
  rw [change]
  cases level <;> decide

/-- The switches after switch k's qualification ends with this level (R15). -/
def Switches.settled (w : Switches) (k : Switch) (level : Bool) : Switches := (w.setClosed k level).setDue k none

theorem State.switchEvent_of_due {s : State} {i : PointIdx} {k : Switch} {level : Bool}
    (due : s.isDue ((s.point i).switches.due k) = true) (input : (s.point i).switches.input k = level) :
    s.switchEvent i k =
      if level then (s.setPoint i { s.point i with switches := (s.point i).switches.settled k level }).produce
        (some (s.point i).group) (.limit k level i)
      else ((s.setPoint i { s.point i with switches := (s.point i).switches.settled k level }).produce
        (some (s.point i).group) (.limit k level i)).switchOpened i k := by
  subst input
  exact if_pos due

/-- LIMIT_WIRING is raised while both switches read open (R18). -/
def State.wired (s : State) (i : PointIdx) : State :=
  if (s.point i).switches.bothOpen then s.raiseFault i .limitWiring else s

section
variable {s : State} {i : PointIdx} {k : Switch}

theorem State.switchOpened_of_clear (clear : (s.point i).channel.state.dir ≠ some (switchDir k)) :
    s.switchOpened i k = s.wired i := by
  rw [State.switchOpened, if_neg clear]; rfl

theorem State.switchOpened_of_ahead (ahead : (s.point i).channel.state.dir = some (switchDir k)) :
    s.switchOpened i k = (s.limitStop i).wired i := by
  rw [State.switchOpened, if_pos ahead]; rfl

/-- R16: an opening ahead of a driven member outside a rehearsal. -/
theorem State.limitStop_of_driven (member : (s.groupOf i).inRunList i = true)
    (driving : (s.groupOf i).headIs MoveState.driving = true) (live : s.rehearsing i = false) :
    s.limitStop i =
      if 2 ≤ (s.groupOf i).runList.length then (s.hardRelease i).trip (s.point i).group .limit (some i)
      else (s.hardRelease i).enterStopping (s.point i).group none (some .limit) := by
  have group : (s.hardRelease i).group (s.point i).group = s.groupOf i := by
    rw [State.hardRelease_live live]; rfl
  rw [State.limitStop, State.release_of_untroubled (State.coastRaises_live live),
    group, member, driving]
  rfl

end

theorem ChannelState.dir_eq_iff (c : ChannelState) (k : Switch) :
    c.dir = some (switchDir k) ↔ c = (switchDir k).channelState := by
  cases c <;> cases k <;> decide

/-- Settles O50. -/
theorem limitSwitchesAreQualified : Obligations.LimitSwitchesAreQualified := by
  rintro s i k level q running rfl
  refine ⟨fun change => ?_, fun due w s1 started elapsed input hw hs1 => ?_⟩
  · rw [exec_limitInputChange running, State.limitInputChange_of_change change]
    refine ⟨_, rfl, ?_⟩
    rw [State.point_modPoint_self]
    exact ⟨Switches.input_change _ k level _, Switches.closed_change _ k level _, Switches.due_change _ k level _,
      State.modPoint_congr rfl⟩
  · have settled : (s.point i).switches.settled k level = w := by rw [hw]; cases k <;> rfl
    have event := State.switchEvent_of_due (State.isDue_of_le started elapsed) input
    rw [settled, ← hs1] at event
    rw [exec_switchEvent running, event]
    refine ⟨fun closed => by rw [closed]; rfl, fun ahead wired hahead hwired opened => ?_⟩
    have point : s1.point i = { s.point i with switches := w } := by rw [hs1, State.point_produce, State.point_setPoint_self]
    have wiring : ∀ t, Moved s1 t → t.wired i = wired t := fun t moved => by
      rw [hwired, State.wired, (moved.points i).switches, point, Switches.bothOpen]
      cases w.upperClosed <;> cases w.lowerClosed <;> rfl
    have meets : ahead = true ↔ (s1.point i).channel.state.dir = some (switchDir k) := by
      rw [hahead, ChannelState.dir_eq_iff, point]
      cases k <;> exact beq_iff_eq
    rw [opened]
    refine ⟨fun clear => ?_, fun met member driving live => ?_⟩
    · have away : (s1.point i).channel.state.dir ≠ some (switchDir k) := by
        rw [Ne, ← meets, clear]; decide
      rw [State.switchOpened_of_clear away, ← wiring s1 (.refl s1)]; rfl
    · have group : s1.groupOf i = s.groupOf i := by rw [State.groupOf, point, hs1]; rfl
      have stopped := State.limitStop_of_driven (by rw [group]; exact member) (by rw [group]; exact driving)
        (by rw [State.rehearsing, group]; exact live)
      rw [group, point] at stopped
      rw [State.switchOpened_of_ahead (meets.mp met), stopped]
      refine ⟨fun several => ?_, fun one => ?_⟩
      · rw [if_pos several, ← wiring _ ((s1.hardRelease_moved i).trans (State.trip_moved _ _ _ _))]; rfl
      · rw [if_neg (Nat.not_le.mpr one), ← wiring _ ((s1.hardRelease_moved i).trans (State.enterStopping_moved _ _ _ _))]
        rfl

end Sys2Proof.Machine
end

section
/-! What stops a group's drive: releases, trips and entries to STOPPING (R96, R98, R144). -/

namespace Sys2Proof.Machine

/-! ## The drive of a group between two states -/

/-- Whether the head move drives, its members, the permit and the schedule are the same in t as in s. -/
structure State.SameDriveOf (s t : State) (g : GroupIdx) : Prop where
  driving : (t.group g).headIs MoveState.driving = (s.group g).headIs MoveState.driving
  permit : (t.group g).permit = (s.group g).permit
  schedule : (t.group g).schedule = (s.group g).schedule
  runPoints : t.runPoints g = s.runPoints g

/-- In t nothing of group g drives, neither its head move nor a member that it had in s. -/
structure State.Parked (s t : State) (g : GroupIdx) : Prop where
  driving : (t.group g).headIs MoveState.driving = false
  permit : (t.group g).permit = none
  schedule : (t.group g).schedule = []
  quiet : ∀ i ∈ s.runPoints g, (t.point i).channel.quiet = true

/-- From s to t no channel is driven, and the drive of every group stays as it is or ends. -/
structure Cuts (s t : State) : Prop where
  calm : Calm s t
  groups : ∀ g, s.SameDriveOf t g ∨ s.Parked t g

theorem State.SameDriveOf.of_group {s t : State} {g : GroupIdx} (same : t.group g = s.group g) : s.SameDriveOf t g :=
  ⟨by rw [same], by rw [same], by rw [same], by rw [State.runPoints, same]; rfl⟩

theorem SameHeads.sameDriveOf {s t : State} (h : SameHeads s t) (g : GroupIdx) : s.SameDriveOf t g := by
  have permit := congrArg Group.permit (h.frame g)
  have schedule := congrArg Group.schedule (h.frame g)
  exact ⟨h.headIs g _, permit, schedule, h.runPoints g⟩

theorem Cuts.of_sameHeads {s t : State} (calm : Calm s t) (h : SameHeads s t) : Cuts s t :=
  ⟨calm, fun g => .inl (h.sameDriveOf g)⟩

theorem Cuts.refl (s : State) : Cuts s s := .of_sameHeads (.refl s) (.of_groups rfl)

theorem Cuts.trans {s t u : State} (h : Cuts s t) (k : Cuts t u) : Cuts s u := by
  refine ⟨h.calm.trans k.calm, fun g => ?_⟩
  rcases h.groups g with same | parked
  · rcases k.groups g with same' | parked'
    · exact .inl ⟨same'.driving.trans same.driving, same'.permit.trans same.permit, same'.schedule.trans same.schedule,
        same'.runPoints.trans same.runPoints⟩
    · exact .inr ⟨parked'.driving, parked'.permit, parked'.schedule, fun i mem => parked'.quiet i (same.runPoints ▸ mem)⟩
  · have quiet : ∀ i ∈ s.runPoints g, (u.point i).channel.quiet = true := fun i mem => k.calm i (parked.quiet i mem)
    rcases k.groups g with same' | parked'
    · exact .inr ⟨same'.driving.trans parked.driving, same'.permit.trans parked.permit,
        same'.schedule.trans parked.schedule, quiet⟩
    · exact .inr ⟨parked'.driving, parked'.permit, parked'.schedule, quiet⟩

/-- A group that does not drive goes on not driving. -/
theorem Cuts.idle {s t : State} (h : Cuts s t) {g : GroupIdx} (idle : (s.group g).headIs MoveState.driving = false) :
    (t.group g).headIs MoveState.driving = false := by
  rcases h.groups g with same | parked
  · exact same.driving.trans idle
  · exact parked.driving

theorem Cuts.parks {s t : State} (h : Cuts s t) {g : GroupIdx} (idle : (t.group g).headIs MoveState.driving = false) :
    s.parks t g := by
  refine ⟨idle, fun driving => ?_⟩
  rcases h.groups g with same | parked
  · exact absurd (same.driving.symm.trans idle) (by rw [driving]; decide)
  · exact ⟨parked.permit, parked.schedule, parked.quiet⟩

/-! ## Trips and releases -/

/-- A trip of a group with a move leaves neither permit nor schedule (R89, R144). -/
theorem State.trip_parked {s : State} {g : GroupIdx} (c : TripCause) (p : Option PointIdx)
    (untripped : (s.group g).trip = none) (moves : (s.group g).queue ≠ []) : s.Parked (s.trip g c p) g := by
  have heads := s.hardReleaseAll_sameHeads (s.runPoints g)
  obtain ⟨m, rest, queue⟩ : ∃ m rest, (((s.tripRecorded g c p).reportTrip g c p).group g).queue = m :: rest := by
    have recorded : (((s.tripRecorded g c p).reportTrip g c p).group g).queue =
        ((s.hardReleaseAll (s.runPoints g)).group g).queue := by
      rw [State.reportTrip, State.group_produce, State.tripRecorded, State.group_modGroup_self]
    have present := heads.headIs g fun _ => true
    rw [recorded]
    cases queue : ((s.hardReleaseAll (s.runPoints g)).group g).queue with
    | cons m rest => exact ⟨m, rest, rfl⟩
    | nil =>
      rw [Group.headIs, queue] at present
      obtain ⟨m, rest, cons⟩ := List.exists_cons_of_ne_nil moves
      rw [Group.headIs_of_queue cons] at present
      exact absurd present (by decide)
  have emptied : (s.trip g c p).group g = (((s.tripRecorded g c p).reportTrip g c p).group g).emptied := by
    rw [State.trip_of_untripped untripped, State.endAll_of_queue queue, State.group_modGroup_self, State.group_reportEnds]
  refine ⟨?_, ?_, ?_, fun i => State.trip_quiet untripped⟩ <;> rw [emptied] <;> rfl

theorem State.group_trip_ne (s : State) {g k : GroupIdx} (ne : k ≠ g) (c : TripCause) (p : Option PointIdx) :
    (s.trip g c p).group k = s.group k ∨ (s.trip g c p).group k = (s.hardReleaseAll (s.runPoints g)).group k := by
  cases trip : (s.group g).trip with
  | some x => exact .inl (by rw [State.trip_of_tripped (by rw [trip]; exact Option.some_ne_none x)])
  | none =>
    refine .inr ?_
    rw [State.trip_of_untripped trip, State.endAll_group_ne _ ne, State.reportTrip, State.group_produce,
      State.tripRecorded, State.group_modGroup_ne _ (Ne.symm ne)]

theorem State.trip_cuts {s : State} {g : GroupIdx} (c : TripCause) (p : Option PointIdx)
    (moves : (s.group g).queue ≠ []) : Cuts s (s.trip g c p) := by
  refine ⟨s.trip_calm g c p, fun k => ?_⟩
  by_cases same : k = g
  · subst same
    cases trip : (s.group k).trip with
    | some x =>
      rw [State.trip_of_tripped (by rw [trip]; exact Option.some_ne_none x)]
      exact .inl (.of_group rfl)
    | none => exact .inr (State.trip_parked c p trip moves)
  · have heads := (s.hardReleaseAll_sameHeads (s.runPoints g)).sameDriveOf k
    rcases s.group_trip_ne same c p with here | here
    · exact .inl (.of_group here)
    · refine .inl ⟨?_, ?_, ?_, ?_⟩
      · rw [here]; exact heads.driving
      · rw [here]; exact heads.permit
      · rw [here]; exact heads.schedule
      · rw [State.runPoints, here]; exact heads.runPoints

theorem State.tripMember_cuts (s : State) (i : PointIdx) : Cuts s (s.tripMember i) := by
  cases active : s.inActiveMove i with
  | false => rw [State.tripMember_of_inactive active]; exact .refl s
  | true =>
    obtain ⟨m, rest, queue, -⟩ := Group.queue_of_active ((s.inActiveMove_iff i).mp active).2
    rw [State.tripMember_of_active active]
    exact State.trip_cuts _ _ (by rw [queue]; exact List.cons_ne_nil m rest)

theorem State.release_cuts (s : State) (i : PointIdx) : Cuts s (s.release i) := by
  have released := Cuts.of_sameHeads (s.hardRelease_calm i) (s.hardRelease_sameHeads i)
  cases raises : s.coastRaises i with
  | false => rw [State.release_of_untroubled raises]; exact released
  | true => rw [State.release_of_raising raises]; exact released.trans (State.tripMember_cuts _ i)

theorem State.releaseAll_cuts (s : State) (l : List PointIdx) : Cuts s (s.releaseAll l) := by
  induction l generalizing s with
  | nil => exact .refl s
  | cons i l ih => exact (s.release_cuts i).trans (ih _)

/-! ## The entry to STOPPING (R96, R98) -/

theorem State.holdHead_points (s : State) (g : GroupIdx) (m : Move) : (s.holdHead g m).points = s.points := rfl

/-- What the end test makes of a STOPPING head, whatever its end (R98). -/
theorem State.endTest_ended {s : State} {g : GroupIdx} {m : Move} {rest : List Move}
    (queue : (s.group g).queue = m :: rest) (stopping : m.state = .stopping) (waiting : ∀ x ∈ rest, x.state = .queued)
    (permit : (s.group g).permit = none) (schedule : (s.group g).schedule = []) :
    (s.endTest g).points = s.points ∧ ((s.endTest g).group g).headIs MoveState.driving = false ∧
      ((s.endTest g).group g).permit = none ∧ ((s.endTest g).group g).schedule = [] := by
  have ended : ∀ o n l, (s.endHead g o n l).points = s.points ∧
      ((s.endHead g o n l).group g).headIs MoveState.driving = false ∧
      ((s.endHead g o n l).group g).permit = none ∧ ((s.endHead g o n l).group g).schedule = [] := fun o n l => by
    have head : s.endHead g o n l = (s.produce (some g) (m.endedBody o n l)).modGroup g Group.dropHead := by
      rw [State.endHead, Group.head_of_queue queue]
    rw [head, State.group_modGroup_self, State.group_produce]
    refine ⟨rfl, ?_, rfl, rfl⟩
    cases rest with
    | nil => rw [Group.headIs, Group.dropHead, queue]; rfl
    | cons x rest =>
      rw [Group.headIs, Group.dropHead, queue]
      dsimp only [List.tail_cons]
      rw [waiting x List.mem_cons_self]
      rfl
  cases all : m.allSettled with
  | false =>
    rw [State.endTest_unsettled queue all]
    exact ⟨rfl, by rw [Group.headIs_of_queue queue, stopping]; rfl, permit, schedule⟩
  | true =>
    rw [State.endTest_settled queue stopping all]
    split
    · exact ended _ _ _
    · exact ended _ _ _
    · split
      · exact ended _ _ _
      split
      · exact ended _ _ _
      · have held : (s.holdHead g m).group g =
            { s.group g with queue := { m with state := .held } :: rest } := by
          rw [State.holdHead, State.group_produce, State.group_modGroup_self, Group.modHead, queue]
        refine ⟨rfl, ?_, ?_, ?_⟩ <;> rw [held]
        · rfl
        · exact permit
        · exact schedule

theorem State.enterStopping_of_driving {s : State} {g : GroupIdx} (a : Option StopReason) (b : Option EndMark)
    (driving : (s.group g).headIs MoveState.driving = true) :
    s.enterStopping g a b =
      if ((s.releaseAll (s.runPoints g)).group g).headIs MoveState.driving then
        ((s.releaseAll (s.runPoints g)).modGroup g fun r => r.toStopping a b).endTest g
      else s.releaseAll (s.runPoints g) := if_pos driving

theorem Group.toStopping_of_queue {r : Group} {m : Move} {rest : List Move} (queue : r.queue = m :: rest)
    (a : Option StopReason) (b : Option EndMark) :
    r.toStopping a b =
      { r with
        queue := { m with state := .stopping, endMark := b } :: rest, schedule := [], permit := none
        stopReason := a } := by
  rw [Group.toStopping, Group.modHead, queue]

/-- R96, R98: an entry to STOPPING ends the drive of its group, by the stop or by a trip on the way. -/
theorem State.enterStopping_cuts {s : State} (lawful : s.queuesLawful) (g : GroupIdx) (a : Option StopReason)
    (b : Option EndMark) :
    Cuts s (s.enterStopping g a b) ∧ ((s.enterStopping g a b).group g).headIs MoveState.driving = false := by
  cases driving : (s.group g).headIs MoveState.driving with
  | false => rw [State.enterStopping_idle a b driving]; exact ⟨.refl s, driving⟩
  | true =>
    have released := s.releaseAll_cuts (s.runPoints g)
    have quiet := fun i => s.releaseAll_quiet (s.runPoints g) i
    have lawful' := (s.releaseAll_moved (s.runPoints g)).queuesLawful lawful
    rw [State.enterStopping_of_driving a b driving]
    generalize s.releaseAll (s.runPoints g) = u at released quiet lawful' ⊢
    split
    case isFalse tripped => exact ⟨released, Bool.eq_false_iff.mpr tripped⟩
    case isTrue still =>
      obtain ⟨m, rest, queue, -⟩ := Group.queue_of_driving _ still
      obtain ⟨-, waiting, -⟩ := lawful' g
      rw [queue] at waiting
      have stopping : ((u.modGroup g fun r => r.toStopping a b).group g) =
          { u.group g with
            queue := { m with state := .stopping, endMark := b } :: rest, schedule := [], permit := none
            stopReason := a } := by
        rw [State.group_modGroup_self, Group.toStopping_of_queue queue]
      obtain ⟨points, idle, permit, schedule⟩ := State.endTest_ended (s := u.modGroup g fun r => r.toStopping a b)
        (m := { m with state := .stopping, endMark := b }) (rest := rest)
        (by rw [stopping]) rfl waiting (by rw [stopping]) (by rw [stopping])
      refine ⟨⟨released.calm.trans (.of_points points), fun k => ?_⟩, idle⟩
      by_cases same : k = g
      · subst same
        refine .inr ⟨idle, permit, schedule, fun i mem => ?_⟩
        rw [State.point, points]
        exact quiet i mem
      · have elsewhere : ((u.modGroup g fun r => r.toStopping a b).endTest g).group k = u.group k := by
          rw [State.endTest_group_ne same, State.group_modGroup_ne _ (Ne.symm same)]
        rcases released.groups k with kept | parked
        · refine .inl ⟨?_, ?_, ?_, ?_⟩
          · rw [elsewhere]; exact kept.driving
          · rw [elsewhere]; exact kept.permit
          · rw [elsewhere]; exact kept.schedule
          · rw [State.runPoints, elsewhere]; exact kept.runPoints
        · refine .inr ⟨?_, ?_, ?_, fun i mem => ?_⟩
          · rw [elsewhere]; exact parked.driving
          · rw [elsewhere]; exact parked.permit
          · rw [elsewhere]; exact parked.schedule
          · rw [State.point, points]; exact parked.quiet i mem

/-- Entries to STOPPING of several groups in turn. -/
theorem State.foldl_enterStopping_cuts {s : State} (lawful : s.queuesLawful) (a : Option StopReason) (l : List GroupIdx) :
    Cuts s (l.foldl (fun t g => t.enterStopping g a none) s) ∧
      ∀ g ∈ l, ((l.foldl (fun t g => t.enterStopping g a none) s).group g).headIs MoveState.driving = false := by
  induction l generalizing s with
  | nil => exact ⟨.refl s, fun g mem => absurd mem List.not_mem_nil⟩
  | cons h l ih =>
    obtain ⟨first, idle⟩ := State.enterStopping_cuts lawful h a none
    obtain ⟨later, stopped⟩ := ih ((s.enterStopping_moved h a none).queuesLawful lawful)
    refine ⟨first.trans later, fun g mem => ?_⟩
    rcases List.mem_cons.mp mem with rfl | mem
    · exact later.idle idle
    · exact stopped g mem

/-- A change of a group's record other than its drive. -/
theorem Cuts.modGroup (s : State) (g : GroupIdx) {f : Group → Group} (queue : (f (s.group g)).queue = (s.group g).queue)
    (permit : (f (s.group g)).permit = (s.group g).permit) (schedule : (f (s.group g)).schedule = (s.group g).schedule) :
    Cuts s (s.modGroup g f) := by
  refine ⟨.of_points rfl, fun k => .inl ?_⟩
  by_cases same : k = g
  · subst same
    refine ⟨?_, ?_, ?_, ?_⟩
    · rw [State.group_modGroup_self, Group.headIs, queue]; rfl
    · rw [State.group_modGroup_self, permit]
    · rw [State.group_modGroup_self, schedule]
    · rw [State.runPoints, State.group_modGroup_self, Group.runList, queue]; rfl
  · exact .of_group (State.group_modGroup_ne s (Ne.symm same) f)

/-- A change of nothing but ports, rights and the like. -/
theorem Cuts.of_records {s t : State} (points : t.points = s.points) (groups : t.groups = s.groups) : Cuts s t :=
  .of_sameHeads (.of_points points) (.of_groups groups)

end Sys2Proof.Machine
end

section
/-! SET_RIGHTS (R100, R127, R128, R137). -/

namespace Sys2Proof.Machine

theorem State.queuesLawful_congr {s t : State} (queue : ∀ g, (t.group g).queue = (s.group g).queue)
    (trip : ∀ g, (t.group g).trip = (s.group g).trip) (lawful : s.queuesLawful) : t.queuesLawful := fun g => by
  rw [Group.queueLawful, queue, trip]; exact lawful g

/-! ## The removal of a holder -/

theorem State.dropHolder_cuts (s : State) (g : GroupIdx) (c : AuthorityCause) : Cuts s (s.dropHolder g c) :=
  (Cuts.modGroup s g (f := fun r => { r with holder := none }) rfl rfl rfl).trans (.of_records rfl rfl)

theorem State.queuesLawful_dropHolder {s : State} (lawful : s.queuesLawful) (g : GroupIdx) (c : AuthorityCause) :
    (s.dropHolder g c).queuesLawful := by
  have record : ∀ h, ((s.dropHolder g c).group h).queue = (s.group h).queue ∧
      ((s.dropHolder g c).group h).trip = (s.group h).trip := fun h => by
    rw [State.group_dropHolder]
    split
    next same => subst same; exact ⟨rfl, rfl⟩
    next => exact ⟨rfl, rfl⟩
  exact State.queuesLawful_congr (fun h => (record h).1) (fun h => (record h).2) lawful

theorem State.removeHolder_cuts {s : State} (lawful : s.queuesLawful) (g : GroupIdx) (c : AuthorityCause) :
    Cuts s (s.removeHolder g c) ∧ ((s.removeHolder g c).group g).headIs MoveState.driving = false := by
  obtain ⟨cuts, idle⟩ := State.enterStopping_cuts (State.queuesLawful_dropHolder lawful g c) g (some .authority) none
  exact ⟨(s.dropHolder_cuts g c).trans cuts, idle⟩

theorem State.holder_removeHolder (s : State) (g : GroupIdx) (c : AuthorityCause) :
    ((s.removeHolder g c).group g).holder = none := by
  rw [((s.removeHolder_moved g c).groups g).holder, State.group_modGroup_self]

/-! ## SET_RIGHTS -/

theorem Level.below_operate_iff (v : Level) : levelNumber v < levelNumber .operate ↔ v = .none ∨ v = .view := by
  cases v <;> decide

theorem Level.below_operate_eq_false {v : Level} (high : v = .operate ∨ v = .setup) :
    decide (levelNumber v < levelNumber .operate) = false := by
  rcases high with rfl | rfl <;> rfl

section
variable {s : State} {p q : Port} {g : GroupIdx} {f : GoodFrame}

theorem setRightsOwner_of_local : setRightsOwner .l s g f = (s, .noRight) := if_pos rfl

theorem setRightsOwner_of_badPort (desk : p ≠ .l) (named : headerPort f.header = none) :
    setRightsOwner p s g f = (s, .badValue) := by
  rw [setRightsOwner, if_neg desk, named]

theorem setRightsOwner_of_named (desk : p ≠ .l) (named : headerPort f.header = some q) :
    setRightsOwner p s g f =
      ((s.setLevel q g (headerLevel f.header)).rightsWritten g q (headerLevel f.header), .ok) := by
  rw [setRightsOwner, if_neg desk, named]

theorem State.rightsWritten_of_kept {v : Level} (kept : (s.group g).holder ≠ some q ∨ v = .operate ∨ v = .setup) :
    s.rightsWritten g q v = s := by
  refine if_neg ?_
  rcases kept with other | high
  · rw [decide_eq_false other]; exact Bool.false_ne_true
  · rw [Level.below_operate_eq_false high, Bool.and_false]; exact Bool.false_ne_true

theorem State.rightsWritten_of_removed {v : Level} (holds : (s.group g).holder = some q) (low : v = .none ∨ v = .view) :
    s.rightsWritten g q v = s.removeHolder g .rights := by
  refine if_pos ?_
  rw [decide_eq_true holds, decide_eq_true ((Level.below_operate_iff v).mpr low)]
  rfl

end

@[simp] theorem State.port_setResult_self (s : State) (p : Port) (r : Result) :
    (s.setResult p r).port p = { s.port p with lastResult := r } := State.port_modPort_self s p _

/-- A member that a stop releases outside a rehearsal rests as a hard release leaves it. -/
theorem State.hardRelease_point_live {s : State} {i : PointIdx} (live : s.rehearsing i = false) :
    (s.hardRelease i).point i = (s.point i).rest s.time := by
  rw [State.hardRelease_live live, State.point_modPoint_self]

/-- Settles O23: the removal by `State.removeHolder_cuts`, and by `State.removeHolder_live` where the stop does not end in
the event. -/
theorem setRightsWritesTheEntry : Obligations.SetRightsWritesTheEntry := by
  rintro s p tail f g v hd hi rfl
  rw [exec_setRights hd hi]
  refine ⟨?_, fun desk named => ?_, fun q desk named kept => ?_, fun q desk named holds low => ?_⟩
  · rintro rfl; rw [setRightsOwner_of_local]; rfl
  · rw [setRightsOwner_of_badPort desk named]; rfl
  · rw [setRightsOwner_of_named desk named, State.rightsWritten_of_kept]
    · rfl
    · rw [State.group_setLevel, State.group_afterFrame]; exact kept
  rw [setRightsOwner_of_named desk named, State.rightsWritten_of_removed (by
    rw [State.group_setLevel, State.group_afterFrame]; exact holds) low, State.concluded]
  generalize headerLevel f.header = v
  have group : ∀ h, ((s.afterFrame p).setLevel q g v).group h = s.group h := fun h => by
    rw [State.group_setLevel, State.group_afterFrame]
  refine ⟨fun idle => ?_, fun lawful => ?_, fun lawful driving settles u hu => ?_⟩
  · rw [State.removeHolder_of_not_driving .rights (by rw [group]; exact idle), group, holds]
  · have start : Cuts s ((s.afterFrame p).setLevel q g v) :=
      .of_records (by rw [State.points_setLevel, State.points_afterFrame])
        (by rw [State.groups_setLevel, State.groups_afterFrame])
    obtain ⟨cuts, stopped⟩ := State.removeHolder_cuts (s := (s.afterFrame p).setLevel q g v)
      (State.queuesLawful_congr (fun h => by rw [group]) (fun h => by rw [group]) lawful) g .rights
    have rights := (State.removeHolder_moved ((s.afterFrame p).setLevel q g v) g .rights).rights
    have levels : ∀ k h, ((((s.afterFrame p).setLevel q g v).removeHolder g .rights).setResult p .ok).level k h =
        ((s.afterFrame p).setLevel q g v).level k h := fun k h => by
      rw [State.level_setResult, State.level, rights]; rfl
    refine ⟨_, rfl, ?_, State.holder_removeHolder _ g .rights, (start.trans (cuts.trans (.of_records rfl rfl))).parks stopped,
      by rw [State.port_setResult_self], fun h k other => ?_⟩
    · rw [levels, State.level_setLevel_self]
    · rw [levels, ← State.level_afterFrame s p]
      by_cases same : h = g
      · subst same
        exact State.level_setLevel_ne_port _ (Ne.symm (other.resolve_left fun ne => ne rfl)) _ _ v
      · exact State.level_setLevel_ne_group _ _ _ (Ne.symm same) v
  · obtain ⟨m, rest, queue, state⟩ := Group.queue_of_driving _ driving
    have rehearsing : ∀ i, ((s.afterFrame p).setLevel q g v).rehearsing i = s.rehearsing i := fun i => by
      rw [State.rehearsing, State.groupOf_setLevel, State.groupOf_afterFrame]; rfl
    have removed := State.removeHolder_live ((s.afterFrame p).setLevel q g v) g .rights m rest (by rw [group]; exact queue)
      state (by rw [group]; exact Group.trip_of_driving (lawful g) driving)
      (State.settlesLater_congr (group g) rehearsing settles)
    have runPoints : ((s.afterFrame p).setLevel q g v).runPoints g = s.runPoints g := by rw [State.runPoints, group]; rfl
    rw [group, holds, runPoints] at removed
    have point : ∀ i, ((((s.afterFrame p).setLevel q g v).removeHolder g .rights).setResult p .ok).point i =
        if i ∈ s.runPoints g then (s.point i).rest s.time else s.point i := fun i => by
      rw [State.point_setResult, removed.point, State.point_setLevel, State.point_afterFrame, State.time_setLevel,
        State.time_afterFrame]
    refine ⟨_, rfl, fun m' rest' queue' _ _ => ?_, ?_, ?_, fun h ne => ?_, fun i out => ?_, fun i mem => ?_, ?_, ?_⟩
    · obtain ⟨rfl, rfl⟩ := List.cons.inj (queue.symm.trans queue')
      rw [State.group_setResult, removed.group]
    · rw [hu]; exact State.ports_setResult_congr removed.reports.ports p .ok
    · rw [hu]; exact removed.reports.rights
    · rw [State.group_setResult, removed.others h ne, group]
    · rw [point, if_neg out]
    · rw [point, if_pos mem, State.hardRelease_point_live (settles.2 i mem)]
    · rw [State.time_setResult, removed.reports.time]; simp
    · rw [State.estop_setResult, removed.estop]; simp

end Sys2Proof.Machine
end

section
/-! SUBMIT_MOVE (R79, R80, R84, R86 to R88). -/

namespace Sys2Proof.Machine

/-! ## The move that a payload describes (R87) -/

/-- The payload's fields name this move: its kind, its direction, its point and its value (12.3). -/
def describes (kind dir point : Nat) (v : Int) : MoveBody → Prop
  | .groupBy x => kind = 0 ∧ x = v ∧ v ≠ 0 ∧ -1000000 ≤ v ∧ v ≤ 1000000
  | .groupJog d => kind = 1 ∧ dirOfCode dir = some d
  | .pointTo i x => kind = 2 ∧ point = i.val ∧ x = v ∧ -2000000 ≤ v ∧ v ≤ 2000000
  | .pointJog i d => kind = 3 ∧ point = i.val ∧ dirOfCode dir = some d

theorem pointOfNat_eq_some_iff (n : Nat) (i : PointIdx) : pointOfNat n = some i ↔ n = i.val := by
  constructor
  · intro h
    rw [pointOfNat] at h
    split at h
    · rw [← Option.some.inj h]
    · exact absurd h (Option.some_ne_none i).symm
  · rintro rfl; exact pointOfNat_val i

theorem moveBodyOf_groupBy_iff (d : Option Dir) (n : Nat) (v : Int) (b : MoveBody) :
    moveBodyOf ⟨some .groupBy, d, n, v⟩ = some b ↔ b = .groupBy v ∧ v ≠ 0 ∧ -1000000 ≤ v ∧ v ≤ 1000000 := by
  have condition : (v != 0 && decide (-1000000 ≤ v) && decide (v ≤ 1000000)) = true ↔ v ≠ 0 ∧ -1000000 ≤ v ∧ v ≤ 1000000 := by
    simp only [Bool.and_eq_true, bne_iff_ne, decide_eq_true_eq, and_assoc]
  rw [moveBodyOf, ← condition]
  dsimp only
  split
  next ok => simp only [ok, and_true, Option.some.injEq, eq_comm]
  next bad => simp only [bad, and_false, reduceCtorEq]

theorem moveBodyOf_groupJog_iff (d : Option Dir) (n : Nat) (v : Int) (b : MoveBody) :
    moveBodyOf ⟨some .groupJog, d, n, v⟩ = some b ↔ ∃ x, d = some x ∧ b = .groupJog x := by
  rw [moveBodyOf]
  simp only [Option.map_eq_some_iff, eq_comm]

theorem moveBodyOf_pointTo_iff (d : Option Dir) (n : Nat) (v : Int) (b : MoveBody) :
    moveBodyOf ⟨some .pointTo, d, n, v⟩ = some b ↔
      ∃ i : PointIdx, n = i.val ∧ b = .pointTo i v ∧ -2000000 ≤ v ∧ v ≤ 2000000 := by
  rw [moveBodyOf]
  simp only [← pointOfNat_eq_some_iff, ← inPositionRange_iff]
  cases pointOfNat n with
  | none => simp
  | some i => cases inPositionRange v <;> simp [eq_comm]

theorem moveBodyOf_pointJog_iff (d : Option Dir) (n : Nat) (v : Int) (b : MoveBody) :
    moveBodyOf ⟨some .pointJog, d, n, v⟩ = some b ↔ ∃ (i : PointIdx) (x : Dir), n = i.val ∧ d = some x ∧ b = .pointJog i x := by
  rw [moveBodyOf]
  simp only [← pointOfNat_eq_some_iff]
  cases pointOfNat n with
  | none => simp
  | some i => cases d <;> simp [eq_comm]

theorem moveBodyOf_iff (payload : List Word) (b : MoveBody) :
    moveBodyOf (decodeMoveParams payload) = some b ↔
      describes (bitsOf (payload.getD 0 0) 31 29) (bitsOf (payload.getD 0 0) 28 27) (bitsOf (payload.getD 0 0) 20 16)
        (payload.getD 1 0).toInt b := by
  rw [decodeMoveParams]
  generalize bitsOf (payload.getD 0 0) 31 29 = kind
  match kind with
  | 0 => rw [moveKindOfCode, moveBodyOf_groupBy_iff]; cases b <;> simp [describes]
  | 1 => rw [moveKindOfCode, moveBodyOf_groupJog_iff]; cases b <;> simp [describes]
  | 2 => rw [moveKindOfCode, moveBodyOf_pointTo_iff]; cases b <;> simp [describes]
  | 3 => rw [moveKindOfCode, moveBodyOf_pointJog_iff]; cases b <;> simp [describes]
  | n + 4 =>
    have unnamed : moveBodyOf ⟨moveKindOfCode (n + 4), dirOfCode (bitsOf (payload.getD 0 0) 28 27),
        bitsOf (payload.getD 0 0) 20 16, (payload.getD 1 0).toInt⟩ = none := rfl
    rw [unnamed]
    cases b <;> simp [describes]

/-! ## The checks of the involved points (R86 checks 6 to 9) -/

section
variable {s : State} {g : GroupIdx} {b : MoveBody}

theorem State.involvedRefusal_eq_none_iff :
    s.involvedRefusal g b = none ↔
      (b.point = none → s.members g ≠ []) ∧ ∀ i, b.point = some i → (s.point i).group = g := by
  rw [State.involvedRefusal]
  cases b.point with
  | none => simp
  | some i => simp

theorem State.involvedRefusal_of_empty (whole : b.point = none) (empty : s.members g = []) :
    s.involvedRefusal g b = some .empty := by
  rw [State.involvedRefusal, whole, empty]; rfl

theorem State.involvedRefusal_of_other {i : PointIdx} (point : b.point = some i) (other : (s.point i).group ≠ g) :
    s.involvedRefusal g b = some .badIndex := by
  rw [State.involvedRefusal, point]; exact if_neg other

theorem State.lacksEncoder_eq_true_iff :
    s.lacksEncoder g b = true ↔
      b.kind ≠ .pointJog ∧ ∃ i ∈ s.involved g b, (s.point i).settings.encoderMode = .off := by
  simp only [State.lacksEncoder, Bool.and_eq_true, bne_iff_ne, List.any_eq_true, beq_iff_eq]

theorem State.lacksEncoder_eq_false (encoders : b.kind ≠ .pointJog → ∀ i ∈ s.involved g b, (s.point i).settings.encoderMode ≠ .off) :
    s.lacksEncoder g b = false := by
  rw [← Bool.not_eq_true, State.lacksEncoder_eq_true_iff]
  rintro ⟨kind, i, mem, off⟩
  exact encoders kind i mem off

theorem State.hasFault_eq_true_iff : s.hasFault g b = true ↔ ∃ i ∈ s.involved g b, (s.point i).latched ≠ none := by
  simp only [State.hasFault, List.any_eq_true, Option.isSome_iff_ne_none]

theorem State.hasFault_eq_false (sound : ∀ i ∈ s.involved g b, (s.point i).latched = none) : s.hasFault g b = false := by
  rw [← Bool.not_eq_true, State.hasFault_eq_true_iff]
  rintro ⟨i, mem, latched⟩
  exact latched (sound i mem)

theorem State.targetRefusal_eq_none
    (reach : ∀ i x, b = .pointTo i x → s.referencedOf i = true ∧ (s.point i).settings.inside x = true) :
    s.targetRefusal b = none := by
  cases b with
  | pointTo i x =>
    obtain ⟨referenced, inside⟩ := reach i x rfl
    simp only [State.targetRefusal, State.passesSoft, referenced, inside]
    rfl
  | groupBy v => rfl
  | groupJog d => rfl
  | pointJog i d => rfl

theorem State.bodyRefusal_of_involved {r : Result} (refused : s.involvedRefusal g b = some r) :
    s.bodyRefusal g b = some r := by
  rw [State.bodyRefusal, refused]

theorem State.bodyRefusal_of_noEncoder (involved : s.involvedRefusal g b = none) (lacks : s.lacksEncoder g b = true) :
    s.bodyRefusal g b = some .noEncoder := by
  rw [State.bodyRefusal, involved]; exact if_pos lacks

theorem State.bodyRefusal_of_target {r : Result} (involved : s.involvedRefusal g b = none)
    (encoders : s.lacksEncoder g b = false) (target : s.targetRefusal b = some r) : s.bodyRefusal g b = some r := by
  simp only [State.bodyRefusal, involved, encoders, target, Bool.false_eq_true, if_false]

theorem State.bodyRefusal_of_faulted (involved : s.involvedRefusal g b = none)
    (encoders : s.lacksEncoder g b = false) (target : s.targetRefusal b = none) (fault : s.hasFault g b = true) :
    s.bodyRefusal g b = some .faulted := by
  simp only [State.bodyRefusal, involved, encoders, target, fault, Bool.false_eq_true, if_false, if_true]

theorem State.bodyRefusal_eq_none (involved : s.involvedRefusal g b = none)
    (encoders : s.lacksEncoder g b = false) (target : s.targetRefusal b = none) (sound : s.hasFault g b = false) :
    s.bodyRefusal g b = none := by
  simp only [State.bodyRefusal, involved, encoders, target, sound, Bool.false_eq_true, if_false]

end

/-! ## What SUBMIT_MOVE decides -/

section
variable {s : State} {p : Port} {g : GroupIdx} {f : GoodFrame}

theorem submitMoveOwner_of_notHolder (h : (s.group g).holder ≠ some p) : submitMoveOwner p s g f = (s, .notHolder) :=
  if_pos (bne_iff_ne.mpr h)

theorem submitMoveOwner_of_estop (h : (s.group g).holder = some p) (e : s.estop = true) :
    submitMoveOwner p s g f = (s, .estop) := by
  simp [submitMoveOwner, h, e]

theorem submitMoveOwner_of_tripped (h : (s.group g).holder = some p) (e : s.estop = false) (t : (s.group g).trip ≠ none) :
    submitMoveOwner p s g f = (s, .tripped) := by
  simp [submitMoveOwner, h, e, Group.state_eq_tripped, t]

section
variable (h : (s.group g).holder = some p) (e : s.estop = false) (t : (s.group g).trip = none)
include h e t

theorem submitMoveOwner_of_full (full : 4 ≤ (s.group g).queue.length) : submitMoveOwner p s g f = (s, .queueFull) := by
  simp [submitMoveOwner, h, e, Group.state_eq_tripped, t, moveCapacity, full]

variable (room : (s.group g).queue.length < 4)
include room

theorem submitMoveOwner_of_badValue (body : moveBodyOf (decodeMoveParams f.payload) = none) :
    submitMoveOwner p s g f = (s, .badValue) := by
  simp [submitMoveOwner, h, e, Group.state_eq_tripped, t, moveCapacity, Nat.not_le.mpr room, body]

variable {b : MoveBody} (body : moveBodyOf (decodeMoveParams f.payload) = some b)
include body

theorem submitMoveOwner_of_refused {r : Result} (refused : s.bodyRefusal g b = some r) :
    submitMoveOwner p s g f = (s, r) := by
  simp [submitMoveOwner, h, e, Group.state_eq_tripped, t, moveCapacity, Nat.not_le.mpr room, body, refused]

theorem submitMoveOwner_of_admitted (accepted : s.bodyRefusal g b = none) :
    submitMoveOwner p s g f =
      (s.modGroup g fun r => { r with queue := r.queue ++ [newMove p (headerTag f.header) b] }, .ok) := by
  simp [submitMoveOwner, h, e, Group.state_eq_tripped, t, moveCapacity, Nat.not_le.mpr room, body, accepted]

end
end

/-- A payload that names no move (R87). -/
theorem moveBodyOf_of_unnamed {payload : List Word} {w1 : Word} {v : Int} (h1 : w1 = payload.getD 0 0)
    (hv : v = (payload.getD 1 0).toInt)
    (unnamed : 4 ≤ bitsOf w1 31 29 ∨ (bitsOf w1 31 29 = 0 ∧ (v = 0 ∨ v < -1000000 ∨ 1000000 < v)) ∨
      ((bitsOf w1 31 29 = 1 ∨ bitsOf w1 31 29 = 3) ∧ dirOfCode (bitsOf w1 28 27) = none) ∨
      ((bitsOf w1 31 29 = 2 ∨ bitsOf w1 31 29 = 3) ∧ 24 ≤ bitsOf w1 20 16) ∨
      (bitsOf w1 31 29 = 2 ∧ (v < -2000000 ∨ 2000000 < v))) : moveBodyOf (decodeMoveParams payload) = none := by
  refine Option.eq_none_iff_forall_ne_some.mpr fun b named => ?_
  rw [moveBodyOf_iff, ← h1, ← hv] at named
  cases b with
  | groupBy x =>
    obtain ⟨kind, -, nonzero, lower, upper⟩ := named
    omega
  | groupJog d =>
    obtain ⟨kind, dir⟩ := named
    rcases unnamed with h | ⟨h, -⟩ | ⟨-, h⟩ | ⟨h, -⟩ | ⟨h, -⟩
    case inr.inr.inl => exact absurd (dir.symm.trans h) (Option.some_ne_none d)
    all_goals omega
  | pointTo i x =>
    obtain ⟨kind, point, -, lower, upper⟩ := named
    rcases unnamed with h | ⟨h, -⟩ | ⟨h, -⟩ | ⟨-, h⟩ | ⟨-, h⟩
    all_goals omega
  | pointJog i d =>
    obtain ⟨kind, point, dir⟩ := named
    rcases unnamed with h | ⟨h, -⟩ | ⟨-, h⟩ | ⟨-, h⟩ | ⟨h, -⟩
    case inr.inr.inl => exact absurd (dir.symm.trans h) (Option.some_ne_none d)
    all_goals omega

/-- Settles O27: the payload by `moveBodyOf_iff`, the checks in their order. -/
theorem submitMoveIsRefused : Obligations.SubmitMoveIsRefused := by
  refine ⟨by decide, ?_, ?_⟩
  · rintro payload w1 v b rfl rfl
    rw [moveBodyOf_iff]
    cases b <;> exact Iff.rfl
  rintro s p tail f g w1 v hd hi h1 hv
  have decides : ∀ r, submitMoveOwner p (s.afterFrame p) g f = (s.afterFrame p, r) →
      exec (.submitMove p tail) s = .next (s.answered p r) := fun r refused => by
    rw [exec_submitMove hd hi, refused]; rfl
  have group : (s.afterFrame p).group g = s.group g := State.group_afterFrame s p g
  refine ⟨fun other => decides _ (submitMoveOwner_of_notHolder (by rwa [group])), fun holder => ?_⟩
  rw [← group] at holder ⊢
  rw [← State.estop_afterFrame s p]
  refine ⟨fun asserted => decides _ (submitMoveOwner_of_estop holder asserted),
    fun released tripped => decides _ (submitMoveOwner_of_tripped holder released tripped),
    fun released untripped full => decides _ (submitMoveOwner_of_full holder released untripped full),
    fun released untripped room => ⟨fun unnamed => ?_, fun b body => ?_⟩⟩
  · exact decides _ (submitMoveOwner_of_badValue holder released untripped room (moveBodyOf_of_unnamed h1 hv unnamed))
  have refuses : ∀ r, s.bodyRefusal g b = some r → exec (.submitMove p tail) s = .next (s.answered p r) :=
    fun r refused => decides r (submitMoveOwner_of_refused holder released untripped room body
      (by rwa [State.bodyRefusal_afterFrame]))
  refine ⟨fun whole empty => ?_, fun i point other => ?_, fun present member => ?_⟩
  · exact refuses _ (State.bodyRefusal_of_involved (State.involvedRefusal_of_empty whole empty))
  · exact refuses _ (State.bodyRefusal_of_involved (State.involvedRefusal_of_other point other))
  have involved : s.involvedRefusal g b = none := State.involvedRefusal_eq_none_iff.mpr ⟨present, member⟩
  refine ⟨fun needs i mem off => ?_, fun encoders => ?_⟩
  · exact refuses _ (State.bodyRefusal_of_noEncoder involved (State.lacksEncoder_eq_true_iff.mpr ⟨needs, i, mem, off⟩))
  have equipped := State.lacksEncoder_eq_false encoders
  refine ⟨fun i x target unreferenced => ?_, fun i x target referenced outside => ?_, fun reach i mem latched => ?_⟩
  · refine refuses _ (State.bodyRefusal_of_target involved equipped ?_)
    rw [target]; simp only [State.targetRefusal, unreferenced]; rfl
  · refine refuses _ (State.bodyRefusal_of_target involved equipped ?_)
    rw [target]; simp only [State.targetRefusal, State.passesSoft, referenced, outside]; rfl
  · exact refuses _ (State.bodyRefusal_of_faulted involved equipped (State.targetRefusal_eq_none reach)
      (State.hasFault_eq_true_iff.mpr ⟨i, mem, latched⟩))

/-! ## The records that the checks read -/

theorem State.positionOf_of_shadow {s : State} {i : PointIdx} {sh : Shadow} (rehearsing : s.rehearsing i = true)
    (shadow : (s.point i).shadow = some sh) : s.positionOf i = sh.position ∧ s.referencedOf i = sh.referenced := by
  rw [State.positionOf, State.referencedOf, State.shadowOf_rehearsing rehearsing, shadow]
  exact ⟨rfl, rfl⟩

theorem State.positionOf_of_noShadow {s : State} {i : PointIdx} (real : s.rehearsing i = false ∨ (s.point i).shadow = none) :
    s.positionOf i = (s.point i).capture.position ∧ s.referencedOf i = (s.point i).capture.referenced := by
  have none : s.shadowOf i = none := by
    rcases real with live | none
    · exact State.shadowOf_live live
    · rw [State.shadowOf, none]; exact ite_self _
  rw [State.positionOf, State.referencedOf, none]
  exact ⟨rfl, rfl⟩

theorem State.members_sorted (s : State) (g : GroupIdx) : (s.members g).Pairwise (· < ·) :=
  List.Pairwise.filter _ (by decide)

theorem Group.headIs_active_iff (r : Group) :
    r.headIs MoveState.active = true ↔
      (r.headIs (· == .starting) = true ∨ r.headIs (· == .running) = true ∨ r.headIs (· == .stopping) = true) := by
  cases queue : r.queue with
  | nil => simp only [Group.headIs, queue, Bool.false_eq_true, or_self]
  | cons m rest =>
    simp only [Group.headIs_of_queue queue]
    cases m.state <;> decide

theorem Group.records_of_empty {r : Group} (queue : r.queue = []) :
    r.direction = .up ∧ r.runList = [] ∧ (∀ test, r.headIs test = false) ∧ (r.trip = none → r.state = .idle) := by
  refine ⟨?_, ?_, fun test => ?_, fun untripped => ?_⟩
  · rw [Group.direction, Group.head, queue]; rfl
  · rw [Group.runList, queue]
  · rw [Group.headIs, queue]
  · rw [Group.state, untripped, queue]; rfl

theorem Group.inRunList_iff_exists (r : Group) (i : PointIdx) : r.inRunList i = true ↔ ∃ e ∈ r.runList, e.point = i := by
  simp only [Group.inRunList, List.any_eq_true, beq_iff_eq]

theorem Settings.inside_iff (c : Settings) (v : Int) : c.inside v = true ↔ c.softLower ≤ v ∧ v ≤ c.softUpper := by
  rw [Settings.inside, Bool.and_eq_true, decide_eq_true_eq, decide_eq_true_eq]

theorem Group.state_of_queue {r : Group} {m : Move} {rest : List Move} (queue : r.queue = m :: rest)
    (untripped : r.trip = none) : r.state = m.state.ofHead := by
  rw [Group.state, untripped, queue]; rfl

/-- Settles O26: the records by their lemmas, the admission by `submitMoveOwner_of_admitted`. -/
theorem submitMoveIsAdmitted : Obligations.SubmitMoveIsAdmitted := by
  refine ⟨fun s i => ⟨rfl, rfl, fun sh => State.positionOf_of_shadow, State.positionOf_of_noShadow, ?_⟩,
    fun s g => ⟨s.mem_members g, s.members_sorted g, fun _ => rfl, fun _ => rfl, fun _ _ => rfl, fun _ _ => rfl, rfl⟩,
    Settings.inside_iff, fun r => ⟨r.inRunList_iff_exists, (Group.state_eq_tripped r).mpr, Group.records_of_empty, ?_⟩, ?_⟩
  · rw [State.inActiveMove, Bool.and_eq_true, Group.headIs_active_iff]
  · intro m rest queue
    refine ⟨Group.runList_of_queue queue, Group.headIs_of_queue queue, ?_, fun untripped => ?_⟩
    · rw [Group.direction_of_queue queue, Move.direction]
      cases m.body with
      | groupBy v => dsimp only; split <;> rfl
      | groupJog d => rfl
      | pointTo i v => rfl
      | pointJog i d => rfl
    · rw [Group.state_of_queue queue untripped]
      cases m.state <;> rfl
  rintro s p tail f g w1 v admitted hd hi holder released untripped room h1 hv hadmitted
  have admits : ∀ b, describes (bitsOf w1 31 29) (bitsOf w1 28 27) (bitsOf w1 20 16) v b →
      (b.point = none → s.members g ≠ []) → (∀ i, b.point = some i → (s.point i).group = g) →
      (b.kind ≠ .pointJog → ∀ i ∈ s.involved g b, (s.point i).settings.encoderMode ≠ .off) →
      (∀ i x, b = .pointTo i x → s.referencedOf i = true ∧ (s.point i).settings.inside x = true) →
      (∀ i ∈ s.involved g b, (s.point i).latched = none) →
      exec (.submitMove p tail) s = .next (admitted b) := by
    intro b named present member encoders reach sound
    have accepted : (s.afterFrame p).bodyRefusal g b = none := by
      rw [State.bodyRefusal_afterFrame]
      exact State.bodyRefusal_eq_none (State.involvedRefusal_eq_none_iff.mpr ⟨present, member⟩)
        (State.lacksEncoder_eq_false encoders) (State.targetRefusal_eq_none reach) (State.hasFault_eq_false sound)
    rw [h1, hv, ← moveBodyOf_iff] at named
    have group : (s.afterFrame p).group g = s.group g := State.group_afterFrame s p g
    rw [exec_submitMove hd hi, submitMoveOwner_of_admitted (by rwa [group]) (by rwa [State.estop_afterFrame])
      (by rwa [group]) (by rwa [group]) named accepted, hadmitted]
    rfl
  refine ⟨fun kind nonzero lower upper present sound => ?_, fun d kind dir present sound => ?_,
    fun i kind point lower upper member encoder sound referenced above below => ?_, fun i d kind point dir member sound => ?_⟩
  · refine admits _ ⟨kind, rfl, nonzero, lower, upper⟩ (fun _ => present) (fun i => nofun)
      (fun _ i mem => (sound i mem).1) (fun i x => nofun) (fun i mem => (sound i mem).2)
  · refine admits _ ⟨kind, dir⟩ (fun _ => present) (fun i => nofun)
      (fun _ i mem => (sound i mem).1) (fun i x => nofun) (fun i mem => (sound i mem).2)
  · refine admits _ ⟨kind, point, rfl, lower, upper⟩ nofun ?_ ?_ ?_ ?_
    · rintro j ⟨⟩; exact member
    · rintro - j mem; rw [List.mem_singleton.mp mem]; exact encoder
    · rintro j x ⟨⟩; exact ⟨referenced, (Settings.inside_iff _ _).mpr ⟨above, below⟩⟩
    · intro j mem; rw [List.mem_singleton.mp mem]; exact sound
  · refine admits _ ⟨kind, point, dir⟩ nofun ?_ (fun other => absurd rfl other) (fun j x => nofun) ?_
    · rintro j ⟨⟩; exact member
    · intro j mem; rw [List.mem_singleton.mp mem]; exact sound

end Sys2Proof.Machine
end

section
/-! GO: its refusals and the ends at a first start (R89 to R91). -/

namespace Sys2Proof.Machine

/-! ## What GO decides (R90) -/

section
variable {s : State} {p : Port} {g : GroupIdx} {f : GoodFrame}

theorem goOwner_of_notHolder (h : (s.group g).holder ≠ some p) : goOwner p s g f = (s, .notHolder) :=
  if_pos (bne_iff_ne.mpr h)

theorem goOwner_of_estop (h : (s.group g).holder = some p) (e : s.estop = true) : goOwner p s g f = (s, .estop) := by
  simp [goOwner, h, e]

theorem goOwner_of_tripped (h : (s.group g).holder = some p) (e : s.estop = false) (t : (s.group g).trip ≠ none) :
    goOwner p s g f = (s, .tripped) := by
  simp [goOwner, h, e, Group.state_eq_tripped, t]

section
variable (h : (s.group g).holder = some p) (e : s.estop = false) (t : (s.group g).trip = none)
include h e t

theorem goOwner_of_nothing (queue : (s.group g).queue = []) : goOwner p s g f = (s, .nothing) := by
  simp [goOwner, h, e, Group.state_eq_tripped, t, Group.head, queue]

variable {m : Move} {rest : List Move} (queue : (s.group g).queue = m :: rest)
include queue

theorem goOwner_of_stopping (state : m.state = .stopping) : goOwner p s g f = (s, .settling) := by
  simp [goOwner, h, e, Group.state_eq_tripped, t, Group.head_of_queue queue, state]

theorem goOwner_of_driving (state : m.state = .starting ∨ m.state = .running) :
    goOwner p s g f = (s.modGroup g fun r => { r with permit := some (s.time + 1000 * r.window) }, .ok) := by
  rcases state with state | state
  all_goals
    simp [goOwner, h, e, Group.state_eq_tripped, t, Group.head_of_queue queue, state]
    rfl

theorem goOwner_of_queued (state : m.state = .queued) : goOwner p s g f = s.goFirst g m := by
  simp [goOwner, h, e, Group.state_eq_tripped, t, Group.head_of_queue queue, state]

theorem goOwner_of_held (state : m.state = .held) : goOwner p s g f = s.goResume g m := by
  simp [goOwner, h, e, Group.state_eq_tripped, t, Group.head_of_queue queue, state]

end
end

section
variable (s : State) (p : Port) (g : GroupIdx) (b : MoveBody)

theorem State.lacksEncoder_afterFrame : (s.afterFrame p).lacksEncoder g b = s.lacksEncoder g b := by
  simp only [State.lacksEncoder, State.involved_afterFrame, State.point_afterFrame]

theorem State.hasFault_afterFrame : (s.afterFrame p).hasFault g b = s.hasFault g b := by
  simp only [State.hasFault, State.involved_afterFrame, State.point_afterFrame]

theorem State.lacksReference_afterFrame : (s.afterFrame p).lacksReference b = s.lacksReference b := by
  cases b <;> simp only [State.lacksReference, State.referencedOf_afterFrame]

end

section
variable {s : State} {g : GroupIdx} {m : Move}

theorem State.goFirst_of_noEncoder (lacks : s.lacksEncoder g m.body = true) : s.goFirst g m = (s, .noEncoder) := if_pos lacks

theorem State.goFirst_of_unreferenced (encoders : s.lacksEncoder g m.body = false)
    (unreferenced : s.lacksReference m.body = true) : s.goFirst g m = (s, .notReferenced) := by
  rw [State.goFirst, encoders, unreferenced]; rfl

theorem State.goFirst_of_faulted (encoders : s.lacksEncoder g m.body = false)
    (referenced : s.lacksReference m.body = false) (fault : s.hasFault g m.body = true) :
    s.goFirst g m = (s, .faulted) := by
  rw [State.goFirst, encoders, referenced, fault]; rfl

theorem State.goFirst_of_ready (encoders : s.lacksEncoder g m.body = false) (referenced : s.lacksReference m.body = false)
    (sound : s.hasFault g m.body = false) : s.goFirst g m = s.firstStart g m := by
  rw [State.goFirst, encoders, referenced, sound]; rfl

theorem State.lacksReference_of_pointTo {b : MoveBody} {i : PointIdx} {x : Int} (body : b = .pointTo i x)
    (unreferenced : s.referencedOf i = false) : s.lacksReference b = true := by
  rw [body]; simp only [State.lacksReference, unreferenced]; rfl

theorem State.lacksReference_eq_false {b : MoveBody} (referenced : ∀ i x, b = .pointTo i x → s.referencedOf i = true) :
    s.lacksReference b = false := by
  cases b with
  | pointTo i x => simp only [State.lacksReference, referenced i x rfl]; rfl
  | groupBy v => rfl
  | groupJog d => rfl
  | pointJog i d => rfl

theorem Group.mem_taking_iff (r : Group) (i : PointIdx) :
    i ∈ r.taking ↔ ∃ e ∈ r.runList, e.released = false ∧ e.point = i := by
  simp only [Group.taking, List.mem_map, List.mem_filter, Bool.not_eq_true', and_assoc]

theorem State.goResume_of_faulted {i : PointIdx} (taking : i ∈ (s.group g).taking) (latched : (s.point i).latched ≠ none) :
    s.goResume g m = (s, .faulted) := by
  refine if_pos (List.any_eq_true.mpr ⟨i, taking, ?_⟩)
  exact Option.isSome_iff_ne_none.mpr latched

theorem State.goResume_of_sound (sound : ∀ i ∈ (s.group g).taking, (s.point i).latched = none) :
    s.goResume g m = (s.resume g m, .ok) := by
  refine if_neg fun latched => ?_
  obtain ⟨i, mem, some⟩ := List.any_eq_true.mp latched
  rw [sound i mem] at some
  exact absurd some (by decide)

end

theorem MoveState.ofHead_injective : Function.Injective MoveState.ofHead := by
  intro x y
  cases x <;> cases y <;> decide

/-- A group state other than IDLE and TRIPPED is its head move's (R79). -/
theorem Group.queue_of_state {r : Group} (untripped : r.trip = none) {x : MoveState} (started : x ≠ .queued)
    (state : r.state = x.ofHead) : ∃ m rest, r.queue = m :: rest ∧ m.state = x := by
  cases queue : r.queue with
  | nil =>
    rw [(Group.records_of_empty queue).2.2.2 untripped] at state
    exact absurd (MoveState.ofHead_injective (a₁ := .queued) state).symm started
  | cons m rest =>
    rw [Group.state_of_queue queue untripped] at state
    exact ⟨m, rest, rfl, MoveState.ofHead_injective state⟩

/-- Settles O28. -/
theorem goExtendsThePermitOrIsRefused : Obligations.GoExtendsThePermitOrIsRefused := by
  rintro s p tail f g r hd hi rfl
  rw [exec_go hd hi, ← State.group_afterFrame s p, ← State.estop_afterFrame s p]
  refine ⟨fun other => ?_, fun holder asserted => ?_, fun holder released tripped => ?_,
    fun holder released untripped => ⟨fun stopping => ?_, fun driving => ?_, fun empty => ?_, fun m rest queue queued => ?_,
      fun m rest queue held e mem taking latched => ?_⟩⟩
  · rw [goOwner_of_notHolder other]; rfl
  · rw [goOwner_of_estop holder asserted]; rfl
  · rw [goOwner_of_tripped holder released tripped]; rfl
  · obtain ⟨m, rest, queue, state⟩ := Group.queue_of_state untripped (x := .stopping) (by decide) stopping
    rw [goOwner_of_stopping holder released untripped queue state]; rfl
  · have head : ∃ m rest, ((s.afterFrame p).group g).queue = m :: rest ∧ (m.state = .starting ∨ m.state = .running) := by
      rcases driving with driving | driving
      · obtain ⟨m, rest, queue, state⟩ := Group.queue_of_state untripped (x := .starting) (by decide) driving
        exact ⟨m, rest, queue, .inl state⟩
      · obtain ⟨m, rest, queue, state⟩ := Group.queue_of_state untripped (x := .running) (by decide) driving
        exact ⟨m, rest, queue, .inr state⟩
    obtain ⟨m, rest, queue, state⟩ := head
    rw [goOwner_of_driving holder released untripped queue state, State.time_afterFrame]
    rfl
  · rw [goOwner_of_nothing holder released untripped empty]; rfl
  · rw [goOwner_of_queued holder released untripped queue queued]
    refine ⟨fun needs i mem off => ?_, fun encoders => ⟨fun i x target unreferenced => ?_, fun referenced i mem latched => ?_⟩⟩
    · rw [State.goFirst_of_noEncoder]
      · rfl
      · rw [State.lacksEncoder_afterFrame]
        exact State.lacksEncoder_eq_true_iff.mpr ⟨needs, i, mem, off⟩
    · rw [State.goFirst_of_unreferenced]
      · rfl
      · rw [State.lacksEncoder_afterFrame]; exact State.lacksEncoder_eq_false encoders
      · rw [State.lacksReference_afterFrame]; exact State.lacksReference_of_pointTo target unreferenced
    · rw [State.goFirst_of_faulted]
      · rfl
      · rw [State.lacksEncoder_afterFrame]; exact State.lacksEncoder_eq_false encoders
      · rw [State.lacksReference_afterFrame]; exact State.lacksReference_eq_false referenced
      · rw [State.hasFault_afterFrame]; exact State.hasFault_eq_true_iff.mpr ⟨i, mem, latched⟩
  · rw [goOwner_of_held holder released untripped queue held, State.goResume_of_faulted (i := e.point)]
    · rfl
    · exact (Group.mem_taking_iff _ _).mpr ⟨e, by rwa [Group.runList_of_queue queue], taking, rfl⟩
    · rw [State.point_afterFrame]; exact latched

/-! ## The first start (R91) -/

/-- The group's record after its head has left the queue, with `rest` behind it (R89). -/
def Group.without (r : Group) (rest : List Move) : Group :=
  { r with queue := rest, schedule := [], permit := none, stopReason := none, baseline := none }

section
variable {s : State} {g : GroupIdx} {m : Move} {rest : List Move}

/-- The end of the head move of a group whose record has been written since (R89). -/
theorem State.endHead_modGroup {f : Group → Group} (queue : (f (s.group g)).queue = m :: rest)
    (rehearsal : (f (s.group g)).rehearsal = (s.group g).rehearsal) (o : Outcome) (n : Option PointIdx)
    (l : List (PointIdx × Int)) :
    (s.modGroup g f).endHead g o n l =
      (s.produce (some g) (m.endedBody o n l)).modGroup g fun r => (f r).without rest := by
  have head : (s.modGroup g f).endHead g o n l =
      ((s.modGroup g f).produce (some g) (m.endedBody o n l)).modGroup g Group.dropHead := by
    rw [State.endHead, Group.head_of_queue (m := m) (rest := rest) (by rw [State.group_modGroup_self]; exact queue)]
  rw [head, State.produce_modGroup _ _ _ _ _ _ rehearsal, State.modGroup_modGroup]
  refine State.modGroup_congr ?_
  rw [State.group_produce, Group.dropHead, queue]
  rfl

/-- As `State.endHead_modGroup`, of a head move whose record alone has been written. -/
theorem State.endHead_modHead (queue : (s.group g).queue = m :: rest) {f : Move → Move} (body : (f m).body = m.body)
    (tag : (f m).tag = m.tag) (o : Outcome) (n : Option PointIdx) (l : List (PointIdx × Int)) :
    (s.modGroup g fun r => r.modHead f).endHead g o n l =
      (s.produce (some g) (m.endedBody o n l)).modGroup g fun r => r.without rest := by
  have record : (s.group g).modHead f = { s.group g with queue := f m :: rest } := by rw [Group.modHead, queue]
  have reported : (f m).endedBody o n l = m.endedBody o n l := by rw [Move.endedBody, body, tag]; rfl
  rw [State.endHead_modGroup (m := f m) (rest := rest) (by rw [record]) (by rw [record]), reported]
  refine State.modGroup_congr ?_
  rw [State.group_produce, record]
  rfl

theorem State.firstStart_of_outside {e : RunEntry} (queue : (s.group g).queue = m :: rest)
    (outside : ((s.involved g m.body).map (s.newEntry m.body)).find? s.targetOutside = some e) :
    s.firstStart g m =
      ((s.produce (some g) (m.endedBody .refusedLimit (some e.point) [])).modGroup g fun r => r.without rest, .limit) := by
  rw [State.firstStart]
  dsimp only
  rw [outside]
  exact congrArg (·, Result.limit) (State.endHead_modHead queue rfl rfl _ _ _)

theorem State.firstStart_of_there (queue : (s.group g).queue = m :: rest)
    (inside : ((s.involved g m.body).map (s.newEntry m.body)).find? s.targetOutside = none)
    (there : alreadyThere m.body ((s.involved g m.body).map (s.newEntry m.body)) = true) :
    s.firstStart g m =
      ((s.produce (some g) (m.endedBody .arrived none (((s.involved g m.body).map (s.newEntry m.body)).map fun e =>
        (e.point, 0)))).modGroup g fun r => r.without rest, .ok) := by
  rw [State.firstStart]
  dsimp only
  rw [inside]
  dsimp only
  rw [if_pos there]
  exact congrArg (·, Result.ok) (State.endHead_modHead queue rfl rfl _ _ _)

end

section
variable (s : State)

theorem State.targetOutside_iff {e : RunEntry} {t : Int} (target : e.target = some t) :
    s.targetOutside e = true ↔ (t < -2000000 ∨ 2000000 < t ∨
      (s.referencedOf e.point = true ∧ (s.point e.point).settings.inside t = false)) := by
  rw [State.targetOutside, target, Option.any_some, Bool.not_eq_true', Bool.and_eq_false_iff, inPositionRange_eq_false_iff,
    State.passesSoft, Bool.or_eq_false_iff, Bool.not_eq_false', or_assoc]

theorem State.targetOutside_of_untargeted {e : RunEntry} (untargeted : e.target = none) : s.targetOutside e = false := by
  rw [State.targetOutside, untargeted]; rfl

end

/-- The lowest of a list in ascending order for which a test holds. -/
theorem find_lowest {l : List PointIdx} {test : PointIdx → Bool} {i : PointIdx} (sorted : l.Pairwise (· < ·)) (mem : i ∈ l)
    (here : test i = true) (below : ∀ j ∈ l, j < i → test j = false) : l.find? test = some i := by
  induction l with
  | nil => exact absurd mem List.not_mem_nil
  | cons j l ih =>
    obtain ⟨first, sorted'⟩ := List.pairwise_cons.mp sorted
    rcases List.mem_cons.mp mem with rfl | later
    · rw [List.find?_cons, here]
    · rw [List.find?_cons, below j List.mem_cons_self (first i later)]
      exact ih sorted' later fun k inList => below k (List.mem_cons_of_mem j inList)

/-- Settles O29: what `State.firstStart` does with the run list of the first start. -/
theorem goEndsAMoveAtItsFirstStart : Obligations.GoEndsAMoveAtItsFirstStart := by
  rintro s p tail f g m rest i v ended hd hi holder released untripped queue queued hended
  have group : (s.afterFrame p).group g = s.group g := State.group_afterFrame s p g
  have queue' : ((s.afterFrame p).group g).queue = m :: rest := by rw [group]; exact queue
  have starts : s.lacksEncoder g m.body = false → s.lacksReference m.body = false → s.hasFault g m.body = false →
      exec (.go p tail) s = .next (State.concluded ((s.afterFrame p).firstStart g m) p) := fun encoders referenced sound => by
    rw [exec_go hd hi, goOwner_of_queued (by rwa [group]) (by rwa [State.estop_afterFrame]) (by rwa [group]) queue' queued,
      State.goFirst_of_ready (by rwa [State.lacksEncoder_afterFrame]) (by rwa [State.lacksReference_afterFrame])
        (by rwa [State.hasFault_afterFrame])]
  refine ⟨fun body encoder referenced sound => ?_, fun outside houtside body member here others => ?_⟩
  · have single : s.involved g m.body = [i] := by rw [body]; rfl
    have start := starts
      (State.lacksEncoder_eq_false fun _ j mem => by rw [single, List.mem_singleton] at mem; rw [mem]; exact encoder)
      (State.lacksReference_eq_false fun j x same => by
        obtain ⟨rfl, rfl⟩ := MoveBody.pointTo.inj (body.symm.trans same); exact referenced)
      (State.hasFault_eq_false fun j mem => by rw [single, List.mem_singleton] at mem; rw [mem]; exact sound)
    have entry : ((s.afterFrame p).involved g m.body).map ((s.afterFrame p).newEntry m.body) =
        [(s.afterFrame p).newEntry m.body i] := by
      rw [State.involved_afterFrame, single]; rfl
    have target : ((s.afterFrame p).newEntry m.body i).target = some v := by rw [body]; rfl
    have tested := (s.afterFrame p).targetOutside_iff target
    have point : ((s.afterFrame p).newEntry m.body i).point = i := rfl
    rw [point, State.referencedOf_afterFrame, State.point_afterFrame] at tested
    refine ⟨fun limit => ?_, fun lower upper inside there => ?_⟩
    · have out := tested.mpr (limit.imp_right (Or.imp_right fun h => ⟨referenced, h⟩))
      rw [start, State.firstStart_of_outside queue' (e := (s.afterFrame p).newEntry m.body i)
        (by rw [entry, List.find?_cons, out]), hended, Move.endedBody, body]
      rfl
    · have within : (s.afterFrame p).targetOutside ((s.afterFrame p).newEntry m.body i) = false := by
        rw [← Bool.not_eq_true, tested, inside]
        simp only [Bool.true_eq_false, and_false, or_false]
        omega
      rw [start, State.firstStart_of_there queue' (by rw [entry, List.find?_cons, within]; rfl), entry, hended,
        Move.endedBody, body]
      · rfl
      · rw [entry, body]
        refine beq_iff_eq.mpr (Eq.trans ?_ there)
        exact State.positionOf_afterFrame s p i
  · have involved : s.involved g m.body = s.members g := by rw [body]; rfl
    have start := starts
      (State.lacksEncoder_eq_false fun _ j mem => by
        rw [involved, State.mem_members] at mem
        obtain ⟨encoder, -, -⟩ := others j mem
        exact encoder)
      (State.lacksReference_eq_false fun j x same => by rw [body] at same; exact absurd same nofun)
      (State.hasFault_eq_false fun j mem => by
        rw [involved, State.mem_members] at mem
        obtain ⟨-, sound, -⟩ := others j mem
        exact sound)
    have tested : ∀ j, (s.afterFrame p).targetOutside ((s.afterFrame p).newEntry m.body j) = true ↔ outside j := fun j => by
      have target : ((s.afterFrame p).newEntry m.body j).target = some (s.positionOf j + v) := by
        rw [body, ← State.positionOf_afterFrame s p j]; rfl
      have point : ((s.afterFrame p).newEntry m.body j).point = j := rfl
      rw [State.targetOutside_iff _ target, point, State.referencedOf_afterFrame, State.point_afterFrame, houtside]
    have lowest : (s.members g).find? (fun j => (s.afterFrame p).targetOutside ((s.afterFrame p).newEntry m.body j)) = some i := by
      refine find_lowest (s.members_sorted g) ((s.mem_members g i).mpr member) ((tested i).mpr here) fun j mem lt => ?_
      obtain ⟨-, -, inside⟩ := others j ((s.mem_members g j).mp mem)
      rw [← Bool.not_eq_true, tested]
      exact inside lt
    have found : (((s.afterFrame p).involved g m.body).map ((s.afterFrame p).newEntry m.body)).find?
        (s.afterFrame p).targetOutside = some ((s.afterFrame p).newEntry m.body i) := by
      rw [State.involved_afterFrame, involved, List.find?_map]
      exact congrArg (Option.map _) lowest
    rw [start, State.firstStart_of_outside queue' found, hended, Move.endedBody, body]
    rfl

end Sys2Proof.Machine
end

section
/-! STOP, STOP_ALL and the permit's expiry (R96 to R99). -/

namespace Sys2Proof.Machine

/-! ## The whole effect of an entry to STOPPING outside a rehearsal (R96, R98) -/

theorem State.points_ext {s t : State} (same : ∀ i, s.point i = t.point i) : s.points = t.points :=
  Vector.ext fun i lt => same ⟨i, lt⟩

/-- The releases outside a rehearsal, by the records that they leave. -/
theorem State.releaseAll_eq {s u : State} {l : List PointIdx} (live : ∀ i ∈ l, s.rehearsing i = false)
    (same : u = { s with points := u.points }) (inside : ∀ i ∈ l, u.point i = (s.hardRelease i).point i)
    (outside : ∀ i, i ∉ l → u.point i = s.point i) : s.releaseAll l = u := by
  have rests := State.releaseAll_live live
  have points : (s.releaseAll l).points = u.points := State.points_ext fun i => by
    rw [rests.point]
    split
    next mem => rw [inside i mem, State.hardRelease_point_live (live i mem)]
    next out => rw [outside i out]
  rw [rests.same, points, ← same]

section
variable {u : State} {g : GroupIdx} {m : Move} {rest : List Move} {reason : Option StopReason} {mark : Option EndMark}

/-- The group's record in STOPPING (R96). -/
def Group.stopped (r : Group) (m : Move) (rest : List Move) (reason : Option StopReason) (mark : Option EndMark) : Group :=
  { r with
    queue := { m with state := .stopping, endMark := mark } :: rest, schedule := [], permit := none
    stopReason := reason }

theorem State.enterStopping_released {s : State} (queue : (s.group g).queue = m :: rest) (driving : m.state.driving = true)
    (released : s.releaseAll (s.runPoints g) = u) (same : u.group g = s.group g) :
    s.enterStopping g reason mark = (u.modGroup g fun r => r.stopped m rest reason mark).endTest g := by
  have still : (u.group g).headIs MoveState.driving = true := by rw [same, Group.headIs_of_queue queue]; exact driving
  have stopping : (u.modGroup g fun r => r.toStopping reason mark) = u.modGroup g fun r => r.stopped m rest reason mark :=
    State.modGroup_congr (Group.toStopping_of_queue (by rw [same]; exact queue) reason mark)
  rw [State.enterStopping_of_driving reason mark (by rw [Group.headIs_of_queue queue]; exact driving), released,
    if_pos still, stopping]

theorem State.endHead_stopped (o : Outcome) (l : List (PointIdx × Int)) :
    (u.modGroup g fun r => r.stopped m rest reason mark).endHead g o none l =
      (u.produce (some g) (.moveEnded o m.tag m.body.kind m.body.point l)).modGroup g fun r => r.without rest := by
  rw [State.endHead_modGroup (m := { m with state := .stopping, endMark := mark }) (rest := rest) rfl rfl,
    Move.endedBody, Option.or_none]
  rfl

theorem State.holdHead_stopped :
    (u.modGroup g fun r => r.stopped m rest reason mark).holdHead g { m with state := .stopping, endMark := mark } =
      (u.produce (some g) (.moveHeld reason m.tag m.body.kind m.body.point)).modGroup g fun r =>
        { r with
          queue := { m with state := .held, endMark := mark } :: rest, schedule := [], permit := none
          stopReason := reason } := by
  rw [State.holdHead, State.modGroup_modGroup, State.group_modGroup_self]
  exact State.produce_modGroup u g _ _ _ _ rfl

end

theorem Move.allSettled_iff (m : Move) : m.allSettled = true ↔ ∀ e ∈ m.runList, e.settled = true := by
  simp only [Move.allSettled, List.all_eq_true]

theorem Move.allSettled_eq_false {m : Move} (unsettled : ∃ e ∈ m.runList, e.settled = false) : m.allSettled = false := by
  rw [← Bool.not_eq_true, Move.allSettled_iff]
  obtain ⟨e, mem, off⟩ := unsettled
  exact fun all => absurd (all e mem) (by rw [off]; decide)

theorem Move.allReleased_iff (m : Move) : m.allReleased = true ↔ ∀ e ∈ m.runList, e.released = true := by
  simp only [Move.allReleased, List.all_eq_true]

theorem Move.allReleased_eq_false {m : Move} (unreleased : ∃ e ∈ m.runList, e.released = false) : m.allReleased = false := by
  rw [← Bool.not_eq_true, Move.allReleased_iff]
  obtain ⟨e, mem, off⟩ := unreleased
  exact fun all => absurd (all e mem) (by rw [off]; decide)

/-! ## A stop that does not end in the event -/

/-- The stop of group g changes its record and its members' and nothing else (R96). -/
structure State.StoppedLater (s t : State) (g : GroupIdx) : Prop where
  ports : t.ports = s.ports
  rights : t.rights = s.rights
  others : ∀ h, h ≠ g → t.group h = s.group h
  outside : ∀ i, i ∉ s.runPoints g → t.point i = s.point i

theorem State.enterStopping_later {s : State} {g : GroupIdx} (reason : StopReason) (settles : s.settlesLater g) :
    s.StoppedLater (s.enterStopping g (some reason) none) g ∧
      s.stopsFor (s.enterStopping g (some reason) none) g (s.group g).holder reason := by
  obtain ⟨unsettled, live⟩ := settles
  have rests := State.releaseAll_live live
  have group : ∀ h, (s.releaseAll (s.runPoints g)).group h = s.group h := fun h => by rw [rests.same]; rfl
  have stopsFor : s.stopsFor (s.enterStopping g (some reason) none) g (s.group g).holder reason := by
    intro m rest queue driving settles
    rw [State.enterStopping_live (some reason) none queue driving settles, State.group_modGroup_self, group]
  refine ⟨?_, stopsFor⟩
  cases driving : (s.group g).headIs MoveState.driving with
  | false => rw [State.enterStopping_idle _ _ driving]; exact ⟨rfl, rfl, fun _ _ => rfl, fun _ _ => rfl⟩
  | true =>
    obtain ⟨m, rest, queue, state⟩ := Group.queue_of_driving _ driving
    rw [State.enterStopping_live (some reason) none queue state ⟨unsettled, live⟩]
    refine ⟨?_, ?_, fun h ne => ?_, fun i out => ?_⟩
    · rw [State.ports_modGroup, rests.same]
    · rw [State.rights_modGroup, rests.same]
    · rw [State.group_modGroup_ne _ (Ne.symm ne), group]
    · rw [State.point_modGroup, rests.point, if_neg out]

/-- The stop of one group whose move, if it drives, has a member that has not settled (R96, R99). -/
theorem State.enterStopping_stops {s : State} {g : GroupIdx} (reason : StopReason)
    (settles : (s.group g).headIs MoveState.driving = true → s.settlesLater g) :
    let t := s.enterStopping g (some reason) none
    t.ports = s.ports ∧ (∀ h, h ≠ g → t.group h = s.group h) ∧ s.stopsFor t g (s.group g).holder reason ∧
      ((s.group g).headIs MoveState.driving = false → t.group g = s.group g) ∧
      ∀ i, ((s.group g).headIs MoveState.driving = true → i ∉ s.runPoints g) → t.point i = s.point i := by
  cases driving : (s.group g).headIs MoveState.driving with
  | false =>
    dsimp only
    rw [State.enterStopping_idle _ _ driving]
    refine ⟨rfl, fun _ _ => rfl, fun m rest queue state => ?_, fun _ => rfl, fun _ _ => rfl⟩
    rw [Group.headIs_of_queue queue, state] at driving
    exact absurd driving (by decide)
  | true =>
    obtain ⟨later, stops⟩ := State.enterStopping_later reason (settles driving)
    exact ⟨later.ports, later.others, stops, nofun, fun i out => later.outside i (out rfl)⟩

/-- Stops of several groups in turn, none of which ends in the event (R99). -/
theorem State.foldl_stops {s : State} (reason : StopReason) (l : List GroupIdx) (once : l.Nodup)
    (settle : ∀ g ∈ l, (s.group g).headIs MoveState.driving = true → s.settlesLater g) :
    let t := l.foldl (fun u g => u.enterStopping g (some reason) none) s
    t.ports = s.ports ∧ (∀ h, h ∉ l → t.group h = s.group h) ∧
      (∀ h ∈ l, s.stopsFor t h (s.group h).holder reason ∧
        ((s.group h).headIs MoveState.driving = false → t.group h = s.group h)) ∧
      ∀ i, (∀ h ∈ l, (s.group h).headIs MoveState.driving = true → i ∉ s.runPoints h) → t.point i = s.point i := by
  induction l generalizing s with
  | nil => exact ⟨rfl, fun _ _ => rfl, fun h mem => absurd mem List.not_mem_nil, fun _ _ => rfl⟩
  | cons g l ih =>
    obtain ⟨apart, once'⟩ := List.nodup_cons.mp once
    obtain ⟨ports, others, stops, idle, outside⟩ := State.enterStopping_stops reason (settle g List.mem_cons_self)
    have moved := s.enterStopping_moved g (some reason) none
    have here : ∀ h ∈ l, (s.enterStopping g (some reason) none).group h = s.group h := fun h mem =>
      others h fun same => apart (same ▸ mem)
    obtain ⟨ports', others', stops', outside'⟩ := ih once' fun h mem drives =>
      State.settlesLater_congr (here h mem) moved.rehearsing
        (settle h (List.mem_cons_of_mem g mem) (by rwa [here h mem] at drives))
    refine ⟨ports'.trans ports, fun h out => ?_, fun h mem => ?_, fun i out => ?_⟩
    · exact (others' h (List.not_mem_of_not_mem_cons out)).trans (others h (List.ne_of_not_mem_cons out))
    · rcases List.mem_cons.mp mem with rfl | mem
      · have kept := others' h apart
        exact ⟨fun m rest queue state settles => kept.trans (stops m rest queue state settles),
          fun off => kept.trans (idle off)⟩
      · obtain ⟨stopsHere, idleHere⟩ := stops' h mem
        rw [here h mem] at idleHere
        refine ⟨fun m rest queue state settles => ?_, idleHere⟩
        have stopped' := stopsHere m rest (by rw [here h mem]; exact queue) state
          (State.settlesLater_congr (here h mem) moved.rehearsing settles)
        rw [here h mem] at stopped'
        exact stopped'
    · refine (outside' i fun h mem drives => ?_).trans (outside i (out g List.mem_cons_self))
      rw [State.runPoints, here h mem]
      exact out h (List.mem_cons_of_mem g mem) (by rwa [here h mem] at drives)

/-! ## The obligation -/

theorem MoveState.not_driving {x : MoveState} (resting : x = .queued ∨ x = .stopping ∨ x = .held) : x.driving = false := by
  rcases resting with rfl | rfl | rfl <;> rfl

theorem MoveState.driving_of {x : MoveState} (drives : x = .starting ∨ x = .running) : x.driving = true := by
  rcases drives with rfl | rfl <;> rfl

theorem State.settlesLater_afterFrame {s : State} {g : GroupIdx} (p : Port) :
    s.settlesLater g → (s.afterFrame p).settlesLater g :=
  State.settlesLater_congr (State.group_afterFrame s p g) (State.rehearsing_afterFrame s p)

theorem State.runPoints_afterFrame (s : State) (p : Port) (g : GroupIdx) : (s.afterFrame p).runPoints g = s.runPoints g := by
  rw [State.runPoints, State.group_afterFrame]; rfl

theorem State.queuesLawful_afterFrame {s : State} (lawful : s.queuesLawful) (p : Port) : (s.afterFrame p).queuesLawful :=
  State.queuesLawful_congr (fun g => by rw [State.group_afterFrame]) (fun g => by rw [State.group_afterFrame]) lawful

theorem State.afterFrame_cuts (s : State) (p : Port) : Cuts s (s.afterFrame p) :=
  .of_records (State.points_afterFrame s p) (State.groups_afterFrame s p)

/-- R96, R98: the entry to STOPPING outside a rehearsal, by whether every member has settled. -/
theorem State.enterStopping_live_cases {s u : State} {g : GroupIdx} {reason : Option StopReason} {mark : Option EndMark}
    {m : Move} {rest : List Move} {ended : Outcome → List (PointIdx × Int) → State}
    (stops : s.enterStopping g reason mark = (u.modGroup g fun r => r.stopped m rest reason mark).endTest g)
    (hended : ∀ o l, ended o l = (u.produce (some g) (.moveEnded o m.tag m.body.kind m.body.point l)).modGroup g fun r =>
      r.without rest) :
    ((∃ e ∈ m.runList, e.settled = false) →
      s.enterStopping g reason mark = u.modGroup g fun r => r.stopped m rest reason mark) ∧
    ((∀ e ∈ m.runList, e.settled = true) →
      (mark = some .limit → s.enterStopping g reason mark = ended .limit []) ∧
      (mark = some .softLimit → s.enterStopping g reason mark = ended .softLimit []) ∧
      (mark = none → m.body.kind.jog = true → s.enterStopping g reason mark = ended .jogStopped []) ∧
      (mark = none → m.body.kind.jog = false → (∀ e ∈ m.runList, e.released = true) →
        s.enterStopping g reason mark = ended .arrived m.arrivalPairs) ∧
      (mark = none → m.body.kind.jog = false → (∃ e ∈ m.runList, e.released = false) →
        s.enterStopping g reason mark =
          (u.produce (some g) (.moveHeld reason m.tag m.body.kind m.body.point)).modGroup g fun r =>
            { r with
              queue := { m with state := .held, endMark := none } :: rest, schedule := [], permit := none
              stopReason := reason })) := by
  have queue : ((u.modGroup g fun r => r.stopped m rest reason mark).group g).queue =
      { m with state := .stopping, endMark := mark } :: rest := by rw [State.group_modGroup_self]; rfl
  rw [stops]
  refine ⟨fun unsettled => State.endTest_unsettled queue (Move.allSettled_eq_false unsettled), fun settled => ?_⟩
  rw [State.endTest_settled queue rfl ((Move.allSettled_iff _).mpr settled)]
  refine ⟨?_, ?_, ?_, ?_, ?_⟩
  · rintro rfl; rw [hended]; exact State.endHead_stopped _ _
  · rintro rfl; rw [hended]; exact State.endHead_stopped _ _
  · rintro rfl jog
    rw [hended]
    exact (if_pos jog).trans (State.endHead_stopped _ _)
  · rintro rfl jog released
    rw [hended]
    exact (if_neg (Bool.not_eq_true _ ▸ jog)).trans
      ((if_pos ((Move.allReleased_iff _).mpr released)).trans (State.endHead_stopped _ _))
  · rintro rfl jog unreleased
    have pending : Move.allReleased { m with state := .stopping, endMark := none } = false :=
      Move.allReleased_eq_false unreleased
    exact (if_neg (Bool.not_eq_true _ ▸ jog)).trans ((if_neg (Bool.not_eq_true _ ▸ pending)).trans State.holdHead_stopped)

/-- Settles O31: the entry to STOPPING by `State.enterStopping_released` and the end test; the three requests by
`State.enterStopping_cuts`, and where the stop does not end in the event by `State.foldl_stops`. -/
theorem stopsEndTheDriving : Obligations.StopsEndTheDriving := by
  refine ⟨?_, fun s g running lawful => ⟨?_, ?_, ?_⟩⟩
  · intro s g reason mark m rest u ended queue
    refine ⟨fun resting => ?_, fun driving live same inside outside hended => ?_⟩
    · exact State.enterStopping_idle _ _ (by rw [Group.headIs_of_queue queue]; exact MoveState.not_driving resting)
    · have group : u.group g = s.group g := by rw [same]; rfl
      exact State.enterStopping_live_cases (State.enterStopping_released queue (MoveState.driving_of driving)
        (State.releaseAll_eq live same inside outside) group) hended
  · intro p tail f hd hi
    have lawful' := State.queuesLawful_afterFrame lawful p
    obtain ⟨cuts, stopped⟩ := State.enterStopping_cuts lawful' g (some .stop) none
    have moved := (s.afterFrame p).enterStopping_moved g (some .stop) none
    rw [exec_stop hd hi]
    refine ⟨⟨_, rfl, ((s.afterFrame_cuts p).trans (cuts.trans (.of_records rfl rfl))).parks stopped,
      by rw [State.port_setResult_self], ?_, fun m rest queue driving settles => ?_, fun settles => ?_⟩, fun idle => ?_⟩
    · rw [State.rights_setResult, State.stopGroup, moved.rights, State.rights_afterFrame]
    · obtain ⟨-, stops⟩ := State.enterStopping_later .stop (State.settlesLater_afterFrame p settles)
      rw [State.group_setResult, State.stopGroup, ← State.group_afterFrame s p]
      exact stops m rest (by rw [State.group_afterFrame]; exact queue) driving (State.settlesLater_afterFrame p settles)
    · obtain ⟨later, -⟩ := State.enterStopping_later .stop (State.settlesLater_afterFrame p settles)
      refine ⟨State.ports_setResult_congr later.ports p .ok, fun h ne => ?_, fun i out => ?_⟩
      · exact (later.others h ne).trans (State.group_afterFrame s p h)
      · exact (later.outside i (by rwa [State.runPoints_afterFrame])).trans (State.point_afterFrame s p i)
    · rw [State.stopGroup, State.enterStopping_idle _ _ (by rw [State.group_afterFrame]; exact idle)]; rfl
  · intro p tail f hd
    have lawful' := State.queuesLawful_afterFrame lawful p
    have mem := mem_allGroups
    have once : allGroups.Nodup := by decide
    rw [exec_stopAll hd]
    generalize allGroups = l at mem once ⊢
    obtain ⟨cuts, stopped⟩ := State.foldl_enterStopping_cuts lawful' (some .stop) l
    have moved := Moved.foldl State.stopGroup (fun u h => u.enterStopping_moved h (some .stop) none) l (s.afterFrame p)
    refine ⟨⟨_, rfl, fun h => ((s.afterFrame_cuts p).trans (cuts.trans (.of_records rfl rfl))).parks (stopped h (mem h)),
      by rw [State.port_setResult_self], ?_, fun settle => ?_⟩, fun idle => ?_⟩
    · rw [State.rights_setResult, moved.rights, State.rights_afterFrame]
    · obtain ⟨ports, -, stops, -⟩ := State.foldl_stops (s := s.afterFrame p) .stop l once fun h _ drives =>
        State.settlesLater_afterFrame p (settle h (by rwa [State.group_afterFrame] at drives))
      refine ⟨State.ports_setResult_congr ports p .ok, fun h => ⟨fun m rest queue driving settles => ?_, fun idle => ?_⟩⟩
      · obtain ⟨stop, -⟩ := stops h (mem h)
        rw [State.group_setResult, ← State.group_afterFrame s p]
        exact stop m rest (by rw [State.group_afterFrame]; exact queue) driving (State.settlesLater_afterFrame p settles)
      · obtain ⟨-, kept⟩ := stops h (mem h)
        rw [State.group_setResult, ← State.group_afterFrame s p]
        exact kept (by rw [State.group_afterFrame]; exact idle)
    · have fixed := foldl_of_fixed State.stopGroup l (s.afterFrame p) fun h _ =>
        State.enterStopping_idle _ _ (by rw [State.group_afterFrame]; exact idle h)
      rw [fixed]; rfl
  · intro due started elapsed
    obtain ⟨cuts, stopped⟩ := State.enterStopping_cuts lawful g (some .permit) none
    rw [exec_permitExpiry running, State.permitExpiry, if_pos (State.isDue_of_le started elapsed)]
    refine ⟨⟨_, rfl, cuts.parks stopped⟩, fun m rest queue driving unsettled live => ?_⟩
    have settles : s.settlesLater g := by
      refine ⟨?_, live⟩
      rw [Group.runList_of_queue queue]
      rw [← Bool.not_eq_true, Move.allSettled_iff] at unsettled
      simpa using unsettled
    obtain ⟨later, stops⟩ := State.enterStopping_later .permit settles
    exact ⟨_, rfl, later.ports, stops m rest queue driving settles, later.others⟩

end Sys2Proof.Machine
end

section
/-! The waits and the permission test of an energize request (R42, R43). -/

namespace Sys2Proof.Machine

/-! ## The permission test (R43) -/

theorem State.failing_sound {s : State} {i : PointIdx} {d : Dir} {c : Denial} (failing : c ∈ s.failing i d) :
    (c = .permit ∧ s.permitLive (s.point i).group = false) ∨ (c = .fault ∧ (s.point i).latched ≠ none) ∨
      (c = .switch ∧ (s.point i).switches.closedToward d = false) ∨ (c = .estop ∧ s.estop = true) := by
  simp only [State.failing, List.mem_append] at failing
  rcases failing with ((mem | mem) | mem) | mem
  all_goals
    split at mem
    next on => simp_all
    next off => simp_all

/-- R43: the request is permitted exactly when its five conditions hold. -/
theorem State.denial_eq_none_iff (s : State) (i : PointIdx) (d : Dir) :
    s.denial i d = none ↔
      ((s.groupOf i).inRunList i = true ∧ (s.groupOf i).headIs MoveState.driving = true) ∧
        s.permitLive (s.point i).group = true ∧ (s.point i).latched = none ∧
        (s.point i).switches.closedToward d = true ∧ s.estop = false := by
  constructor
  · intro permitted
    obtain ⟨member, driving, permit, latched, switch, estop⟩ := State.denial_none permitted
    exact ⟨⟨member, driving⟩, permit, latched, switch, estop⟩
  · rintro ⟨⟨member, driving⟩, permit, latched, switch, estop⟩
    cases denied : s.denial i d with
    | none => rfl
    | some c =>
      rcases State.denial_some denied with ⟨inactive, -⟩ | ⟨-, failing⟩
      · rw [member, driving] at inactive; exact absurd inactive (by decide)
      · rcases State.failing_sound failing with ⟨-, h⟩ | ⟨-, h⟩ | ⟨-, h⟩ | ⟨-, h⟩
        · rw [permit] at h; exact absurd h (by decide)
        · exact absurd latched h
        · rw [switch] at h; exact absurd h (by decide)
        · rw [estop] at h; exact absurd h (by decide)

/-- The condition that a denial names fails (R43). -/
theorem State.denial_names {s : State} {i : PointIdx} {d : Dir} {c : Denial} (denied : s.denial i d = some c) :
    (c = .notActive ∧ ((s.groupOf i).inRunList i && (s.groupOf i).headIs MoveState.driving) = false) ∨
      (c = .permit ∧ s.permitLive (s.point i).group = false) ∨ (c = .fault ∧ (s.point i).latched ≠ none) ∨
      (c = .switch ∧ (s.point i).switches.closedToward d = false) ∨ (c = .estop ∧ s.estop = true) := by
  rcases State.denial_some denied with ⟨inactive, named⟩ | ⟨-, failing⟩
  · exact .inl ⟨named, inactive⟩
  · exact .inr (State.failing_sound failing)

theorem State.permitLive_iff (s : State) (g : GroupIdx) :
    s.permitLive g = true ↔ ∃ due, (s.group g).permit = some due ∧ s.time ≤ due := by
  rw [State.permitLive, Option.any_eq_true]
  simp only [decide_eq_true_eq]

/-! ## Every energization has waited (R42) -/

theorem Point.energizeDue_eq (q : Point) (d : Dir) :
    q.energizeDue d = q.channel.lastOff + 1000 * match q.channel.lastDir with
      | some last => if last = d then q.settings.tGuard else q.settings.tReverse
      | none => q.settings.tGuard := by
  rw [Point.energizeDue, Point.requiredWait]
  cases q.channel.lastDir <;> rfl

/-- From s to t point i keeps its waits, but that its times may have been written first. -/
def State.WaitedAfter (s t : State) : Prop :=
  ∀ i, ∃ p : Point, p.channel.lastOff = (s.point i).channel.lastOff ∧ p.channel.lastDir = (s.point i).channel.lastDir ∧
    ((s.point i).channel.state.energized = false → p.channel.state.energized = false) ∧ Waits s.time p (t.point i)

theorem Waited.waitedAfter {s t : State} (h : Waited s t) : s.WaitedAfter t :=
  fun i => ⟨s.point i, rfl, rfl, id, h.point i⟩

theorem State.WaitedAfter.of_setPoint {s t : State} {i : PointIdx} {q : Point}
    (lastOff : q.channel.lastOff = (s.point i).channel.lastOff) (lastDir : q.channel.lastDir = (s.point i).channel.lastDir)
    (rests : (s.point i).channel.state.energized = false → q.channel.state.energized = false)
    (later : Waited (s.setPoint i q) t) : s.WaitedAfter t := fun j => by
  by_cases same : i = j
  · subst same
    exact ⟨q, lastOff, lastDir, rests, by simpa using later.point i⟩
  · exact ⟨s.point j, rfl, rfl, id, by
      have waits := later.point j
      rwa [State.point_setPoint_ne s same] at waits⟩

theorem pointSetupOwner_waitedAfter (p : Port) (s : State) (i : PointIdx) (f : GoodFrame) :
    s.WaitedAfter (pointSetupOwner p s i f).1 := by
  unfold pointSetupOwner
  dsimp only
  split
  · exact (Waited.refl s).waitedAfter
  split
  · exact (Waited.refl s).waitedAfter
  split
  · exact (Waited.refl s).waitedAfter
  · obtain ⟨-, channel, -, -, -⟩ := (s.point i).applyWrites_drive (decodePointWrites f.header f.payload)
    exact .of_setPoint (by rw [channel]) (by rw [channel]) (by rw [channel]; exact id) (State.pendingMoved_waited _ i _)

theorem State.settleEnd_waitedAfter (s : State) (i : PointIdx) : s.WaitedAfter (s.settleEnd i) := by
  unfold State.settleEnd
  split
  · exact .of_setPoint (q := (s.point i).toOff) rfl rfl (fun _ => rfl)
      ((State.settledEvent_waited _ i).trans (State.pendingMoved_waited _ i _))
  · exact (Waited.refl s).waitedAfter

theorem State.takePointSetup_waitedAfter (s : State) (p : Port) (tail : FrameTail) :
    s.WaitedAfter (s.takeRequest p tail .pointSetup pointIndex (pointSetupOwner p)) :=
  State.takeRequest_keeps (P := s.WaitedAfter) s p tail .pointSetup pointIndex (pointSetupOwner p)
    (Waited.refl s).waitedAfter (s.afterFrame_waited p).waitedAfter (fun _ _ kept j => kept j) fun i f j => by
      have kept := pointSetupOwner_waitedAfter p (s.afterFrame p) i f j
      rwa [State.point_afterFrame, State.time_afterFrame] at kept

theorem exec_waitedAfter {c : Instr} {s t : State} (running : ∀ levels, c ≠ .deviceReset levels)
    (next : exec c s = .next t) : s.WaitedAfter t := by
  have effected := Host.Outcome.next.inj ((exec_eq_effect c s).symm.trans next)
  cases c
  case deviceReset levels => exact absurd rfl (running levels)
  case pointSetup p tail =>
    rw [← effected]
    split
    · exact (Waited.refl s).waitedAfter
    · exact s.takePointSetup_waitedAfter p tail
  case settleEnd i =>
    rw [← effected]
    split
    · exact (Waited.refl s).waitedAfter
    · exact s.settleEnd_waitedAfter i
  all_goals exact (exec_waited next nofun nofun nofun).waitedAfter

/-- After a device reset every channel is in OFF (R1). -/
theorem State.deviceReset_off (s : State) (levels : ResetLevels) (i : PointIdx) :
    ((s.deviceReset levels).point i).channel.state = .off := by
  have checked : ∀ (l : List PointIdx) (t : State), (t.point i).channel.state = .off →
      ((l.foldl State.checkWiring t).point i).channel.state = .off := by
    intro l
    induction l with
    | nil => exact fun _ off => off
    | cons j l ih =>
      refine fun t off => ih _ ?_
      unfold State.checkWiring
      split
      · exact State.raiseFault_stays Point.unreleased_off t j .limitWiring i off
      · exact off
  unfold State.deviceReset
  generalize allPoints = l
  refine checked l _ ?_
  change ((State.atReset levels).point i).channel.state = .off
  rw [State.point_atReset]
  rfl

/-- R42: a channel that a step energizes has waited, under the times in force after it. -/
theorem step_waited {s t : State} {i : PointIdx} {d : Dir} (legal : s.settingsLegal) (next : step s = .next t)
    (rests : (s.point i).channel.state.energized = false) (driven : (t.point i).channel.state = d.channelState) :
    ({ t.point i with channel := (s.point i).channel } : Point).energizeDue d ≤ s.time := by
  obtain ⟨⟨-, -, guardRange, reverseRange, -⟩, -⟩ :=
    step_obeys (fun _ _ => id) (fun _ _ => id) (fun _ _ k => k.settings) (fun _ o => o.settings) next legal i
  have waited : s.WaitedAfter t := by
    unfold step at next
    split at next
    case h_2 =>
      rw [← Host.Outcome.next.inj next] at driven
      have still : (s.point i).channel.state = d.channelState := driven
      rw [still] at rests
      exact absurd rests (by cases d <;> decide)
    case h_1 c rest _ =>
      refine exec_waitedAfter (s := { s with pending := rest }) (fun levels device => ?_) next
      rw [device] at next
      rw [← Host.Outcome.next.inj next, State.deviceReset_off] at driven
      exact Dir.channelState_ne_off d driven.symm
  obtain ⟨p, lastOff, lastDir, resting, waits⟩ := waited i
  have elapsed := waits.elapsed (by rw [← waits.guard]; omega) (by rw [← waits.reverse]; omega) (resting rests) driven
  exact (Point.energizeDue_congr (p := p) (q := { t.point i with channel := (s.point i).channel })
    lastOff.symm lastDir.symm waits.guard waits.reverse d).trans_le elapsed

/-! ## The answer to a request, and what the Group Unit makes of it (R43, R94, R95) -/

section
variable {s : State} {i : PointIdx} {d : Dir}

theorem ChannelState.dir_of_resting {c : ChannelState} (resting : c.energized = false) : c.dir = none := by
  rcases (ChannelState.energized_eq_false_iff c).mp resting with rfl | rfl <;> rfl

theorem State.energizeRequest_of_denied {c : Denial} (resting : (s.point i).channel.state.energized = false)
    (denied : s.denial i d = some c) : s.energizeRequest i d = (s, .dropped c) := by
  rw [State.energizeRequest, ChannelState.dir_of_resting resting, denied]

theorem State.energizeRequest_of_due (resting : (s.point i).channel.state.energized = false)
    (permitted : s.denial i d = none) (idle : (s.point i).channel.pending = none) (due : (s.point i).energizeDue d ≤ s.time) :
    s.energizeRequest i d = (s.energize i d, .taken) := by
  rw [State.energizeRequest, ChannelState.dir_of_resting resting, permitted, idle]
  exact (if_neg (by simp)).trans (if_pos (decide_eq_true due))

theorem State.energizeRequest_of_early (resting : (s.point i).channel.state.energized = false)
    (permitted : s.denial i d = none) (idle : (s.point i).channel.pending = none) (early : s.time < (s.point i).energizeDue d) :
    s.energizeRequest i d =
      (s.modPoint i fun p => { p with channel := { p.channel with pending := some d } }, .held) := by
  rw [State.energizeRequest, ChannelState.dir_of_resting resting, permitted, idle]
  refine (if_neg (by simp)).trans (if_neg ?_)
  exact of_decide_eq_false (decide_eq_false (by rw [State.waitElapsed, decide_eq_true_eq]; exact Nat.not_le.mpr early))

end

section
variable {s : State} {g : GroupIdx} {i : PointIdx} {m : Move} {rest : List Move}

/-- The head move when a member counts as started (R95). -/
def Move.memberStarted (m : Move) (i : PointIdx) : Move :=
  let l := replaced m.runList i fun e => { e with started := true, settled := false }
  { m with runList := l, state := if l.all fun e => e.started || e.released then .running else .starting }

theorem Group.modHead_of_queue {r : Group} (queue : r.queue = m :: rest) (f : Move → Move) :
    r.modHead f = { r with queue := f m :: rest } := by
  rw [Group.modHead, queue]

theorem State.memberStarted_of_queue (queue : (s.group g).queue = m :: rest) (state : m.state = .starting) :
    s.memberStarted g i = s.modGroup g fun r => { r with queue := m.memberStarted i :: rest } := by
  have formed : (m.modEntry i fun e => { e with started := true, settled := false }).form = m.memberStarted i := by
    simp only [Move.form, Move.modEntry, state, Move.formed, decide_true, Bool.true_and, Move.memberStarted, replaced]
    split <;> rfl
  rw [State.memberStarted, State.modEntry, State.modGroup_modGroup]
  refine State.modGroup_congr ?_
  rw [Group.modHead_of_queue queue, Group.modHead_of_queue rfl, formed]

variable (queue : (s.group g).queue = m :: rest) (state : m.state = .starting)
include queue state

theorem State.startAnswer_taken : s.startAnswer g i .taken = s.memberStarted g i :=
  if_pos (by rw [Group.headIs_of_queue queue, state]; rfl)

theorem State.startAnswer_switch : s.startAnswer g i (.dropped .switch) =
    if 2 ≤ m.runList.length then s.trip g .limit (some i) else s.enterStopping g none (some .limit) := by
  refine (if_pos (by rw [Group.headIs_of_queue queue, state]; rfl)).trans ?_
  dsimp only
  rw [State.slotLimit, Group.runList_of_queue queue]

theorem State.startAnswer_permit : s.startAnswer g i (.dropped .permit) = s.enterStopping g (some .permit) none :=
  if_pos (by rw [Group.headIs_of_queue queue, state]; rfl)

end

theorem State.startAnswer_held (s : State) (g : GroupIdx) (i : PointIdx) : s.startAnswer g i .held = s := ite_self s

theorem State.startAnswer_withdrawn (s : State) (g : GroupIdx) (i : PointIdx) {c : Denial}
    (withdrawn : c = .fault ∨ c = .estop ∨ c = .notActive) : s.startAnswer g i (.dropped c) = s := by
  rcases withdrawn with rfl | rfl | rfl <;> exact ite_self s

/-! ## A start slot (R94) -/

theorem State.denial_congr {s t : State} {i : PointIdx} (point : t.point i = s.point i)
    (queue : (t.groupOf i).queue = (s.groupOf i).queue) (permit : (t.groupOf i).permit = (s.groupOf i).permit)
    (estop : t.estop = s.estop) (time : t.time = s.time) (d : Dir) : t.denial i d = s.denial i d := by
  have live : t.permitLive (s.point i).group = s.permitLive (s.point i).group := by
    rw [State.groupOf, point] at permit
    rw [State.permitLive, State.permitLive, time, permit]
    rfl
  have member : (t.groupOf i).inRunList i = (s.groupOf i).inRunList i := by
    rw [Group.inRunList, Group.inRunList, Group.runList, Group.runList, queue]
  have head : ∀ p, (t.groupOf i).headIs p = (s.groupOf i).headIs p := fun p => by rw [Group.headIs, Group.headIs, queue]
  simp only [State.denial, State.failing, live, point, estop, member, head]

theorem State.startSlot_of_due {s : State} {g : GroupIdx} {i : PointIdx} {due : Nat} {later : List (PointIdx × Nat)}
    (schedule : (s.group g).schedule = (i, due) :: later) (elapsed : due ≤ s.time)
    (starting : (s.group g).headIs isStarting = true) :
    s.startSlot g =
      (((s.modGroup g fun r => { r with schedule := later }).energizeRequest i (s.group g).direction).1).startAnswer g i
        ((s.modGroup g fun r => { r with schedule := later }).energizeRequest i (s.group g).direction).2 := by
  have slot : s.dueSlot g = some i := by
    rw [State.dueSlot, schedule]
    exact if_pos (by rw [starting, decide_eq_true elapsed]; rfl)
  have tail : (s.modGroup g fun r => { r with schedule := r.schedule.tail }) =
      s.modGroup g fun r => { r with schedule := later } := State.modGroup_congr (by rw [schedule]; rfl)
  rw [State.startSlot, slot, ← tail]

theorem State.groups_energize_of_fresh {s : State} {i : PointIdx} (d : Dir) (fresh : (s.point i).load.state ≠ .stale) :
    (s.energize i d).groups = s.groups := by
  rw [State.energize_of_fresh d fresh]; rfl

/-- Settles O34: the wait by `step_waited`, the permission test by `State.denial_eq_none_iff`, the slot by the answer to its
request. -/
theorem startSlotEnergizesItsMember : Obligations.StartSlotEnergizesItsMember := by
  refine ⟨fun q d => q.energizeDue_eq d, ?_, ?_, ?_⟩
  · rintro s t i d before after legal next rfl rfl rests driven
    have waited := step_waited legal next ((ChannelState.energized_eq_false_iff _).mpr rests) driven
    rw [Point.energizeDue_eq] at waited
    exact waited
  · rintro s i d active live toward hactive hlive htoward
    have live' : live ↔ s.permitLive (s.point i).group = true := hlive.trans (s.permitLive_iff _).symm
    have toward' : toward ↔ (s.point i).switches.closedToward d = true := by
      rw [htoward]; cases d <;> exact Iff.rfl
    rw [s.denial_eq_none_iff, hactive, live', toward']
    refine ⟨Iff.rfl, fun denied => ?_, fun denied => ?_, fun denied => ?_, fun denied => ?_, fun denied => ?_⟩
    all_goals rcases State.denial_names denied with ⟨named, h⟩ | ⟨named, h⟩ | ⟨named, h⟩ | ⟨named, h⟩ | ⟨named, h⟩
    all_goals simp_all
  · rintro s g i due later m rest d s1 running schedule elapsed queue starting member rfl resting idle rfl
    have slot := State.startSlot_of_due schedule elapsed (by rw [Group.headIs_of_queue queue, starting]; rfl)
    have queue1 : ((s.modGroup g fun r => { r with schedule := later }).group g).queue = m :: rest := by
      rw [State.group_modGroup_self]; exact queue
    have denial : (s.modGroup g fun r => { r with schedule := later }).denial i (s.group g).direction =
        s.denial i (s.group g).direction := by
      have owner : (s.modGroup g fun r => { r with schedule := later }).groupOf i =
          { s.groupOf i with schedule := later } := by
        rw [State.groupOf, State.point_modGroup, member, State.group_modGroup_self, State.groupOf, member]
      exact State.denial_congr (State.point_modGroup s g _ i) (by rw [owner]) (by rw [owner]) rfl rfl _
    have same : (s.modGroup g fun r => { r with schedule := later }).point i = s.point i := State.point_modGroup s g _ i
    have time : (s.modGroup g fun r => { r with schedule := later }).time = s.time := rfl
    rw [exec_startSlot running, slot]
    generalize (s.modGroup g fun r => { r with schedule := later }) = s1 at *
    rw [← same] at resting idle ⊢
    rw [← denial, ← time]
    refine ⟨fun permitted due fresh l hl => ?_, fun permitted early => ?_, fun denied two => ?_, fun denied one => ?_,
      fun denied => ?_, fun denied => ?_⟩
    · subst hl
      have queue2 : ((s1.energize i (s.group g).direction).group g).queue = m :: rest := by
        rw [State.group, State.groups_energize_of_fresh _ fresh]; exact queue1
      rw [State.energizeRequest_of_due resting permitted idle due, State.startAnswer_taken queue2 starting,
        State.memberStarted_of_queue queue2 starting]
      rfl
    · rw [State.energizeRequest_of_early resting permitted idle early, State.startAnswer_held]
    · rw [State.energizeRequest_of_denied resting denied, State.startAnswer_switch queue1 starting, if_pos two]
    · rw [State.energizeRequest_of_denied resting denied, State.startAnswer_switch queue1 starting,
        if_neg (Nat.not_le.mpr one)]
    · rw [State.energizeRequest_of_denied resting denied, State.startAnswer_permit queue1 starting]
    · obtain ⟨c, named, withdrawn⟩ : ∃ c, s1.denial i (s.group g).direction = some c ∧
          (c = .fault ∨ c = .estop ∨ c = .notActive) := by
        rcases denied with h | h | h
        · exact ⟨_, h, .inl rfl⟩
        · exact ⟨_, h, .inr (.inl rfl)⟩
        · exact ⟨_, h, .inr (.inr rfl)⟩
      rw [State.energizeRequest_of_denied resting named, State.startAnswer_withdrawn s1 g i withdrawn]

end Sys2Proof.Machine
end

section
/-! The pending energize comes due (R46, R94, R95, R117, R119, R120). -/

namespace Sys2Proof.Machine

section
variable {s : State} {i : PointIdx} {d : Dir}

theorem State.pendingEnergizeDue_of_waiting
    (wait : ∀ d, (s.point i).channel.pending = some d → s.time < (s.point i).energizeDue d) :
    s.pendingEnergizeDue i = s := by
  have held : (s.point i).channel.pending.any (s.waitElapsed i) = false := by
    cases h : (s.point i).channel.pending with
    | none => rfl
    | some d => exact decide_eq_false (Nat.not_le.mpr (wait d h))
  exact if_neg (Bool.eq_false_iff.mp held)

theorem State.pendingEnergizeDue_of_due (pending : (s.point i).channel.pending = some d)
    (due : (s.point i).energizeDue d ≤ s.time) : s.pendingEnergizeDue i = s.pendingDue i :=
  if_pos (by rw [pending]; exact decide_eq_true due)

theorem State.pendingDue_of_permitted {e : RunEntry} (pending : (s.point i).channel.pending = some d)
    (entry : (s.groupOf i).entry i = some e) (permitted : s.denial i d = none) :
    s.pendingDue i = (s.energize i d).dueAnswer i e.started .taken := by
  simp only [State.pendingDue, pending, entry, permitted, Option.any_some]

theorem State.pendingDue_of_denied {e : RunEntry} {c : Denial} (pending : (s.point i).channel.pending = some d)
    (entry : (s.groupOf i).entry i = some e) (denied : s.denial i d = some c) :
    s.pendingDue i = (s.dropPending i).dueAnswer i e.started (.dropped c) := by
  simp only [State.pendingDue, pending, entry, denied, Option.any_some]

end

theorem State.dueAnswer_unstarted (s : State) (i : PointIdx) (a : Answer) :
    s.dueAnswer i false a = s.startAnswer (s.point i).group i a := rfl

theorem State.dueAnswer_rejoined (s : State) (i : PointIdx) :
    s.dueAnswer i true .taken =
      (s.modEntry (s.point i).group i fun e => { e with settled := false }).evaluate (s.point i).group := by
  rw [State.dueAnswer, if_pos rfl]

theorem State.dueAnswer_rejoinDropped (s : State) (i : PointIdx) (c : Denial) :
    s.dueAnswer i true (.dropped c) = (s.evaluate (s.point i).group).rejoinDropped (s.point i).group i c := by
  rw [State.dueAnswer, if_pos rfl]

theorem State.rejoinDropped_of_inactive {s : State} {g : GroupIdx} (inactive : (s.group g).headIs MoveState.driving = false)
    (i : PointIdx) (c : Denial) : s.rejoinDropped g i c = s :=
  if_neg (Bool.eq_false_iff.mp inactive)

theorem State.rejoinDropped_switch {s : State} {g : GroupIdx} (active : (s.group g).headIs MoveState.driving = true)
    (i : PointIdx) : s.rejoinDropped g i .switch = s.trip g .limit (some i) :=
  if_pos active

theorem State.rejoinDropped_other {s : State} {g : GroupIdx} (active : (s.group g).headIs MoveState.driving = true)
    (i : PointIdx) {c : Denial} (other : c ≠ .switch) :
    s.rejoinDropped g i c = s.modEntry g i fun e => { e with gated := true } :=
  (if_pos active).trans (if_neg other)

/-- Settles O35: `State.pendingDue` by the permission test, and its answer by whether the member had started. -/
theorem pendingEnergizeComesDue : Obligations.PendingEnergizeComesDue := by
  refine ⟨fun s i running => ⟨fun wait => ?_, fun d pending due => ?_⟩, ?_⟩
  · rw [exec_pendingEnergizeDue running, State.pendingEnergizeDue_of_waiting wait]
  · rw [exec_pendingEnergizeDue running, State.pendingEnergizeDue_of_due pending due]
  rintro s g i d e running rfl pending due entry
  rw [exec_pendingEnergizeDue running, State.pendingEnergizeDue_of_due pending due]
  have dropped : ∀ c, s.denial i d = some c → s.pendingDue i = (s.dropPending i).dueAnswer i e.started (.dropped c) :=
    fun c denied => State.pendingDue_of_denied pending entry denied
  have member : ((s.dropPending i).point i).group = (s.point i).group := ((s.dropPending_moved i).points i).group
  refine ⟨?_, ?_, ?_, ?_, ?_⟩
  · rintro m rest l permitted fresh started queue starting rfl
    have energized : ((s.energize i d).point i).group = (s.point i).group := ((s.energize_moved i d).points i).group
    have queue' : ((s.energize i d).group (s.point i).group).queue = m :: rest := by
      rw [State.group, State.groups_energize_of_fresh d fresh]; exact queue
    rw [State.pendingDue_of_permitted pending entry permitted, started, State.dueAnswer_unstarted, energized,
      State.startAnswer_taken queue' starting, State.memberStarted_of_queue queue' starting]
    rfl
  · intro permitted started
    have energized : ((s.energize i d).point i).group = (s.point i).group := ((s.energize_moved i d).points i).group
    rw [State.pendingDue_of_permitted pending entry permitted, started, State.dueAnswer_rejoined, energized]
  · rintro m rest s1 started queue starting rfl
    refine ⟨fun denied two => ?_, fun denied one => ?_, fun denied => ?_⟩
    all_goals rw [dropped _ denied, started, State.dueAnswer_unstarted, member]
    · exact congrArg _ ((State.startAnswer_switch (s := s.dropPending i) queue starting).trans (if_pos two))
    · exact congrArg _ ((State.startAnswer_switch (s := s.dropPending i) queue starting).trans
        (if_neg (Nat.not_le.mpr one)))
    · exact congrArg _ (State.startAnswer_permit (s := s.dropPending i) queue starting)
  · intro c u started denied evaluated
    have answered : s.pendingDue i =
        ((s.dropPending i).evaluate (s.point i).group).rejoinDropped (s.point i).group i c := by
      rw [dropped _ denied, started, State.dueAnswer_rejoinDropped, member]
    rw [State.dropPending] at answered
    rw [answered, ← evaluated]
    refine ⟨fun inactive => ?_, fun active switch => ?_, fun active other => ?_⟩
    · exact congrArg _ (State.rejoinDropped_of_inactive inactive i c)
    · subst switch; exact congrArg _ (State.rejoinDropped_switch active i)
    · exact congrArg _ (State.rejoinDropped_other active i other)
  · rintro (denied | denied) started
    · rw [dropped _ denied, started, State.dueAnswer_unstarted, State.startAnswer_withdrawn _ _ _ (.inl rfl)]
      rfl
    · rw [dropped _ denied, started, State.dueAnswer_unstarted, State.startAnswer_withdrawn _ _ _ (.inr (.inl rfl))]
      rfl

end Sys2Proof.Machine
end

section
/-! The settled event of a member, and the end test after it (R53, R54, R98, R121 to R123). -/

namespace Sys2Proof.Machine

/-! ## The end of the head move -/

section
variable {s : State} {g : GroupIdx} {m : Move} {rest : List Move}

theorem State.endHead_unnamed (queue : (s.group g).queue = m :: rest) (o : Outcome) (l : List (PointIdx × Int)) :
    s.endHead g o none l =
      (s.produce (some g) (.moveEnded o m.tag m.body.kind m.body.point l)).modGroup g fun r => r.without rest := by
  have head : s.endHead g o none l = (s.produce (some g) (m.endedBody o none l)).modGroup g Group.dropHead := by
    rw [State.endHead, Group.head_of_queue queue]
  rw [head, Move.endedBody, Option.or_none]
  refine State.modGroup_congr ?_
  rw [State.group_produce, Group.dropHead_of_queue queue]
  rfl

theorem State.holdHead_of_queue (queue : (s.group g).queue = m :: rest) :
    s.holdHead g m = (s.modGroup g fun r => { r with queue := { m with state := .held } :: rest }).produce (some g)
      (.moveHeld (s.group g).stopReason m.tag m.body.kind m.body.point) := by
  have held : (s.modGroup g fun r => r.modHead fun m => { m with state := .held }) =
      s.modGroup g fun r => { r with queue := { m with state := .held } :: rest } :=
    State.modGroup_congr (Group.modHead_of_queue queue _)
  rw [State.holdHead, held]

variable (queue : (s.group g).queue = m :: rest) (stopping : m.state = .stopping)
include queue stopping

theorem State.endTest_waiting (waits : ∃ x ∈ m.runList, x.settled = false) : s.endTest g = s :=
  State.endTest_unsettled queue (Move.allSettled_eq_false waits)

variable (settled : ∀ x ∈ m.runList, x.settled = true)
include settled

theorem State.endTest_limit (mark : m.endMark = some .limit) : s.endTest g =
    (s.produce (some g) (.moveEnded .limit m.tag m.body.kind m.body.point [])).modGroup g fun r => r.without rest := by
  rw [State.endTest_settled queue stopping ((Move.allSettled_iff m).mpr settled), mark]
  exact State.endHead_unnamed queue _ _

theorem State.endTest_softLimit (mark : m.endMark = some .softLimit) : s.endTest g =
    (s.produce (some g) (.moveEnded .softLimit m.tag m.body.kind m.body.point [])).modGroup g fun r =>
      r.without rest := by
  rw [State.endTest_settled queue stopping ((Move.allSettled_iff m).mpr settled), mark]
  exact State.endHead_unnamed queue _ _

variable (mark : m.endMark = none)
include mark

theorem State.endTest_jog (jog : m.body.kind.jog = true) : s.endTest g =
    (s.produce (some g) (.moveEnded .jogStopped m.tag m.body.kind m.body.point [])).modGroup g fun r =>
      r.without rest := by
  rw [State.endTest_settled queue stopping ((Move.allSettled_iff m).mpr settled), mark]
  exact (if_pos jog).trans (State.endHead_unnamed queue _ _)

theorem State.endTest_arrived (target : m.body.kind.jog = false) (released : ∀ x ∈ m.runList, x.released = true) :
    s.endTest g = (s.produce (some g) (.moveEnded .arrived m.tag m.body.kind m.body.point
      (m.runList.map fun x => (x.point, x.arrivalError.getD 0)))).modGroup g fun r => r.without rest := by
  rw [State.endTest_settled queue stopping ((Move.allSettled_iff m).mpr settled), mark]
  exact (if_neg (Bool.eq_false_iff.mp target)).trans
    ((if_pos ((Move.allReleased_iff m).mpr released)).trans (State.endHead_unnamed queue _ _))

theorem State.endTest_held (target : m.body.kind.jog = false) (unreleased : ∃ x ∈ m.runList, x.released = false) :
    s.endTest g = (s.modGroup g fun r => { r with queue := { m with state := .held } :: rest }).produce (some g)
      (.moveHeld (s.group g).stopReason m.tag m.body.kind m.body.point) := by
  have passed := State.endTest_settled queue stopping ((Move.allSettled_iff m).mpr settled)
  rw [mark] at passed
  exact passed.trans ((if_neg (Bool.eq_false_iff.mp target)).trans
    ((if_neg (Bool.eq_false_iff.mp (Move.allReleased_eq_false unreleased))).trans (State.holdHead_of_queue queue)))

end

/-! ## The settled event -/

section
variable {s : State} {g : GroupIdx} {i : PointIdx} {m : Move} {rest : List Move}

theorem State.settledEvent_of_outside (outside : s.inActiveMove i = false) : s.settledEvent i = s :=
  if_neg (Bool.eq_false_iff.mp outside)

theorem State.learnAtSettle_unreleased (unreleased : ∀ e, (s.group g).entry i = some e → e.released = false) :
    s.learnAtSettle g i = s := by
  rw [State.learnAtSettle]
  cases entry : (s.group g).entry i with
  | none => rfl
  | some e => exact if_neg (by simp [unreleased e entry])

theorem State.learnAtSettle_of_released {e : RunEntry} (entry : (s.group g).entry i = some e)
    (released : e.released = true) (fresh : e.arrivalError = none) :
    s.learnAtSettle g i = s.learnCoast i (s.group g).direction e := by
  rw [State.learnAtSettle, entry]
  exact if_pos (by rw [released, fresh]; rfl)

theorem State.modEntry_of_queue (queue : (s.group g).queue = m :: rest) (i : PointIdx) (f : RunEntry → RunEntry) :
    s.modEntry g i f = s.modGroup g fun r => { r with queue := { m with runList := replaced m.runList i f } :: rest } :=
  State.modGroup_congr (Group.modHead_of_queue queue _)

theorem MoveState.active_of {x : MoveState} (driving : x.driving = true) : x.active = true := by
  cases x with
  | stopping => rfl
  | starting | running | queued | held => exact driving

variable {u : State} {l : List RunEntry}

/-- The settled event of a member, of whose learning the state u is the outcome (R54, R121). -/
theorem State.settledEvent_of_member (member : (s.point i).group = g) (queue : (s.group g).queue = m :: rest)
    (inside : (s.group g).inRunList i = true) (learned : s.learnAtSettle g i = u) (record : u.group g = s.group g)
    (entries : (m.runList.map fun x => if x.point = i then x.settle (s.group g).direction (s.positionOf i) else x) = l) :
    (m.state.driving = true → s.settledEvent i =
      (u.modGroup g fun r => { r with queue := { m with runList := l } :: rest }).evaluate g) ∧
    (m.state = .stopping → s.settledEvent i =
      (u.modGroup g fun r => { r with queue := { m with runList := l } :: rest }).endTest g) := by
  have recorded : s.recordSettle g i = u.modGroup g fun r => { r with queue := { m with runList := l } :: rest } := by
    rw [State.recordSettle, learned, State.modEntry_of_queue (record ▸ queue), ← entries]
    rfl
  have head : ((s.recordSettle g i).group g).headIs MoveState.driving = m.state.driving := by
    rw [recorded, State.group_modGroup_self]; rfl
  have event : m.state.active = true → s.settledEvent i =
      if ((s.recordSettle g i).group g).headIs MoveState.driving then (s.recordSettle g i).evaluate g
      else (s.recordSettle g i).endTest g := fun active => by
    have entered : s.inActiveMove i = true := by
      rw [State.inActiveMove, State.groupOf, member, inside, Group.headIs_of_queue queue, active]; rfl
    rw [State.settledEvent, if_pos entered, member]
  refine ⟨fun driving => ?_, fun stopping => ?_⟩
  · rw [event (MoveState.active_of driving), head, if_pos driving, recorded]
  · rw [event (by rw [stopping]; rfl), head, if_neg (by rw [stopping]; decide), recorded]

end

/-! ## The end of a settle (R8, R46, R53) -/

section
variable (s : State) (i : PointIdx)

theorem State.afterSettle_idle {u : State} {before : Point} (idle : (u.point i).channel.pending = none) :
    u.afterSettle i before = .next u := if_pos (.inr idle)

theorem State.rehearsing_inOff (c : Nat) :
    (s.setPoint i { (s.point i).inOff with coast := c }).rehearsing i = s.rehearsing i := by
  rw [State.rehearsing, State.groupOf, State.point_setPoint_self, State.group_setPoint]; rfl

theorem State.positionOf_inOff : (s.setPoint i (s.point i).inOff).positionOf i = s.positionOf i := by
  have live : (s.setPoint i (s.point i).inOff).rehearsing i = s.rehearsing i :=
    s.rehearsing_inOff i (s.point i).coast
  rw [State.positionOf, State.shadowOf, live, State.point_setPoint_self]
  rfl

end

/-- The settled event of an unreleased member whose channel reaches OFF (R54, R98, R121). -/
theorem State.settledEvent_inOff {s : State} {i : PointIdx} {g : GroupIdx} {m : Move} {rest : List Move}
    {l : List RunEntry} {s1 : State} {ended : Outcome → State} (hg : (s.point i).group = g)
    (queue : (s.group g).queue = m :: rest) (inside : (s.group g).inRunList i = true)
    (unreleased : ∀ x ∈ m.runList, x.point = i → x.released = false)
    (hl : l = (m.runList.map fun x => if x.point = i then
      { x with settled := true, progress := (s.group g).direction.sign * (s.positionOf i - x.start) } else x))
    (hs1 : s1 = ((s.setPoint i (s.point i).inOff).modGroup g fun r => { r with queue := { m with runList := l } :: rest }))
    (hended : ∀ o, ended o = (s1.produce (some g) (.moveEnded o m.tag m.body.kind m.body.point [])).modGroup g fun r =>
      r.without rest) :
    (m.state = .stopping → (∃ x ∈ l, x.settled = false) →
      (s.setPoint i (s.point i).inOff).settledEvent i = s1) ∧
    (m.state = .stopping → (∀ x ∈ l, x.settled = true) →
      (m.endMark = some .limit → (s.setPoint i (s.point i).inOff).settledEvent i = ended .limit) ∧
      (m.endMark = some .softLimit → (s.setPoint i (s.point i).inOff).settledEvent i = ended .softLimit) ∧
      (m.endMark = none → m.body.kind.jog = true →
        (s.setPoint i (s.point i).inOff).settledEvent i = ended .jogStopped) ∧
      (m.endMark = none → m.body.kind.jog = false →
        (s.setPoint i (s.point i).inOff).settledEvent i = (s1.modGroup g fun r =>
          { r with queue := { m with state := .held, runList := l } :: rest }).produce (some g)
            (.moveHeld (s.group g).stopReason m.tag m.body.kind m.body.point))) ∧
    ((m.state = .starting ∨ m.state = .running) →
      (s.setPoint i (s.point i).inOff).settledEvent i = s1.evaluate g) := by
  subst hs1
  have same : ((s.setPoint i (s.point i).inOff).point i).group = (s.point i).group := by
    rw [State.point_setPoint_self]; rfl
  have entries : (m.runList.map fun x => if x.point = i then
      x.settle (s.group g).direction ((s.setPoint i (s.point i).inOff).positionOf i) else x) = l := by
    rw [hl, State.positionOf_inOff]
    refine List.map_congr_left fun x mem => ?_
    by_cases own : x.point = i
    · rw [if_pos own, if_pos own, RunEntry.settle, unreleased x mem own]; rfl
    · rw [if_neg own, if_neg own]
  have learned : (s.setPoint i (s.point i).inOff).learnAtSettle g i = s.setPoint i (s.point i).inOff := by
    refine State.learnAtSettle_unreleased fun e entry => ?_
    rw [State.group_setPoint, Group.entry, Group.runList_of_queue queue] at entry
    exact unreleased e (List.mem_of_find?_eq_some entry) (by simpa using List.find?_some entry)
  obtain ⟨driven, stopped⟩ := State.settledEvent_of_member (same.trans hg) queue inside learned rfl entries
  have record : (((s.setPoint i (s.point i).inOff).modGroup g fun r =>
      { r with queue := { m with runList := l } :: rest }).group g).queue = { m with runList := l } :: rest := by
    rw [State.group_modGroup_self]
  have unfinished : ∃ x ∈ l, x.released = false := by
    obtain ⟨e, mem, own⟩ := (Group.inRunList_iff_exists _ i).mp inside
    rw [Group.runList_of_queue queue] at mem
    refine ⟨_, hl ▸ List.mem_map_of_mem mem, ?_⟩
    rw [if_pos own]
    exact unreleased e mem own
  refine ⟨fun stopping waits => ?_, fun stopping settled => ⟨fun mark => ?_, fun mark => ?_, fun mark jog => ?_,
    fun mark jog => ?_⟩, fun driving => ?_⟩
  · exact (stopped stopping).trans (State.endTest_waiting record stopping waits)
  · exact (stopped stopping).trans ((State.endTest_limit record stopping settled mark).trans (hended _).symm)
  · exact (stopped stopping).trans ((State.endTest_softLimit record stopping settled mark).trans (hended _).symm)
  · exact (stopped stopping).trans ((State.endTest_jog record stopping settled mark jog).trans (hended _).symm)
  · refine (stopped stopping).trans ((State.endTest_held record stopping settled mark jog unfinished).trans ?_)
    rw [State.group_modGroup_self]
    rfl
  · exact driven (MoveState.driving_of driving)

/-- Settles O38: the record in OFF by `exec_settleEnd_due`, and the settled event by `State.settledEvent_of_member` and the
end test. -/
theorem settleEndReachesOff : Obligations.SettleEndReachesOff := by
  rintro s i due q c running rfl timer elapsed hq
  have off : q = (s.point i).inOff := hq
  clear hq
  subst off
  rw [exec_settleEnd_due running timer elapsed]
  have same : ((s.setPoint i (s.point i).inOff).point i).group = (s.point i).group := by
    rw [State.point_setPoint_self]; rfl
  have quiet : ∀ b : Point, b.channel.pending = none → ((s.setPoint i b).point i).channel.pending = none :=
    fun b idle => by rw [State.point_setPoint_self]; exact idle
  have outside : s.inActiveMove i = false →
      (s.setPoint i (s.point i).inOff).settledEvent i = s.setPoint i (s.point i).inOff := fun inactive =>
    State.settledEvent_of_outside ((State.inActiveMove_congr same (State.group_setPoint s i _ _)).trans inactive)
  refine ⟨fun inactive => ?_, fun idle inactive => ?_, ?_, ?_⟩
  · rw [outside inactive]
  · rw [outside inactive, State.afterSettle_idle i (quiet (s.point i).inOff idle)]
  · intro g m rest e idle hg queue stopping mark single own unreleased
    have inside : (s.group g).inRunList i = true := by
      rw [Group.inRunList, Group.runList_of_queue queue, single]; simp [own]
    obtain ⟨-, passed, -⟩ := State.settledEvent_inOff (l :=
      [{ e with settled := true, progress := (s.group g).direction.sign * (s.positionOf i - e.start) }]) hg queue
      inside (by simp [single, unreleased]) (by simp [single, own]) rfl (fun _ => rfl)
    obtain ⟨-, -, jogged, held⟩ := passed stopping (by simp)
    refine ⟨fun jog => ?_, fun target => ?_⟩
    · rw [jogged mark jog, State.afterSettle_idle, State.produce_modGroup _ _ _ _ _ _ rfl, State.modGroup_modGroup]
      · rfl
      · exact quiet (s.point i).inOff idle
    · rw [held mark target, State.afterSettle_idle, State.modGroup_modGroup]
      exact quiet (s.point i).inOff idle
  · rintro g m rest l s1 ended hg queue inside unreleased hl hs1 hended
    obtain ⟨waiting, passed, driven⟩ :=
      State.settledEvent_inOff hg queue inside unreleased hl hs1 hended
    refine ⟨fun stopping waits => ?_, fun stopping settled => ?_, fun driving => ?_⟩
    · rw [waiting stopping waits]
    · obtain ⟨limit, softLimit, jogged, held⟩ := passed stopping settled
      refine ⟨fun mark => ?_, fun mark => ?_, fun mark jog => ?_, fun mark jog => ?_⟩
      · rw [limit mark]
      · rw [softLimit mark]
      · rw [jogged mark jog]
      · rw [held mark jog]
    · rw [driven driving]

end Sys2Proof.Machine
end

section
/-! The settled event of a released member: coast learning and the arrival (R121 to R123). -/

namespace Sys2Proof.Machine

section
variable {s : State} {i : PointIdx} {e : RunEntry} {d : Dir}

theorem State.learnCoast_of_unmeasured (live : s.rehearsing i = true ∨ e.releasePos = none) : s.learnCoast i d e = s := by
  rw [State.learnCoast]
  cases pos : e.releasePos with
  | none => rfl
  | some rp => exact if_pos (live.resolve_right (by rw [pos]; exact nofun))

theorem State.learnCoast_of_measured {rp : Int} (live : s.rehearsing i = false) (pos : e.releasePos = some rp) :
    s.learnCoast i d e = s.modPoint i fun p =>
      { p with coast := roundDiv (3 * p.coast + (max 0 (min 2000 (d.sign * (s.positionOf i - rp)))).toNat) 4 } := by
  have measured : measuredCoast d (s.positionOf i) rp = (max 0 (min 2000 (d.sign * (s.positionOf i - rp)))).toNat :=
    clampNat_eq (by decide) _
  rw [State.learnCoast, pos, ← measured]
  exact if_neg (Bool.eq_false_iff.mp live)

theorem RunEntry.settle_of_released {v : Int} (released : e.released = true) (fresh : e.arrivalError = none)
    (target : e.target = some v) (x : Int) : e.settle d x =
      { e with
        settled := true, progress := d.sign * (x - e.start)
        arrivalError := some (max (-32768) (min 32767 (x - v))) } := by
  rw [RunEntry.settle, released, fresh, target]
  simp only [Option.isNone_none, Bool.and_true, if_true, Option.map_some, arrivalErrorOf,
    clampInt_eq _ _ _ (show (-32768 : Int) ≤ 32767 by decide), progressAt]

end

theorem Group.entry_of_unique {r : Group} {m : Move} {rest : List Move} {e : RunEntry} (queue : r.queue = m :: rest)
    (mem : e ∈ m.runList) (unique : ∀ k ∈ m.runList, k.point = e.point → k = e) : r.entry e.point = some e := by
  rw [Group.entry, Group.runList_of_queue queue]
  cases found : m.runList.find? (·.point == e.point) with
  | none => exact absurd (List.find?_eq_none.mp found e mem) (by simp)
  | some k => rw [unique k (List.mem_of_find?_eq_some found) (by simpa using List.find?_some found)]

section
variable {s : State} {i : PointIdx} {g : GroupIdx} {e : RunEntry} {coast : Nat}
  (hg : (s.point i).group = g) (entry : (s.group g).entry i = some e) (released : e.released = true)
  (fresh : e.arrivalError = none)
  (learned : ∀ rp, (s.group g).rehearsal = false → e.releasePos = some rp → coast =
    roundDiv (3 * (s.point i).coast +
      (max 0 (min 2000 ((s.group g).direction.sign * (s.positionOf i - rp)))).toNat) 4)
  (kept : ((s.group g).rehearsal = true ∨ e.releasePos = none) → coast = (s.point i).coast)
include hg entry released fresh learned kept

/-- The record of a released member after its settled event has taught its coast (R122). -/
theorem State.learnAtSettle_inOff :
    (s.setPoint i (s.point i).inOff).learnAtSettle g i = s.setPoint i { (s.point i).inOff with coast := coast } := by
  have rehearses : (s.setPoint i (s.point i).inOff).rehearsing i = (s.group g).rehearsal := by
    rw [← hg]; exact s.rehearsing_inOff i (s.point i).coast
  rw [State.learnAtSettle_of_released (s := s.setPoint i (s.point i).inOff) entry released fresh]
  by_cases unmeasured : (s.group g).rehearsal = true ∨ e.releasePos = none
  · rw [State.learnCoast_of_unmeasured (rehearses ▸ unmeasured), kept unmeasured]
    rfl
  · rw [not_or] at unmeasured
    obtain ⟨live, measured⟩ := unmeasured
    obtain ⟨rp, pos⟩ := Option.ne_none_iff_exists'.mp measured
    have live' := Bool.eq_false_iff.mpr live
    rw [State.learnCoast_of_measured (rehearses.trans live') pos, State.modPoint_setPoint, State.positionOf_inOff,
      learned rp live' pos]
    rfl

end

/-- The settled event of a released member whose channel reaches OFF (R98, R121, R123). -/
theorem State.settledEvent_released {s : State} {i : PointIdx} {g : GroupIdx} {m : Move} {rest : List Move}
    {e : RunEntry} {v : Int} {coast : Nat} {l : List RunEntry} {s1 : State}
    {ended : Outcome → List (PointIdx × Int) → State} (hg : (s.point i).group = g)
    (queue : (s.group g).queue = m :: rest) (target : m.body.kind.jog = false) (mem : e ∈ m.runList) (own : e.point = i)
    (unique : ∀ k ∈ m.runList, k.point = i → k = e) (released : e.released = true) (fresh : e.arrivalError = none)
    (goal : e.target = some v)
    (learned : ∀ rp, (s.group g).rehearsal = false → e.releasePos = some rp → coast =
      roundDiv (3 * (s.point i).coast +
        (max 0 (min 2000 ((s.group g).direction.sign * (s.positionOf i - rp)))).toNat) 4)
    (kept : ((s.group g).rehearsal = true ∨ e.releasePos = none) → coast = (s.point i).coast)
    (hl : l = (m.runList.map fun k => if k.point = i then
      { k with
        settled := true, progress := (s.group g).direction.sign * (s.positionOf i - k.start)
        arrivalError := some (max (-32768) (min 32767 (s.positionOf i - v))) } else k))
    (hs1 : s1 = ((s.setPoint i { (s.point i).inOff with coast := coast }).modGroup g fun r =>
      { r with queue := { m with runList := l } :: rest }))
    (hended : ∀ o pairs, ended o pairs =
      (s1.produce (some g) (.moveEnded o m.tag m.body.kind m.body.point pairs)).modGroup g fun r => r.without rest) :
    ((m.state = .starting ∨ m.state = .running) →
      (s.setPoint i (s.point i).inOff).settledEvent i = s1.evaluate g) ∧
    (m.state = .stopping → (∃ k ∈ l, k.settled = false) → (s.setPoint i (s.point i).inOff).settledEvent i = s1) ∧
    (m.state = .stopping → (∀ k ∈ l, k.settled = true) →
      (m.endMark = some .limit → (s.setPoint i (s.point i).inOff).settledEvent i = ended .limit []) ∧
      (m.endMark = some .softLimit → (s.setPoint i (s.point i).inOff).settledEvent i = ended .softLimit []) ∧
      (m.endMark = none → (∀ k ∈ l, k.released = true) → (s.setPoint i (s.point i).inOff).settledEvent i =
        ended .arrived (l.map fun k => (k.point, k.arrivalError.getD 0))) ∧
      (m.endMark = none → (∃ k ∈ l, k.released = false) → (s.setPoint i (s.point i).inOff).settledEvent i =
        (s1.modGroup g fun r => { r with queue := { m with state := .held, runList := l } :: rest }).produce
          (some g) (.moveHeld (s.group g).stopReason m.tag m.body.kind m.body.point))) := by
  subst hs1
  have same : ((s.setPoint i (s.point i).inOff).point i).group = (s.point i).group := by
    rw [State.point_setPoint_self]; rfl
  have entries : (m.runList.map fun k => if k.point = i then
      k.settle (s.group g).direction ((s.setPoint i (s.point i).inOff).positionOf i) else k) = l := by
    rw [hl, State.positionOf_inOff]
    refine List.map_congr_left fun k hk => ?_
    by_cases mine : k.point = i
    · rw [if_pos mine, if_pos mine, unique k hk mine, RunEntry.settle_of_released released fresh goal]
    · rw [if_neg mine, if_neg mine]
  have entry : (s.group g).entry i = some e := own ▸ Group.entry_of_unique queue mem (own.symm ▸ unique)
  have inside : (s.group g).inRunList i = true := Group.inRunList_of_entry entry
  obtain ⟨driven, stopped⟩ := State.settledEvent_of_member (same.trans hg) queue inside
    (State.learnAtSettle_inOff hg entry released fresh learned kept) rfl entries
  have record : (((s.setPoint i { (s.point i).inOff with coast := coast }).modGroup g fun r =>
      { r with queue := { m with runList := l } :: rest }).group g).queue = { m with runList := l } :: rest := by
    rw [State.group_modGroup_self]
  refine ⟨fun driving => driven (MoveState.driving_of driving), fun stopping waits => ?_,
    fun stopping settled => ⟨fun mark => ?_, fun mark => ?_, fun mark all => ?_, fun mark some => ?_⟩⟩
  · exact (stopped stopping).trans (State.endTest_waiting record stopping waits)
  · exact (stopped stopping).trans ((State.endTest_limit record stopping settled mark).trans (hended _ _).symm)
  · exact (stopped stopping).trans ((State.endTest_softLimit record stopping settled mark).trans (hended _ _).symm)
  · exact (stopped stopping).trans ((State.endTest_arrived record stopping settled mark target all).trans
      (hended _ _).symm)
  · refine (stopped stopping).trans ((State.endTest_held record stopping settled mark target some).trans ?_)
    rw [State.group_modGroup_self]
    rfl

/-- Settles O44: the learning by `State.learnAtSettle_inOff`, and the settled event by `State.settledEvent_released`. -/
theorem arrivalIsLearnedAndReported : Obligations.ArrivalIsLearnedAndReported := by
  constructor
  · rintro s i due g m rest e v rp q measured running rfl timer elapsed idle unstaged hg live queue stopping mark target
      single own released fresh goal pos rfl
    have real : s.positionOf i = (s.point i).capture.position :=
      (State.positionOf_of_noShadow (.inl (by rw [State.rehearsing, State.groupOf, hg, live]))).1
    obtain ⟨-, -, passed⟩ := State.settledEvent_released (v := v) (coast := roundDiv (3 * (s.point i).coast +
        (max 0 (min 2000 ((s.group g).direction.sign * ((s.point i).capture.position - rp)))).toNat) 4)
      (l := [{ e with
        settled := true, progress := (s.group g).direction.sign * (s.positionOf i - e.start)
        arrivalError := some (max (-32768) (min 32767 (s.positionOf i - v))) }]) hg queue target
      (by simp [single]) own (by simp [single]) released fresh goal
      (fun rp' _ pos' => by rw [Option.some.inj (pos'.symm.trans pos), real])
      (fun h => by simp [live, pos] at h) (by simp [single, own]) rfl (fun _ _ => rfl)
    obtain ⟨-, -, arrived, -⟩ := passed stopping (by simp)
    have off : (s.point i).inOff =
        { s.point i with channel := { (s.point i).channel with state := .off, settleDue := none } } := by
      rw [Point.inOff, unstaged]
      simp only [← unstaged]
    rw [exec_settleEnd_due running timer elapsed, arrived mark (by simp [released]), State.afterSettle_idle,
      State.produce_modGroup _ _ _ _ _ _ rfl, State.modGroup_modGroup, off, List.map_singleton, own, real]
    · rfl
    · rw [State.point_modGroup, State.point_produce, State.point_modGroup, State.point_setPoint_self, off]
      exact idle
  · rintro s i due g m rest e v x q coast l s1 ended running rfl timer elapsed hg rfl queue target mem own unique released
      fresh goal learned kept hl hs1 hended
    obtain ⟨driven, waiting, passed⟩ := State.settledEvent_released hg queue target mem own unique released fresh goal
      learned kept hl hs1 hended
    rw [exec_settleEnd_due running timer elapsed]
    refine ⟨fun driving => ?_, fun stopping waits => ?_, fun stopping settled => ?_⟩
    · rw [driven driving]
    · rw [waiting stopping waits]
    · obtain ⟨limit, softLimit, arrived, held⟩ := passed stopping settled
      refine ⟨fun mark => ?_, fun mark => ?_, fun mark all => ?_, fun mark some => ?_⟩
      · rw [limit mark]
      · rw [softLimit mark]
      · rw [arrived mark all]
      · rw [held mark some]

end Sys2Proof.Machine
end

section
/-! Evaluations in which a stage ends the move or none acts (R108 to R111). -/

namespace Sys2Proof.Machine

/-! ## Stages that do not act -/

section
variable {s : State} {g : GroupIdx} {i : PointIdx} {m : Move} {rest : List Move}

theorem Group.running_driving {r : Group} (parked : r.headIs MoveState.driving = false) : r.headIs isRunning = false := by
  cases queue : r.queue with
  | nil => rw [Group.headIs, queue]
  | cons m rest =>
    rw [Group.headIs_of_queue queue] at parked ⊢
    cases state : m.state with
    | running => rw [state] at parked; exact absurd parked (by decide)
    | starting | stopping | held | queued => rfl

theorem State.stageSkew_of_parked (parked : (s.group g).headIs MoveState.driving = false) : s.stageSkew g = s := by
  simp [State.stageSkew, Group.running_driving parked]

theorem State.coastMember_of_parked (parked : (s.group g).headIs MoveState.driving = false) (i : PointIdx) :
    s.coastMember g i = s := by
  simp only [State.coastMember]
  split
  next m e head entry =>
    have stopped : m.state.driving = false := by
      obtain ⟨rest, queue⟩ := List.head?_eq_some_iff.mp head
      rwa [Group.headIs_of_queue queue] at parked
    split
    next => exact if_pos (by simp [stopped])
    next => rfl
  next => rfl

theorem State.stageCoast_of_fixed (fixed : ∀ i ∈ s.runPoints g, s.coastMember g i = s) : s.stageCoast g = s :=
  foldl_of_fixed (fun t i => t.coastMember g i) _ s fixed

/-- An evaluation's stages 3 to 5 do not act on a move that no longer drives (R108). -/
theorem State.laterStages_of_parked (parked : (s.group g).headIs MoveState.driving = false) :
    ((s.stageCoast g).stageAllReleased g).stageGate g = s := by
  rw [State.stageCoast_of_fixed fun i _ => State.coastMember_of_parked parked i]
  have all : s.stageAllReleased g = s := by simp [State.stageAllReleased, parked]
  rw [all, State.stageGate_of_not_running (Group.running_driving parked)]

variable (queue : (s.group g).queue = m :: rest)
include queue

theorem State.coastMember_of_jog (jog : m.body.kind.jog = true) (i : PointIdx) : s.coastMember g i = s := by
  simp only [State.coastMember]
  split
  next m' e head entry =>
    have same : m' = m := Option.some.inj (head.symm.trans (Group.head_of_queue queue))
    split
    next => exact if_pos (by simp [same, jog])
    next => rfl
  next => rfl

theorem State.stageAllReleased_of_unreleased (unreleased : ∃ e ∈ m.runList, e.released = false) :
    s.stageAllReleased g = s := by
  simp [State.stageAllReleased, Group.head_of_queue queue, Move.allReleased_eq_false unreleased]

theorem State.stageGate_of_unsynchronised (alone : m.synchronised = false) : s.stageGate g = s := by
  simp [State.stageGate, Group.synchronised, Group.head_of_queue queue, alone]

theorem State.stageJog_of_bound (driving : m.state.driving = true) (jog : m.body.kind.jog = true)
    (bound : m.runList.any (s.atJogBound (s.group g).direction) = true) :
    s.stageJog g = s.enterStopping g none (some .softLimit) := by
  refine if_pos ?_
  rw [Group.headIs_of_queue queue, driving, Group.head_of_queue queue, Group.runList_of_queue queue, bound, Option.any_some,
    jog]
  rfl

theorem State.stageJog_of_inside (inside : m.runList.any (s.atJogBound (s.group g).direction) = false) :
    s.stageJog g = s := by
  simp [State.stageJog, Group.runList_of_queue queue, inside]

end

/-! ## A count arrival (R25, R106, R109) -/

section
variable {s : State} {i : PointIdx} {m : Move} {rest : List Move} {e : RunEntry}

theorem State.countArrival_of_active (queue : (s.groupOf i).queue = m :: rest) (entry : (s.groupOf i).entry i = some e)
    (active : m.state.active = true) :
    s.countArrival i = if m.state.driving then (s.updateProgress i).evaluate (s.point i).group else s.updateProgress i := by
  have entered : s.inActiveMove i = true := by
    rw [State.inActiveMove, Group.inRunList_of_entry entry, Group.headIs_of_queue queue, active]; rfl
  have head : ((s.updateProgress i).group (s.point i).group).headIs MoveState.driving = m.state.driving := by
    rw [State.updateProgress_of_active (by rw [Group.headIs_of_queue queue, active]), Group.headIs_modEntry]
    exact Group.headIs_of_queue queue _
  refine (if_pos entered).trans ?_
  dsimp only
  rw [head]

theorem State.countArrival_of_inactive (queue : (s.groupOf i).queue = m :: rest) (resting : m.state.active = false) :
    s.countArrival i = s := by
  refine if_neg ?_
  rw [State.inActiveMove, Group.headIs_of_queue queue, resting, Bool.and_false]
  exact Bool.false_ne_true

end

/-! ## The skew trip (R110) -/

section
variable {s : State} {g : GroupIdx} {m : Move} {rest : List Move} {e x : RunEntry}

theorem two_le_length_of_ne {α : Type} {l : List α} {x y : α} (hx : x ∈ l) (hy : y ∈ l) (ne : x ≠ y) : 2 ≤ l.length := by
  match l with
  | [] => exact absurd hx List.not_mem_nil
  | [z] =>
    rw [List.mem_singleton] at hx hy
    exact absurd (hx.trans hy.symm) ne
  | _ :: _ :: l => exact Nat.le_add_left 2 l.length

theorem State.stageSkew_beyond (queue : (s.group g).queue = m :: rest) (running : m.state = .running)
    (group : m.body.kind.ofGroup = true) (sorted : m.runList.Pairwise (fun x y => x.point < y.point)) (mem : e ∈ m.runList)
    (lowest : ∀ x ∈ m.runList, e.progress ≤ x.progress ∧ (x.progress = e.progress → e.point ≤ x.point))
    (ahead : x ∈ m.runList) (wide : ((s.group g).tripBand : Int) < x.progress - e.progress) :
    s.stageSkew g = s.trip g .skew (some e.point) := by
  have two : 2 ≤ m.runList.length := two_le_length_of_ne ahead mem fun same => by rw [same] at wide; omega
  have synchronised : (s.group g).synchronised = true := by
    rw [Group.synchronised, Group.head_of_queue queue, Option.any_some, Move.synchronised, group, Bool.true_and]
    exact decide_eq_true two
  have spread : ((s.group g).tripBand : Int) < spread (s.group g).runList := by
    rw [Group.runList_of_queue queue]
    have most := le_maxProgress ahead
    have least := minProgress_eq mem fun y hy => (lowest y hy).1
    unfold Sys2Proof.Machine.spread
    omega
  refine (if_pos ?_).trans ?_
  · rw [Group.headIs_of_queue queue, running, synchronised, decide_eq_true spread]; rfl
  · rw [Group.runList_of_queue queue, laggard_eq sorted mem lowest]

end

/-- Settles O41: the arrival by the state of the move, the jog bound and the skew trip by the stage that acts, after which
no later stage does. -/
theorem countsAreEvaluatedAndSkewTrips : Obligations.CountsAreEvaluatedAndSkewTrips := by
  refine ⟨?_, ?_, ?_⟩
  · rintro s i g m rest e u rfl queue entry rfl
    have updated : m.state.active = true → s.updateProgress i = s.modEntry (s.point i).group i fun x =>
        { x with progress := (s.group (s.point i).group).direction.sign * (s.positionOf i - x.start) } := fun active =>
      State.updateProgress_of_active (by rw [State.groupOf, Group.headIs_of_queue queue, active])
    refine ⟨fun driving => ?_, fun stopping => ?_, fun resting => ?_⟩
    · have drives := MoveState.driving_of driving
      rw [State.countArrival_of_active queue entry (MoveState.active_of drives), if_pos drives,
        updated (MoveState.active_of drives)]
    · have active : m.state.active = true := by rw [stopping]; rfl
      rw [State.countArrival_of_active queue entry active, if_neg (by rw [stopping]; decide), updated active]
    · exact State.countArrival_of_inactive queue (by rcases resting with state | state <;> rw [state] <;> rfl)
  · rintro s g m rest ahead lawful queue driving jog hahead within
    have distance : ∀ i, s.jogDistance i (s.group g).direction = ahead i := fun i => (hahead i).symm
    rw [State.evaluate, State.stageSkew_within queue within]
    refine ⟨fun e mem referenced near => ?_, fun e single unreleased far => ?_⟩
    · have bound : m.runList.any (s.atJogBound (s.group g).direction) = true := by
        refine List.any_eq_true.mpr ⟨e, mem, ?_⟩
        rw [State.atJogBound, referenced, distance, decide_eq_true near]
        rfl
      rw [State.stageJog_of_bound queue (MoveState.driving_of driving) jog bound]
      exact State.laterStages_of_parked (State.enterStopping_cuts lawful g _ _).2
    · have inside : m.runList.any (s.atJogBound (s.group g).direction) = false := by
        rw [single, List.any_cons, List.any_nil, Bool.or_false, State.atJogBound, distance]
        cases referenced : s.referencedOf e.point with
        | false => rfl
        | true => exact decide_eq_false (Int.not_le.mpr (far referenced))
      rw [State.stageJog_of_inside queue inside,
        State.stageCoast_of_fixed fun i _ => State.coastMember_of_jog queue jog i,
        State.stageAllReleased_of_unreleased queue ⟨e, by rw [single]; exact List.mem_singleton_self e, unreleased⟩,
        State.stageGate_of_unsynchronised queue]
      rw [Move.synchronised, single]
      exact Bool.and_false _
  · rintro s g m rest e untripped queue running group sorted mem lowest ⟨x, ahead, wide⟩
    rw [State.evaluate, State.stageSkew_beyond queue running group sorted mem lowest ahead wide]
    exact State.stages_of_empty _ g (State.trip_queue s g .skew _ untripped)

end Sys2Proof.Machine
end

section
/-! One member in stages 3 and 5 of an evaluation (R48, R112, R113, R115 to R117). -/

namespace Sys2Proof.Machine

/-! ## Stage 3 at one member -/

section
variable {s : State} {g : GroupIdx} {i : PointIdx} {m : Move} {rest : List Move} {e : RunEntry}
  (queue : (s.group g).queue = m :: rest) (entry : (s.group g).entry i = some e)
include queue entry

theorem State.coastMember_of_far (far : ∀ v, m.body.kind.jog = false → e.target = some v → e.released = false →
      ((s.point i).coast : Int) < (s.group g).direction.sign * (v - s.positionOf i)) : s.coastMember g i = s := by
  simp only [State.coastMember, Group.head_of_queue queue, entry]
  split
  next v target =>
    refine if_pos ?_
    cases jog : m.body.kind.jog with
    | true => simp
    | false =>
      cases released : e.released with
      | true => simp
      | false =>
        have away := far v jog target released
        have lead : s.atCoastLead (s.group g).direction i v = false := by
          rw [State.atCoastLead, remaining]
          exact decide_eq_false (by omega)
        simp [lead]
  next => rfl

variable {v : Int} (driving : m.state.driving = true) (jog : m.body.kind.jog = false) (unreleased : e.released = false)
  (target : e.target = some v) (near : (s.group g).direction.sign * (v - s.positionOf i) ≤ ((s.point i).coast : Int))
include driving jog unreleased target near

theorem State.coastMember_of_near : s.coastMember g i =
    if (s.point i).channel.state.energized then s.releaseAtTarget g i
    else if m.body.kind = .groupBy && s.restsForRejoin e then s.markReleased g i v
    else s := by
  have lead : s.atCoastLead (s.group g).direction i v = true := decide_eq_true near
  simp only [State.coastMember, Group.head_of_queue queue, entry, target]
  exact if_neg (by simp [driving, jog, unreleased, lead])

theorem State.coastMember_driven (energized : (s.point i).channel.state.energized = true) :
    s.coastMember g i = s.releaseAtTarget g i := by
  rw [State.coastMember_of_near queue entry driving jog unreleased target near, if_pos energized]

theorem State.coastMember_resting (kind : m.body.kind = .groupBy)
    (resting : (s.point i).channel.state.energized = false)
    (rests : e.gated = true ∨ ((s.point i).channel.pending.isSome = true ∧ e.started = true)) (own : e.point = i) :
    s.coastMember g i = s.markReleased g i v := by
  have waits : s.restsForRejoin e = true := by
    rw [State.restsForRejoin, own]
    rcases rests with gated | ⟨pending, started⟩
    · rw [gated]; rfl
    · rw [pending, started]; exact Bool.or_true _
  rw [State.coastMember_of_near queue entry driving jog unreleased target near, if_neg (Bool.eq_false_iff.mp resting),
    if_pos (by simp [kind, waits])]

end

/-! ## Soft release (R48, R49) -/

/-- The record of a channel that is given a soft release outside a rehearsal. -/
def Point.softReleased (q : Point) (now : Nat) : Point :=
  if q.channel.state.energized then
    if q.channel.deferredDue.isSome then q
    else if q.channel.lastOn + 1000 * q.settings.tMinrun ≤ now then q.toSettle now
    else { q with channel := { q.channel with deferredDue := some (q.channel.lastOn + 1000 * q.settings.tMinrun) } }
  else { q with channel := { q.channel with pending := none } }

section
variable {q : Point} {now : Nat}

theorem Point.softReleased_resting (resting : q.channel.state.energized = false) :
    q.softReleased now = { q with channel := { q.channel with pending := none } } :=
  if_neg (Bool.eq_false_iff.mp resting)

theorem Point.softReleased_deferred (energized : q.channel.state.energized = true) (deferred : q.channel.deferredDue ≠ none) :
    q.softReleased now = q :=
  (if_pos energized).trans (if_pos (Option.isSome_iff_ne_none.mpr deferred))

variable (energized : q.channel.state.energized = true) (idle : q.channel.deferredDue = none)
include energized idle

theorem Point.softReleased_ran (ran : q.channel.lastOn + 1000 * q.settings.tMinrun ≤ now) :
    q.softReleased now = q.toSettle now :=
  (if_pos energized).trans ((if_neg (by rw [idle]; decide)).trans (if_pos ran))

theorem Point.softReleased_early (early : now < q.channel.lastOn + 1000 * q.settings.tMinrun) :
    q.softReleased now =
      { q with channel := { q.channel with deferredDue := some (q.channel.lastOn + 1000 * q.settings.tMinrun) } } :=
  (if_pos energized).trans ((if_neg (by rw [idle]; decide)).trans (if_neg (Nat.not_le.mpr early)))

end

theorem Point.softReleased_group (q : Point) (now : Nat) : (q.softReleased now).group = q.group := by
  unfold Point.softReleased
  split
  · split
    · rfl
    · split <;> rfl
  · rfl

/-- R48, R49: a soft release, where what it releases at once is no rehearsing member. -/
theorem State.softRelease_eq {s : State} {i : PointIdx}
    (live : (s.point i).channel.state.energized = true → (s.point i).channel.deferredDue = none →
      (s.point i).channel.lastOn + 1000 * (s.point i).settings.tMinrun ≤ s.time → s.rehearsing i = false) :
    s.softRelease i = s.setPoint i ((s.point i).softReleased s.time) := by
  cases energized : (s.point i).channel.state.energized with
  | false =>
    rw [Point.softReleased_resting energized]
    exact if_neg (Bool.eq_false_iff.mp energized)
  | true =>
    refine (if_pos energized).trans ?_
    cases deferred : (s.point i).channel.deferredDue with
    | some due =>
      rw [Point.softReleased_deferred energized (by rw [deferred]; exact nofun), State.setPoint_point]
      exact if_pos rfl
    | none =>
      refine (if_neg Bool.false_ne_true).trans ?_
      by_cases ran : (s.point i).channel.lastOn + 1000 * (s.point i).settings.tMinrun ≤ s.time
      · refine (if_pos ran).trans ?_
        rw [State.release_live (live energized deferred ran), State.modPoint, Point.rest, if_pos energized,
          Point.softReleased_ran energized deferred ran]
      · rw [Point.softReleased_early energized deferred (Nat.lt_of_not_le ran)]
        exact if_neg ran

/-! ## Stage 5 at one member -/

section
variable {s : State} {g : GroupIdx} {i : PointIdx} {e : RunEntry} {pmin : Int}
  (entry : (s.group g).entry i = some e)
include entry

theorem State.gateMember_gates (running : (s.group g).headIs isRunning = true) (unreleased : e.released = false)
    (ungated : e.gated = false)
    (asks : (s.point i).channel.state.energized = true ∨ (s.point i).channel.pending ≠ none)
    (lead : ((s.group g).gateBand : Int) < e.progress - pmin) :
    s.gateMember g pmin i = (s.modEntry g i fun e => { e with gated := true }).softRelease i := by
  have wants : ((s.point i).channel.state.energized || (s.point i).channel.pending.isSome) = true := by
    rw [Bool.or_eq_true, Option.isSome_iff_ne_none]; exact asks
  simp only [State.gateMember, entry]
  exact if_pos (by rw [running, unreleased, ungated, wants, decide_eq_true lead]; rfl)

theorem State.gateMember_stays (stays : e.released = true ∨ e.gated = true ∨
      ((s.point i).channel.state.energized = false ∧ (s.point i).channel.pending = none) ∨
      e.progress - pmin ≤ ((s.group g).gateBand : Int)) : s.gateMember g pmin i = s := by
  simp only [State.gateMember, entry]
  refine if_neg ?_
  rcases stays with h | h | ⟨h, k⟩ | h
  · simp [h]
  · simp [h]
  · simp [h, k]
  · simp [decide_eq_false (Int.not_lt.mpr h)]

theorem State.rejoinMember_stays (stays : e.released = true ∨ e.gated = false ∨
      (((s.group g).gateBand / 2 : Nat) : Int) < e.progress - pmin) : s.rejoinMember g pmin i = s := by
  simp only [State.rejoinMember, entry]
  refine if_neg ?_
  rcases stays with h | h | h
  · simp [h]
  · simp [h]
  · have outside : ¬e.progress - pmin ≤ rejoinBand (s.group g) := Int.not_le.mpr h
    simp [outside]

theorem State.rejoinMember_joins (running : (s.group g).headIs isRunning = true) (unreleased : e.released = false)
    (gated : e.gated = true) (within : e.progress - pmin ≤ (((s.group g).gateBand / 2 : Nat) : Int)) :
    s.rejoinMember g pmin i =
      (((s.modEntry g i fun e => { e with gated := false }).energizeRequest i (s.group g).direction).1).rejoinAnswer g i
        ((s.modEntry g i fun e => { e with gated := false }).energizeRequest i (s.group g).direction).2 := by
  simp only [State.rejoinMember, entry]
  exact if_pos (by rw [running, unreleased, gated, decide_eq_true (show _ ≤ rejoinBand (s.group g) from within)]; rfl)

end

/-! ## Records of one member -/

theorem State.modEntry_congr {s : State} {g : GroupIdx} {i : PointIdx} {f k : RunEntry → RunEntry}
    (same : ∀ x ∈ (s.group g).runList, x.point = i → f x = k x) : s.modEntry g i f = s.modEntry g i k := by
  refine State.modGroup_congr ?_
  cases queue : (s.group g).queue with
  | nil => rw [Group.modHead, Group.modHead, queue]
  | cons m rest =>
    rw [Group.runList_of_queue queue] at same
    have lists : replaced m.runList i f = replaced m.runList i k := List.map_congr_left fun x mem => by
      by_cases own : x.point = i
      · rw [if_pos own, if_pos own, same x mem own]
      · rw [if_neg own, if_neg own]
    rw [Group.modHead_of_queue queue, Group.modHead_of_queue queue, Move.modEntry, Move.modEntry]
    exact congrArg (fun l => { s.group g with queue := { m with runList := l } :: rest }) lists

theorem State.modGroup_of_fixed {s : State} {g : GroupIdx} {f : Group → Group} (fixed : f (s.group g) = s.group g) :
    s.modGroup g f = s := by
  have same : s.groups.set g (s.group g) = s.groups := Vector.set_getElem_self g.isLt
  rw [State.modGroup, State.setGroup, fixed, same]

theorem State.modEntry_same {s : State} {g : GroupIdx} {i : PointIdx} {f : RunEntry → RunEntry}
    (same : ∀ x ∈ (s.group g).runList, x.point = i → f x = x) : s.modEntry g i f = s := by
  rw [State.modEntry_congr (k := id) same]
  refine State.modGroup_of_fixed ?_
  cases queue : (s.group g).queue with
  | nil => rw [Group.modHead, queue]
  | cons m rest =>
    rw [Group.modHead_of_queue queue, Move.modEntry]
    simp only [id, ite_self, List.map_id', ← queue]

theorem entry_of_sorted {r : Group} {m : Move} {rest : List Move} {e : RunEntry} (queue : r.queue = m :: rest)
    (sorted : m.runList.Pairwise (fun x y => x.point < y.point)) (mem : e ∈ m.runList) : r.entry e.point = some e := by
  rw [Group.entry, Group.runList_of_queue queue]
  exact find_of_sorted sorted mem

theorem eq_of_sorted {l : List RunEntry} (sorted : l.Pairwise (fun x y => x.point < y.point)) {x y : RunEntry} (hx : x ∈ l)
    (hy : y ∈ l) (same : x.point = y.point) : x = y := by
  have found := find_of_sorted sorted hx
  rw [same, find_of_sorted sorted hy] at found
  exact (Option.some.inj found).symm

end Sys2Proof.Machine
end

section
/-! An evaluation in which one member of a synchronised move is gated, marked released or rejoins (R113, R115 to R117). -/

namespace Sys2Proof.Machine

theorem MoveKind.groupBy_of {k : MoveKind} (group : k.ofGroup = true) (target : k.jog = false) : k = .groupBy := by
  cases k with
  | groupBy => rfl
  | groupJog => exact absurd target (by decide)
  | pointTo | pointJog => exact absurd group (by decide)

/-- The entry of a resting member that is marked released, with its arrival error if it has settled in OFF (R113). -/
def RunEntry.marked (x : RunEntry) (c : ChannelState) (settled : Bool) (error : Int) : RunEntry :=
  { x with
    released := true
    arrivalError := if c = .off ∧ settled = true then some (max (-32768) (min 32767 error)) else x.arrivalError }

theorem State.markReleased_eq {s : State} {g : GroupIdx} {i : PointIdx} {e : RunEntry} {v : Int}
    (only : ∀ x ∈ (s.group g).runList, x.point = i → x = e) (resting : (s.point i).channel.state.energized = false) :
    s.markReleased g i v =
      (s.modEntry g i fun x => x.marked (s.point i).channel.state e.settled (s.positionOf i - v)).dropPending i := by
  have marked : (s.modEntry g i fun x =>
      { x with
        released := true
        arrivalError :=
          if (s.point i).channel.state = .off && x.settled then some (arrivalErrorOf (s.positionOf i) v)
          else x.arrivalError }) =
      s.modEntry g i fun x => x.marked (s.point i).channel.state e.settled (s.positionOf i - v) :=
    State.modEntry_congr fun x mem own => by
      rw [only x mem own, arrivalErrorOf, clampInt_eq _ _ _ (by decide)]
      simp only [Bool.and_eq_true, decide_eq_true_eq]
      rfl
  refine Eq.trans ?_ (congrArg (fun u : State => u.dropPending i) marked)
  rw [State.markReleased]
  cases pending : (s.point i).channel.pending with
  | some d => exact (if_pos rfl).trans (if_neg (Bool.eq_false_iff.mp resting))
  | none => exact (if_neg Bool.false_ne_true).trans (State.dropPending_of_none (by exact pending)).symm

theorem Elsewhere.setPoint {s t : State} {g : GroupIdx} {m : Move} {rest : List Move} {i : PointIdx}
    {f : RunEntry → RunEntry} (h : Elsewhere s t g m rest i f) {p : Point} (group : p.group = (t.point i).group) :
    Elsewhere s (t.setPoint i p) g m rest i f := h.modPoint (fun _ => p) group

section
variable {s : State} {g : GroupIdx} {m : Move} {rest : List Move} {i : PointIdx} {e low : RunEntry}
  (queue : (s.group g).queue = m :: rest) (level : s.levelBut g m i low) (mem : e ∈ m.runList) (own : e.point = i)

include queue level mem own

theorem State.levelBut.entry : (s.group g).entry i = some e := by
  obtain ⟨-, -, -, sorted, -, -⟩ := level
  exact own ▸ entry_of_sorted queue sorted mem

theorem State.levelBut.only {x : RunEntry} (hx : x ∈ (s.group g).runList) (hi : x.point = i) : x = e := by
  obtain ⟨-, -, -, sorted, -, -⟩ := level
  rw [Group.runList_of_queue queue] at hx
  exact eq_of_sorted sorted hx mem (hi.trans own.symm)

/-- Stages 3 and 4 leave member i, and stage 5 gates it (R115, R116). -/
theorem State.levelBut.gates (unreleased : e.released = false)
    (far : ∀ v, m.body.kind = .groupBy → e.target = some v →
      ((s.point i).coast : Int) < (s.group g).direction.sign * (v - s.positionOf i))
    (ungated : e.gated = false) (asks : (s.point i).channel.state.energized = true ∨ (s.point i).channel.pending ≠ none)
    (lead : ((s.group g).gateBand : Int) < e.progress - low.progress)
    (live : (s.point i).channel.state.energized = true → (s.point i).channel.deferredDue = none →
      (s.point i).channel.lastOn + 1000 * (s.point i).settings.tMinrun ≤ s.time → s.rehearsing i = false) :
    s.evaluate g = (s.modEntry g i fun x => { x with gated := true }).setPoint i ((s.point i).softReleased s.time) := by
  obtain ⟨running, group, -, sorted, -, -⟩ := id level
  have run : (s.group g).headIs isRunning = true := by rw [Group.headIs_of_queue queue, running]; rfl
  have entry := level.entry queue mem own
  have here := Elsewhere.refl i queue
  have gated := (Elsewhere.of_modEntry i (fun x => { x with gated := true }) queue).setPoint
    (p := (s.point i).softReleased s.time) (Point.softReleased_group _ _)
  have released : (s.modEntry g i fun x => { x with gated := true }).softRelease i =
      (s.modEntry g i fun x => { x with gated := true }).setPoint i ((s.point i).softReleased s.time) :=
    State.softRelease_eq (s := s.modEntry g i fun x => { x with gated := true }) fun on idle ran => by
      rw [State.rehearsing_modEntry]; exact live on idle ran
  refine level.evaluate (f1 := id) (f2 := fun x => { x with gated := true }) queue mem own
    (fun _ => ⟨rfl, rfl⟩) (fun _ => ⟨rfl, rfl⟩) here gated
    (State.coastMember_of_far queue entry fun v jog target _ => far v (MoveKind.groupBy_of group jog) target)
    ((State.gateMember_gates entry run unreleased ungated asks lead).trans released) ?_ fun x hx other =>
      level.rejoinMember gated (fun _ => rfl) hx other
  have after := gated.entry sorted (fun _ => rfl) mem
  rw [own, if_pos rfl] at after
  refine State.rejoinMember_stays after (.inr (.inr ?_))
  have band : (((s.modEntry g i fun x => { x with gated := true }).setPoint i
      ((s.point i).softReleased s.time)).group g).gateBand = (s.group g).gateBand := by rw [gated.group]
  rw [band]
  change _ < e.progress - low.progress
  omega

/-- Stage 3 marks the resting member i released, and no later stage acts on it (R113). -/
theorem State.levelBut.marks {v : Int} (kind : m.body.kind = .groupBy) (unreleased : e.released = false)
    (target : e.target = some v) (near : (s.group g).direction.sign * (v - s.positionOf i) ≤ ((s.point i).coast : Int))
    (resting : (s.point i).channel.state.energized = false)
    (rests : e.gated = true ∨ ((s.point i).channel.pending.isSome = true ∧ e.started = true)) :
    s.evaluate g =
      (s.modEntry g i fun x => x.marked (s.point i).channel.state e.settled (s.positionOf i - v)).dropPending i := by
  obtain ⟨running, -, -, sorted, -, -⟩ := id level
  have entry := level.entry queue mem own
  have marked :=
    (Elsewhere.of_modEntry i (fun x => x.marked (s.point i).channel.state e.settled (s.positionOf i - v)) queue).setPoint
      (p := { s.point i with channel := { (s.point i).channel with pending := none } }) rfl
  have jog : m.body.kind.jog = false := by rw [kind]; rfl
  have after := marked.entry sorted (fun _ => rfl) mem
  rw [own, if_pos rfl] at after
  exact level.evaluate (f1 := fun x => x.marked (s.point i).channel.state e.settled (s.positionOf i - v))
    (f2 := fun x => x.marked (s.point i).channel.state e.settled (s.positionOf i - v)) queue mem own
    (fun _ => ⟨rfl, rfl⟩) (fun _ => ⟨rfl, rfl⟩) marked marked
    ((State.coastMember_resting queue entry (by rw [running]; rfl) jog unreleased target near kind resting rests own).trans
      (State.markReleased_eq (fun _ hx hi => level.only queue mem own hx hi) resting))
    (State.gateMember_stays after (.inl rfl)) (State.rejoinMember_stays after (.inl rfl))
    fun x hx other => level.rejoinMember marked (fun _ => rfl) hx other

/-- Stage 5 asks for the rejoin of the gated member i (R117). -/
theorem State.levelBut.rejoins (unreleased : e.released = false)
    (far : ∀ v, m.body.kind = .groupBy → e.target = some v →
      ((s.point i).coast : Int) < (s.group g).direction.sign * (v - s.positionOf i))
    (gated : e.gated = true) (within : e.progress - low.progress ≤ (((s.group g).gateBand / 2 : Nat) : Int)) {t : State}
    (answered :
      (((s.modEntry g i fun e => { e with gated := false }).energizeRequest i (s.group g).direction).1).rejoinAnswer g i
        ((s.modEntry g i fun e => { e with gated := false }).energizeRequest i (s.group g).direction).2 = t)
    (others : ∀ x ∈ m.runList, x.point ≠ i → t.rejoinMember g low.progress x.point = t) : s.evaluate g = t := by
  obtain ⟨running, group, -, -, -, -⟩ := id level
  have run : (s.group g).headIs isRunning = true := by rw [Group.headIs_of_queue queue, running]; rfl
  have entry := level.entry queue mem own
  have here := Elsewhere.refl i queue
  exact level.evaluate (f1 := id) (f2 := id) queue mem own (fun _ => ⟨rfl, rfl⟩) (fun _ => ⟨rfl, rfl⟩) here here
    (State.coastMember_of_far queue entry fun v jog target _ => far v (MoveKind.groupBy_of group jog) target)
    (State.gateMember_stays entry (.inr (.inl gated)))
    ((State.rejoinMember_joins entry run unreleased gated within).trans answered) others

end

end Sys2Proof.Machine
end

section
/-! An evaluation in which nothing but gating acts (R115, R116). -/

namespace Sys2Proof.Machine

theorem MoveKind.groupJog_of {k : MoveKind} (group : k.ofGroup = true) (jog : k.jog = true) : k = .groupJog := by
  cases k with
  | groupJog => rfl
  | groupBy => exact absurd jog (by decide)
  | pointTo | pointJog => exact absurd group (by decide)

section
variable {s t : State} {g : GroupIdx} {m : Move} {rest : List Move} {pmin : Int} {done : List PointIdx} {x : RunEntry}

/-- The member asks to be gated: driven or waiting to be, and too far ahead (R115, R116). -/
def State.leads (s : State) (g : GroupIdx) (pmin : Int) (x : RunEntry) : Bool :=
  !x.released && !x.gated && ((s.point x.point).channel.state.energized || (s.point x.point).channel.pending.isSome) &&
    decide (((s.group g).gateBand : Int) < x.progress - pmin)

theorem State.leads_iff : s.leads g pmin x = true ↔ x.released = false ∧ x.gated = false ∧
    ((s.point x.point).channel.state.energized = true ∨ (s.point x.point).channel.pending ≠ none) ∧
      ((s.group g).gateBand : Int) < x.progress - pmin := by
  simp only [State.leads, Bool.and_eq_true, Bool.or_eq_true, Bool.not_eq_true', decide_eq_true_eq,
    Option.isSome_iff_ne_none, and_assoc]

/-- The entry after the members in `done` have been through stage 5's gating. -/
def State.gatedEntry (s : State) (g : GroupIdx) (pmin : Int) (done : List PointIdx) (x : RunEntry) : RunEntry :=
  if s.leads g pmin x = true ∧ x.point ∈ done then { x with gated := true } else x

theorem State.gatedEntry_point : (s.gatedEntry g pmin done x).point = x.point := by
  unfold State.gatedEntry; split <;> rfl

theorem State.gatedEntry_of_led (leads : s.leads g pmin x = true) (mem : x.point ∈ done) :
    s.gatedEntry g pmin done x = { x with gated := true } := if_pos ⟨leads, mem⟩

theorem State.gatedEntry_of_other (other : ¬(s.leads g pmin x = true ∧ x.point ∈ done)) :
    s.gatedEntry g pmin done x = x := if_neg other

theorem State.gatedEntry_cons_ne {i : PointIdx} (ne : x.point ≠ i) :
    s.gatedEntry g pmin (i :: done) x = s.gatedEntry g pmin done x := by
  simp only [State.gatedEntry, List.mem_cons, or_iff_right ne]

theorem State.gatedEntry_sorted {l : List RunEntry} (sorted : l.Pairwise (fun x y => x.point < y.point)) :
    (l.map (s.gatedEntry g pmin done)).Pairwise (fun x y => x.point < y.point) := by
  rw [List.pairwise_map]
  refine sorted.imp fun less => ?_
  rw [State.gatedEntry_point, State.gatedEntry_point]
  exact less

/-- The state t after the members of g's head move in `done` have been through stage 5's gating. -/
structure State.GatedFor (s t : State) (g : GroupIdx) (m : Move) (rest : List Move) (pmin : Int)
    (done : List PointIdx) : Prop where
  frame : { s with points := t.points, groups := t.groups } = t
  others : ∀ h, h ≠ g → t.group h = s.group h
  group : t.group g =
    { s.group g with queue := { m with runList := m.runList.map (s.gatedEntry g pmin done) } :: rest }
  led : ∀ x ∈ m.runList, s.leads g pmin x = true → x.point ∈ done →
    t.point x.point = (s.point x.point).softReleased s.time
  rest : ∀ j, (∀ x ∈ m.runList, s.leads g pmin x = true → x.point ∈ done → x.point ≠ j) → t.point j = s.point j

theorem State.GatedFor.refl (queue : (s.group g).queue = m :: rest) : s.GatedFor s g m rest pmin [] where
  frame := rfl
  others _ _ := rfl
  group := by
    have kept : m.runList.map (s.gatedEntry g pmin []) = m.runList :=
      (List.map_congr_left fun x _ => State.gatedEntry_of_other (by simp)).trans (List.map_id _)
    rw [kept, ← queue]
  led _ _ _ mem := absurd mem List.not_mem_nil
  rest _ _ := rfl

theorem State.GatedFor.rehearsing (h : s.GatedFor t g m rest pmin done) {i : PointIdx} (same : t.point i = s.point i) :
    t.rehearsing i = s.rehearsing i := by
  have kept : ∀ k, (t.group k).rehearsal = (s.group k).rehearsal := fun k => by
    by_cases e : k = g
    · rw [e, h.group]
    · rw [h.others k e]
  rw [State.rehearsing, State.rehearsing, State.groupOf, State.groupOf, same, kept]

variable (sorted : m.runList.Pairwise (fun x y => x.point < y.point))
include sorted

theorem State.GatedFor.entry (h : s.GatedFor t g m rest pmin done) (mem : x ∈ m.runList) :
    (t.group g).entry x.point = some (s.gatedEntry g pmin done x) := by
  have found := entry_of_sorted (r := t.group g) (by rw [h.group]) (State.gatedEntry_sorted sorted)
    (List.mem_map_of_mem (f := s.gatedEntry g pmin done) mem)
  rwa [State.gatedEntry_point] at found

/-- A member that does not lead goes through the gating. -/
theorem State.GatedFor.pass (h : s.GatedFor t g m rest pmin done) (mem : x ∈ m.runList)
    (trails : s.leads g pmin x = false) : s.GatedFor t g m rest pmin (x.point :: done) := by
  have apart : ∀ y ∈ m.runList, s.leads g pmin y = true → y.point ≠ x.point := fun y hy led own => by
    rw [eq_of_sorted sorted hy mem own, trails] at led
    exact Bool.false_ne_true led
  have kept : m.runList.map (s.gatedEntry g pmin (x.point :: done)) = m.runList.map (s.gatedEntry g pmin done) :=
    List.map_congr_left fun y hy => by
      by_cases own : y.point = x.point
      · have same := eq_of_sorted sorted hy mem own
        rw [State.gatedEntry_of_other (by simp [same, trails]), State.gatedEntry_of_other (by simp [same, trails])]
      · exact State.gatedEntry_cons_ne own
  refine ⟨h.frame, h.others, by rw [kept, h.group], fun y hy led hd => ?_, fun j free => ?_⟩
  · exact h.led y hy led ((List.mem_cons.mp hd).resolve_left (apart y hy led))
  · exact h.rest j fun y hy led hd => free y hy led (List.mem_cons_of_mem _ hd)

/-- A member that leads goes through the gating. -/
theorem State.GatedFor.gate (h : s.GatedFor t g m rest pmin done) (mem : x ∈ m.runList)
    (leads : s.leads g pmin x = true) (fresh : x.point ∉ done) :
    s.GatedFor ((t.modEntry g x.point fun e => { e with gated := true }).setPoint x.point
      ((s.point x.point).softReleased s.time)) g m rest pmin (x.point :: done) where
  frame := by
    calc { s with
            points := ((t.modEntry g x.point fun e => { e with gated := true }).setPoint x.point
              ((s.point x.point).softReleased s.time)).points
            groups := (t.modEntry g x.point fun e => { e with gated := true }).groups }
      _ = { ({ s with points := t.points, groups := t.groups } : State) with
            points := ((t.modEntry g x.point fun e => { e with gated := true }).setPoint x.point
              ((s.point x.point).softReleased s.time)).points
            groups := (t.modEntry g x.point fun e => { e with gated := true }).groups } := rfl
      _ = _ := by rw [h.frame]; rfl
  others k ne := by
    rw [State.group_setPoint, State.modEntry, State.group_modGroup_ne _ ne.symm]
    exact h.others k ne
  group := by
    have entries : replaced (m.runList.map (s.gatedEntry g pmin done)) x.point (fun e => { e with gated := true }) =
        m.runList.map (s.gatedEntry g pmin (x.point :: done)) := by
      rw [replaced, List.map_map]
      refine List.map_congr_left fun y hy => ?_
      rw [Function.comp, State.gatedEntry_point]
      by_cases own : y.point = x.point
      · have same := eq_of_sorted sorted hy mem own
        rw [if_pos own, same, State.gatedEntry_of_led leads List.mem_cons_self,
          State.gatedEntry_of_other fun led => fresh led.2]
      · rw [if_neg own, State.gatedEntry_cons_ne own]
    have record := State.group_modEntry_of_queue (s := t) (g := g)
      (m := { m with runList := m.runList.map (s.gatedEntry g pmin done) }) (rest := rest) x.point
      (fun e => { e with gated := true }) (by rw [h.group])
    rw [State.group_setPoint, record, entries, h.group]
  led y hy led hd := by
    by_cases own : y.point = x.point
    · rw [eq_of_sorted sorted hy mem own, State.point_setPoint_self]
    · rw [State.point_setPoint_ne _ (Ne.symm own), State.point_modEntry]
      exact h.led y hy led ((List.mem_cons.mp hd).resolve_left own)
  rest j free := by
    rw [State.point_setPoint_ne _ (free x mem leads List.mem_cons_self), State.point_modEntry]
    exact h.rest j fun y hy led hd => free y hy led (List.mem_cons_of_mem _ hd)

/-- One more member goes through the gating. -/
theorem State.GatedFor.gateMember (h : s.GatedFor t g m rest pmin done) (running : m.state = .running)
    (mem : x ∈ m.runList) (fresh : x.point ∉ done)
    (live : s.leads g pmin x = true → (s.point x.point).channel.state.energized = true →
      (s.point x.point).channel.deferredDue = none →
      (s.point x.point).channel.lastOn + 1000 * (s.point x.point).settings.tMinrun ≤ s.time →
      s.rehearsing x.point = false) :
    s.GatedFor (t.gateMember g pmin x.point) g m rest pmin (x.point :: done) := by
  have same : t.point x.point = s.point x.point := h.rest x.point fun y hy _ hd own => fresh (own ▸ hd)
  have entry := h.entry sorted mem
  rw [State.gatedEntry_of_other fun led => fresh led.2] at entry
  have band : (t.group g).gateBand = (s.group g).gateBand := by rw [h.group]
  have time : t.time = s.time := by rw [← h.frame]
  have run : (t.group g).headIs isRunning = true := by rw [h.group]; exact decide_eq_true running
  have gate : t.gateMember g pmin x.point =
      if s.leads g pmin x then (t.modEntry g x.point fun e => { e with gated := true }).softRelease x.point else t := by
    simp only [State.gateMember, entry, run, same, band, Bool.true_and]
    rfl
  rw [gate]
  cases leads : s.leads g pmin x with
  | false =>
    rw [if_neg Bool.false_ne_true]
    exact h.pass sorted mem leads
  | true =>
    have soft := State.softRelease_eq (s := t.modEntry g x.point fun e => { e with gated := true }) (i := x.point)
      fun on idle ran => by
        rw [State.point_modEntry, same] at on idle ran
        rw [State.rehearsing_modEntry, h.rehearsing same]
        exact live leads on idle (time ▸ ran)
    have later : (t.modEntry g x.point fun e => { e with gated := true }).time = s.time := time
    rw [State.point_modEntry, same, later] at soft
    rw [if_pos rfl, soft]
    exact h.gate sorted mem leads fresh

/-- Stage 5's gating of the members of a list. -/
theorem State.GatedFor.foldl (running : m.state = .running)
    (live : ∀ x ∈ m.runList, s.leads g pmin x = true → (s.point x.point).channel.state.energized = true →
      (s.point x.point).channel.deferredDue = none →
      (s.point x.point).channel.lastOn + 1000 * (s.point x.point).settings.tMinrun ≤ s.time →
      s.rehearsing x.point = false) (l : List RunEntry) :
    ∀ (t : State) (done : List PointIdx), s.GatedFor t g m rest pmin done → (∀ x ∈ l, x ∈ m.runList) →
      (l.map (·.point)).Nodup → (∀ x ∈ l, x.point ∉ done) →
      s.GatedFor ((l.map (·.point)).foldl (fun t i => t.gateMember g pmin i) t) g m rest pmin
        ((l.map (·.point)).reverse ++ done) := by
  induction l with
  | nil => exact fun t done h _ _ _ => h
  | cons x l ih =>
    intro t done h members distinct fresh
    rw [List.map_cons, List.nodup_cons] at distinct
    obtain ⟨apart, distinct⟩ := distinct
    have mem := members x List.mem_cons_self
    have next := ih _ (x.point :: done) (h.gateMember sorted running mem (fresh x List.mem_cons_self) (live x mem))
      (fun y hy => members y (List.mem_cons_of_mem x hy)) distinct fun y hy hd => by
        rcases List.mem_cons.mp hd with own | hd
        · exact apart (own ▸ List.mem_map_of_mem hy)
        · exact fresh y (List.mem_cons_of_mem x hy) hd
    rw [List.map_cons, List.reverse_cons, List.append_assoc]
    exact next

end

/-! ## The evaluation -/

section
variable {s : State} {g : GroupIdx} {m : Move} {rest : List Move} {low : RunEntry}
  (queue : (s.group g).queue = m :: rest) (only : s.onlyGates g m low)
include queue only

/-- Stages 1 to 4 do not act. -/
theorem State.onlyGates.stages : (((s.stageSkew g).stageJog g).stageCoast g).stageAllReleased g = s := by
  obtain ⟨-, group, -, sorted, -, unreleased, all⟩ := only
  have skew : s.stageSkew g = s := State.stageSkew_within queue fun x hx y hy => by
    obtain ⟨-, within, -⟩ := all x hx
    obtain ⟨above, -⟩ := all y hy
    omega
  have jog : s.stageJog g = s := by
    cases kind : m.body.kind.jog with
    | false => exact State.stageJog_of_not_jog queue kind
    | true =>
      have groupJog : m.body.kind = .groupJog := MoveKind.groupJog_of group kind
      refine State.stageJog_of_inside queue (List.any_eq_false.mpr fun x hx => ?_)
      obtain ⟨-, -, inside, -⟩ := all x hx
      cases referenced : s.referencedOf x.point with
      | false => rw [State.atJogBound, referenced]; exact Bool.false_ne_true
      | true =>
        have ahead := inside groupJog referenced
        rw [State.atJogBound, referenced, Bool.true_and, decide_eq_true_eq]
        exact Int.not_le.mpr ahead
  have coast : s.stageCoast g = s := State.stageCoast_of_fixed fun i hi => by
    rw [State.runPoints, Group.runList_of_queue queue] at hi
    obtain ⟨x, hx, rfl⟩ := List.mem_map.mp hi
    obtain ⟨-, -, -, free⟩ := all x hx
    exact State.coastMember_of_far queue (entry_of_sorted queue sorted hx) fun v target goal pending =>
      (free pending).1 (MoveKind.groupBy_of group target) v goal
  rw [skew, jog, coast, State.stageAllReleased_of_unreleased queue unreleased]

/-- Stage 5 gates the leading members, and none rejoins. -/
theorem State.onlyGates.evaluate
    (live : ∀ x ∈ m.runList, s.leads g low.progress x = true → (s.point x.point).channel.state.energized = true →
      (s.point x.point).channel.deferredDue = none →
      (s.point x.point).channel.lastOn + 1000 * (s.point x.point).settings.tMinrun ≤ s.time →
      s.rehearsing x.point = false) :
    s.GatedFor (s.evaluate g) g m rest low.progress (m.runList.map (·.point)).reverse := by
  obtain ⟨running, group, two, sorted, lowMem, -, all⟩ := id only
  have gated := State.GatedFor.foldl sorted running live m.runList s [] (.refl queue) (fun _ h => h)
    (nodup_points sorted) (fun _ _ => List.not_mem_nil)
  rw [List.append_nil] at gated
  have sync : ((s.group g).headIs isRunning && (s.group g).synchronised) = true := by
    rw [Group.headIs_of_queue queue, running, Group.synchronised, Group.head_of_queue queue, Option.any_some,
      Move.synchronised, group, decide_eq_true two]
    rfl
  have least : minProgress m.runList = low.progress := minProgress_eq lowMem fun x hx => (all x hx).1
  have gate : s.stageGate g = (m.runList.map (·.point)).foldl (fun t i => t.gateMember g low.progress i) s := by
    refine (if_pos sync).trans ?_
    have points : s.runPoints g = m.runList.map (·.point) := by rw [State.runPoints, Group.runList_of_queue queue]
    rw [points, Group.runList_of_queue queue, least]
    generalize (m.runList.map (·.point)).foldl (fun t i => t.gateMember g low.progress i) s = t at gated
    refine foldl_of_fixed (fun t i => t.rejoinMember g low.progress i) _ t fun i hi => ?_
    have kept : t.runPoints g = m.runList.map (·.point) := by
      rw [State.runPoints, gated.group]
      exact (List.map_map ..).trans (List.map_congr_left fun x _ => State.gatedEntry_point)
    rw [kept] at hi
    obtain ⟨x, hx, rfl⟩ := List.mem_map.mp hi
    refine State.rejoinMember_stays (gated.entry sorted hx) ?_
    have band : (t.group g).gateBand = (s.group g).gateBand := by rw [gated.group]
    rw [band]
    by_cases led : s.leads g low.progress x = true ∧ x.point ∈ (m.runList.map (·.point)).reverse
    · rw [State.gatedEntry_of_led led.1 led.2]
      obtain ⟨-, -, -, lead⟩ := State.leads_iff.mp led.1
      exact .inr (.inr (by change _ < x.progress - low.progress; omega))
    · rw [State.gatedEntry_of_other led]
      obtain ⟨-, -, -, free⟩ := all x hx
      cases released : x.released with
      | true => exact .inl rfl
      | false =>
        cases rests : x.gated with
        | false => exact .inr (.inl rfl)
        | true => exact .inr (.inr ((free released).2 rests))
  rw [State.evaluate, only.stages queue, gate]
  exact gated

end

end Sys2Proof.Machine
end

section
/-! Gating, marking and rejoin in an evaluation (R48, R108, R113, R115 to R117, R120). -/

namespace Sys2Proof.Machine

theorem State.energizeRequest_of_driven {s : State} {i : PointIdx} {d : Dir}
    (driven : (s.point i).channel.state = d.channelState) : s.energizeRequest i d = (s, .taken) := by
  rw [State.energizeRequest, driven, Dir.dir_channelState]
  exact if_pos rfl

/-- The list that pairs each entry with its gated form is the run list mapped. -/
theorem eq_map_of_zip {α : Type} {l k : List α} {f : α → α} (length : k.length = l.length)
    (pairs : ∀ x y, (x, y) ∈ l.zip k → y = f x) : k = l.map f := by
  refine List.ext_getElem (by rw [length, List.length_map]) fun n hk hm => ?_
  have hl : n < l.length := length ▸ hk
  rw [List.getElem_map]
  refine pairs _ _ (List.mem_iff_getElem.mpr ⟨n, by rw [List.length_zip]; omega, List.getElem_zip⟩)

section
variable {s : State} {g : GroupIdx} {m : Move} {rest : List Move} {i : PointIdx} {e low : RunEntry}
  (queue : (s.group g).queue = m :: rest) (level : s.levelBut g m i low) (mem : e ∈ m.runList) (own : e.point = i)
  (unreleased : e.released = false)
  (far : ∀ v, m.body.kind = .groupBy → e.target = some v →
    ((s.point i).coast : Int) < (s.group g).direction.sign * (v - s.positionOf i))
  (gated : e.gated = true) (within : e.progress - low.progress ≤ (((s.group g).gateBand / 2 : Nat) : Int))
include queue level mem own unreleased far gated within

/-- A rejoin request that is taken, held or dropped, by the answer (R117, R120). -/
theorem State.levelBut.rejoins_cases {s1 : State} (hs1 : s1 = (s.modEntry g i fun x => { x with gated := false }))
    {d : Dir} (hd : d = (s.group g).direction) :
    ((s.point i).channel.state = d.channelState → s.evaluate g = s1.modEntry g i fun x => { x with settled := false }) ∧
    ((s.point i).channel.state.energized = false → (s.point i).channel.pending = none →
      (s.denial i d = none → (s.point i).energizeDue d ≤ s.time → (s.point i).load.state ≠ .stale →
        s.evaluate g = (s1.energize i d).modEntry g i fun x => { x with settled := false }) ∧
      (s.denial i d = none → s.time < (s.point i).energizeDue d →
        s.evaluate g = s1.modPoint i fun q => { q with channel := { q.channel with pending := some d } }) ∧
      (s.denial i d = some .switch → s.evaluate g = s1.trip g .limit (some i)) ∧
      ∀ c, s.denial i d = some c → c ≠ .switch → s.evaluate g = s) := by
  have step : ∀ {u t : State} {a : Answer} {f : RunEntry → RunEntry}, s1.energizeRequest i d = (u, a) →
      u.rejoinAnswer g i a = t → Elsewhere s t g m rest i f → (∀ x, (f x).point = x.point) → s.evaluate g = t :=
    fun request answer elsewhere points => by
      subst hs1 hd
      exact level.rejoins queue mem own unreleased far gated within (by rw [request]; exact answer) fun x hx other =>
        level.rejoinMember elsewhere points hx other
  have joined : Elsewhere s s1 g m rest i fun x => { x with gated := false } := hs1 ▸ Elsewhere.of_modEntry i _ queue
  have point : s1.point i = s.point i := by rw [hs1, State.point_modEntry]
  have time : s1.time = s.time := by rw [hs1]; rfl
  have denial : s1.denial i d = s.denial i d := by
    rw [hs1, State.denial_modEntry s g i (fun x => { x with gated := false }) fun _ => rfl]
  have driving : (s1.group g).headIs MoveState.driving = true := by
    rw [joined.group]
    exact MoveState.driving_of (.inr level.1)
  rw [← point, ← denial, ← time]
  refine ⟨fun driven => ?_, fun resting idle => ⟨fun permitted due fresh => ?_, fun permitted early => ?_,
    fun denied => ?_, fun c denied other => ?_⟩⟩
  · exact step (State.energizeRequest_of_driven driven) rfl
      (joined.modEntry (fun _ => rfl) fun x => { x with settled := false }) fun _ => rfl
  · refine step (State.energizeRequest_of_due resting permitted idle due) rfl
      (Elsewhere.modEntry (f := fun x => { x with gated := false }) ?_ (fun _ => rfl) fun x =>
        { x with settled := false }) fun _ => rfl
    have group := ((s1.energize_moved i d).points i).group
    rw [State.energize_of_fresh d fresh] at group ⊢
    exact joined.setPoint (by rwa [State.point_setPoint_self] at group)
  · exact step (State.energizeRequest_of_early resting permitted idle early) rfl
      (joined.modPoint (fun q => { q with channel := { q.channel with pending := some d } }) rfl) fun _ => rfl
  · have request := State.energizeRequest_of_denied resting denied
    have answer : s1.rejoinAnswer g i (.dropped .switch) = s1.trip g .limit (some i) := State.rejoinDropped_switch driving i
    by_cases tripped : (s1.group g).trip = none
    · subst hs1 hd
      refine level.rejoins queue mem own unreleased far gated within (by rw [request]; exact answer) fun x _ _ => ?_
      have empty := State.trip_queue _ g .limit (some i) tripped
      simp only [State.rejoinMember, Group.entry, Group.runList, empty, List.find?_nil]
    · rw [State.trip_of_tripped tripped] at answer ⊢
      exact step request answer joined fun _ => rfl
  · have request := State.energizeRequest_of_denied resting denied
    have back : s1.rejoinAnswer g i (.dropped c) = s := by
      refine (State.rejoinDropped_other driving i other).trans ?_
      rw [hs1, State.modEntry_modEntry s g i _ (fun x => { x with gated := false }) fun _ => rfl]
      refine State.modEntry_same fun x hx hi => ?_
      rw [level.only queue mem own hx hi]
      exact congrArg (fun b => { e with gated := b }) gated.symm
    exact step request back (Elsewhere.refl i queue) fun _ => rfl

end

/-- Settles O42: several members by `State.onlyGates.evaluate`, one by `State.levelBut.gates`, `State.levelBut.marks` and
`State.levelBut.rejoins_cases`. -/
theorem leaderIsGated : Obligations.LeaderIsGated := by
  refine ⟨?_, ?_, ?_⟩
  · rintro s t g m rest low r leads l rfl queue only hleads live length pairs rfl
    have leads_iff : ∀ x, leads x ↔ s.leads g low.progress x = true := fun x =>
      (hleads x).trans State.leads_iff.symm
    have gated := only.evaluate queue fun x hx led => live x hx ((leads_iff x).mpr led)
    have all : ∀ x ∈ m.runList, x.point ∈ (m.runList.map (·.point)).reverse := fun x hx =>
      List.mem_reverse.mpr (List.mem_map_of_mem hx)
    have entries : l = m.runList.map (s.gatedEntry g low.progress (m.runList.map (·.point)).reverse) :=
      eq_map_of_zip length fun x y hxy => by
        have mem : x ∈ m.runList := (List.of_mem_zip hxy).1
        by_cases led : leads x
        · rw [((pairs x y hxy).1 led), State.gatedEntry_of_led ((leads_iff x).mp led) (all x mem)]
        · rw [((pairs x y hxy).2 led), State.gatedEntry_of_other fun h => led ((leads_iff x).mpr h.1)]
    refine ⟨gated.frame.symm, gated.others, by rw [gated.group, entries], fun j free => ?_, ?_⟩
    · exact gated.rest j fun x hx led _ => free x hx ((leads_iff x).mpr led)
    · rintro x q hx led rfl
      have record := gated.led x hx ((leads_iff x).mp led) (all x hx)
      refine ⟨fun resting => ?_, fun on deferred => ?_, fun on idle => ⟨fun ran => ?_, fun early => ?_⟩⟩
      · rw [record, Point.softReleased_resting resting]
      · rw [record, Point.softReleased_deferred on deferred]
      · rw [record, Point.softReleased_ran on idle ran]; rfl
      · rw [record, Point.softReleased_early on idle early]
  · rintro s g m rest i e low r q rfl queue running kind sorted mem own lowMem all lead rfl on idle
    have level : s.levelBut g m i low := by
      refine ⟨running, by rw [kind]; rfl, two_le_length_of_ne mem lowMem fun same => ?_, sorted, lowMem, fun x hx => ?_⟩
      · rw [same] at lead; omega
      · obtain ⟨above, within, ungated, unreleased, far, level⟩ := all x hx
        exact ⟨above, within, fun jog => by rw [kind] at jog; exact absurd jog (by decide),
          fun other => ⟨ungated, unreleased, level other, fun _ => far⟩⟩
    obtain ⟨-, -, ungated, unreleased, far, -⟩ := all e mem
    have gates := level.gates queue mem own unreleased (fun v _ goal => own ▸ far v goal) ungated (.inl on) lead
    refine ⟨fun ran live => ?_, fun early => ?_⟩
    · rw [gates fun _ _ _ => live, Point.softReleased_ran on idle ran]; rfl
    · rw [gates fun _ _ ran => absurd ran (Nat.not_le.mpr early), Point.softReleased_early on idle early]
  · rintro s g m rest i e low r q d s1 drop rfl queue level mem own unreleased rfl rfl hs1 hdrop
    refine ⟨fun v kind goal near resting rests => ?_, fun far => ⟨fun ungated resting pending lead => ?_,
      fun gated within => ?_⟩⟩
    · rw [hdrop]
      exact level.marks queue mem own kind unreleased goal near resting rests
    · rw [hdrop, level.gates queue mem own unreleased far ungated (.inr (Option.isSome_iff_ne_none.mp pending)) lead
        fun on => absurd on (Bool.eq_false_iff.mp resting), Point.softReleased_resting resting]
      rfl
    · exact level.rejoins_cases queue mem own unreleased far gated within hs1 rfl

end Sys2Proof.Machine
end

section
/-! The stop at coast lead, and the end of a move whose members are all released (R112 to R114). -/

namespace Sys2Proof.Machine

theorem MoveBody.point_of_groupBy {b : MoveBody} (kind : b.kind = .groupBy) : b.point = none := by
  cases b with
  | groupBy delta => rfl
  | groupJog _ | pointTo _ _ | pointJog _ _ => exact nomatch kind

/-- The entry of a member that is released at its target (R112). -/
def RunEntry.releasedAt (x : RunEntry) (position : Int) : RunEntry :=
  { x with released := true, releasePos := some position }

section
variable {s : State} {g : GroupIdx} {m : Move} {rest : List Move} {i : PointIdx} {e : RunEntry} {v : Int}

variable (queue : (s.group g).queue = m :: rest)
include queue

theorem State.earlyStages_within (jog : m.body.kind.jog = false)
    (within : ∀ x ∈ m.runList, ∀ y ∈ m.runList, x.progress - y.progress ≤ ((s.group g).tripBand : Int)) :
    (s.stageSkew g).stageJog g = s := by
  rw [State.stageSkew_within queue within, State.stageJog_of_not_jog queue jog]

theorem State.earlyStages_starting (jog : m.body.kind.jog = false) (starting : m.state = .starting) :
    (s.stageSkew g).stageJog g = s := by
  have still : (s.group g).headIs isRunning = false := by rw [Group.headIs_of_queue queue, starting]; rfl
  have skew : s.stageSkew g = s := by simp [State.stageSkew, still]
  rw [skew, State.stageJog_of_not_jog queue jog]

/-- R112, R51: the member's release outside a rehearsal. -/
theorem State.coastMember_releases (entry : (s.group g).entry i = some e) (driving : m.state.driving = true)
    (jog : m.body.kind.jog = false) (unreleased : e.released = false) (target : e.target = some v)
    (near : (s.group g).direction.sign * (v - s.positionOf i) ≤ ((s.point i).coast : Int))
    (energized : (s.point i).channel.state.energized = true) (live : s.rehearsing i = false) :
    s.coastMember g i = (s.modEntry g i fun x => x.releasedAt (s.positionOf i)).setPoint i
      ((s.point i).toSettle s.time) := by
  have still : (s.modEntry g i fun x => x.releasedAt (s.positionOf i)).rehearsing i = false :=
    (s.rehearsing_modEntry g i _ i).trans live
  rw [State.coastMember_driven queue entry driving jog unreleased target near energized]
  refine (State.release_live still).trans ?_
  rw [State.modPoint, State.point_modEntry, Point.rest, if_pos energized]
  rfl

/-! ## Every member is released (R114) -/

theorem State.stageAllReleased_of_all (driving : m.state.driving = true) (released : ∀ x ∈ m.runList, x.released = true) :
    s.stageAllReleased g = s.enterStopping g none none := by
  refine if_pos ?_
  rw [Group.headIs_of_queue queue, driving, Group.head_of_queue queue, Option.any_some, (Move.allReleased_iff m).mpr released]
  rfl

variable (driving : m.state.driving = true) (released : ∀ x ∈ m.runList, x.released = true)
  (quiet : ∀ x ∈ m.runList, (s.point x.point).channel.quiet = true)
include driving released quiet

theorem State.stageAllReleased_of_quiet :
    s.stageAllReleased g = (s.modGroup g fun r => r.stopped m rest none none).endTest g := by
  have resting : s.releaseAll (s.runPoints g) = s := State.releaseAll_of_quiet fun j hj => by
    rw [State.runPoints, Group.runList_of_queue queue] at hj
    obtain ⟨x, hx, rfl⟩ := List.mem_map.mp hj
    exact quiet x hx
  rw [State.stageAllReleased_of_all queue driving released, State.enterStopping_released queue driving resting rfl]

/-- Stages 4 and 5 of a move that a member has not settled in. -/
theorem State.lastStages_waiting (waits : ∃ x ∈ m.runList, x.settled = false) :
    (s.stageAllReleased g).stageGate g = s.modGroup g fun r => r.stopped m rest none none := by
  have stopped : ((s.modGroup g fun r => r.stopped m rest none none).group g).queue =
      { m with state := .stopping, endMark := none } :: rest := by rw [State.group_modGroup_self]; rfl
  rw [State.stageAllReleased_of_quiet queue driving released quiet, State.endTest_waiting stopped rfl waits]
  exact State.stageGate_of_not_running (by rw [Group.headIs_of_queue stopped]; rfl)

/-- Stages 4 and 5 of a move whose members have all settled. -/
theorem State.lastStages_arrived (lawful : s.queuesLawful) (jog : m.body.kind.jog = false)
    (settled : ∀ x ∈ m.runList, x.settled = true) :
    (s.stageAllReleased g).stageGate g = (s.produce (some g) (.moveEnded .arrived m.tag m.body.kind m.body.point
      (m.runList.map fun x => (x.point, x.arrivalError.getD 0)))).modGroup g fun r => r.without rest := by
  have stopped : ((s.modGroup g fun r => r.stopped m rest none none).group g).queue =
      { m with state := .stopping, endMark := none } :: rest := by rw [State.group_modGroup_self]; rfl
  have parked : ((s.stageAllReleased g).group g).headIs MoveState.driving = false := by
    rw [State.stageAllReleased_of_all queue driving released]
    exact (State.enterStopping_cuts lawful g none none).2
  rw [State.stageGate_of_not_running (Group.running_driving parked),
    State.stageAllReleased_of_quiet queue driving released quiet,
    State.endTest_arrived stopped rfl settled rfl jog released, State.produce_modGroup _ _ _ _ _ _ rfl,
    State.modGroup_modGroup]
  rfl

end

/-! ## The evaluation of a move whose member reaches its target -/

section
variable {s : State} {g : GroupIdx} {m : Move} {rest : List Move} {i : PointIdx} {e : RunEntry} {v : Int}
  {l : List RunEntry}
  (queue : (s.group g).queue = m :: rest) (driving : m.state.driving = true) (jog : m.body.kind.jog = false)
  (sorted : m.runList.Pairwise (fun x y => x.point < y.point)) (mem : e ∈ m.runList) (own : e.point = i)
  (unreleased : e.released = false) (target : e.target = some v)
  (near : (s.group g).direction.sign * (v - s.positionOf i) ≤ ((s.point i).coast : Int))
include queue driving jog sorted mem own unreleased target near

/-- The last member to reach its target is released at it, and the move is STOPPING (R96, R112, R114). -/
theorem State.evaluate_lastRelease
    (within : ∀ x ∈ m.runList, ∀ y ∈ m.runList, x.progress - y.progress ≤ ((s.group g).tripBand : Int))
    (others : ∀ x ∈ m.runList, x.point ≠ i → x.released = true ∧ (s.point x.point).channel.quiet = true)
    (energized : (s.point i).channel.state.energized = true) (live : s.rehearsing i = false) (waits : e.settled = false)
    (hl : l = (m.runList.map fun x => if x.point = i then x.releasedAt (s.positionOf i) else x)) :
    s.evaluate g = (s.setPoint i ((s.point i).toSettle s.time)).modGroup g fun r =>
      r.stopped { m with runList := l } rest none none := by
  have entry : (s.group g).entry i = some e := own ▸ entry_of_sorted queue sorted mem
  have there := (Elsewhere.of_modEntry i (fun x => x.releasedAt (s.positionOf i)) queue).setPoint
    (p := (s.point i).toSettle s.time) rfl
  have coast := State.stageCoast_one (f := fun x => x.releasedAt (s.positionOf i)) queue sorted mem own
    (fun x hx other => .inl (others x hx other).1) (fun _ => rfl) there (State.coastMember_releases queue entry driving jog unreleased target near energized live)
  have list : replaced m.runList i (fun x => x.releasedAt (s.positionOf i)) = l := hl.symm
  have record := there.group
  rw [list] at record
  have last := State.lastStages_waiting (m := { m with runList := l }) (by rw [record]) driving (fun x hx => ?_)
    (fun x hx => ?_) ⟨e.releasedAt (s.positionOf i), ?_, waits⟩
  · rw [State.evaluate, State.earlyStages_within queue jog within, coast, last, State.modEntry_of_queue queue]
    exact (State.modGroup_modGroup (s.setPoint i ((s.point i).toSettle s.time)) g
      (fun r => { r with queue := { m with runList := replaced m.runList i fun x => x.releasedAt (s.positionOf i) } :: rest })
      fun r => r.stopped { m with runList := l } rest none none)
  · rw [hl] at hx
    obtain ⟨y, hy, rfl⟩ := List.mem_map.mp hx
    by_cases here : y.point = i
    · rw [if_pos here]; rfl
    · rw [if_neg here]; exact (others y hy here).1
  · rw [hl] at hx
    obtain ⟨y, hy, rfl⟩ := List.mem_map.mp hx
    by_cases here : y.point = i
    · rw [if_pos here]
      change (State.point _ y.point).channel.quiet = true
      rw [here, State.point_setPoint_self]
      rfl
    · rw [if_neg here, there.point _ here]; exact (others y hy here).2
  · rw [hl]
    exact List.mem_map.mpr ⟨e, mem, if_pos own⟩

/-- The last member rests gated in OFF at its target: it is marked released, and the move ends ARRIVED (R98, R113). -/
theorem State.evaluate_lastArrival (kind : m.body.kind = .groupBy) (lawful : s.queuesLawful)
    (within : ∀ x ∈ m.runList, ∀ y ∈ m.runList, x.progress - y.progress ≤ ((s.group g).tripBand : Int))
    (others : ∀ x ∈ m.runList, x.point ≠ i → x.released = true ∧ (s.point x.point).channel.quiet = true)
    (off : (s.point i).channel.state = .off) (idle : (s.point i).channel.pending = none) (gated : e.gated = true)
    (settled : ∀ x ∈ m.runList, x.settled = true)
    (hl : l = (m.runList.map fun x => if x.point = i then
      { x with released := true, arrivalError := some (max (-32768) (min 32767 (s.positionOf i - v))) } else x)) :
    s.evaluate g = (s.produce (some g) (.moveEnded .arrived m.tag .groupBy none
      (l.map fun x => (x.point, x.arrivalError.getD 0)))).modGroup g fun r => r.without rest := by
  have entry : (s.group g).entry i = some e := own ▸ entry_of_sorted queue sorted mem
  have resting : (s.point i).channel.state.energized = false := by rw [off]; rfl
  have only : ∀ x ∈ (s.group g).runList, x.point = i → x = e := fun x hx hi => by
    rw [Group.runList_of_queue queue] at hx
    exact eq_of_sorted sorted hx mem (hi.trans own.symm)
  have there := Elsewhere.of_modEntry i (fun x => x.marked (s.point i).channel.state e.settled (s.positionOf i - v)) queue
  have marked := (State.coastMember_resting queue entry driving jog unreleased target near kind resting (.inl gated)
    own).trans ((State.markReleased_eq only resting).trans (State.dropPending_of_none (by exact idle)))
  have coast := State.stageCoast_one
    (f := fun x => x.marked (s.point i).channel.state e.settled (s.positionOf i - v)) queue sorted mem own
    (fun x hx other => .inl (others x hx other).1) (fun _ => rfl) there marked
  have list : replaced m.runList i (fun x => x.marked (s.point i).channel.state e.settled (s.positionOf i - v)) = l := by
    have marks : ∀ x : RunEntry, x.marked (s.point i).channel.state e.settled (s.positionOf i - v) =
        { x with released := true, arrivalError := some (max (-32768) (min 32767 (s.positionOf i - v))) } := fun x => by
      rw [RunEntry.marked, if_pos ⟨off, settled e mem⟩]
    simp only [hl, replaced, marks]
  have record := there.group
  rw [list] at record
  have lawful' : State.queuesLawful (s.modEntry g i fun x =>
      x.marked (s.point i).channel.state e.settled (s.positionOf i - v)) := (s.modEntry_moved g i _).queuesLawful lawful
  have last := State.lastStages_arrived (m := { m with runList := l }) (by rw [record]) driving (fun x hx => ?_)
    (fun x hx => ?_) lawful' jog (fun x hx => ?_)
  · rw [State.evaluate, State.earlyStages_within queue jog within, coast, last, State.modEntry_of_queue queue,
      State.produce_modGroup _ _ _ _ _ _ rfl, State.modGroup_modGroup, kind, MoveBody.point_of_groupBy kind]
    rfl
  all_goals
    rw [hl] at hx
    obtain ⟨y, hy, rfl⟩ := List.mem_map.mp hx
    by_cases here : y.point = i
  · rw [if_pos here]
  · rw [if_neg here]; exact (others y hy here).1
  · rw [if_pos here, State.point_modEntry]
    change (s.point y.point).channel.quiet = true
    rw [here, Channel.quiet, off, idle]
    rfl
  · rw [if_neg here, State.point_modEntry]; exact (others y hy here).2
  · rw [if_pos here]; exact settled y hy
  · rw [if_neg here]; exact settled y hy

/-- A member is released at its target while the others go on (R112). -/
theorem State.evaluate_release (energized : (s.point i).channel.state.energized = true)
    (live : s.rehearsing i = false) (two : 2 ≤ m.runList.length)
    (others : ∀ x ∈ m.runList, x.point ≠ i → x.released = false ∧ ∀ w, x.target = some w →
      ((s.point x.point).coast : Int) < (s.group g).direction.sign * (w - s.positionOf x.point))
    (level : m.state = .running → ∃ low, s.levelBut g m i low) :
    s.evaluate g = (s.modEntry g i fun x => x.releasedAt (s.positionOf i)).setPoint i ((s.point i).toSettle s.time) := by
  have entry : (s.group g).entry i = some e := own ▸ entry_of_sorted queue sorted mem
  have there := (Elsewhere.of_modEntry i (fun x => x.releasedAt (s.positionOf i)) queue).setPoint
    (p := (s.point i).toSettle s.time) rfl
  have coast := State.coastMember_releases queue entry driving jog unreleased target near energized live
  have after := there.entry sorted (fun _ => rfl) mem
  rw [own, if_pos rfl] at after
  cases state : m.state with
  | running =>
    obtain ⟨low, level⟩ := level state
    exact level.evaluate (f1 := fun x => x.releasedAt (s.positionOf i)) (f2 := fun x => x.releasedAt (s.positionOf i)) queue
      mem own (fun _ => ⟨rfl, rfl⟩) (fun _ => ⟨rfl, rfl⟩) there there coast (State.gateMember_stays after (.inl rfl))
      (State.rejoinMember_stays after (.inl rfl)) fun x hx other => level.rejoinMember there (fun _ => rfl) hx other
  | starting =>
    obtain ⟨y, hy, other⟩ := exists_other sorted two i
    have stage3 := State.stageCoast_one (f := fun x => x.releasedAt (s.positionOf i)) queue sorted mem own
      (fun x hx ne => .inr fun w _ goal => (others x hx ne).2 w goal) (fun _ => rfl) there coast
    rw [State.evaluate, State.earlyStages_starting queue jog state, stage3,
      State.stageAllReleased_of_other there hy other (others y hy other).1]
    refine State.stageGate_of_not_running ?_
    rw [there.group]
    change isRunning m.state = false
    rw [state]
    rfl
  | queued | stopping | held => rw [state] at driving; exact absurd driving (by decide)

end

/-- Settles O43: by `State.evaluate_lastRelease`, `State.evaluate_release` and `State.evaluate_lastArrival`. -/
theorem pointMoveStopsAtItsCoastLead : Obligations.PointMoveStopsAtItsCoastLead := by
  refine ⟨?_, ?_⟩
  · rintro s g m rest i e v away q queue driving jog single own unreleased waits target rfl rfl energized live
    have mem : e ∈ m.runList := by rw [single]; exact List.mem_singleton_self e
    have sorted : m.runList.Pairwise (fun x y => x.point < y.point) := by rw [single]; exact List.pairwise_singleton _ e
    have within : ∀ x ∈ m.runList, ∀ y ∈ m.runList, x.progress - y.progress ≤ ((s.group g).tripBand : Int) :=
      fun x hx y hy => by
        rw [single, List.mem_singleton] at hx hy
        rw [hx, hy]
        omega
    refine ⟨fun near => ?_, fun far => ?_⟩
    · exact State.evaluate_lastRelease queue (MoveState.driving_of driving) jog sorted mem own unreleased target near within
        (fun x hx other => by rw [single, List.mem_singleton] at hx; exact absurd (hx ▸ own) other) energized live waits
        (by rw [single, List.map_singleton, if_pos own, RunEntry.releasedAt])
    · have coast : s.stageCoast g = s := State.stageCoast_of_fixed fun j hj => by
        rw [State.runPoints, Group.runList_of_queue queue, single, List.map_singleton, List.mem_singleton, own] at hj
        rw [hj]
        refine State.coastMember_of_far queue (own ▸ entry_of_sorted queue sorted mem) fun w _ goal _ => ?_
        rwa [Option.some.inj (goal.symm.trans target)]
      rw [State.evaluate, State.earlyStages_within queue jog within, coast,
        State.stageAllReleased_of_unreleased queue ⟨e, mem, unreleased⟩, State.stageGate_of_unsynchronised queue]
      rw [Move.synchronised, single]
      exact Bool.and_false _
  · rintro s g m rest i e v q l queue driving kind sorted mem own unreleased target rfl near
    have drives := MoveState.driving_of driving
    have jog : m.body.kind.jog = false := by rw [kind]; rfl
    refine ⟨fun energized live two others level => ?_, fun within others => ⟨fun energized live waits hl => ?_,
      fun lawful off idle gated settled hl => ?_⟩⟩
    · exact State.evaluate_release queue drives jog sorted mem own unreleased target near energized live two others level
    · exact State.evaluate_lastRelease queue drives jog sorted mem own unreleased target near within others energized live
        waits hl
    · exact State.evaluate_lastArrival queue drives jog sorted mem own unreleased target near kind lawful within others off
        idle gated settled hl

end Sys2Proof.Machine
end

section
/-! The slots that are due at the entry to STARTING (R92, R94). -/

namespace Sys2Proof.Machine

/-! ## What happens in an event only empties a start schedule -/

/-- Every group's start schedule is the same in t as in s, or empty. -/
def Shrinks (s t : State) : Prop := ∀ g, (t.group g).schedule = (s.group g).schedule ∨ (t.group g).schedule = []

theorem Shrinks.refl (s : State) : Shrinks s s := fun _ => .inl rfl

theorem Shrinks.trans {s t u : State} (h : Shrinks s t) (k : Shrinks t u) : Shrinks s u := fun g => by
  rcases k g with same | empty
  · rw [same]; exact h g
  · exact .inr empty

theorem Shrinks.of_groups {s t : State} (same : t.groups = s.groups) : Shrinks s t := fun g => by
  rw [State.group, State.group, same]; exact .inl rfl

theorem Cuts.shrinks {s t : State} (h : Cuts s t) : Shrinks s t := fun g =>
  (h.groups g).imp (fun same => same.schedule) fun parked => parked.schedule

section
variable (s : State) (g : GroupIdx) (i : PointIdx)

theorem State.modGroup_shrinks {f : Group → Group}
    (schedule : (f (s.group g)).schedule = (s.group g).schedule ∨ (f (s.group g)).schedule = []) :
    Shrinks s (s.modGroup g f) := fun k => by
  by_cases same : g = k
  · subst same; rw [State.group_modGroup_self]; exact schedule
  · rw [State.group_modGroup_ne s same]; exact .inl rfl

theorem Group.schedule_modHead (r : Group) (f : Move → Move) : (r.modHead f).schedule = r.schedule := by
  unfold Group.modHead; split <;> rfl

theorem State.modEntry_shrinks (f : RunEntry → RunEntry) : Shrinks s (s.modEntry g i f) :=
  s.modGroup_shrinks g (.inl (Group.schedule_modHead _ _))

theorem State.endHead_shrinks (o : Outcome) (n : Option PointIdx) (l : List (PointIdx × Int)) :
    Shrinks s (s.endHead g o n l) := by
  unfold State.endHead
  split
  · exact (Shrinks.of_groups rfl).trans (State.modGroup_shrinks _ g (.inr rfl))
  · exact .refl s

theorem State.endTest_shrinks : Shrinks s (s.endTest g) := by
  unfold State.endTest
  split
  · split
    · split
      · exact s.endHead_shrinks g _ _ _
      · exact s.endHead_shrinks g _ _ _
      · split
        · exact s.endHead_shrinks g _ _ _
        split
        · exact s.endHead_shrinks g _ _ _
        · exact (s.modGroup_shrinks g (f := fun r => r.modHead fun m => { m with state := .held })
            (.inl (Group.schedule_modHead _ _))).trans (.of_groups rfl)
    · exact .refl s
  · exact .refl s

theorem State.enterStopping_shrinks (a : Option StopReason) (b : Option EndMark) : Shrinks s (s.enterStopping g a b) := by
  unfold State.enterStopping
  dsimp only
  have released := (s.releaseAll_cuts (s.runPoints g)).shrinks
  generalize s.releaseAll (s.runPoints g) = u at released
  split
  · split
    · exact released.trans ((u.modGroup_shrinks g (.inr rfl)).trans (State.endTest_shrinks _ g))
    · exact released
  · exact .refl s

theorem State.raiseFault_shrinks (c : FaultCode) : Shrinks s (s.raiseFault i c) := by
  have latched : Shrinks s (s.latchFault i c) := .of_groups rfl
  unfold State.raiseFault
  dsimp only
  split
  · exact latched.trans ((State.release_cuts _ i).trans (State.tripMember_cuts _ i)).shrinks
  · exact latched.trans (State.tripMember_cuts _ i).shrinks

theorem State.energize_shrinks (d : Dir) : Shrinks s (s.energize i d) := by
  unfold State.energize
  dsimp only
  split
  · exact (Shrinks.of_groups rfl).trans (State.raiseFault_shrinks _ i _)
  · exact .of_groups rfl

theorem State.energizeRequest_shrinks (d : Dir) : Shrinks s (s.energizeRequest i d).1 := by
  unfold State.energizeRequest
  split
  · split <;> exact .refl s
  · split
    · exact .refl s
    · split
      · exact .refl s
      · unfold State.takeOrHold
        split
        · exact s.energize_shrinks i d
        · exact .of_groups rfl

theorem State.memberStarted_shrinks : Shrinks s (s.memberStarted g i) :=
  (s.modEntry_shrinks g i _).trans (State.modGroup_shrinks _ g (.inl (Group.schedule_modHead _ _)))

theorem State.startAnswer_shrinks (a : Answer) : Shrinks s (s.startAnswer g i a) := by
  unfold State.startAnswer
  split
  case isFalse => exact .refl s
  case isTrue starting =>
    have moves : (s.group g).queue ≠ [] := fun empty => by
      rw [Group.headIs, empty] at starting
      exact absurd starting (by decide)
    split
    · exact s.memberStarted_shrinks g i
    · unfold State.slotLimit
      split
      · exact (State.trip_cuts .limit (some i) moves).shrinks
      · exact s.enterStopping_shrinks g _ _
    · exact s.enterStopping_shrinks g _ _
    all_goals exact .refl s

end

/-! ## The slots of an entry to STARTING -/

section
variable {s : State} {g : GroupIdx}

theorem State.startSlot_schedule {i : PointIdx} {due : Nat} {later : List (PointIdx × Nat)}
    (schedule : (s.group g).schedule = (i, due) :: later) (elapsed : due ≤ s.time)
    (starting : (s.group g).headIs isStarting = true) :
    ((s.startSlot g).group g).schedule = later ∨ ((s.startSlot g).group g).schedule = [] := by
  rw [State.startSlot_of_due schedule elapsed starting]
  have tail : ((s.modGroup g fun r => { r with schedule := later }).group g).schedule = later := by
    rw [State.group_modGroup_self]
  have shrinks := (State.energizeRequest_shrinks (s.modGroup g fun r => { r with schedule := later }) i
    (s.group g).direction).trans (State.startAnswer_shrinks _ g i
      ((s.modGroup g fun r => { r with schedule := later }).energizeRequest i (s.group g).direction).2) g
  rwa [tail] at shrinks

theorem State.startSlot_of_later (later : ∀ x ∈ (s.group g).schedule, s.time < x.2) : s.startSlot g = s := by
  have none : s.dueSlot g = none := by
    rw [State.dueSlot]
    split
    next i due rest schedule =>
      have early := later (i, due) (by rw [schedule]; exact List.mem_cons_self)
      exact if_neg (by simp [Nat.not_le.mpr early])
    next => rfl
  rw [State.startSlot, none]

theorem State.startSlots_of_later (later : ∀ x ∈ (s.group g).schedule, s.time < x.2) (l : List PointIdx) :
    l.foldl (fun t _ => t.startSlot g) s = s :=
  foldl_of_fixed (fun t (_ : PointIdx) => t.startSlot g) l s fun _ _ => State.startSlot_of_later later

/-- The slots handled in turn are the runs of START_SLOT. -/
theorem State.startSlots_eq_run {run : Nat → State} (l : List PointIdx)
    (steps : ∀ k, k < l.length → run (k + 1) = (run k).startSlot g) :
    l.foldl (fun t _ => t.startSlot g) (run 0) = run l.length := by
  induction l generalizing run with
  | nil => rfl
  | cons i l ih =>
    rw [List.foldl_cons, ← steps 0 (Nat.succ_pos _)]
    exact ih (run := fun k => run (k + 1)) fun k lt => steps (k + 1) (Nat.succ_lt_succ lt)

theorem scheduleFrom_eq (now stagger : Nat) (l : List PointIdx) (n : Nat) :
    scheduleFrom (now + n * stagger) stagger l = (l.zipIdx n).map fun x => (x.1, now + x.2 * stagger) := by
  induction l generalizing n with
  | nil => rfl
  | cons i l ih =>
    have next : now + n * stagger + stagger = now + (n + 1) * stagger := by rw [Nat.succ_mul, Nat.add_assoc]
    rw [scheduleFrom, next, ih, List.zipIdx_cons, List.map_cons]

/-- The slots that are due at the entry to STARTING: all of them without a stagger, the first otherwise (R92). -/
theorem State.startSlots_eq {u : State} {m : Move} {rest : List Move} {run : Nat → State} (stagger : Nat)
    (taking : List PointIdx) (queue : (u.group g).queue = m :: rest) (starting : m.state = .starting)
    (schedule : (u.group g).schedule = scheduleFrom u.time (1000 * stagger) taking) (start : run 0 = u)
    (steps : ∀ k, k < (if stagger = 0 then taking.length else min 1 taking.length) → run (k + 1) = (run k).startSlot g) :
    taking.foldl (fun t _ => t.startSlot g) u = run (if stagger = 0 then taking.length else min 1 taking.length) := by
  by_cases none : stagger = 0
  · rw [if_pos none] at steps ⊢
    rw [← start]
    exact State.startSlots_eq_run taking steps
  · rw [if_neg none] at steps ⊢
    cases taking with
    | nil => exact start.symm
    | cons i l =>
      have one : min 1 (i :: l).length = 1 := by rw [List.length_cons]; omega
      rw [one] at steps ⊢
      have first := State.startSlot_schedule (s := u) (i := i) (due := u.time) schedule (Nat.le_refl _)
        (by rw [Group.headIs_of_queue queue, starting]; rfl)
      have time : (u.startSlot g).time = u.time := (u.startSlot_moved g).time
      rw [steps 0 Nat.one_pos, start, List.foldl_cons]
      refine State.startSlots_of_later (fun x hx => ?_) l
      rw [time]
      rcases first with tail | empty
      · rw [tail] at hx
        have spaced := scheduleFrom_eq u.time (1000 * stagger) l 1
        rw [Nat.one_mul] at spaced
        rw [spaced] at hx
        obtain ⟨y, hy, rfl⟩ := List.mem_map.mp hx
        have index := (List.mem_zipIdx hy).1
        have positive : 0 < y.2 * (1000 * stagger) := Nat.mul_pos index (by omega)
        dsimp only
        omega
      · rw [empty] at hx; exact absurd hx List.not_mem_nil

end

end Sys2Proof.Machine
end

section
/-! A GO that starts or resumes a move (R73 to R75, R90 to R95). -/

namespace Sys2Proof.Machine

/-! ## The entry to STARTING (R92) -/

theorem taking_map {l : List RunEntry} {f : RunEntry → RunEntry} (point : ∀ e, (f e).point = e.point)
    (released : ∀ e, (f e).released = e.released) :
    ((l.map f).filter fun e => !e.released).map (·.point) = (l.filter fun e => !e.released).map (·.point) := by
  rw [List.filter_map, List.map_map]
  have same : (fun e : RunEntry => !e.released) ∘ f = fun e => !e.released := funext fun e => by
    rw [Function.comp, released]
  rw [same]
  exact List.map_congr_left fun e _ => point e

section
variable {s : State} {g : GroupIdx} {m k : Move} {rest : List Move} {f : Group → Group} {l : List RunEntry}
  {taking : List PointIdx} {baseline : Option (List (PointIdx × Nat))}

/-- The state at the entry to STARTING of a head move whose record k has been written, after MOVE_STARTED of m (R92). -/
def State.entered (s : State) (g : GroupIdx) (back : Bool) (m k : Move) (rest : List Move) (l : List RunEntry)
    (taking : List PointIdx) (baseline : Option (List (PointIdx × Nat))) : State :=
  (s.produce (some g) (.moveStarted back m.tag m.body.kind m.body.point)).modGroup g fun r =>
    { r with
      queue := { k with state := .starting, runList := l } :: rest
      schedule := taking.zipIdx.map fun x => (x.1, s.time + x.2 * (1000 * r.stagger))
      permit := some (s.time + 1000 * r.window), stopReason := none, baseline := baseline }

theorem State.enterStarting_reported (back : Bool)
    (record : f (s.group g) = { s.group g with queue := k :: rest, baseline := baseline })
    (entries : (k.runList.map fun e => e.enter (k.direction.getD .up) (s.positionOf e.point)) = l)
    (members : taking = (l.filter fun e => !e.released).map (·.point)) :
    ((s.modGroup g f).reportStart g back m).enterStarting g =
      taking.foldl (fun t _ => t.startSlot g) (s.entered g back m k rest l taking baseline) := by
  have group : ((s.modGroup g f).reportStart g back m).group g =
      { s.group g with queue := k :: rest, baseline := baseline } := by
    rw [State.reportStart, State.group_produce, State.group_modGroup_self, record]
  have queue : (((s.modGroup g f).reportStart g back m).group g).queue = k :: rest := by rw [group]
  have position : ∀ i, ((s.modGroup g f).reportStart g back m).positionOf i = s.positionOf i := fun i =>
    State.positionOf_congr (by
      have kept : ∀ h, (((s.modGroup g f).reportStart g back m).group h).rehearsal = (s.group h).rehearsal := fun h => by
        by_cases same : g = h
        · subst same; rw [group]
        · rw [State.reportStart, State.group_produce, State.group_modGroup_ne s same]
      exact kept _) rfl
  have same : (((s.modGroup g f).reportStart g back m).group g).taking = taking := by
    rw [Group.taking, Group.runList_of_queue queue, members, ← entries]
    exact (taking_map (f := fun e => e.enter (k.direction.getD .up) (s.positionOf e.point)) (fun _ => rfl) fun _ => rfl).symm
  rw [State.enterStarting, same]
  refine congrArg (fun u : State => taking.foldl (fun t _ => t.startSlot g) u) ?_
  have rehearsal : (f (s.group g)).rehearsal = (s.group g).rehearsal := by rw [record]
  simp only [position]
  rw [Group.direction_of_queue queue, State.reportStart, State.produce_modGroup _ _ _ _ _ _ rehearsal,
    State.modGroup_modGroup, State.entered]
  refine State.modGroup_congr ?_
  rw [State.group_produce, record]
  have slots := scheduleFrom_eq s.time (1000 * (s.group g).stagger) taking 0
  rw [Nat.zero_mul, Nat.add_zero] at slots
  rw [← slots, ← entries]
  rfl

/-! ## The first start (R91) and the resume (R93) -/

theorem State.newEntry_enter (s : State) (b : MoveBody) (d : Dir) (i : PointIdx) :
    (s.newEntry b i).enter d (s.positionOf (s.newEntry b i).point) = s.newEntry b i := by
  have none : d.sign * (s.positionOf i - s.positionOf i) = 0 := by rw [Int.sub_self, Int.mul_zero]
  exact congrArg (fun v => { s.newEntry b i with progress := v }) none

theorem State.firstStart_eq (queue : (s.group g).queue = m :: rest)
    (hl : l = (s.involved g m.body).map (s.newEntry m.body)) (inside : l.find? s.targetOutside = none)
    (away : alreadyThere m.body l = false) (members : taking = (l.filter fun e => !e.released).map (·.point)) :
    s.firstStart g m = (taking.foldl (fun t _ => t.startSlot g)
      (s.entered g false m { m with runList := l, toDirection := startDirection m.body l } rest l taking
        ((s.modGroup g fun r =>
          { r with queue := { m with runList := l, toDirection := startDirection m.body l } :: rest }).shares g)), .ok) := by
  have head : (s.modGroup g fun r => r.modHead fun h => { h with runList := l, toDirection := startDirection m.body l }) =
      s.modGroup g fun r =>
        { r with queue := { m with runList := l, toDirection := startDirection m.body l } :: rest } :=
    State.modGroup_congr (Group.modHead_of_queue queue _)
  rw [State.firstStart]
  dsimp only
  rw [← hl, inside, away, head]
  refine congrArg (·, Result.ok) ?_
  rw [State.modGroup_modGroup]
  refine State.enterStarting_reported false rfl ?_ members
  rw [hl, List.map_map]
  exact List.map_congr_left fun i _ => s.newEntry_enter m.body _ i

theorem RunEntry.ungated_eq (e : RunEntry) :
    (if e.released then e else { e with gated := false }) = { e with gated := e.gated && e.released } := by
  split
  next released =>
    have gated : e.gated = (e.gated && e.released) := by rw [released, Bool.and_true]
    exact congrArg (fun b => { e with gated := b }) gated
  next taking =>
    have gated : false = (e.gated && e.released) := by rw [Bool.eq_false_iff.mpr taking, Bool.and_false]
    exact congrArg (fun b => { e with gated := b }) gated

theorem State.resume_eq (queue : (s.group g).queue = m :: rest)
    (hl : l = m.runList.map fun e =>
      { e with
        progress := (s.group g).direction.sign * (s.positionOf e.point - e.start)
        gated := e.gated && e.released, started := false })
    (members : taking = (l.filter fun e => !e.released).map (·.point)) :
    s.resume g m = taking.foldl (fun t _ => t.startSlot g)
      (s.entered g true m
        { m with runList := m.runList.map fun e => if e.released then e else { e with gated := false } } rest l taking
        (s.group g).baseline) := by
  have record : (s.group g).modHead (fun h =>
      { h with runList := h.runList.map fun e => if e.released then e else { e with gated := false } }) =
      { s.group g with
        queue := { m with runList := m.runList.map fun e => if e.released then e else { e with gated := false } } :: rest
        baseline := (s.group g).baseline } := Group.modHead_of_queue queue _
  rw [State.resume]
  refine State.enterStarting_reported true record ?_ members
  rw [hl, List.map_map]
  refine List.map_congr_left fun e _ => ?_
  rw [Group.direction_of_queue queue]
  rw [Function.comp, RunEntry.ungated_eq]
  rfl

end

end Sys2Proof.Machine
end

section
/-! GO at a QUEUED and at a HELD head (R73 to R75, R90 to R95). -/

namespace Sys2Proof.Machine

section
variable {s : State} {g : GroupIdx} {m k : Move} {rest : List Move} {l : List RunEntry} {taking : List PointIdx}

/-! ## The run list of a first start (R91) -/

theorem State.find_outside_eq_none (reach : ∀ e ∈ l, ∀ v, e.target = some v → -2000000 ≤ v ∧ v ≤ 2000000 ∧
      (s.referencedOf e.point = true → (s.point e.point).settings.inside v = true)) : l.find? s.targetOutside = none := by
  refine List.find?_eq_none.mpr fun e mem outside => ?_
  cases target : e.target with
  | none =>
    rw [State.targetOutside_of_untargeted s target] at outside
    exact Bool.false_ne_true outside
  | some v =>
    obtain ⟨lower, upper, inside⟩ := reach e mem v target
    rcases (State.targetOutside_iff s target).mp outside with low | high | ⟨referenced, out⟩
    · omega
    · omega
    · rw [inside referenced] at out; exact absurd out (by decide)

theorem State.startDirection_eq (aims : ∀ i v, m.body = .pointTo i v → v ≠ s.positionOf i) :
    startDirection m.body ((s.involved g m.body).map (s.newEntry m.body)) =
      match m.body with
      | .pointTo i v => some (if s.positionOf i < v then .up else .down)
      | .groupBy _ | .groupJog _ | .pointJog _ _ => none := by
  cases body : m.body with
  | pointTo i v =>
    have apart := aims i v body
    change (if s.positionOf i < v then some Dir.up else if v < s.positionOf i then some .down else none) = _
    split
    next below => exact congrArg some (if_pos below).symm
    next above => exact (if_pos (by omega)).trans (congrArg some (if_neg above).symm)
  | groupBy v | groupJog d | pointJog i d => rfl

theorem State.alreadyThere_eq_false (aims : ∀ i v, m.body = .pointTo i v → v ≠ s.positionOf i) :
    alreadyThere m.body ((s.involved g m.body).map (s.newEntry m.body)) = false := by
  cases body : m.body with
  | pointTo i v => exact beq_eq_false_iff_ne.mpr (aims i v body).symm
  | groupBy v | groupJog d | pointJog i d => rfl

/-- R73, R74: the shares of a group whose head move is k. -/
theorem State.shares_eq {t : State} (queue : (t.group g).queue = k :: rest) (points : ∀ i, t.point i = s.point i)
    (members : k.runList.map (·.point) = taking) :
    ((k.body.kind.ofGroup = true ∧ 2 ≤ k.runList.length ∧ (∀ i ∈ taking, (s.point i).load.state = .valid) ∧
        0 < s.totalLoad taking) → t.shares g =
      some (taking.map fun i => (i, roundDiv (s.filteredOf i * 1024) (s.totalLoad taking)))) ∧
    (¬(k.body.kind.ofGroup = true ∧ 2 ≤ k.runList.length ∧ (∀ i ∈ taking, (s.point i).load.state = .valid) ∧
        0 < s.totalLoad taking) → t.shares g = none) := by
  have filtered : t.filteredOf = s.filteredOf := funext fun i => by rw [State.filteredOf, State.filteredOf, points]
  have total : t.totalLoad taking = s.totalLoad taking := by rw [State.totalLoad, State.totalLoad, filtered]
  have run : t.runPoints g = taking := by rw [State.runPoints, Group.runList_of_queue queue, members]
  have shared : t.shared k ↔ (k.body.kind.ofGroup = true ∧ 2 ≤ k.runList.length ∧
      (∀ i ∈ taking, (s.point i).load.state = .valid) ∧ 0 < s.totalLoad taking) := by
    rw [State.shared, Move.synchronised_iff, ← MoveKind.ofGroup_iff, members, total, ← members,
      List.forall_mem_map, and_assoc]
    simp only [points]
  constructor
  · intro sharing
    refine (State.shares_of_queue queue _).mpr ⟨shared.mpr sharing, ?_⟩
    rw [run, total, filtered]
  · intro unshared
    cases some : t.shares g with
    | none => rfl
    | some b => exact absurd (shared.mp ((State.shares_of_queue queue b).mp some).1) unshared

theorem State.newEntry_afterFrame (s : State) (p : Port) (b : MoveBody) (i : PointIdx) :
    (s.afterFrame p).newEntry b i = s.newEntry b i := by
  simp only [State.newEntry, State.positionOf_afterFrame, State.point_afterFrame]

/-! ## What GO answers with (R90, R91, R93) -/

theorem State.goFirst_entered (queue : (s.group g).queue = m :: rest)
    (encoders : m.body.kind ≠ .pointJog → ∀ i ∈ s.involved g m.body, (s.point i).settings.encoderMode ≠ .off)
    (sound : ∀ i ∈ s.involved g m.body, (s.point i).latched = none)
    (aims : ∀ i v, m.body = .pointTo i v → s.referencedOf i = true ∧ v ≠ s.positionOf i)
    (hl : l = (s.involved g m.body).map (s.newEntry m.body))
    (reach : ∀ e ∈ l, ∀ v, e.target = some v → -2000000 ≤ v ∧ v ≤ 2000000 ∧
      (s.referencedOf e.point = true → (s.point e.point).settings.inside v = true))
    (members : taking = (l.filter fun e => !e.released).map (·.point)) :
    s.goFirst g m = (taking.foldl (fun t _ => t.startSlot g)
      (s.entered g false m { m with runList := l, toDirection := startDirection m.body l } rest l taking
        ((s.modGroup g fun r =>
          { r with queue := { m with runList := l, toDirection := startDirection m.body l } :: rest }).shares g)), .ok) := by
  rw [State.goFirst_of_ready (State.lacksEncoder_eq_false encoders)
    (State.lacksReference_eq_false fun i v body => (aims i v body).1) (State.hasFault_eq_false sound)]
  exact State.firstStart_eq queue hl (State.find_outside_eq_none reach)
    (hl ▸ State.alreadyThere_eq_false fun i v body => (aims i v body).2) members

theorem State.goResume_entered (queue : (s.group g).queue = m :: rest)
    (sound : ∀ e ∈ m.runList, e.released = false → (s.point e.point).latched = none)
    (hl : l = m.runList.map fun e =>
      { e with
        progress := (s.group g).direction.sign * (s.positionOf e.point - e.start)
        gated := e.gated && e.released, started := false })
    (members : taking = (l.filter fun e => !e.released).map (·.point)) :
    s.goResume g m = (taking.foldl (fun t _ => t.startSlot g)
      (s.entered g true m
        { m with runList := m.runList.map fun e => if e.released then e else { e with gated := false } } rest l taking
        (s.group g).baseline), .ok) := by
  rw [State.goResume_of_sound fun i mem => ?_, State.resume_eq queue hl members]
  obtain ⟨e, inList, unreleased, rfl⟩ := (Group.mem_taking_iff _ i).mp mem
  rw [Group.runList_of_queue queue] at inList
  exact sound e inList unreleased

end

/-! ## The slots that GO handles (R92, R94) -/

section
variable {s : State} {p : Port} {tail : FrameTail} {f : GoodFrame} {g : GroupIdx} {m k : Move} {rest : List Move}
  {l : List RunEntry} {taking : List PointIdx} {baseline : Option (List (PointIdx × Nat))} {back : Bool}

/-- A GO that enters STARTING, by the runs of START_SLOT for the slots due at the entry. -/
theorem exec_go_entered {u : State} {slots : Nat} {run : Nat → State} (delivered : s.delivers p tail .go f)
    (index : headerIndex f.header = g.val)
    (answer : goOwner p (s.afterFrame p) g f = (taking.foldl (fun t _ => t.startSlot g)
      ((s.afterFrame p).entered g back m k rest l taking baseline), .ok))
    (entered : u = (s.afterFrame p).entered g back m k rest l taking baseline)
    (number : slots = (if (s.group g).stagger = 0 then taking.length else min 1 taking.length)) (start : run 0 = u)
    (steps : ∀ n, n < slots → exec (.startSlot g) (run n) = .next (run (n + 1))) :
    exec (.go p tail) s = .next ((run slots).setResult p .ok) := by
  have running : ∀ n, n ≤ slots → (run n).resetAsserted = false := by
    intro n
    induction n with
    | zero =>
      intro _
      rw [start, entered]
      exact (State.resetAsserted_afterFrame s p).trans delivered.1.1
    | succ n ih =>
      intro within
      have step := steps n within
      rw [exec_startSlot (ih (Nat.le_of_succ_le within))] at step
      rw [← Host.Outcome.next.inj step]
      exact ((run n).startSlot_moved g).resetAsserted.trans (ih (Nat.le_of_succ_le within))
  have slot : ∀ n, n < slots → run (n + 1) = (run n).startSlot g := fun n within => by
    have step := steps n within
    rw [exec_startSlot (running n (Nat.le_of_lt within))] at step
    exact (Host.Outcome.next.inj step).symm
  have group : u.group g = { (s.afterFrame p).group g with
      queue := { k with state := .starting, runList := l } :: rest
      schedule := taking.zipIdx.map fun x => (x.1, (s.afterFrame p).time + x.2 * (1000 * ((s.afterFrame p).group g).stagger))
      permit := some ((s.afterFrame p).time + 1000 * ((s.afterFrame p).group g).window)
      stopReason := none, baseline := baseline } := by
    rw [entered, State.entered, State.group_modGroup_self, State.group_produce]
  have schedule := scheduleFrom_eq (s.afterFrame p).time (1000 * ((s.afterFrame p).group g).stagger) taking 0
  rw [Nat.zero_mul, Nat.add_zero] at schedule
  have time : u.time = (s.afterFrame p).time := by rw [entered]; rfl
  have handled := State.startSlots_eq (u := u) (m := { k with state := .starting, runList := l }) (rest := rest)
    (run := run) ((s.afterFrame p).group g).stagger taking (by rw [group]) rfl
    (by rw [group, time, schedule]) start
    (by rw [State.group_afterFrame, ← number]; exact slot)
  rw [State.group_afterFrame, ← number] at handled
  rw [exec_go delivered index, answer, ← entered, handled]
  rfl

end

/-- R94, R95: the one slot of a move of one member that may be energized at once. -/
theorem State.startSlot_single {s : State} {g : GroupIdx} {m k : Move} {rest : List Move} {e : RunEntry} {i : PointIdx}
    {d : Dir} {baseline : Option (List (PointIdx × Nat))} {back : Bool} (running : s.resetAsserted = false)
    (released : s.estop = false) (member : (s.point i).group = g) (sound : (s.point i).latched = none)
    (closed : (s.point i).switches.closedToward d = true) (resting : (s.point i).channel.state.energized = false)
    (idle : (s.point i).channel.pending = none) (due : (s.point i).energizeDue d ≤ s.time)
    (fresh : (s.point i).load.state ≠ .stale) (own : e.point = i) (direction : k.direction.getD .up = d) :
    (s.entered g back m k rest [e] [i] baseline).startSlot g =
      ((s.produce (some g) (.moveStarted back m.tag m.body.kind m.body.point)).setPoint i
        ((s.point i).energize (s.group g).rehearsal d s.time)).modGroup g fun r =>
          { r with
            queue := { k with state := .running, runList := [{ e with started := true, settled := false }] } :: rest
            schedule := [], permit := some (s.time + 1000 * r.window), stopReason := none, baseline := baseline } := by
  obtain ⟨-, -, -, slot⟩ := startSlotEnergizesItsMember
  have group : (s.entered g back m k rest [e] [i] baseline).group g = { s.group g with
      queue := { k with state := .starting, runList := [e] } :: rest
      schedule := [(i, s.time + 0 * (1000 * (s.group g).stagger))]
      permit := some (s.time + 1000 * (s.group g).window), stopReason := none, baseline := baseline } := by
    rw [State.entered, State.group_modGroup_self, State.group_produce]
    rfl
  have owner : (s.entered g back m k rest [e] [i] baseline).groupOf i =
      (s.entered g back m k rest [e] [i] baseline).group g := by
    rw [← member]; rfl
  have way : ((s.entered g back m k rest [e] [i] baseline).group g).direction = d := by
    rw [group]; exact direction
  have permitted : (s.entered g back m k rest [e] [i] baseline).denial i d = none := by
    refine (State.denial_eq_none_iff _ i d).mpr ⟨⟨?_, ?_⟩, ?_, sound, closed, released⟩
    · rw [owner, group]; exact List.any_eq_true.mpr ⟨e, List.mem_singleton_self e, beq_iff_eq.mpr own⟩
    · rw [owner, group]; rfl
    · refine (State.permitLive_iff _ _).mpr ⟨s.time + 1000 * (s.group g).window, ?_, Nat.le_add_right _ _⟩
      change ((s.entered g back m k rest [e] [i] baseline).groupOf i).permit = _
      rw [owner, group]
  obtain ⟨taken, -⟩ := slot (s.entered g back m k rest [e] [i] baseline) g i (s.time + 0 * (1000 * (s.group g).stagger)) []
    { k with state := .starting, runList := [e] } rest d _ running (by rw [group]) (by rw [Nat.zero_mul]; exact Nat.le_refl _)
    (by rw [group]) rfl member way.symm resting idle rfl
  have started := taken permitted due fresh _ rfl
  have running' : (s.entered g back m k rest [e] [i] baseline).resetAsserted = false := running
  rw [exec_startSlot running'] at started
  have rehearses : ((s.entered g back m k rest [e] [i] baseline).modGroup g fun r =>
      { r with schedule := [] }).rehearsing i = (s.group g).rehearsal := by
    change (((s.entered g back m k rest [e] [i] baseline).modGroup g fun r => { r with schedule := [] }).group
      (s.point i).group).rehearsal = _
    rw [member, State.group_modGroup_self, group]
  have all : ([{ e with started := true, settled := false }] : List RunEntry).all
      (fun e => e.started || e.released) = true := rfl
  have fresh' : (((s.entered g back m k rest [e] [i] baseline).modGroup g fun r =>
      { r with schedule := [] }).point i).load.state ≠ .stale := fresh
  rw [Host.Outcome.next.inj started, State.energize_of_fresh d fresh', rehearses, List.map_singleton, if_pos own,
    if_pos all]
  let u := (s.produce (some g) (.moveStarted back m.tag m.body.kind m.body.point)).setPoint i
    ((s.point i).energize (s.group g).rehearsal d s.time)
  refine Eq.trans (b := ((u.modGroup g fun r => { r with
      queue := { k with state := .starting, runList := [e] } :: rest
      schedule := [i].zipIdx.map fun x => (x.1, s.time + x.2 * (1000 * r.stagger))
      permit := some (s.time + 1000 * r.window), stopReason := none, baseline := baseline }).modGroup g fun r =>
    { r with schedule := [] }).modGroup g fun r => { r with
      queue := { k with state := .running, runList := [{ e with started := true, settled := false }] } :: rest }) rfl ?_
  rw [State.modGroup_modGroup, State.modGroup_modGroup]

/-- A GO whose move enters STARTING with one member, which may be energized at once. -/
theorem exec_go_single {s : State} {p : Port} {tail : FrameTail} {f : GoodFrame} {g : GroupIdx} {m k h : Move}
    {rest : List Move} {e : RunEntry} {i : PointIdx} {d : Dir} {baseline : Option (List (PointIdx × Nat))} {back : Bool}
    (delivered : s.delivers p tail .go f) (index : headerIndex f.header = g.val)
    (answer : goOwner p (s.afterFrame p) g f = ([i].foldl (fun t _ => t.startSlot g)
      ((s.afterFrame p).entered g back m k rest [e] [i] baseline), .ok))
    (released : s.estop = false) (member : (s.point i).group = g) (sound : (s.point i).latched = none)
    (closed : (s.point i).switches.closedToward d = true) (resting : (s.point i).channel.state.energized = false)
    (idle : (s.point i).channel.pending = none) (due : (s.point i).energizeDue d ≤ s.time)
    (fresh : (s.point i).load.state ≠ .stale) (own : e.point = i) (direction : k.direction.getD .up = d)
    (record : h = { k with state := .running, runList := [{ e with started := true, settled := false }] }) :
    ∃ t, exec (.go p tail) s = .next t ∧
      t.point i = (s.point i).energize (s.group g).rehearsal d s.time ∧
      (t.point i).channel =
        { (s.point i).channel with
          state := d.channelState, lastDir := some d, lastOn := s.time, pending := none, settleDue := none } ∧
      (∀ j, j ≠ i → t.point j = s.point j) ∧
      t.group g =
        { s.group g with
          queue := h :: rest, schedule := [], permit := some (s.time + 1000 * (s.group g).window), stopReason := none
          baseline := baseline } ∧
      (∀ k, k ≠ g → t.group k = s.group k) ∧ t.rights = s.rights ∧ t.estop = s.estop ∧
      ∀ q, t.port q = (((s.afterFrame p).produce (some g)
        (.moveStarted back m.tag m.body.kind m.body.point)).setResult p .ok).port q := by
  have point : ∀ j, (s.afterFrame p).point j = s.point j := State.point_afterFrame s p
  have slot := State.startSlot_single (s := s.afterFrame p) (g := g) (m := m) (rest := rest) (baseline := baseline) (back := back)
    ((State.resetAsserted_afterFrame s p).trans delivered.1.1) ((State.estop_afterFrame s p).trans released)
    (by rw [point]; exact member) (by rw [point]; exact sound) (by rw [point]; exact closed) (by rw [point]; exact resting)
    (by rw [point]; exact idle) (by rw [point, State.time_afterFrame]; exact due) (by rw [point]; exact fresh) own direction
  rw [← record, State.group_afterFrame, point, State.time_afterFrame] at slot
  have channel : ((s.point i).energize (s.group g).rehearsal d s.time).channel =
      { (s.point i).channel with
        state := d.channelState, lastDir := some d, lastOn := s.time, pending := none, settleDue := none } := by
    rw [Point.energize]
    split <;> rfl
  have result := exec_go delivered index
  rw [answer, List.foldl_cons, List.foldl_nil, slot, State.concluded] at result
  refine ⟨_, result, ?_, ?_, fun j other => ?_, ?_, fun k other => ?_, ?_, ?_, fun q => ?_⟩
  · rw [State.point_setResult, State.point_modGroup, State.point_setPoint_self]
  · rw [State.point_setResult, State.point_modGroup, State.point_setPoint_self, channel]
  · rw [State.point_setResult, State.point_modGroup, State.point_setPoint_ne _ other.symm, State.point_produce, point]
  · rw [State.group_setResult, State.group_modGroup_self, State.group_setPoint, State.group_produce,
      State.group_afterFrame]
  · rw [State.group_setResult, State.group_modGroup_ne _ other.symm, State.group_setPoint, State.group_produce,
      State.group_afterFrame]
  · exact State.rights_afterFrame s p
  · exact State.estop_afterFrame s p
  · rfl

/-- Settles O30: the slots by `exec_go_entered`, and the slot of one member by `exec_go_single`. -/
theorem goStartsOrResumesOneMember : Obligations.GoStartsOrResumesOneMember := by
  refine ⟨?_, ?_⟩
  · intro s p tail f g m rest i d e back delivered index holder released untripped queue mode member sound closed resting
      idle due fresh
    have group : (s.afterFrame p).group g = s.group g := State.group_afterFrame s p g
    have queue' : ((s.afterFrame p).group g).queue = m :: rest := by rw [group]; exact queue
    have holder' : ((s.afterFrame p).group g).holder = some p := by rw [group]; exact holder
    have untripped' : ((s.afterFrame p).group g).trip = none := by rw [group]; exact untripped
    have released' : (s.afterFrame p).estop = false := (State.estop_afterFrame s p).trans released
    rcases mode with ⟨rfl, queued, body, he⟩ | ⟨rfl, held, way, x, single, own, taking, he⟩
    · have involved : (s.afterFrame p).involved g m.body = [i] := by rw [body]; rfl
      have alone : (((s.afterFrame p).modGroup g fun r =>
          { r with
            queue := { m with runList := [(s.afterFrame p).newEntry m.body i], toDirection := none } :: rest }).shares g) =
              none := by
        refine (State.shares_eq (s := s) (k := { m with
          runList := [(s.afterFrame p).newEntry m.body i], toDirection := none }) (rest := rest) ?_ ?_ rfl).2 ?_
        · rw [State.group_modGroup_self]
        · exact fun j => by rw [State.point_modGroup, State.point_afterFrame]
        · rintro ⟨kind, -⟩
          rw [body] at kind
          exact Bool.false_ne_true kind
      have answer := State.goFirst_entered (s := s.afterFrame p) (l := [(s.afterFrame p).newEntry m.body i])
        (taking := [i]) queue' (fun needs => absurd (by rw [body]; rfl) needs)
        (fun j mem => by
          rw [involved, List.mem_singleton] at mem
          rw [mem, State.point_afterFrame]
          exact sound)
        (fun j v aim => nomatch body.symm.trans aim) (by rw [involved]; rfl)
        (fun x mem v target => by
          rw [List.mem_singleton.mp mem, body] at target
          exact nomatch target)
        rfl
      have direction : startDirection m.body [(s.afterFrame p).newEntry m.body i] = none := by rw [body]; rfl
      rw [direction, alone] at answer
      refine exec_go_single delivered index
        ((goOwner_of_queued holder' released' untripped' queue' queued).trans answer) released member sound closed resting
        idle due fresh rfl (by rw [Move.direction, body]; rfl) ?_
      have entry : e = { (s.afterFrame p).newEntry m.body i with started := true, settled := false } := by
        rw [he, State.newEntry_afterFrame, body]; rfl
      rw [entry]
      rfl
    · have group' : ((s.afterFrame p).group g).direction = d := by rw [group, way]
      have answer := State.goResume_entered (s := s.afterFrame p)
        (l := [{ x with
          progress := d.sign * (s.positionOf i - x.start), gated := x.gated && x.released, started := false }])
        (taking := [i]) queue'
        (fun y mem _ => by
          rw [single, List.mem_singleton] at mem
          rw [mem, own, State.point_afterFrame]
          exact sound)
        (by rw [single, List.map_singleton, group', own, State.positionOf_afterFrame])
        (by simp [taking, own])
      rw [group] at answer
      refine exec_go_single delivered index
        ((goOwner_of_held holder' released' untripped' queue' held).trans answer) released member sound closed resting
        idle due fresh own ?_ ?_
      · exact (Group.direction_of_queue queue).symm.trans way.symm
      · have ungated : (x.gated && x.released) = false := by rw [taking, Bool.and_false]
        rw [he, ungated]
        rfl
  · rintro s p tail f g m rest back l dir baseline taking u slots run delivered index holder released untripped queue mode
      members hu number start steps
    have group : (s.afterFrame p).group g = s.group g := State.group_afterFrame s p g
    have queue' : ((s.afterFrame p).group g).queue = m :: rest := by rw [group]; exact queue
    have time := State.time_afterFrame s p
    have owner : ∀ {x : State × Result}, (m.state = .queued → (s.afterFrame p).goFirst g m = x) →
        (m.state = .held → (s.afterFrame p).goResume g m = x) → (m.state = .queued ∨ m.state = .held) →
        goOwner p (s.afterFrame p) g f = x := fun first resumed state => by
      rcases state with state | state
      · rw [goOwner_of_queued (by rwa [group]) (by rwa [State.estop_afterFrame]) (by rwa [group]) queue' state, first state]
      · rw [goOwner_of_held (by rwa [group]) (by rwa [State.estop_afterFrame]) (by rwa [group]) queue' state, resumed state]
    rcases mode with ⟨rfl, queued, encoders, sound, aims, reach, hl, hdir, hb⟩ | ⟨rfl, held, sound, hl, hdir, hb⟩
    · have entries : l = ((s.afterFrame p).involved g m.body).map ((s.afterFrame p).newEntry m.body) := by
        rw [hl, State.involved_afterFrame]
        refine List.map_congr_left fun i _ => ?_
        rw [State.newEntry_afterFrame]
        unfold State.newEntry
        cases m.body <;> rfl
      have points : l.map (·.point) = s.involved g m.body := by
        rw [hl, List.map_map]; exact List.map_id _
      have direction : startDirection m.body l = dir := by
        rw [entries, State.startDirection_eq, hdir]
        · cases m.body with
          | pointTo i v =>
            change some (if (s.afterFrame p).positionOf i < v then Dir.up else .down) =
              some (if s.positionOf i < v then Dir.up else .down)
            rw [State.positionOf_afterFrame]
          | groupBy v | groupJog d | pointJog i d => rfl
        · exact fun i v body => by rw [State.positionOf_afterFrame]; exact (aims i v body).2
      have shares := State.shares_eq (s := s) (g := g) (k := { m with runList := l, toDirection := startDirection m.body l })
        (rest := rest) (t := (s.afterFrame p).modGroup g fun r =>
          { r with queue := { m with runList := l, toDirection := startDirection m.body l } :: rest })
        (by rw [State.group_modGroup_self]) (fun i => by rw [State.point_modGroup, State.point_afterFrame]) points
      have based : ((s.afterFrame p).modGroup g fun r =>
          { r with queue := { m with runList := l, toDirection := startDirection m.body l } :: rest }).shares g =
            baseline := by
        rw [hb]
        split
        next sharing => exact shares.1 sharing
        next unshared => exact shares.2 unshared
      have answer := State.goFirst_entered (s := s.afterFrame p) (l := l) (taking := taking) queue'
        (fun needs i mem => by rw [State.involved_afterFrame] at mem; rw [State.point_afterFrame]; exact encoders needs i mem)
        (fun i mem => by rw [State.involved_afterFrame] at mem; rw [State.point_afterFrame]; exact sound i mem)
        (fun i v body => by rw [State.referencedOf_afterFrame, State.positionOf_afterFrame]; exact aims i v body) entries
        (fun e mem v target => by rw [State.referencedOf_afterFrame, State.point_afterFrame]; exact reach e mem v target)
        members
      rw [based, direction] at answer
      refine exec_go_entered delivered index (owner (fun _ => answer) (fun state => ?_) (.inl queued)) ?_ number start steps
      · rw [queued] at state; exact nomatch state
      · rw [hu, State.entered, State.time_afterFrame]
    · have answer := State.goResume_entered (s := s.afterFrame p) (l := l) (taking := taking) queue'
        (fun e mem unreleased => by rw [State.point_afterFrame]; exact sound e mem unreleased)
        (by simp only [group, State.positionOf_afterFrame]; exact hl) members
      refine exec_go_entered delivered index (owner (fun state => ?_) (fun _ => answer) (.inr held)) ?_ number start steps
      · rw [held] at state; exact nomatch state
      · rw [hu, State.entered, State.time_afterFrame, hdir, hb, group]

end Sys2Proof.Machine
end

section
/-! The records that a stop adds to the report queues carry the time of its event (R176). -/

namespace Sys2Proof.Machine

/-- Every record of a report queue in t was there in s or carries the report time of s. -/
structure Stamped (s t : State) : Prop where
  time : t.time = s.time
  records : ∀ p, ∀ r ∈ (t.port p).queue, r ∈ (s.port p).queue ∨ r.time = s.reportTime

theorem Stamped.of_ports {s t : State} (time : t.time = s.time) (ports : t.ports = s.ports) : Stamped s t :=
  ⟨time, fun p r mem => .inl (by rwa [State.port, ports] at mem)⟩

theorem Stamped.refl (s : State) : Stamped s s := .of_ports rfl rfl

theorem Stamped.trans {s t u : State} (h : Stamped s t) (k : Stamped t u) : Stamped s u := by
  refine ⟨k.time.trans h.time, fun p r mem => ?_⟩
  rcases k.records p r mem with old | new
  · exact h.records p r old
  · exact .inr (new.trans (by rw [State.reportTime, h.time]; rfl))

theorem Stamped.foldl {α : Type} (f : State → α → State) (step : ∀ s a, Stamped s (f s a)) (l : List α) (s : State) :
    Stamped s (l.foldl f s) := by
  induction l generalizing s with
  | nil => exact .refl s
  | cons a l ih => exact (step s a).trans (ih (f s a))

section
variable (s : State) (g : GroupIdx) (i : PointIdx)

theorem PortState.mem_append (ps : PortState) {r x : Report} (mem : x ∈ (ps.append r).queue) :
    x ∈ ps.queue ∨ x.time = r.time := by
  unfold PortState.append at mem
  split at mem
  · rcases List.mem_append.mp mem with old | new
    · exact .inl old
    · rw [List.mem_singleton.mp new]; exact .inr rfl
  · exact .inl mem

theorem State.produce_stamped (h : Option GroupIdx) (b : ReportBody) (x : Bool) : Stamped s (s.produce h b x) := by
  refine ⟨rfl, fun p r mem => ?_⟩
  rw [State.produce, State.port_distribute, State.offer] at mem
  split at mem
  · exact PortState.mem_append _ mem
  · exact .inl mem

end

section
variable {s t : State} (st : Stamped s t)
include st

theorem Stamped.produce (h : Option GroupIdx) (b : ReportBody) (x : Bool) : Stamped s (t.produce h b x) :=
  st.trans (t.produce_stamped h b x)

theorem Stamped.setPoint (j : PointIdx) (p : Point) : Stamped s (t.setPoint j p) := st.trans (.of_ports rfl rfl)

theorem Stamped.modPoint (j : PointIdx) (f : Point → Point) : Stamped s (t.modPoint j f) := st.trans (.of_ports rfl rfl)

theorem Stamped.modGroup (h : GroupIdx) (f : Group → Group) : Stamped s (t.modGroup h f) :=
  st.trans (.of_ports rfl rfl)

end

section
variable (s : State) (g : GroupIdx) (i : PointIdx)

theorem State.latchFault_stamped (c : FaultCode) : Stamped s (s.latchFault i c) := by
  unfold State.latchFault
  exact ((Stamped.refl s).setPoint i _).produce _ _ _

theorem State.updateProgress_stamped : Stamped s (s.updateProgress i) := by
  unfold State.updateProgress
  dsimp only
  split
  · split <;> exact .of_ports rfl rfl
  · exact .refl s

theorem State.simulateCoast_stamped (raises : Bool) : Stamped s (s.simulateCoast i raises) := by
  unfold State.simulateCoast
  split
  · dsimp only
    have moved := fun f => ((Stamped.refl s).modPoint i f).trans (State.updateProgress_stamped _ i)
    split
    · exact (moved _).trans (State.latchFault_stamped _ i _)
    · exact moved _
  · exact .refl s

theorem State.hardRelease_stamped : Stamped s (s.hardRelease i) := by
  unfold State.hardRelease
  split
  · exact ((Stamped.refl s).modPoint i _).trans
      (State.simulateCoast_stamped (s.modPoint i fun p => p.toSettle s.time) i (s.coastRaises i))
  · exact .of_ports rfl rfl

theorem State.endHead_stamped (o : Outcome) (n : Option PointIdx) (l : List (PointIdx × Int)) :
    Stamped s (s.endHead g o n l) := by
  unfold State.endHead
  split
  · exact (State.produce_stamped s _ _ _).trans (.of_ports rfl rfl)
  · exact .refl s

theorem State.trip_stamped (c : TripCause) (p : Option PointIdx) : Stamped s (s.trip g c p) := by
  unfold State.trip
  split
  · exact .refl s
  · have released := Stamped.foldl State.hardRelease State.hardRelease_stamped (s.runPoints g) s
    refine Stamped.trans (t := State.reportTrip (State.modGroup (s.hardReleaseAll (s.runPoints g)) g fun r =>
      { r with schedule := [], trip := some ⟨c, p⟩ }) g c p) ((released.modGroup g _).produce _ _ _) ?_
    exact Stamped.foldl (fun t m => t.endHead g (tripOutcome m)) (fun t m => t.endHead_stamped g _ _ _) _ _

theorem State.release_stamped : Stamped s (s.release i) := by
  unfold State.release
  dsimp only
  split
  · refine (s.hardRelease_stamped i).trans ?_
    unfold State.tripMember
    dsimp only
    split
    · exact State.trip_stamped _ _ _ _
    · exact .refl _
  · exact s.hardRelease_stamped i

theorem State.endTest_stamped : Stamped s (s.endTest g) := by
  unfold State.endTest
  split
  · split
    · split
      · exact s.endHead_stamped g _ _ _
      · exact s.endHead_stamped g _ _ _
      · split
        · exact s.endHead_stamped g _ _ _
        split
        · exact s.endHead_stamped g _ _ _
        · exact ((Stamped.refl s).modGroup g _).produce _ _ _
    · exact .refl s
  · exact .refl s

theorem State.enterStopping_stamped (a : Option StopReason) (b : Option EndMark) : Stamped s (s.enterStopping g a b) := by
  have released := Stamped.foldl State.release State.release_stamped (s.runPoints g) s
  unfold State.enterStopping
  split
  · dsimp only
    split
    · exact (released.modGroup g fun r => r.toStopping a b).trans (State.endTest_stamped _ g)
    · exact released
  · exact .refl s

theorem State.dropHolder_stamped (c : AuthorityCause) : Stamped s (s.dropHolder g c) :=
  ((Stamped.refl s).modGroup g fun r => { r with holder := none }).produce _ _ _

end

end Sys2Proof.Machine
end

section
/-! PORT_RESTART: the released groups, their AUTHORITY reports and their stops (R100, R136, R137, R174). -/

namespace Sys2Proof.Machine

/-! ## The holders are dropped (R136, R137) -/

section
variable (s : State) (l : List GroupIdx)

/-- The holders of the listed groups dropped in turn by a restart (R136). -/
def State.drops (s : State) (l : List GroupIdx) : State := l.foldl (fun t g => t.dropHolder g .restart) s

theorem State.points_drops : (s.drops l).points = s.points := by
  induction l generalizing s with
  | nil => rfl
  | cons g l ih => exact (ih (s.dropHolder g .restart)).trans (State.points_dropHolder s g _)

theorem State.group_drops (h : GroupIdx) :
    (s.drops l).group h = if h ∈ l then { s.group h with holder := none } else s.group h := by
  induction l generalizing s with
  | nil => exact (if_neg List.not_mem_nil).symm
  | cons g l ih =>
    refine (ih (s.dropHolder g .restart)).trans ?_
    rw [State.group_dropHolder]
    by_cases same : h = g
    · subst same
      rw [if_pos rfl, if_pos List.mem_cons_self]
      split <;> rfl
    · simp only [if_neg same, List.mem_cons, or_iff_right same]

theorem State.rehearsing_drops (i : PointIdx) : (s.drops l).rehearsing i = s.rehearsing i := by
  induction l generalizing s with
  | nil => rfl
  | cons g l ih => exact (ih (s.dropHolder g .restart)).trans (s.rehearsing_dropHolder g _ i)

theorem State.runPoints_drops (h : GroupIdx) : (s.drops l).runPoints h = s.runPoints h := by
  rw [State.runPoints, State.group_drops]
  split <;> rfl

theorem State.estop_drops : (s.drops l).estop = s.estop := by
  induction l generalizing s with
  | nil => rfl
  | cons g l ih => exact ih (s.dropHolder g .restart)

theorem State.drops_cuts : Cuts s (s.drops l) := by
  induction l generalizing s with
  | nil => exact .refl s
  | cons g l ih => exact (s.dropHolder_cuts g .restart).trans (ih _)

theorem State.queuesLawful_drops (lawful : s.queuesLawful) : (s.drops l).queuesLawful := by
  refine State.queuesLawful_congr (fun h => ?_) (fun h => ?_) lawful
  all_goals
    rw [State.group_drops]
    split <;> rfl

theorem State.drops_stamped : Stamped s (s.drops l) :=
  Stamped.foldl (fun t g => t.dropHolder g .restart) (fun t g => t.dropHolder_stamped g .restart) l s

end

/-! ## The AUTHORITY reports of a restart -/

section
variable {s t x : State} {l : List GroupIdx} {p : Port}

/-- A report for each of the groups, in their order. -/
def State.produces (s : State) (body : GroupIdx → ReportBody) (l : List GroupIdx) : State :=
  l.foldl (fun u g => u.produce (some g) (body g)) s

theorem State.produces_congr {b c : GroupIdx → ReportBody} (same : ∀ g ∈ l, b g = c g) :
    s.produces b l = s.produces c l := by
  induction l generalizing s with
  | nil => rfl
  | cons g l ih =>
    have tail := ih (s := s.produce (some g) (c g)) fun h mem => same h (List.mem_cons_of_mem g mem)
    rw [State.produces, List.foldl_cons, same g List.mem_cons_self]
    exact tail

/-- Each AUTHORITY report carries the state of its group after a stop, in a state that differs from s in holders and
reports. -/
def State.stateAfterDrop (s : State) (g : GroupIdx) (state : GroupState) : Prop :=
  ∃ u : State, u.group g = { s.group g with holder := none } ∧ u.points = s.points ∧
    (∀ i, u.rehearsing i = s.rehearsing i) ∧ state = u.stateAfterRemoval g

theorem State.drops_reports (once : l.Nodup) (same : SameReports x s) :
    ∃ after : GroupIdx → GroupState, (∀ g ∈ l, s.stateAfterDrop g (after g)) ∧
      SameReports (x.produces (fun g => .authority .restart none (s.group g).holder (after g)) l) (s.drops l) := by
  induction l generalizing s x with
  | nil => exact ⟨fun _ => .idle, fun g mem => absurd mem List.not_mem_nil, same⟩
  | cons g l ih =>
    obtain ⟨apart, once'⟩ := List.nodup_cons.mp once
    have first : SameReports _ (s.dropHolder g .restart) :=
      (same.produce (some g) (.authority .restart none (s.group g).holder
        ((s.modGroup g fun r => { r with holder := none }).stateAfterRemoval g)) false).trans (s.dropHolder_reports g .restart)
    obtain ⟨after, later, reports⟩ := ih once' first
    have other : ∀ h ∈ l, h ≠ g := fun h mem same => apart (same ▸ mem)
    refine ⟨Function.update after g ((s.modGroup g fun r => { r with holder := none }).stateAfterRemoval g),
      fun h mem => ?_, ?_⟩
    · rcases List.mem_cons.mp mem with rfl | mem
      · rw [Function.update_self]
        exact ⟨s.modGroup h fun r => { r with holder := none }, State.group_modGroup_self .., rfl,
          s.rehearsing_dropHolder h .restart, rfl⟩
      · rw [Function.update_of_ne (other h mem)]
        obtain ⟨u, group, points, rehearsing, state⟩ := later h mem
        rw [State.group_dropHolder, if_neg (other h mem)] at group
        exact ⟨u, group, points, fun i => (rehearsing i).trans (s.rehearsing_dropHolder g _ i), state⟩
    · rw [State.produces, List.foldl_cons, Function.update_self, ← State.produces,
        State.produces_congr (c := fun h =>
          .authority .restart none ((s.dropHolder g .restart).group h).holder (after h)) fun h mem => ?_]
      · exact reports
      · rw [Function.update_of_ne (other h mem), State.group_dropHolder, if_neg (other h mem)]

/-! ## The state that an AUTHORITY report carries (R177) -/

variable {g : GroupIdx} {state : GroupState}

theorem State.stateAfterDrop.live (h : s.stateAfterDrop g state) (quiet : ∀ i ∈ s.runPoints g, s.rehearsing i = false)
    (group : t.group g = { s.group g with holder := none }) (rehearsing : ∀ i, t.rehearsing i = s.rehearsing i) :
    state = ((t.enterStopping g (some .authority) none).group g).state := by
  obtain ⟨u, group', -, rehearsing', rfl⟩ := h
  have points : ∀ v : State, v.group g = { s.group g with holder := none } → v.runPoints g = s.runPoints g := fun v same => by
    rw [State.runPoints, same]; rfl
  have same := State.enterStopping_group (some .authority) none (group'.trans group.symm)
    (fun i mem => (rehearsing' i).trans (quiet i (points u group' ▸ mem)))
    (fun i mem => (rehearsing i).trans (quiet i (points t group ▸ mem)))
  exact congrArg Group.state same.1

theorem State.stateAfterDrop.idle (h : s.stateAfterDrop g state)
    (parked : (s.group g).headIs MoveState.driving = false) : state = (s.group g).state := by
  obtain ⟨u, group, -, -, rfl⟩ := h
  rw [State.stateAfterRemoval, State.enterStopping_idle _ _ (by rw [group]; exact parked), group]
  rfl

theorem State.stateAfterDrop.driving (h : s.stateAfterDrop g state)
    (drives : (s.group g).headIs MoveState.driving = true) (untripped : (s.group g).trip = none)
    (settles : s.settlesLater g) : state = .stopping := by
  obtain ⟨u, group, -, rehearsing, rfl⟩ := h
  obtain ⟨m, rest, queue, moves⟩ := Group.queue_of_driving _ drives
  obtain ⟨unsettled, live⟩ := settles
  have settles' : u.settlesLater g := by
    refine ⟨by rw [group]; exact unsettled, fun i mem => (rehearsing i).trans (live i ?_)⟩
    rwa [State.runPoints, group] at mem
  obtain ⟨-, stops⟩ := State.enterStopping_later .authority settles'
  have stopped := stops m rest (by rw [group]; exact queue) moves settles'
  rw [State.stateAfterRemoval, stopped, Group.state_of_queue rfl (by rw [group]; exact untripped)]
  rfl

/-! ## The reports in the queues (R178, R179) -/

theorem State.produces_port {y : GroupIdx → Option Port} {after : GroupIdx → GroupState} (lost : (s.port p).lost = false)
    (room : (s.port p).queue.length + l.length ≤ 32) :
    (s.produces (fun g => .authority .restart none (y g) (after g)) l).port p =
      { s.port p with
        queue := (s.port p).queue ++ ((l.filter fun g => s.level p g != .none).map fun g =>
          { time := s.reportTime, group := some g, rehearsal := (s.group g).rehearsal, lostBefore := false
            additional := false, body := .authority .restart none (y g) (after g) }) } := by
  induction l generalizing s with
  | nil => rw [List.filter_nil, List.map_nil, List.append_nil]; rfl
  | cons g l ih =>
    rw [List.length_cons] at room
    have first := s.port_produce_authority p g .restart none (y g) (after g) lost (by omega)
    have later := ih (s := s.produce (some g) (.authority .restart none (y g) (after g))) (by rw [first]; exact lost) (by
      rw [first]
      dsimp only
      rw [List.length_append]
      split
      · rw [List.length_singleton]; omega
      · rw [List.length_nil]; omega)
    refine later.trans ?_
    rw [first]
    dsimp only
    rw [List.append_assoc, List.filter_cons]
    cases entitled : s.level p g != .none with
    | false => rfl
    | true => rfl

/-- Two states that port k cannot tell apart. -/
structure AlikeAt (k : Port) (s t : State) : Prop where
  port : t.port k = s.port k
  rights : t.rights = s.rights
  time : t.time = s.time
  groups : t.groups = s.groups

theorem AlikeAt.produces {k : Port} (h : AlikeAt k s t) (body : GroupIdx → ReportBody) (l : List GroupIdx) :
    (t.produces body l).port k = (s.produces body l).port k := by
  induction l generalizing s t with
  | nil => exact h.port
  | cons g l ih =>
    refine ih (s := s.produce (some g) (body g)) (t := t.produce (some g) (body g)) ⟨?_, h.rights, h.time, h.groups⟩
    simp only [State.produce, State.port_distribute, State.offer, State.entitled, State.allowed, State.level,
      State.reportTime, State.group, h.port, h.rights, h.time, h.groups]
    rfl

end

end Sys2Proof.Machine
end

section
/-! PORT_RESTART (R174, R136). -/

namespace Sys2Proof.Machine

section
variable (s : State) (l : List GroupIdx)

/-- The listed groups released by a restart: their holders dropped, and then their moves stopped (R136). -/
def State.released (s : State) (l : List GroupIdx) : State :=
  l.foldl (fun t g => t.enterStopping g (some .authority) none) (s.drops l)

theorem State.released_moved : Moved (s.drops l) (s.released l) :=
  Moved.foldl (fun t g => t.enterStopping g (some .authority) none) (fun t g => t.enterStopping_moved g _ _) l _

theorem State.released_nil : s.released [] = s := rfl

theorem State.released_stamped : Stamped s (s.released l) :=
  (s.drops_stamped l).trans (Stamped.foldl (fun t g => t.enterStopping g (some .authority) none)
    (fun t g => t.enterStopping_stamped g _ _) l _)

theorem State.holder_released (g : GroupIdx) :
    ((s.released l).group g).holder = if g ∈ l then none else (s.group g).holder := by
  rw [((s.released_moved l).groups g).holder, State.group_drops]
  split <;> rfl

theorem State.released_cuts (lawful : s.queuesLawful) :
    Cuts s (s.released l) ∧ ∀ g ∈ l, ((s.released l).group g).headIs MoveState.driving = false := by
  obtain ⟨cuts, idle⟩ := State.foldl_enterStopping_cuts (s.queuesLawful_drops l lawful) (some .authority) l
  exact ⟨(s.drops_cuts l).trans cuts, idle⟩

end

theorem State.rights_drops (s : State) (l : List GroupIdx) : (s.drops l).rights = s.rights := by
  induction l generalizing s with
  | nil => rfl
  | cons g l ih => exact ih (s.dropHolder g .restart)

/-- The AUTHORITY records of the listed groups of port p, in their order (R136, R177). -/
def State.restartRecords (s : State) (p : Port) (l : List GroupIdx) (body : GroupIdx → ReportBody) : List Report :=
  (l.filter fun g => s.level p g != .none).map fun g =>
    { time := s.reportTime, group := some g, rehearsal := (s.group g).rehearsal, lostBefore := false
      additional := false, body := body g }

section
variable {s : State} {l : List GroupIdx} {p : Port}

/-- The reports of the release: the AUTHORITY reports first, and those of the stops behind them (R136, R137). -/
theorem State.released_reports (once : l.Nodup) (few : l.length ≤ 32) (lost : (s.port p).lost = false)
    (empty : (s.port p).queue = []) (held : ∀ g ∈ l, (s.group g).holder = some p) :
    ∃ after : GroupIdx → GroupState, (∀ g ∈ l, s.stateAfterDrop g (after g)) ∧
      (s.drops l).ports = (s.produces (fun g => .authority .restart none (some p) (after g)) l).ports ∧
      (s.drops l).port p =
        { s.port p with queue := s.restartRecords p l fun g => .authority .restart none (some p) (after g) } := by
  obtain ⟨after, states, reports⟩ := State.drops_reports once (SameReports.refl s)
  have bodies : s.produces (fun g => .authority .restart none (s.group g).holder (after g)) l =
      s.produces (fun g => .authority .restart none (some p) (after g)) l :=
    State.produces_congr fun g mem => by rw [held g mem]
  rw [bodies] at reports
  have port : (s.drops l).port p =
      { s.port p with queue := s.restartRecords p l fun g => .authority .restart none (some p) (after g) } := by
    have queued := State.produces_port (y := fun _ => some p) (after := after) lost (by rw [empty]; simpa using few)
    rw [empty, List.nil_append] at queued
    rw [State.port, reports.ports]
    exact queued
  exact ⟨after, states, reports.ports, port⟩

end

/-- Settles O14: the reports by `State.released_reports`, the drive by `State.released_cuts`, and the stops that do not end
in the event by `State.foldl_stops`. -/
theorem portRestartReleasesItsGroups : Obligations.PortRestartReleasesItsGroups := by
  intro s p tail f delivered
  have result := exec_portRestart delivered
  have heldBy : ∀ g, g ∈ ((s.afterFrame p).modPort p fun ps => { ps with queue := [], lost := false }).heldBy p ↔
      (s.group g).holder = some p := fun g => by
    rw [State.heldBy, List.mem_filter, State.group_modPort, State.group_afterFrame, beq_iff_eq]
    exact and_iff_right (mem_allGroups g)
  have list : (allGroups.filter fun g => (s.group g).holder == some p) =
      ((s.afterFrame p).modPort p fun ps => { ps with queue := [], lost := false }).heldBy p := by
    simp only [State.heldBy, State.group_modPort, State.group_afterFrame]
  have once : (((s.afterFrame p).modPort p fun ps => { ps with queue := [], lost := false }).heldBy p).Nodup :=
    List.Nodup.filter _ (by decide)
  have few : (((s.afterFrame p).modPort p fun ps => { ps with queue := [], lost := false }).heldBy p).length ≤ 32 :=
    (List.length_filter_le _ _).trans (by decide)
  have outcome : State.concluded (portRestartOwner p (s.afterFrame p) () f) p =
      (((s.afterFrame p).modPort p fun ps => { ps with queue := [], lost := false }).released
        (((s.afterFrame p).modPort p fun ps => { ps with queue := [], lost := false }).heldBy p)).setResult p .ok := rfl
  rw [outcome] at result
  rw [list]
  have points : ((s.afterFrame p).modPort p fun ps => { ps with queue := [], lost := false }).points = s.points :=
    State.points_afterFrame s p
  have groups : ((s.afterFrame p).modPort p fun ps => { ps with queue := [], lost := false }).groups = s.groups :=
    State.groups_afterFrame s p
  have rights : ((s.afterFrame p).modPort p fun ps => { ps with queue := [], lost := false }).rights = s.rights :=
    State.rights_afterFrame s p
  have time : ((s.afterFrame p).modPort p fun ps => { ps with queue := [], lost := false }).time = s.time :=
    State.time_afterFrame s p
  have port : ((s.afterFrame p).modPort p fun ps => { ps with queue := [], lost := false }).port p =
      { (s.afterFrame p).port p with queue := [], lost := false } := State.port_modPort_self _ p _
  have alike : ∀ k, k ≠ p → AlikeAt k (s.afterFrame p)
      ((s.afterFrame p).modPort p fun ps => { ps with queue := [], lost := false }) := fun k ne =>
    ⟨State.port_modPort_ne _ ne.symm _, rfl, rfl, rfl⟩
  generalize (s.afterFrame p).modPort p (fun ps => { ps with queue := [], lost := false }) = u at *
  generalize u.heldBy p = l at *
  have group : ∀ g, u.group g = s.group g := fun g => by rw [State.group, groups]; rfl
  have rehearsing : ∀ i, u.rehearsing i = s.rehearsing i := fun i => by
    rw [State.rehearsing, State.groupOf, State.point, points, group]; rfl
  have stamp : u.reportTime = s.reportTime := by rw [State.reportTime, time]; rfl
  have runPoints : ∀ g, u.runPoints g = s.runPoints g := fun g => by rw [State.runPoints, group]; rfl
  have holds : ∀ g ∈ l, (u.group g).holder = some p := fun g mem => by rw [group]; exact (heldBy g).mp mem
  have moved := u.released_moved l
  obtain ⟨after, states, ports, queued⟩ := State.released_reports once few (by rw [port]) (by rw [port]) holds
  have kept := moved.ports p
  rw [queued, port, s.port_afterFrame_self_eq p] at kept
  have level : ∀ g, u.level p g = s.level p g := fun g => by rw [State.level, rights]; rfl
  have records : u.restartRecords p l = s.restartRecords p l := funext fun body => by
    simp only [State.restartRecords, level, stamp, group]
  rw [records] at queued kept
  have dropped : ∀ g ∈ l, (u.drops l).group g = { s.group g with holder := none } := fun g mem => by
    rw [State.group_drops, if_pos mem, group]
  refine ⟨_, result, fun g mem => ?_, fun g out => ?_, ?_, ?_, ?_, ?_, ?_, fun r mem => ?_, fun none => ?_, ?_,
    fun lawful g mem => ?_, fun lawful settles => ?_⟩
  · rw [State.group_setResult, State.holder_released, if_pos ((heldBy g).mpr mem)]
  · rw [State.group_setResult, State.holder_released, if_neg fun mem => out ((heldBy g).mp mem), group]
  · rw [State.rights_setResult, moved.rights, State.rights_drops, rights]
  · rw [State.port_setResult_self]
  · rw [State.port_setResult_self]; exact kept.crcOn
  · rw [State.port_setResult_self]; exact kept.seed
  · rw [State.port_setResult_self]; exact kept.attention
  · rw [State.port_setResult_self] at mem
    rcases (u.released_stamped l).records p r mem with old | new
    · rw [port] at old; exact absurd old List.not_mem_nil
    · exact new.trans stamp
  · have empty : l = [] := List.eq_nil_iff_forall_not_mem.mpr fun g mem => none g ((heldBy g).mp mem)
    rw [empty, State.released_nil, State.port_setResult_self, port]
    exact ⟨rfl, rfl, points, groups⟩
  · rintro held rfl
    obtain ⟨later, grown⟩ := kept.grown
    refine ⟨after, later, by rw [State.port_setResult_self]; exact grown, fun live g mem => ?_⟩
    have quiet : ∀ h ∈ held, ∀ i ∈ (u.drops held).runPoints h, (u.drops held).rehearsing i = false := fun h inList i run => by
      rw [State.runPoints_drops, runPoints] at run
      rw [State.rehearsing_drops, rehearsing]
      exact live h inList i run
    have same := (State.foldl_enterStopping_group (some .authority) held once (u.drops held) quiet).1 g mem
    rw [State.group_setResult, State.released, same]
    exact (states g mem).live (fun i run => (rehearsing i).trans (live g mem i (runPoints g ▸ run)))
      (by rw [dropped g mem, group]) (u.rehearsing_drops held)
  · obtain ⟨cuts, idle⟩ := u.released_cuts l
      (State.queuesLawful_congr (fun h => by rw [group]) (fun h => by rw [group]) lawful)
    exact ((Cuts.of_records points groups).trans (cuts.trans (.of_records rfl rfl))).parks (idle g ((heldBy g).mpr mem))
  · have settlesU : ∀ g, s.settlesLater g → u.settlesLater g := fun g => State.settlesLater_congr (group g) rehearsing
    have settlesDropped : ∀ g ∈ l, s.settlesLater g → (u.drops l).settlesLater g := fun g mem settles => by
      refine ⟨by rw [dropped g mem]; exact settles.1, fun i run => ?_⟩
      rw [State.rehearsing_drops, rehearsing]
      exact settles.2 i (by rwa [State.runPoints_drops, runPoints] at run)
    have due : ∀ g ∈ l, (s.group g).headIs MoveState.driving = true → s.settlesLater g := fun g mem =>
      settles g ((heldBy g).mp mem)
    obtain ⟨samePorts, others, stops, outside⟩ := State.foldl_stops (s := u.drops l) .authority l once fun g mem drives =>
      settlesDropped g mem (due g mem (by rwa [dropped g mem] at drives))
    have samePort : ∀ k, (u.released l).port k = (u.drops l).port k := fun k => by
      rw [State.port, State.released, samePorts]; rfl
    have state : ∀ g ∈ l, after g =
        if (s.group g).headIs MoveState.driving = true then .stopping else (s.group g).state := fun g mem => by
      by_cases drives : (s.group g).headIs MoveState.driving = true
      · rw [if_pos drives]
        exact (states g mem).driving (by rw [group]; exact drives) (by rw [group]; exact Group.trip_of_driving (lawful g) drives)
          (settlesU g (due g mem drives))
      · rw [if_neg drives, (states g mem).idle (by rw [group]; exact Bool.eq_false_iff.mpr drives), group]
    refine ⟨fun g holds => ⟨fun m rest queue drives settles => ?_, fun parked => ?_⟩, fun g out => ?_, fun i out => ?_,
      fun held body hheld hbody => ?_⟩
    · have mem := (heldBy g).mpr holds
      have stopped := (stops g mem).1 m rest (by rw [dropped g mem]; exact queue) drives (settlesDropped g mem settles)
      rw [dropped g mem] at stopped
      rw [State.group_setResult]
      exact stopped
    · have mem := (heldBy g).mpr holds
      rw [State.group_setResult, ← dropped g mem]
      exact (stops g mem).2 (by rw [dropped g mem]; exact parked)
    · have mem : g ∉ l := fun mem => out ((heldBy g).mp mem)
      rw [State.group_setResult, State.released, others g mem, State.group_drops, if_neg mem, group]
    · have same := outside i fun g mem drives => by
        rw [dropped g mem] at drives
        rw [State.runPoints_drops, runPoints]
        exact out g ((heldBy g).mp mem) drives
      rw [State.point_setResult, State.released, same, State.point, State.points_drops, points]
      rfl
    · subst hheld
      have bodies : ∀ g ∈ held, .authority .restart none (some p) (after g) = body g := fun g mem => by
        rw [hbody, state g mem]
      refine ⟨?_, ?_, fun k ne => ?_⟩
      · rw [State.port_setResult_self, samePort, queued, port]
      · rw [State.port_setResult_self, samePort, queued]
        refine List.map_congr_left fun g mem => ?_
        rw [← bodies g (List.mem_of_mem_filter mem)]
      · have unset : ((u.released held).setResult p .ok).port k = (u.released held).port k := State.port_modPort_ne _ ne.symm _
        rw [unset, samePort, State.port, ports, State.produces_congr bodies]
        exact (alike k ne).produces body held

end Sys2Proof.Machine
end
